-- ==== Sys2Proof/Word.lean ====
section
/-! DEFINITION. The word types (R3, 00_scope.md): byte 8, half 16, word 32, dword 64 bits. -/

namespace Sys2Proof

/-- A byte, 8 bits (R3). -/
abbrev Byte := BitVec 8
/-- A half, 16 bits (R3). -/
abbrev Half := BitVec 16
/-- A word, 32 bits (R3). -/
abbrev Word := BitVec 32
/-- A dword, 64 bits (R3). -/
abbrev Dword := BitVec 64
/-- The nine bits of STICKY and TRAPEN (Tables 5.5, 5.6). -/
abbrev FlagSet := BitVec 9
/-- A compute core by its global number (R6). -/
abbrev CoreId := Fin 48
/-- A core that issues instructions: 0 to 47 the compute cores, 48 SC0, 49 SC1 (R6, R18). -/
abbrev UnitId := Fin 50
/-- A virtual die vd0 to vd7. -/
abbrev Vd := Fin 8
/-- A fabric endpoint: 0 to 7 the virtual dies, 8 the hub H (Table 8.6). -/
abbrev Endpoint := Fin 9
/-- A stream slot, 0 to 47 (R23). -/
abbrev SlotId := Fin 48
/-- A device of the current mode, 0 to 7 (Table 1.8). -/
abbrev DevId := Fin 8
/-- A world tag, 0 to 15 (R284). -/
abbrev World := BitVec 4
/-- A context number, 0 to 63 (R312). -/
abbrev CtxId := Fin 64

end Sys2Proof
end

