-- ==== Sys2Proof/Config.lean ====
section
/-! DEFINITION. What the specification leaves open and the model leaves free: constants without a body, so that no
proof can see a value. Each is applied to State.freeCount, which the step that uses one advances (log 3). -/

namespace Sys2Proof.Config

/-- A byte of memory whose contents the specification calls undefined (R276), or that is read under another key than it
was stored under (R294). -/
opaque freeByte : Nat → Byte

/-- A dword whose value the specification does not state: the link of a CALL whose delay slot cannot be fetched (R337,
R221). -/
opaque freeDword : Nat → Dword

/-- Key material and random values (R294, R297): session keys, nonces, signatures. -/
opaque freeKey : Nat → BitVec 256

/-- Bytes of an SPDM response whose content the standard, not this specification, fixes (R297): signatures, digests,
exchange data. -/
opaque freeBytes : Nat → List Byte

/-- SHA-384 of a measured byte string (R297). -/
opaque sha384 : List Byte → List Byte

/-- The SHA-512 hash of the root key, fused in H (R295). -/
opaque rootKeyHash : List Byte

/-- Whether a signed byte string, an image or the manifest, verifies against a root key hash: ECDSA on P-521 over SHA-512 (R295). -/
opaque signed : List Byte → List Byte → Bool

/-- The fifth counter of measurement 6 (Table 13.5): the specification names the counters of four chiplets only (R296, log 87). -/
opaque fifthCounter : Byte

/-- The security version an image carries (R296); the specification does not lay the image out. -/
opaque imageVersion : List Byte → Nat

/-- Whether a manifest lists the set of versions of four images, hub, M-die, C-die and MC (R295). -/
opaque manifestAllows : List Byte → List (List Byte) → Bool

/-- The minimum version that a manifest names for chiplet number n (R296). -/
opaque manifestMin : List Byte → Nat → Nat

/-- The AES-256-XTS key of a generation (R294): the key store makes it, and it never leaves H. -/
opaque xtsKey : Nat → BitVec 512

/-- The device identity key, fused (R297). -/
opaque identityKey : List Byte

/-- The alias key that the identity key and the measured images derive (R297). -/
opaque aliasKey : List Byte → List (List Byte) → List Byte

/-- The certificate chain of an identity key and an alias key (R297). -/
opaque certificate : List Byte → List Byte → List Byte

/-- The answer to a challenge, signed with an alias key, for a nonce (R297). -/
opaque challengeAnswer : List Byte → List Byte → Nat → List Byte

/-- The MC's answer FAILED to the host (R282), which the specification gives no format. -/
opaque failedAnswer : List Byte

/-- What a peer-port message of a class holds (R197, R272, R290); the specification gives it no format. A piece of a slot's
checkpoint: slot, sequence, address, bytes and whether it is the last. -/
opaque peerPiece : List Byte → Option (Nat × Nat × Nat × List Byte × Bool)

/-- A peer-control message that a slot's mirrored images are invalid (R290): the slot. -/
opaque peerNotice : List Byte → Option Nat

/-- A peer-control message that carries a kick (R63, R197): the value for KICKSET. -/
opaque peerKick : List Byte → Option Dword

end Sys2Proof.Config
end

