-- ==== Sys2Proof/Machine/Bits.lean ====
section
/-! DEFINITION. Bit-field, sign-extension and byte-order helpers (R3): every multi-byte value is little-endian. -/

namespace Sys2Proof

/-- The bytes of a value, least significant first (R3). -/
def toBytes (n : Nat) (v : Nat) : List Byte :=
  match n with
  | 0 => []
  | k + 1 => BitVec.ofNat 8 v :: toBytes k (v / 256)

/-- The value of bytes, least significant first (R3). -/
def ofBytes : List Byte → Nat
  | [] => 0
  | b :: bs => b.toNat + 256 * ofBytes bs

/-- The low w bits of v as a signed integer. -/
def signedOf (w : Nat) (v : Nat) : Int :=
  let m := v % 2 ^ w
  if 2 * m < 2 ^ w then m else (m : Int) - 2 ^ w

/-- An integer reduced to w bits, as a natural number. -/
def wrapNat (w : Nat) (v : Int) : Nat := (v % (2 ^ w : Int)).toNat

/-- A dword with the given bits set: the fields of a register map joined by their low bit and value. -/
def packFields : List (Nat × Nat) → Nat
  | [] => 0
  | (lo, v) :: fs => v * 2 ^ lo + packFields fs

/-- Clamps an integer between two bounds. -/
def clampInt (lo hi v : Int) : Int := if v < lo then lo else if hi < v then hi else v

/-- A list with element k replaced; unchanged when it has none. -/
def setAt {α : Type} : List α → Nat → α → List α
  | [], _, _ => []
  | _ :: xs, 0, v => v :: xs
  | x :: xs, k + 1, v => x :: setAt xs k v

end Sys2Proof
end

