-- ==== Sys2Proof/Syntax.lean ====
section
/-! DEFINITION. The rows of spec/opcode_table.json, one constructor each: the instructions of the shared control
subset C32 and of the four engine-private maps (09_encoding.md), and the package's indivisible steps
(95_what_each_step_holds.md). Operand fields are pulled out of the words once, in Decode.lean. -/

namespace Sys2Proof

/-- The four engines of a core (R205 numbers them S = 0, V = 1, M = 2, C = 3). -/
inductive Eng where
  | S | V | M | C
  deriving DecidableEq, Repr

/-- Comparison conditions, COND of Table 9.4. -/
inductive Cond where
  | eq | ne | lt | le | gt | ge
  deriving DecidableEq, Repr

/-- Rounding modes (Table 5.1). -/
inductive Rnd where
  | rn | rz | ru | rd
  deriving DecidableEq, Repr

/-- Element types by their TYPE code (Table 9.12). -/
inductive Ty where
  | f32 | bf16 | f16 | e4m3 | e5m2 | i32 | i16 | i8 | i4 | i4x | n32 | n16 | n8
  deriving DecidableEq, Repr

/-- Bank-ALU operations, OP of layout SA (Table 9.13). -/
inductive AtOp where
  | add | and | or | xor | min | max | fadd | xchg | cas
  deriving DecidableEq, Repr

/-- Reduction operators, OP of layout VX (Table 9.13). -/
inductive RedOp where
  | add | min | max | and | or | xor
  deriving DecidableEq, Repr

/-- Group reduction operators, OP of Table 17.1. -/
inductive GredOp where
  | add | min | max | and | or | xor | fadd
  deriving DecidableEq, Repr

/-- MCFG items (Table 17.4). -/
inductive McfgItem where
  | ncol | arowbase | kbase | atrans | btrans | swz
  deriving DecidableEq, Repr

/-- Swizzle codes 0 to 2 (Table 6.5). -/
inductive Swz where
  | s0 | s1 | s2
  deriving DecidableEq, Repr

/-- A C32 register code as a source (Table 9.2). -/
inductive CSrc where
  | a (n : BitVec 4)
  | lc (n : BitVec 2)
  | zero
  | lit32 (w : Word)
  | lit64 (w : Dword)
  deriving DecidableEq, Repr

/-- A C32 register code as a destination (Table 9.2); as the data register of AST, `zero` is code 28. -/
inductive CDst where
  | a (n : BitVec 4)
  | lc (n : BitVec 2)
  | zero
  deriving DecidableEq, Repr

/-- A C32 register code from 0 to 19 (the target of RET, the destination of MFS). -/
inductive CReg where
  | a (n : BitVec 4)
  | lc (n : BitVec 2)
  deriving DecidableEq, Repr

/-- The fields of P64 word 0 outside OPC and MOD (Table 9.5). -/
structure Hdr where
  wait  : BitVec 3
  sig   : BitVec 3
  guard : BitVec 5
  neg   : Bool
  deriving DecidableEq, Repr

/-- An operand specifier (Table 9.7). -/
inductive Spec where
  | x (n : BitVec 5)
  | v (n : BitVec 6)
  | o (n : BitVec 3)
  | l (n : BitVec 2)
  | q (n : BitVec 3)
  | a (n : BitVec 4)
  | none
  | lit32 (w : Word)
  | lit64 (w : Dword)
  deriving DecidableEq, Repr

/-- The four specifier fields of P64-R (R208). -/
structure R4 where
  dst : Spec
  a : Spec
  b : Spec
  c : Spec
  deriving DecidableEq, Repr

/-- The fields of P64-M (Table 9.8). -/
structure MemOp where
  d : Spec
  base : Spec
  aux : Spec
  disp : BitVec 8
  deriving DecidableEq, Repr

/-- The specifier fields of P64-Q (Table 9.11). -/
structure Q3 where
  dst : Spec
  a : Spec
  b : Spec
  deriving DecidableEq, Repr

/-- The fields of P64-K (Table 9.10). -/
structure K3 where
  adr : Spec
  aux : Spec
  cwi : BitVec 16
  deriving DecidableEq, Repr

/-- A matrix operand of P64-X: a tile slot or a stream register (Table 9.9). -/
inductive TSrc where
  | slot (n : BitVec 7)
  | stream (n : BitVec 3)
  deriving DecidableEq, Repr

/-- Modifier IA (Table 9.13); w32 is W = 1. -/
structure ModIA where
  w32 : Bool
  u : Bool
  sat : Bool
  deriving DecidableEq, Repr

/-- Modifier IC. -/
structure ModIC where
  w32 : Bool
  u : Bool
  cond : Cond
  deriving DecidableEq, Repr

/-- Modifier IS. -/
structure ModIS where
  w32 : Bool
  psel : BitVec 5
  deriving DecidableEq, Repr

/-- Modifier SM. -/
structure ModSM where
  region : BitVec 3
  size : BitVec 2
  sx : Bool
  deriving DecidableEq, Repr

/-- Modifier SA. -/
structure ModSA where
  region : BitVec 3
  op : AtOp
  w64 : Bool
  u : Bool
  deriving DecidableEq, Repr

/-- Modifier VA. -/
structure ModVA where
  ty : Ty
  rnd : Rnd
  sat : Bool
  obc : Bool
  slotB : Bool
  deriving DecidableEq, Repr

/-- Modifier VC. -/
structure ModVC where
  ty : Ty
  cond : Cond
  obc : Bool
  slotB : Bool
  deriving DecidableEq, Repr

/-- Modifier VF: VA with TYPE, SAT and SLOT zero. -/
structure ModVF where
  rnd : Rnd
  obc : Bool
  deriving DecidableEq, Repr

/-- Modifier VV. -/
structure ModVV where
  tty : Ty
  sty : Ty
  rnd : Rnd
  deriving DecidableEq, Repr

/-- Modifier VX. -/
structure ModVX where
  ty : Ty
  rnd : Rnd
  op : RedOp
  obc : Bool
  deriving DecidableEq, Repr

/-- Modifier VP. -/
structure ModVP where
  ty : Ty
  cond : Cond
  way4 : Bool
  deriving DecidableEq, Repr

/-- Modifier VM. -/
structure ModVM where
  region : BitVec 3
  ty : Ty
  rnd : Rnd
  sat : Bool
  deriving DecidableEq, Repr

/-- Modifier VQ. -/
structure ModVQ where
  region : BitVec 3
  wc : BitVec 2
  rnd : Rnd
  sat : Bool
  deriving DecidableEq, Repr

/-- Modifier CP. -/
structure ModCP where
  queue : BitVec 2
  vae : Bool
  wc : BitVec 2
  deriving DecidableEq, Repr

/-- Modifier CX. -/
structure ModCX where
  queue : BitVec 2
  ch : BitVec 3
  dir : Bool
  deriving DecidableEq, Repr

/-- SEL of GRED (Table 17.1). -/
structure SelG where
  op : GredOp
  w32 : Bool
  u : Bool
  gslot : BitVec 2
  deriving DecidableEq, Repr

/-- The host function that issues a mailbox command: physical function d or the virtual function of TDI w (R310). -/
inductive HostFn where
  | pf (d : DevId)
  | vf (w : World)
  deriving DecidableEq, Repr

/-- How a command reached the package: through its function's mailbox, there over the IDE stream of its TDI (R284), or through the
MC's side-band (R283, R309). -/
inductive HostPath where
  | plain | ide | mctp
  deriving DecidableEq, Repr

/-- The fields every mailbox command has (R311, R313): issuing function, doorbell tag, CTX, the offset of the first byte that
must be zero and is not, if there is one, and the command's way. -/
structure MbHdr where
  fn : HostFn
  tag : Half
  ctx : Word
  stray : Option (Fin 64)
  path : HostPath := .plain
  deriving DecidableEq, Repr

/-- Who makes a host access to a sensor region (R317): the requester, and the TDI whose IDE stream delivered it (R284). -/
structure Requester where
  id : Nat
  tdi : Option World
  deriving DecidableEq, Repr

/-- Where a KICKSET write comes from (R63, R310). -/
inductive KickSrc where
  | host (fn : HostFn)
  | peer
  | sched (sc1 : Bool)
  deriving DecidableEq, Repr

/-- A facet as it arrives (Table 8.6): the header fields and the payload, with the CRC field as received. -/
structure Facet where
  route : Half
  msgid : Half
  seq : Word
  index : Byte
  km : Byte
  len : Half
  crc : Word
  payload : List Byte
  deriving DecidableEq, Repr

/-- The measured fields of a machine-check record (Table 11.15) that the hardware fills in; of the vertical syndrome the record
holds bits [55:0] and the MC's log all 72 (R262). -/
structure McInfo where
  kind : Byte
  bank : Half
  row : BitVec 20
  word : BitVec 12
  hsyn : Byte
  vsyn : BitVec 72
  va : Dword
  deriving DecidableEq, Repr

/-- A UCIe module (R11): `ring p` joins position p and the next one clockwise, `hub p` joins position p and H; or a peer
port (R196). -/
inductive Module where
  | ring (p : Fin 10)
  | hub (p : Fin 10)
  | peer (port : Bool)
  deriving DecidableEq, Repr

/-- A module of a path: the hop-th one, from 0, of path `path` between two endpoints (R172, R174). -/
structure PathPart where
  path : Fin 3
  hop : Nat
  deriving DecidableEq, Repr

/-- A facet and the module it came over (R181, R182). -/
structure FacetIn where
  facet : Facet
  way : Module
  deriving DecidableEq, Repr

/-- What the MC samples beside the power: die temperatures in °C, and voltage in mV and current in mA of the rails (R318). -/
structure Sensed where
  temps : List Nat
  rails : List (Nat × Nat)
  deriving DecidableEq, Repr

/-- Who asks for a translation (R147): a die, for one of its cores or for a unit of its own. -/
structure TlbUser where
  vd : Vd
  core : Option (Fin 6)
  deriving DecidableEq, Repr

/-- A write to a slot's END register (R317): the length, and who made it. -/
structure SensorEnding where
  length : Dword
  requester : Requester
  deriving DecidableEq, Repr

/-- An SRAM array (R260): a scratchpad, the die-shared SRAM of a die, a vector file, or operand memory. Operand memory is an M-core's
own, or that of a C-die, which the die's local core 0 names (Table 1.3). -/
inductive SramArray where
  | scratch (c : CoreId)
  | pane (vd : Vd)
  | vector (c : CoreId)
  | operand (c : CoreId)
  deriving DecidableEq, Repr

/-- Why a die-health event is raised (Table 12.1, R174, R183, R252, R253, R262, R264). -/
inductive HealthCause where
  | sharedSram (i : McInfo)  -- machine check in die-shared SRAM
  | channelFault    -- uncorrectable channel fault
  | coreUmbra       -- a core of the die entered umbra
  | pathDown        -- a path went down
  | messageLost     -- a fabric message was declared lost
  deriving DecidableEq, Repr

/-- A time source of the precision time unit (R316). -/
inductive TimeSource where
  | freeRunning | ieee1588 | ptm
  deriving DecidableEq, Repr

/-- A chiplet whose firmware is staged or activated (Table 15.5). -/
inductive Chiplet where
  | hub | mDie | cDie | mc
  deriving DecidableEq, Repr

/-- What the MC reads and finds at boot (Table 15.4): the dark fuses, the calibrated operating point, the writes of REPAIR in the boot
march test in order (R264), the eight result dwords of its end (R445), how many fuses it blows before its power fails, if it does (R296),
and the manifest in its flash, where that is another
than before: no command of the specification writes it (log 88). -/
structure BootInput where
  dark : BitVec 10
  cal : Byte
  repairs : List (CoreId × Dword) := []
  results : List Dword := []
  blows : Option Nat := none
  manifest : Option (List Byte) := none
  deriving DecidableEq, Repr

/-- An SPDM requester: a function of the host port over DOE, or the side-band (R297). -/
inductive SpdmPort where
  | doe (fn : HostFn)
  | mctp
  deriving DecidableEq, Repr

/-- A register named by debug op 2 (Table 15.5). -/
inductive DbgReg where
  | special (n : BitVec 10)
  | c32 (r : CReg)
  | pred (n : BitVec 5)
  | x (n : BitVec 5)
  deriving DecidableEq, Repr

/-- What a REGISTER_WRITE row writes: a special register of an engine, or an MD register of the hub window. -/
inductive RegTarget where
  | special (u : UnitId) (e : Eng) (n : BitVec 10)
  | md (sc1 : Bool) (off : BitVec 20) (bytes : BitVec 8)
  deriving DecidableEq, Repr

/-- One constructor per row of spec/opcode_table.json, in the table's order, the rows without operands last. -/
inductive Instr where
  | packageReset (inp : BootInput)
  | mcSample (milliwatts : Nat) (sensed : Sensed)
  | dispatchArrival (core : CoreId)
  | resourceReport (vd : Vd)
  | completionReport (core : CoreId)
  | jobComplete (core : CoreId)
  | preemptRequest (core : CoreId)
  | preemptStop (core : CoreId)
  | preemptTimeout (core : CoreId)
  | contextSave (core : CoreId)
  | saveWatchdogExpiry (core : CoreId)
  | contextRestore (core : CoreId)
  | leaseGrant (vd : Vd)
  | kicksetWrite (src : KickSrc) (value : Dword)
  | kickpendWrite (sc1 : Bool) (value : Dword)
  | drainreqWrite (sc1 : Bool) (value : Dword)
  | hqctlRelease (sc1 : Bool) (value : Dword)
  | scgoWrite (sc1 : Bool) (value : Dword)
  | schedMachineCheck (sc1 : Bool) (info : McInfo)
  | resultLand (u : UnitId) (e : Eng)
  | tokenPopResume (core : CoreId) (e : Eng)
  | glintReplay (u : UnitId) (e : Eng) (fires : Nat)
  | machineCheck (core : CoreId) (info : McInfo)
  | failedRecordTimer (core : CoreId)
  | arrayRebuild (a : SramArray) (offset : BitVec 25)
  | patrolScrub (a : SramArray) (bank : BitVec 5)
  | repairWrite (core : CoreId) (value : Dword)
  | arrtestWrite (core : CoreId) (value : Dword)
  | dieHeartbeat (vd : Vd)
  | dieHeartbeatTimeout (vd : Vd)
  | dieRailFault (vd : Vd)
  | dieHealthEvent (vd : Vd) (why : HealthCause)
  | reconfiguration (dev : DevId)
  | reconfigRestore (dev : DevId)
  | rotationVisit (vd : Vd)
  | rotationSkip (vd : Vd)
  | selftestEnd (vd : Vd) (passed : Bool)
  | ckptReqWrite (core : CoreId) (value : Dword)
  | checkpointWrite (slot : SlotId)
  | checkpointMirrorAck (slot : SlotId)
  | peerQueryAnswer (alive : Bool)
  | facetArrival (dst : Endpoint) (facet : FacetIn)
  | decodeTimeout (dst : Endpoint) (src : Endpoint) (cls : BitVec 3) (seq : Word)
  | flowAckSend (dst : Endpoint) (src : Endpoint)
  | flowAck (src : Endpoint) (dst : Endpoint) (cls : BitVec 3) (upto : Word)
  | lossNotice (src : Endpoint) (dst : Endpoint) (cls : BitVec 3) (seq : Word)
  | sourceAckTimeout (src : Endpoint) (dst : Endpoint) (cls : BitVec 3) (seq : Word)
  | pathDown (a : Endpoint) (b : Endpoint) (part : PathPart)
  | pathUp (a : Endpoint) (b : Endpoint) (path : Fin 3)
  | laneDegrade (hub : Bool) (position : Fin 10)
  | permitArrival (ctx : CtxId) (entry : Fin 64)
  | msgAppendArrival (core : CoreId) (k : BitVec 2)
  | spillMoveIn (core : CoreId) (k : BitVec 2)
  | msgCreditReport (core : CoreId) (k : BitVec 2)
  | groupEpisodeComplete (ctx : CtxId) (entry : Byte)
  | phaseDoneAdvance (vd : Vd) (slot : SlotId)
  | translationWalk (user : TlbUser) (ctx : CtxId) (va : Dword)
  | debugStopEdge (core : CoreId)
  | recordWindow (core : CoreId) (e : Eng)
  | replayWindowCheck (core : CoreId) (e : Eng)
  | sensorWrite (slot : SlotId) (offset : BitVec 24) (bytes : List Byte) (requester : Requester)
  | sensorEnd (slot : SlotId) (ending : SensorEnding)
  | sensorRecord (slot : SlotId)
  | timeCorrection (offset : Int)
  | lockInterfaceRequest (w : World)
  | startInterfaceRequest (w : World)
  | stopInterfaceRequest (w : World)
  | flr (w : World)
  | ideIntegrityFailure (w : World)
  | worldReset (w : World)
  | getVersion (port : SpdmPort)
  | getCapabilities (port : SpdmPort)
  | negotiateAlgorithms (port : SpdmPort)
  | getDigests (port : SpdmPort)
  | getCertificate (port : SpdmPort)
  | challenge (port : SpdmPort) (nonce : List Byte)
  | getMeasurements (port : SpdmPort) (index : Byte)
  | keyExchange (port : SpdmPort) (session : Word)
  | finish (port : SpdmPort) (session : Word)
  | keyUpdate (port : SpdmPort) (session : Word)
  | endSession (port : SpdmPort) (session : Word)
  | resync (h : MbHdr) (buffer : Dword)
  | ackErrorRecords (h : MbHdr) (n : Word)
  | modeSet (h : MbHdr) (mode : Byte)
  | setLeaseParams (h : MbHdr) (count : Half) (limit : Half)
  | setFabrate (h : MbHdr) (rate : Half)
  | testMode (h : MbHdr) (on : Byte)
  | createTdi (h : MbHdr) (w : Byte) (d : Byte)
  | destroyTdi (h : MbHdr) (w : Byte)
  | createContext (h : MbHdr) (block : Dword)
  | destroyContext (h : MbHdr)
  | invalidateTranslations (h : MbHdr) (all : Byte) (base : Dword) (length : Dword)
  | setSlotCtl (h : MbHdr) (slot : Byte) (value : Dword)
  | setSlotDeadline (h : MbHdr) (slot : Byte) (value : Dword)
  | setSlotLevelTable (h : MbHdr) (slot : Byte) (value : Dword)
  | setSubmissionRing (h : MbHdr) (slot : Byte) (addr : Dword) (n : Byte)
  | setCompletionRing (h : MbHdr) (slot : Byte) (addr : Dword) (n : Byte)
  | setSensorRegion (h : MbHdr) (slot : Byte) (addr : Dword) (size : Dword)
  | setSensorRecordRing (h : MbHdr) (slot : Byte) (addr : Dword) (n : Byte)
  | setSlotContext (h : MbHdr) (slot : Byte) (value : Word)
  | raiseLevel (h : MbHdr) (slot : Byte)
  | releaseDie (h : MbHdr) (vd : Byte)
  | rotationPeriod (h : MbHdr) (seconds : Word)
  | peerLostToUp (h : MbHdr)
  | writeOwnership (h : MbHdr) (first : Word) (count : Word) (entry : Byte)
  | installWeightKey (h : MbHdr) (fromSession : Byte) (session : Word) (key : BitVec 256)
  | debugStop (h : MbHdr) (core : Byte) (at_ : Byte) (cycle : Dword)
  | debugImageRead (h : MbHdr) (core : Byte) (buffer : Dword)
  | debugRegisterWrite (h : MbHdr) (core : Byte) (e : Byte) (reg : Half) (value : Dword)
  | debugResume (h : MbHdr) (core : Byte) (e : Byte) (steps : Dword)
  | debugDump (h : MbHdr) (core : Byte) (buffer : Dword)
  | debugImageWrite (h : MbHdr) (core : Byte) (buffer : Dword)
  | selectTimeSource (h : MbHdr) (source : Byte)
  | stageFirmware (h : MbHdr) (chiplet : Byte) (image : Dword) (length : Word)
  | activateFirmware (h : MbHdr) (chiplet : Byte)
  | clearFabricCounters (h : MbHdr)
  | packageResetCommand (h : MbHdr) (inp : BootInput)
  | mqcfgWrite (core : CoreId) (k : BitVec 2) (value : Dword)
  | mqptrHeadWrite (core : CoreId) (k : BitVec 2) (value : Dword)
  | stickyWrite (u : UnitId) (e : Eng) (value : Dword)
  | tstatAbandon (u : UnitId) (e : Eng)
  | trcctlWrite (core : CoreId) (value : Dword)
  | registerWrite (target : RegTarget) (value : Dword)
  -- the shared control subset C32 (Table 9.3)
  | amov (d : CDst) (s : CSrc) (imm : BitVec 15)
  | aadd (d : CDst) (s t : CSrc) (imm : BitVec 10)
  | asub (d : CDst) (s t : CSrc) (imm : BitVec 10)
  | aand (d : CDst) (s t : CSrc) (imm : BitVec 10)
  | ashl (d : CDst) (s t : CSrc) (imm : BitVec 10)
  | acmp (p : BitVec 5) (s t : CSrc) (cond : Cond) (u : Bool)
  | ald (d : CDst) (s : CSrc) (off : BitVec 15)
  | ast (d : CDst) (s : CSrc) (off : BitVec 15)
  | b (s : CSrc) (off : BitVec 15)
  | bc (p : BitVec 5) (s : CSrc) (off : BitVec 15)
  | bcNot (p : BitVec 5) (s : CSrc) (off : BitVec 15)
  | call (d : BitVec 4) (s : CSrc) (off : BitVec 15)
  | ret (s : CReg)
  | loop (lc : BitVec 2) (s : CSrc) (rot : Bool) (stg : BitVec 4) (end_ : BitVec 10)
  | pset (p : BitVec 5) (value : Bool)
  | plog (p s t : BitVec 5) (fn : BitVec 4)
  | mfs (d : CReg) (sr : BitVec 10)
  | mts (s : CSrc) (sr : BitVec 10)
  | tsig (mask : BitVec 3)
  | twait (mask : BitVec 3)
  | fence (scope : BitVec 3) (q : BitVec 4)
  | trap (code : Byte)
  | bkpt (code : Byte)
  -- the S map (Table 9.14)
  | iadd (h : Hdr) (m : ModIA) (o : R4)
  | isub (h : Hdr) (m : ModIA) (o : R4)
  | imul (h : Hdr) (m : ModIA) (o : R4)
  | idiv (h : Hdr) (m : ModIA) (o : R4)
  | irem (h : Hdr) (m : ModIA) (o : R4)
  | iand (h : Hdr) (m : ModIA) (o : R4)
  | ior (h : Hdr) (m : ModIA) (o : R4)
  | ixor (h : Hdr) (m : ModIA) (o : R4)
  | ishl (h : Hdr) (m : ModIA) (o : R4)
  | ishr (h : Hdr) (m : ModIA) (o : R4)
  | imin (h : Hdr) (m : ModIA) (o : R4)
  | imax (h : Hdr) (m : ModIA) (o : R4)
  | iclz (h : Hdr) (m : ModIA) (o : R4)
  | ipopc (h : Hdr) (m : ModIA) (o : R4)
  | isel (h : Hdr) (m : ModIS) (o : R4)
  | icmp (h : Hdr) (m : ModIC) (p : BitVec 5) (a b c : Spec)
  | ld (h : Hdr) (m : ModSM) (o : MemOp)
  | st (h : Hdr) (m : ModSM) (o : MemOp)
  | at_ (h : Hdr) (m : ModSA) (o : R4)
  | msend (h : Hdr) (o : Q3) (k : BitVec 2)
  | mrecv (h : Hdr) (o : Q3) (k : BitVec 2)
  | nsub (h : Hdr) (o : Q3)
  | phadv (h : Hdr) (o : Q3)
  | phwait (h : Hdr) (o : Q3)
  | gbar (h : Hdr) (o : Q3) (gslot : BitVec 2)
  | gred (h : Hdr) (o : Q3) (sel : SelG)
  | gtime (h : Hdr) (o : Q3)
  | drain (h : Hdr) (o : Q3)
  -- the V map (Table 9.15)
  | vadd (h : Hdr) (m : ModVA) (o : R4)
  | vsub (h : Hdr) (m : ModVA) (o : R4)
  | vmul (h : Hdr) (m : ModVA) (o : R4)
  | vfma (h : Hdr) (m : ModVA) (o : R4)
  | vmin (h : Hdr) (m : ModVA) (o : R4)
  | vmax (h : Hdr) (m : ModVA) (o : R4)
  | vabs (h : Hdr) (m : ModVA) (o : R4)
  | vneg (h : Hdr) (m : ModVA) (o : R4)
  | vclamp (h : Hdr) (m : ModVA) (o : R4)
  | vand (h : Hdr) (m : ModVA) (o : R4)
  | vor (h : Hdr) (m : ModVA) (o : R4)
  | vxor (h : Hdr) (m : ModVA) (o : R4)
  | vshl (h : Hdr) (m : ModVA) (o : R4)
  | vshr (h : Hdr) (m : ModVA) (o : R4)
  | vsel (h : Hdr) (m : ModVA) (o : R4)
  | vcmp (h : Hdr) (m : ModVC) (o : R4)
  | vmovs (h : Hdr) (m : ModVA) (o : R4)
  | vcvt (h : Hdr) (m : ModVV) (o : R4)
  | vcvtSat (h : Hdr) (m : ModVV) (o : R4)
  | vexp (h : Hdr) (m : ModVF) (o : R4)
  | vlog (h : Hdr) (m : ModVF) (o : R4)
  | vrcp (h : Hdr) (m : ModVF) (o : R4)
  | vrsq (h : Hdr) (m : ModVF) (o : R4)
  | vrotr (h : Hdr) (m : ModVX) (o : R4)
  | vrotc (h : Hdr) (m : ModVX) (o : R4)
  | vbcr (h : Hdr) (m : ModVX) (o : R4)
  | vbcc (h : Hdr) (m : ModVX) (o : R4)
  | vredr (h : Hdr) (m : ModVX) (o : R4)
  | vredc (h : Hdr) (m : ModVX) (o : R4)
  | vscanr (h : Hdr) (m : ModVX) (o : R4)
  | vtrn (h : Hdr) (m : ModVX) (o : R4)
  | vext (h : Hdr) (m : ModVX) (o : R4)
  | part (h : Hdr) (m : ModVP) (o : R4)
  | vld (h : Hdr) (m : ModVM) (o : MemOp)
  | vst (h : Hdr) (m : ModVM) (o : MemOp)
  | vldp (h : Hdr) (m : ModVQ) (o : MemOp)
  | vstp (h : Hdr) (m : ModVQ) (d base aux : Spec) (ben : Bool) (bidx : BitVec 6) (scale fmt : Byte)
  | vgath (h : Hdr) (m : ModVM) (o : MemOp)
  | vscat (h : Hdr) (m : ModVM) (o : MemOp)
  | vlend (h : Hdr) (ret : Bool) (bank : BitVec 2)
  -- the M map (Table 9.16)
  | alease (h : Hdr)
  | arel (h : Hdr)
  | tsclaim (h : Hdr) (n : BitVec 7)
  | tsrel (h : Hdr) (n : BitVec 7)
  | mcfg (h : Hdr) (item : McfgItem) (value : Spec)
  | mbegin (h : Hdr) (iacc : Bool) (acc : BitVec 6) (rows : BitVec 2)
  | mloadb (h : Hdr) (src : TSrc)
  | mma (h : Hdr) (acc : BitVec 6) (src : TSrc) (rows : BitVec 2) (kch : BitVec 6)
  | mret (h : Hdr) (acc : BitVec 6)
  | mretRetire (core : CoreId)
  -- the C map (Table 9.17)
  | cpy (h : Hdr) (queue : BitVec 2) (o : K3)
  | cpyp (h : Hdr) (m : ModCP) (o : K3)
  | cpyr (h : Hdr) (queue : BitVec 2) (o : K3)
  | cdec (h : Hdr) (queue : BitVec 2) (vonly : Bool) (o : K3)
  | cenc (h : Hdr) (queue : BitVec 2) (o : K3)
  | sbind (h : Hdr) (queue : BitVec 2) (o : K3)
  | sunbind (h : Hdr) (queue : BitVec 2) (o : K3)
  | tsfill (h : Hdr) (queue : BitVec 2) (swz : Swz) (o : K3)
  | cbw (h : Hdr) (queue : BitVec 2) (o : K3)
  | xsend (h : Hdr) (m : ModCX) (o : K3)
  | xrecv (h : Hdr) (m : ModCX) (o : K3)
  | xfree (h : Hdr) (m : ModCX) (o : K3)
  | quotaStall (core : CoreId)
  | cCommandPerformed (core : CoreId) (queue : BitVec 2)
  | mCommandPerformed (core : CoreId)
  | streamRowTransfer (core : CoreId) (q : BitVec 3)
  | badCode (h : MbHdr) (code : Byte)
  | peerPortDown (port : Bool)
  | peerPortUp (port : Bool)
  -- rows without operands (kept last: the runtime bounds the tag of a constructor with fields)
  | pick
  | schedTakingOver
  | hubReset
  | peerHeartbeatSend
  | peerHeartbeat
  | peerHeartbeatMiss
  | peerQueryTimeout
  | packageFailure
  | nop
  | tfence
  | rend
  | eret
  | peerMcQuery
  deriving DecidableEq, Repr

end Sys2Proof
end

