-- ==== Sys2Proof/WellFormed.lean ====
section
/-! DEFINITION. When an instruction's fields are legal where it is fetched (R200-R221 and the operand rules of each
reference entry). A decoded word whose fields break a check raises ILLEGAL_INSTRUCTION (R220, step 2). -/

namespace Sys2Proof

/-- Where an instruction is fetched: the engine, whether it is a scheduler core (R219), and whether the core is a
C-core, which fixes the array edge and the number of tile slots (Table 1.3). -/
structure DecEnv where
  eng : Eng
  sched : Bool
  cCore : Bool
  deriving DecidableEq, Repr

namespace Spec

/-- A scalar source of S, M and C: x, a or a literal (R358, R360, R353). -/
def isScalarSrc : Spec → Bool
  | .x _ | .a _ | .lit32 _ | .lit64 _ => true
  | _ => false

/-- A scalar destination: x, a or none. -/
def isScalarDst : Spec → Bool
  | .x _ | .a _ | .none => true
  | _ => false

/-- A source field of a V instruction (Table 19.1). -/
def isVSrc : Spec → Bool
  | .v _ | .o _ | .l _ | .q _ | .a _ | .lit32 _ => true
  | _ => false

/-- A destination field of a V instruction (Table 19.1). -/
def isVDst : Spec → Bool
  | .v _ | .o _ | .q _ | .none => true
  | _ => false

/-- A scalar field of a V instruction (Table 19.1). -/
def isVScalar : Spec → Bool
  | .a _ | .lit32 _ => true
  | _ => false

/-- The register class of an operand of M and C commands: a or a literal. -/
def isAddrSrc : Spec → Bool
  | .a _ | .lit32 _ | .lit64 _ => true
  | _ => false

def isNone : Spec → Bool
  | .none => true
  | _ => false

def isQ : Spec → Bool
  | .q _ => true
  | _ => false

/-- The stream register a field names. -/
def stream? : Spec → Option (BitVec 3)
  | .q n => some n
  | _ => Option.none

/-- The specifier codes the engine of `e` gives the kind (Table 9.7): x only on S, vector files only on V, streams not
on S, 64-bit literals not on V. -/
def onEngine (e : Eng) : Spec → Bool
  | .x _ => e = .S
  | .v _ | .o _ | .l _ => e = .V
  | .q _ => e ≠ .S
  | .a _ | .none | .lit32 _ => true
  | .lit64 _ => e ≠ .V

end Spec

/-- No stream register is named in two fields of one instruction (R207). -/
def distinctStreams (fs : List Spec) : Bool :=
  let qs := fs.filterMap Spec.stream?
  decide qs.Nodup

/-- The integer types I of Table 19.2. -/
def Ty.isInt : Ty → Bool
  | .i32 | .i16 | .i8 | .n32 | .n16 | .n8 => true
  | _ => false

/-- The types that act alike in raw operations: F32, I32, N32 (Table 19.2). -/
def Ty.isRaw : Ty → Bool
  | .f32 | .i32 | .n32 => true
  | _ => false

/-- The format bytes of Table 4.1 and their class in bits [7:6]. -/
def fmtAssigned (b : Byte) : Bool :=
  b ∈ [0x00#8, 0x01#8, 0x40#8, 0x41#8, 0x42#8, 0x43#8, 0x80#8, 0x81#8, 0x82#8, 0x83#8, 0xC0#8, 0xC1#8, 0xC2#8]

/-- The special registers assigned on an engine (Table 17.6). -/
def srAssigned (env : DecEnv) (n : BitVec 10) : Bool :=
  let k := n.toNat
  if env.sched then
    k ≤ 7 || k ∈ [0x0C, 0x0D, 0x10, 0x11, 0x18, 0x19, 0x30, 0x31, 0x60, 0x70, 0x74, 0x75, 0x76, 0x77, 0x78]
  else
    k ≤ 7 || k ∈ [0x0A, 0x0C, 0x0D, 0x10, 0x11, 0x12, 0x18, 0x19, 0x30, 0x31] ||
    (k = 0x08 && (env.eng = .M || env.eng = .C)) ||
    ((k = 0x20 || k = 0x21 || (0x44 ≤ k && k ≤ 0x46)) && env.eng = .M) ||
    (k = 0x40 && (env.eng = .V || env.eng = .M)) ||
    (((0x50 ≤ k && k ≤ 0x58) || k = 0x60 || k = 0x70 || (0x74 ≤ k && k ≤ 0x78) || k = 0xE0 || k = 0xE1 ||
      k = 0xE4 || k = 0xF0) && env.eng = .S)

namespace CSrc
def isLit : CSrc → Bool
  | .lit32 _ | .lit64 _ => true
  | _ => false
end CSrc

/-- A literal in t goes with imm10 = 0 (R200). -/
def tImmOk (t : CSrc) (imm : BitVec 10) : Bool := !t.isLit || imm = 0

/-- The conditions that take an unsigned comparison (Table 9.4). -/
def condUOk (c : Cond) (u : Bool) : Bool := !u || (c ≠ .eq && c ≠ .ne)

/-- Compute-core engine e runs the instruction; `scOk` says whether SC0 and SC1 do too (R219). -/
def runsOn (env : DecEnv) (e : Eng) (scOk : Bool) : Bool :=
  env.eng = e && (!env.sched || scOk)

def r4On (e : Eng) (o : R4) : Bool :=
  o.dst.onEngine e && o.a.onEngine e && o.b.onEngine e && o.c.onEngine e

/-- Operands of the two-source scalar integer instructions (R358). -/
def ia2Ok (o : R4) : Bool :=
  o.dst.isScalarDst && o.a.isScalarSrc && o.b.isScalarSrc && o.c.isNone

/-- Operands of ICLZ and IPOPC (R358). -/
def ia1Ok (o : R4) : Bool :=
  o.dst.isScalarDst && o.a.isScalarSrc && o.b.isNone && o.c.isNone

/-- The used source fields and the destination of an element-wise V instruction with n sources (Table 19.2). -/
def vFields (n : Nat) (o : R4) : Bool :=
  o.dst.isVDst && o.a.isVSrc &&
  (if 2 ≤ n then o.b.isVSrc else o.b.isNone) &&
  (if 3 ≤ n then o.c.isVSrc else o.c.isNone) &&
  distinctStreams [o.dst, o.a, o.b, o.c]

/-- What a row of Table 19.2 allows: the classes of types, RND with F32, SAT with an I type. -/
structure VaRow where
  n : Nat
  fOk : Bool
  iOk : Bool
  raw : Bool
  rnd : Bool
  sat : Bool

/-- R414. -/
def vaOk (r : VaRow) (m : ModVA) (o : R4) : Bool :=
  ((r.fOk && m.ty = .f32) || (r.iOk && m.ty.isInt) || (r.raw && m.ty.isRaw)) &&
  (m.rnd = .rn || (r.rnd && m.ty = .f32)) &&
  (!m.sat || (r.sat && m.ty.isInt)) &&
  vFields r.n o

/-- Rotations and broadcasts: raw type, RND and OP zero, B the scalar amount (R417). -/
def vxRotOk (m : ModVX) (o : R4) : Bool :=
  m.ty.isRaw && m.rnd = .rn && m.op = .add && o.dst.isVDst && o.a.isVSrc && o.b.isVScalar && o.c.isNone &&
  distinctStreams [o.dst, o.a]

/-- Reductions and scans (R417). -/
def vxRedOk (m : ModVX) (o : R4) : Bool :=
  ((m.ty = .f32 && (m.op = .add || m.op = .min || m.op = .max)) || (m.ty.isInt && m.rnd = .rn)) &&
  o.dst.isVDst && o.a.isVSrc && o.b.isNone && o.c.isNone && distinctStreams [o.dst, o.a]

/-- Fields of VEXP, VLOG, VRCP, VRSQ and VCVT: one source. -/
def v1Ok (o : R4) : Bool := vFields 1 o

/-- R420. -/
def vcvtTyOk (m : ModVV) : Bool :=
  (m.sty ∈ [Ty.f32, .i32, .i16, .i8, .i4, .n32, .n16, .n8]) && m.tty ≠ .i4x

/-- Fields of VLD (R410, R426). -/
def vmLoadOk (m : ModVM) (o : MemOp) : Bool :=
  m.rnd = .rn && !m.sat && o.d.isVDst && o.base.isVScalar

/-- An index register of VGATH and VSCAT: v or l only. -/
def isIdx : Spec → Bool
  | .v _ | .l _ => true
  | _ => false

/-- ROWS 0 to 3 = 16 to 64 rows (Table 9.9). -/
def rowCount (rows : BitVec 2) : Nat := 16 * (rows.toNat + 1)

/-- The array edge (R17). -/
def edge (cCore : Bool) : Nat := if cCore then 256 else 64

/-- Tile slots of a core (R127). -/
def slotCount (cCore : Bool) : Nat := if cCore then 128 else 64

/-- The registers of a group lie in one bank (R126). -/
def spanOk (cCore : Bool) (acc : BitVec 6) (rows : BitVec 2) : Bool :=
  let n := rowCount rows / 16 * (edge cCore / 64)
  acc.toNat / 16 = (acc.toNat + n - 1) / 16

def tsrcOk (cCore : Bool) : TSrc → Bool
  | .slot n => n.toNat < slotCount cCore
  | .stream _ => true

def kOk (o : K3) : Bool := o.cwi ≠ 0xFFFF

/-- A copy-engine command with a descriptor: ADR an address, AUX unused (R320). -/
def kDescOk (o : K3) : Bool := o.adr.isAddrSrc && o.aux.isNone && kOk o

/-- The fields of an engine instruction are legal in `env`. Event rows are not fetched: `false`. -/
def Instr.legalOn (env : DecEnv) : Instr → Bool
  | .nop | .amov _ _ _ | .b _ _ | .bc _ _ _ | .bcNot _ _ _ | .call _ _ _ | .ret _ | .ald _ _ _ | .ast _ _ _ => true
  | .aadd _ _ t i | .asub _ _ t i | .aand _ _ t i | .ashl _ _ t i => tImmOk t i
  | .acmp p _ t c u => p ≠ 0 && condUOk c u && (!t.isLit || (c = .eq && !u))
  | .loop _ _ rot stg _ => rot || stg = 0
  | .pset p _ => p ≠ 0
  | .plog p _ _ _ => p ≠ 0
  | .mfs _ sr => srAssigned env sr
  | .mts _ sr => srAssigned env sr
  | .tsig m | .twait m => m ≠ 0 && !env.sched
  | .fence scope q => scope.toNat ≤ 5 && (env.eng = .C || q.toNat ≤ 1)
  | .tfence | .trap _ | .bkpt _ | .eret => true
  | .rend => !env.sched
  | .iadd _ _ o | .isub _ _ o | .imul _ _ o | .ishl _ _ o => runsOn env .S true && r4On .S o && ia2Ok o
  | .idiv _ m o | .irem _ m o | .iand _ m o | .ior _ m o | .ixor _ m o | .ishr _ m o | .imin _ m o | .imax _ m o =>
    runsOn env .S true && r4On .S o && ia2Ok o && !m.sat
  | .iclz _ m o | .ipopc _ m o => runsOn env .S true && r4On .S o && ia1Ok o && !m.sat && !m.u
  | .isel _ _ o => runsOn env .S true && r4On .S o && ia2Ok o
  | .icmp _ m p sa sb sc =>
    runsOn env .S true && p ≠ 0 && sa.onEngine .S && sb.onEngine .S && sa.isScalarSrc && sb.isScalarSrc && sc.isNone &&
    condUOk m.cond m.u
  | .ld _ m o =>
    runsOn env .S true && (match o.d with | .x _ | .a _ => true | _ => false) && o.base.isScalarSrc && o.aux.isNone &&
    !(m.sx && m.size = 3)
  | .st _ m o => runsOn env .S true && o.d.isScalarSrc && o.base.isScalarSrc && o.aux.isNone && !m.sx
  | .at_ _ m o =>
    runsOn env .S false && (match o.dst with | .x _ | .none => true | _ => false) && o.a.isScalarSrc &&
    o.b.isScalarSrc && (if m.op = .cas then o.c.isScalarSrc else o.c.isNone) &&
    !(m.op = .fadd && m.w64) && (!m.u || m.op = .min || m.op = .max)
  | .msend _ o _ => runsOn env .S false && o.dst.isScalarDst && o.a.isScalarSrc && o.b.isScalarSrc
  | .mrecv _ o _ => runsOn env .S false && o.dst.isScalarDst && o.a.isScalarSrc && o.b.isNone
  | .nsub _ o => runsOn env .S false && o.dst.isScalarDst && o.a.isScalarSrc && o.b.isNone
  | .phadv _ o => runsOn env .S false && o.dst.isScalarDst && o.a.isNone && o.b.isNone
  | .phwait _ o => runsOn env .S false && o.dst.isNone && o.a.isScalarSrc && o.b.isScalarSrc
  | .gbar _ o _ => runsOn env .S false && o.dst.isNone && o.a.isNone && o.b.isNone
  | .gred _ o s =>
    runsOn env .S false && o.dst.isScalarDst && o.a.isScalarSrc && o.b.isNone &&
    !(s.op = .fadd && !s.w32) && (!s.u || s.op = .min || s.op = .max)
  | .gtime _ o => runsOn env .S true && o.dst.isScalarDst && o.a.isNone && o.b.isNone
  | .drain _ o => runsOn env .S true && o.dst.isNone && o.a.isNone && o.b.isNone
  | .vadd _ m o | .vsub _ m o | .vmul _ m o => runsOn env .V false && vaOk ⟨2, true, true, false, true, true⟩ m o
  | .vfma _ m o => runsOn env .V false && vaOk ⟨3, true, true, false, true, true⟩ m o
  | .vmin _ m o | .vmax _ m o => runsOn env .V false && vaOk ⟨2, true, true, false, false, false⟩ m o
  | .vabs _ m o | .vneg _ m o => runsOn env .V false && vaOk ⟨1, true, true, false, false, true⟩ m o
  | .vclamp _ m o => runsOn env .V false && vaOk ⟨3, true, true, false, false, false⟩ m o
  | .vand _ m o | .vor _ m o | .vxor _ m o => runsOn env .V false && vaOk ⟨2, false, false, true, false, false⟩ m o
  | .vshl _ m o => runsOn env .V false && vaOk ⟨2, false, true, false, false, true⟩ m o
  | .vshr _ m o => runsOn env .V false && vaOk ⟨2, false, true, false, false, false⟩ m o
  | .vsel _ m o => runsOn env .V false && vaOk ⟨3, false, false, true, false, false⟩ m o
  | .vmovs _ m o => runsOn env .V false && vaOk ⟨1, false, false, true, false, false⟩ m o
  | .vcmp _ m o => runsOn env .V false && (m.ty = .f32 || m.ty.isInt) && vFields 2 o
  | .vcvt _ m o | .vcvtSat _ m o => runsOn env .V false && vcvtTyOk m && v1Ok o
  | .vexp _ _ o | .vlog _ _ o | .vrcp _ _ o | .vrsq _ _ o => runsOn env .V false && v1Ok o
  | .vrotr _ m o | .vrotc _ m o | .vbcr _ m o | .vbcc _ m o => runsOn env .V false && vxRotOk m o
  | .vext _ m o =>
    runsOn env .V false && m.ty.isRaw && m.rnd = .rn && m.op = .add && o.dst.isVDst && o.a.isVSrc && o.b.isVSrc &&
    o.c.isVScalar && distinctStreams [o.dst, o.a, o.b]
  | .vredr _ m o | .vredc _ m o | .vscanr _ m o => runsOn env .V false && vxRedOk m o
  | .vtrn _ m o =>
    runsOn env .V false && m.ty.isRaw && m.rnd = .rn && m.op = .add && o.dst.isVDst && o.a.isVSrc && o.b.isNone &&
    o.c.isNone && distinctStreams [o.dst, o.a]
  | .part _ m o =>
    runsOn env .V false && m.ty.isRaw && (match o.dst with | .v _ | .none => true | _ => false) && o.a.isVSrc &&
    o.b.isVSrc && (if m.way4 then o.c.isVSrc else o.c.isNone) && distinctStreams [o.a, o.b, o.c]
  | .vld _ m o => runsOn env .V false && vmLoadOk m o && o.aux.isNone
  | .vst _ _ o => runsOn env .V false && o.d.isVSrc && o.base.isVScalar && o.aux.isNone
  | .vgath _ m o => runsOn env .V false && vmLoadOk m o && isIdx o.aux && m.ty ≠ .i4x
  | .vscat _ m o => runsOn env .V false && o.d.isVSrc && o.base.isVScalar && isIdx o.aux && m.ty ≠ .i4x
  | .vldp _ m o =>
    runsOn env .V false && m.rnd = .rn && !m.sat && o.disp = 0 && o.d.isVDst && o.base.isVScalar && o.aux.isVScalar
  | .vstp _ m d base aux _ _ scale fmt =>
    runsOn env .V false && d.isVSrc && base.isVScalar && aux.isVScalar && fmtAssigned fmt &&
    (fmt >>> 6).toNat = m.wc.toNat && scale ≠ 0xFF
  | .vlend _ _ _ => runsOn env .V false
  | .alease _ | .arel _ => runsOn env .M false
  | .tsclaim _ n | .tsrel _ n => runsOn env .M false && n.toNat < slotCount env.cCore
  | .mcfg _ _ v => runsOn env .M false && v.isAddrSrc
  | .mbegin _ _ acc rows => runsOn env .M false && spanOk env.cCore acc rows
  | .mloadb _ src => runsOn env .M false && tsrcOk env.cCore src
  | .mma _ acc src rows _ => runsOn env .M false && spanOk env.cCore acc rows && tsrcOk env.cCore src
  | .mret _ _ => runsOn env .M false
  | .cpy _ _ o | .cpyr _ _ o | .cenc _ _ o => runsOn env .C false && kDescOk o
  | .cpyp _ _ o => runsOn env .C false && kDescOk o
  | .cdec _ _ _ o => runsOn env .C false && kDescOk o
  | .sbind _ _ o => runsOn env .C false && o.adr.isAddrSrc && o.aux.isQ && kOk o
  | .sunbind _ _ o => runsOn env .C false && o.adr.isNone && o.aux.isQ && kOk o
  | .tsfill _ _ _ o => runsOn env .C false && o.adr.isAddrSrc && o.aux.isAddrSrc && kOk o
  | .cbw _ _ o => runsOn env .C false && o.adr.isAddrSrc && o.aux.isAddrSrc && kOk o
  | .xsend _ _ o => runsOn env .C false && o.adr.isAddrSrc && o.aux.isAddrSrc && kOk o
  | .xrecv _ _ o | .xfree _ _ o => runsOn env .C false && o.adr.isNone && o.aux.isNone && kOk o
  | .packageReset _ | .mcSample _ _ | .pick | .dispatchArrival _ | .resourceReport _ | .completionReport _
  | .jobComplete _ | .preemptRequest _ | .preemptStop _ | .preemptTimeout _ | .contextSave _ | .saveWatchdogExpiry _
  | .contextRestore _ | .leaseGrant _ | .kicksetWrite _ _ | .kickpendWrite _ _ | .drainreqWrite _ _ | .hqctlRelease _ _
  | .scgoWrite _ _ | .schedMachineCheck _ _ | .schedTakingOver | .hubReset | .resultLand _ _ | .tokenPopResume _ _
  | .glintReplay _ _ _ | .machineCheck _ _ | .failedRecordTimer _ | .arrayRebuild _ _ | .patrolScrub _ _
  | .repairWrite _ _ | .arrtestWrite _ _ | .dieHeartbeat _ | .dieHeartbeatTimeout _ | .dieRailFault _
  | .dieHealthEvent _ _ | .reconfiguration _ | .reconfigRestore _ | .rotationVisit _ | .rotationSkip _
  | .selftestEnd _ _ | .ckptReqWrite _ _ | .checkpointWrite _ | .checkpointMirrorAck _ | .peerHeartbeatSend
  | .peerHeartbeat | .peerHeartbeatMiss | .peerQueryAnswer _ | .peerQueryTimeout | .packageFailure | .facetArrival _ _
  | .decodeTimeout _ _ _ _ | .flowAckSend _ _ | .flowAck _ _ _ _ | .lossNotice _ _ _ _ | .sourceAckTimeout _ _ _ _
  | .pathDown _ _ _ | .pathUp _ _ _ | .laneDegrade _ _ | .permitArrival _ _ | .msgAppendArrival _ _ | .spillMoveIn _ _
  | .msgCreditReport _ _ | .groupEpisodeComplete _ _ | .phaseDoneAdvance _ _ | .translationWalk _ _ _
  | .debugStopEdge _ | .recordWindow _ _ | .replayWindowCheck _ _ | .sensorWrite _ _ _ _ | .sensorEnd _ _
  | .sensorRecord _ | .timeCorrection _ | .lockInterfaceRequest _ | .startInterfaceRequest _ | .stopInterfaceRequest _
  | .flr _ | .ideIntegrityFailure _ | .worldReset _ | .getVersion _ | .getCapabilities _ | .negotiateAlgorithms _
  | .getDigests _ | .getCertificate _ | .challenge _ _ | .getMeasurements _ _ | .keyExchange _ _ | .finish _ _
  | .keyUpdate _ _ | .endSession _ _ | .resync _ _ | .ackErrorRecords _ _ | .modeSet _ _ | .setLeaseParams _ _ _
  | .setFabrate _ _ | .testMode _ _ | .createTdi _ _ _ | .destroyTdi _ _ | .createContext _ _ | .destroyContext _
  | .invalidateTranslations _ _ _ _ | .setSlotCtl _ _ _ | .setSlotDeadline _ _ _ | .setSlotLevelTable _ _ _
  | .setSubmissionRing _ _ _ _ | .setCompletionRing _ _ _ _ | .setSensorRegion _ _ _ _ | .setSensorRecordRing _ _ _ _
  | .setSlotContext _ _ _ | .raiseLevel _ _ | .releaseDie _ _ | .rotationPeriod _ _ | .peerLostToUp _
  | .writeOwnership _ _ _ _ | .installWeightKey _ _ _ _ | .debugStop _ _ _ _ | .debugImageRead _ _ _
  | .debugRegisterWrite _ _ _ _ _ | .debugResume _ _ _ _ | .debugDump _ _ _ | .debugImageWrite _ _ _
  | .selectTimeSource _ _ | .stageFirmware _ _ _ _ | .activateFirmware _ _ | .clearFabricCounters _
  | .packageResetCommand _ _ | .mqcfgWrite _ _ _ | .mqptrHeadWrite _ _ _ | .stickyWrite _ _ _ | .tstatAbandon _ _
  | .trcctlWrite _ _ | .registerWrite _ _ | .mretRetire _ | .quotaStall _ | .cCommandPerformed _ _
  | .mCommandPerformed _ | .streamRowTransfer _ _ | .peerMcQuery | .badCode _ _ | .peerPortDown _ | .peerPortUp _ =>
    false

/-- The five maps an instruction can be fetched under (R201, R215-R219), with the core class. -/
def DecEnv.all : List DecEnv :=
  [⟨.S, false, false⟩, ⟨.V, false, false⟩, ⟨.M, false, false⟩, ⟨.C, false, false⟩, ⟨.S, true, false⟩,
   ⟨.S, false, true⟩, ⟨.V, false, true⟩, ⟨.M, false, true⟩, ⟨.C, false, true⟩]

/-- Well formed: legal somewhere in the package. -/
def Instr.wellFormed (i : Instr) : Bool := DecEnv.all.any fun env => i.legalOn env

end Sys2Proof
end

