-- ==== Sys2Proof/Decode.lean ====
section
/-! DEFINITION. Reading instruction words (09_encoding.md): the decoder, total on any words, which answers an
instruction with its length or names why the words are illegal, with the length R221 reckons; and the encoder, written
from the same tables. -/

namespace Sys2Proof

/-- Why words are no instruction of the executing engine (R220, step 2). -/
inductive DecodeError where
  | unassignedC32
  | unassignedP64
  | reservedBits
  | reservedCode
  | illegalField
  deriving DecidableEq, Repr

/-- What the decoder reads: an instruction, or a named reason, with the length in words (R198, R221). -/
structure Decoded where
  words : Nat
  result : Except DecodeError Instr

/-! ### Codes of the subfields -/

def Rnd.ofCode : BitVec 2 → Rnd
  | 0 => .rn | 1 => .rz | 2 => .ru | _ => .rd
def Rnd.code : Rnd → BitVec 2
  | .rn => 0 | .rz => 1 | .ru => 2 | .rd => 3

def Cond.ofCode (c : BitVec 3) : Option Cond :=
  match c.toNat with
  | 0 => some .eq | 1 => some .ne | 2 => some .lt | 3 => some .le | 4 => some .gt | 5 => some .ge | _ => none
def Cond.code : Cond → BitVec 3
  | .eq => 0 | .ne => 1 | .lt => 2 | .le => 3 | .gt => 4 | .ge => 5

/-- Table 9.12. -/
def Ty.ofCode (c : BitVec 4) : Option Ty :=
  match c.toNat with
  | 0 => some .f32 | 1 => some .bf16 | 2 => some .f16 | 3 => some .e4m3 | 4 => some .e5m2 | 5 => some .i32
  | 6 => some .i16 | 7 => some .i8 | 8 => some .i4 | 9 => some .i4x | 10 => some .n32 | 11 => some .n16
  | 12 => some .n8 | _ => none
def Ty.code : Ty → BitVec 4
  | .f32 => 0 | .bf16 => 1 | .f16 => 2 | .e4m3 => 3 | .e5m2 => 4 | .i32 => 5 | .i16 => 6 | .i8 => 7 | .i4 => 8
  | .i4x => 9 | .n32 => 10 | .n16 => 11 | .n8 => 12

def AtOp.ofCode (c : BitVec 4) : Option AtOp :=
  match c.toNat with
  | 0 => some .add | 1 => some .and | 2 => some .or | 3 => some .xor | 4 => some .min | 5 => some .max
  | 6 => some .fadd | 7 => some .xchg | 8 => some .cas | _ => none
def AtOp.code : AtOp → BitVec 4
  | .add => 0 | .and => 1 | .or => 2 | .xor => 3 | .min => 4 | .max => 5 | .fadd => 6 | .xchg => 7 | .cas => 8

def RedOp.ofCode (c : BitVec 3) : Option RedOp :=
  match c.toNat with
  | 0 => some .add | 1 => some .min | 2 => some .max | 3 => some .and | 4 => some .or | 5 => some .xor | _ => none
def RedOp.code : RedOp → BitVec 3
  | .add => 0 | .min => 1 | .max => 2 | .and => 3 | .or => 4 | .xor => 5

def GredOp.ofCode (c : BitVec 3) : Option GredOp :=
  match c.toNat with
  | 0 => some .add | 1 => some .min | 2 => some .max | 3 => some .and | 4 => some .or | 5 => some .xor
  | 6 => some .fadd | _ => none
def GredOp.code : GredOp → BitVec 3
  | .add => 0 | .min => 1 | .max => 2 | .and => 3 | .or => 4 | .xor => 5 | .fadd => 6

def McfgItem.ofCode (c : BitVec 4) : Option McfgItem :=
  match c.toNat with
  | 0 => some .ncol | 1 => some .arowbase | 2 => some .kbase | 3 => some .atrans | 4 => some .btrans | 5 => some .swz
  | _ => none
def McfgItem.code : McfgItem → BitVec 4
  | .ncol => 0 | .arowbase => 1 | .kbase => 2 | .atrans => 3 | .btrans => 4 | .swz => 5

def Swz.ofCode (c : BitVec 4) : Option Swz :=
  match c.toNat with
  | 0 => some .s0 | 1 => some .s1 | 2 => some .s2 | _ => none
def Swz.code : Swz → BitVec 4
  | .s0 => 0 | .s1 => 1 | .s2 => 2

/-! ### Literals -/

/-- Literal words a C32 register code brings (Table 9.2). -/
def cLitLen (code : BitVec 5) : Nat := if code = 30 then 1 else if code = 31 then 2 else 0

/-- Literal words a specifier code brings (R207, R221). -/
def specLitLen (code : BitVec 8) : Nat := if code = 0xFE then 1 else if code = 0xFF then 2 else 0

/-- The n-th word of a list of words, zero beyond its end. -/
def wordAt (ws : List Word) (n : Nat) : Word := ws.getD n 0

/-- A two-word literal, low word first (R207). -/
def lit64At (ws : List Word) (n : Nat) : Dword := wordAt ws (n + 1) ++ wordAt ws n

/-- A C32 register code as a source, its literal standing at word n (Table 9.2). -/
def csrcOf (code : BitVec 5) (ws : List Word) (n : Nat) : Option CSrc :=
  if code.toNat < 16 then some (.a (code.setWidth 4))
  else if code.toNat < 20 then some (.lc (code.setWidth 2))
  else if code = 28 then some .zero
  else if code = 30 then some (.lit32 (wordAt ws n))
  else if code = 31 then some (.lit64 (lit64At ws n))
  else none

/-- A C32 register code as a destination (Table 9.2). -/
def cdstOf (code : BitVec 5) : Option CDst :=
  if code.toNat < 16 then some (.a (code.setWidth 4))
  else if code.toNat < 20 then some (.lc (code.setWidth 2))
  else if code = 28 then some .zero
  else none

def cregOf (code : BitVec 5) : Option CReg :=
  if code.toNat < 16 then some (.a (code.setWidth 4))
  else if code.toNat < 20 then some (.lc (code.setWidth 2))
  else none

/-- A specifier code on engine e, its literal standing at word n (Table 9.7). -/
def specOf (e : Eng) (code : BitVec 8) (ws : List Word) (n : Nat) : Option Spec :=
  let k := code.toNat
  if code = 0xFD then some .none
  else if code = 0xFE then some (.lit32 (wordAt ws n))
  else if code = 0xFF then (if e = .V then none else some (.lit64 (lit64At ws n)))
  else if 0x60 ≤ k ∧ k < 0x70 then some (.a (code.setWidth 4))
  else match e with
    | .S => if k < 0x20 then some (.x (code.setWidth 5)) else none
    | .V =>
      if k < 0x40 then some (.v (code.setWidth 6))
      else if k < 0x48 then some (.o (code.setWidth 3))
      else if k < 0x4C then some (.l (code.setWidth 2))
      else if 0x50 ≤ k ∧ k < 0x58 then some (.q (code.setWidth 3))
      else none
    | .M | .C => if 0x50 ≤ k ∧ k < 0x58 then some (.q (code.setWidth 3)) else none

/-! ### C32 -/

/-- The C32 opcodes whose s field is a register or literal source, and those whose t field is one (Table 9.3). -/
def cHasS (opc : Nat) : Bool :=
  opc ∈ [0x01, 0x02, 0x03, 0x04, 0x05, 0x06, 0x08, 0x09, 0x10, 0x11, 0x12, 0x13, 0x14, 0x15, 0x21]
def cHasT (opc : Nat) : Bool := opc ∈ [0x02, 0x03, 0x04, 0x05, 0x06]
/-- The assigned C32 opcodes (Table 9.3). -/
def cAssigned (opc : Nat) : Bool :=
  cHasS opc || opc ∈ [0x00, 0x18, 0x19, 0x20, 0x28, 0x29, 0x2A, 0x2B, 0x2C, 0x30, 0x31, 0x32]

/-- The fields of a C32 word (Table 9.1) with its source operands read. -/
structure CFields where
  opc : Nat
  d : BitVec 5
  s : BitVec 5
  t : BitVec 5
  imm15 : BitVec 15
  imm10 : BitVec 10
  sv : Option CSrc
  tv : Option CSrc

def cFields (ws : List Word) : CFields :=
  let w := wordAt ws 0
  let s := w.extractLsb' 15 5
  let t := w.extractLsb' 10 5
  { opc := (w.extractLsb' 25 6).toNat
    d := w.extractLsb' 20 5
    s := s
    t := t
    imm15 := w.extractLsb' 0 15
    imm10 := w.extractLsb' 0 10
    sv := csrcOf s ws 1
    tv := csrcOf t ws (1 + cLitLen s) }

/-- The length of a C32 instruction (R198, R221). -/
def c32Len (f : CFields) : Nat :=
  1 + (if cHasS f.opc then cLitLen f.s else 0) + (if cHasT f.opc then cLitLen f.t else 0)

/-- Answers the instruction if the reserved fields are zero and the codes are read. -/
def guardBits (zero : Bool) (i : Option Instr) : Except DecodeError Instr :=
  if zero then (match i with | some i => .ok i | none => .error .reservedCode) else .error .reservedBits

/-- Table 9.3. -/
def decodeC32 (f : CFields) : Except DecodeError Instr :=
  match f.opc with
  | 0x00 => guardBits (f.d = 0 && f.s = 0 && f.imm15 = 0) (some .nop)
  | 0x01 => guardBits true (do some (.amov (← cdstOf f.d) (← f.sv) f.imm15))
  | 0x02 => guardBits true (do some (.aadd (← cdstOf f.d) (← f.sv) (← f.tv) f.imm10))
  | 0x03 => guardBits true (do some (.asub (← cdstOf f.d) (← f.sv) (← f.tv) f.imm10))
  | 0x04 => guardBits true (do some (.aand (← cdstOf f.d) (← f.sv) (← f.tv) f.imm10))
  | 0x05 => guardBits true (do some (.ashl (← cdstOf f.d) (← f.sv) (← f.tv) f.imm10))
  | 0x06 =>
    guardBits (f.imm10.extractLsb' 0 6 = 0)
      (do some (.acmp f.d (← f.sv) (← f.tv) (← Cond.ofCode (f.imm10.extractLsb' 7 3)) (f.imm10.getLsbD 6)))
  | 0x08 => guardBits true (do some (.ald (← cdstOf f.d) (← f.sv) f.imm15))
  | 0x09 => guardBits true (do some (.ast (← cdstOf f.d) (← f.sv) f.imm15))
  | 0x10 => guardBits (f.d = 0) (do some (.b (← f.sv) f.imm15))
  | 0x11 => guardBits true (do some (.bc f.d (← f.sv) f.imm15))
  | 0x12 => guardBits true (do some (.bcNot f.d (← f.sv) f.imm15))
  | 0x13 => guardBits true (if f.d.toNat < 16 then (do some (.call (f.d.setWidth 4) (← f.sv) f.imm15)) else none)
  | 0x14 => guardBits (f.d = 0 && f.imm15 = 0) (do some (.ret (← cregOf f.s)))
  | 0x15 =>
    guardBits true
      (if 16 ≤ f.d.toNat ∧ f.d.toNat < 20 then
        (do some (.loop (f.d.setWidth 2) (← f.sv) (f.imm15.getLsbD 14) (f.imm15.extractLsb' 10 4)
          (f.imm15.extractLsb' 0 10)))
       else none)
  | 0x18 => guardBits (f.s = 0 && f.imm15.extractLsb' 1 14 = 0) (some (.pset f.d (f.imm15.getLsbD 0)))
  | 0x19 => guardBits (f.imm10.extractLsb' 4 6 = 0) (some (.plog f.d f.s f.t (f.imm10.extractLsb' 0 4)))
  | 0x20 =>
    guardBits (f.s = 0 && f.imm15.extractLsb' 10 5 = 0) (do some (.mfs (← cregOf f.d) (f.imm15.extractLsb' 0 10)))
  | 0x21 =>
    guardBits (f.d = 0 && f.imm15.extractLsb' 10 5 = 0) (do some (.mts (← f.sv) (f.imm15.extractLsb' 0 10)))
  | 0x28 =>
    guardBits (f.d = 0 && f.s = 0 && f.imm15.extractLsb' 3 12 = 0) (some (.tsig (f.imm15.extractLsb' 0 3)))
  | 0x29 =>
    guardBits (f.d = 0 && f.s = 0 && f.imm15.extractLsb' 3 12 = 0) (some (.twait (f.imm15.extractLsb' 0 3)))
  | 0x2A =>
    guardBits (f.d = 0 && f.s = 0 && f.imm15.extractLsb' 7 8 = 0)
      (some (.fence (f.imm15.extractLsb' 4 3) (f.imm15.extractLsb' 0 4)))
  | 0x2B => guardBits (f.d = 0 && f.s = 0 && f.imm15 = 0) (some .tfence)
  | 0x2C => guardBits (f.d = 0 && f.s = 0 && f.imm15 = 0) (some .rend)
  | 0x30 =>
    guardBits (f.d = 0 && f.s = 0 && f.imm15.extractLsb' 8 7 = 0) (some (.trap (f.imm15.extractLsb' 0 8)))
  | 0x31 =>
    guardBits (f.d = 0 && f.s = 0 && f.imm15.extractLsb' 8 7 = 0) (some (.bkpt (f.imm15.extractLsb' 0 8)))
  | 0x32 => guardBits (f.d = 0 && f.s = 0 && f.imm15 = 0) (some .eret)
  | _ => .error .unassignedC32

/-! ### P64 -/

/-- The sub-formats of word 1 (R208-R212). -/
inductive SubFmt where
  | R | M | T | X | K | Q
  deriving DecidableEq, Repr

/-- The sub-format of an assigned opcode of engine e (Tables 9.14-9.17); T is P64-M with the tag word. -/
def subFmt (e : Eng) (opc : Nat) : Option SubFmt :=
  match e with
  | .S =>
    if 1 ≤ opc ∧ opc ≤ 0x10 then some .R
    else if opc = 0x20 ∨ opc = 0x21 then some .M
    else if opc = 0x22 then some .R
    else if 0x40 ≤ opc ∧ opc ≤ 0x48 then some .Q
    else none
  | .V =>
    if (1 ≤ opc ∧ opc ≤ 0x11) ∨ opc = 0x20 ∨ opc = 0x21 ∨ (0x28 ≤ opc ∧ opc ≤ 0x2B) ∨ (0x40 ≤ opc ∧ opc ≤ 0x49) ∨
        opc = 0x70 then some .R
    else if opc = 0x63 then some .T
    else if 0x60 ≤ opc ∧ opc ≤ 0x65 then some .M
    else none
  | .M =>
    if opc = 0x10 then some .R
    else if opc ∈ [0x01, 0x02, 0x08, 0x09, 0x20, 0x21, 0x22, 0x23] then some .X
    else none
  | .C =>
    if opc ∈ [0x01, 0x02, 0x03, 0x08, 0x09, 0x10, 0x11, 0x18, 0x20, 0x28, 0x29, 0x2A] then some .K else none

/-- The fields of a P64 instruction: word 0 (Table 9.5) and the four bytes of word 1. -/
structure PFields where
  h : Hdr
  opc : Nat
  md : BitVec 10
  f3 : BitVec 8
  f2 : BitVec 8
  f1 : BitVec 8
  f0 : BitVec 8

def pFields (ws : List Word) : PFields :=
  let w := wordAt ws 0
  let u := wordAt ws 1
  { h := { wait := w.extractLsb' 28 3, sig := w.extractLsb' 25 3, guard := w.extractLsb' 11 5, neg := w.getLsbD 10 }
    opc := (w.extractLsb' 16 9).toNat
    md := w.extractLsb' 0 10
    f3 := u.extractLsb' 24 8
    f2 := u.extractLsb' 16 8
    f1 := u.extractLsb' 8 8
    f0 := u.extractLsb' 0 8 }

/-- The length of a P64 instruction (R198, R221). -/
def p64Len (fmt : SubFmt) (f : PFields) : Nat :=
  match fmt with
  | .R => 2 + specLitLen f.f3 + specLitLen f.f2 + specLitLen f.f1 + specLitLen f.f0
  | .M | .Q => 2 + specLitLen f.f3 + specLitLen f.f2 + specLitLen f.f1
  | .T => 3 + specLitLen f.f3 + specLitLen f.f2 + specLitLen f.f1
  | .K => 2 + specLitLen f.f3 + specLitLen f.f2
  | .X => 2

/-- The literal positions: the first literal of each field, in descending bit position (R207). -/
def pos2 (f : PFields) : Nat := 2 + specLitLen f.f3
def pos1 (f : PFields) : Nat := pos2 f + specLitLen f.f2
def pos0 (f : PFields) : Nat := pos1 f + specLitLen f.f1

def r4Of (e : Eng) (f : PFields) (ws : List Word) : Option R4 := do
  let d ← specOf e f.f3 ws 2
  let a ← specOf e f.f2 ws (pos2 f)
  let b ← specOf e f.f1 ws (pos1 f)
  let c ← specOf e f.f0 ws (pos0 f)
  some ⟨d, a, b, c⟩

def memOf (e : Eng) (f : PFields) (ws : List Word) : Option MemOp := do
  let d ← specOf e f.f3 ws 2
  let a ← specOf e f.f2 ws (pos2 f)
  let b ← specOf e f.f1 ws (pos1 f)
  some ⟨d, a, b, f.f0⟩

def q3Of (e : Eng) (f : PFields) (ws : List Word) : Option Q3 := do
  let d ← specOf e f.f3 ws 2
  let a ← specOf e f.f2 ws (pos2 f)
  let b ← specOf e f.f1 ws (pos1 f)
  some ⟨d, a, b⟩

def k3Of (f : PFields) (ws : List Word) : Option K3 := do
  let a ← specOf .C f.f3 ws 2
  let b ← specOf .C f.f2 ws (pos2 f)
  some ⟨a, b, f.f1 ++ f.f0⟩

/-- Layout IA: W codes 2 and 3 are reserved. -/
def iaOf (m : BitVec 10) : Option ModIA :=
  if m.getLsbD 9 || m.extractLsb' 0 6 ≠ 0 then none else some ⟨m.getLsbD 8, m.getLsbD 7, m.getLsbD 6⟩
def icOf (m : BitVec 10) : Option ModIC :=
  if m.getLsbD 9 || m.extractLsb' 0 4 ≠ 0 then none
  else (Cond.ofCode (m.extractLsb' 4 3)).map fun c => ⟨m.getLsbD 8, m.getLsbD 7, c⟩
def isOf (m : BitVec 10) : Option ModIS :=
  if m.getLsbD 9 || m.extractLsb' 5 3 ≠ 0 then none else some ⟨m.getLsbD 8, m.extractLsb' 0 5⟩
def smOf (m : BitVec 10) : Option ModSM :=
  if m.extractLsb' 0 4 ≠ 0 then none else some ⟨m.extractLsb' 7 3, m.extractLsb' 5 2, m.getLsbD 4⟩
def saOf (m : BitVec 10) : Option ModSA :=
  if m.getLsbD 0 then none
  else (AtOp.ofCode (m.extractLsb' 3 4)).map fun o => ⟨m.extractLsb' 7 3, o, m.getLsbD 2, m.getLsbD 1⟩
def vaOf (m : BitVec 10) : Option ModVA :=
  if m.getLsbD 1 then none
  else (Ty.ofCode (m.extractLsb' 6 4)).map fun t =>
    ⟨t, Rnd.ofCode (m.extractLsb' 4 2), m.getLsbD 3, m.getLsbD 2, m.getLsbD 0⟩
def vcOf (m : BitVec 10) : Option ModVC :=
  if m.getLsbD 1 then none
  else do
    let t ← Ty.ofCode (m.extractLsb' 6 4)
    let c ← Cond.ofCode (m.extractLsb' 3 3)
    some ⟨t, c, m.getLsbD 2, m.getLsbD 0⟩
def vfOf (m : BitVec 10) : Option ModVF :=
  if m.extractLsb' 6 4 ≠ 0 || m.getLsbD 3 || m.getLsbD 1 || m.getLsbD 0 then none
  else some ⟨Rnd.ofCode (m.extractLsb' 4 2), m.getLsbD 2⟩
def vvOf (m : BitVec 10) : Option ModVV := do
  let t ← Ty.ofCode (m.extractLsb' 6 4)
  let s ← Ty.ofCode (m.extractLsb' 2 4)
  some ⟨t, s, Rnd.ofCode (m.extractLsb' 0 2)⟩
def vxOf (m : BitVec 10) : Option ModVX := do
  let t ← Ty.ofCode (m.extractLsb' 6 4)
  let o ← RedOp.ofCode (m.extractLsb' 1 3)
  some ⟨t, Rnd.ofCode (m.extractLsb' 4 2), o, m.getLsbD 0⟩
def vpOf (m : BitVec 10) : Option ModVP :=
  if m.extractLsb' 0 2 ≠ 0 then none
  else do
    let t ← Ty.ofCode (m.extractLsb' 6 4)
    let c ← Cond.ofCode (m.extractLsb' 3 3)
    some ⟨t, c, m.getLsbD 2⟩
def vmOf (m : BitVec 10) : Option ModVM :=
  (Ty.ofCode (m.extractLsb' 3 4)).map fun t =>
    ⟨m.extractLsb' 7 3, t, Rnd.ofCode (m.extractLsb' 1 2), m.getLsbD 0⟩
def vqOf (m : BitVec 10) : Option ModVQ :=
  if m.extractLsb' 0 2 ≠ 0 then none
  else some ⟨m.extractLsb' 7 3, m.extractLsb' 5 2, Rnd.ofCode (m.extractLsb' 3 2), m.getLsbD 2⟩
/-- Layout CK. -/
def ckOf (m : BitVec 10) : Option (BitVec 2) := if m.extractLsb' 0 8 ≠ 0 then none else some (m.extractLsb' 8 2)
def cpOf (m : BitVec 10) : Option ModCP :=
  if m.extractLsb' 0 5 ≠ 0 then none else some ⟨m.extractLsb' 8 2, m.getLsbD 7, m.extractLsb' 5 2⟩
def cxOf (m : BitVec 10) : Option ModCX :=
  if m.extractLsb' 0 4 ≠ 0 then none else some ⟨m.extractLsb' 8 2, m.extractLsb' 5 3, m.getLsbD 4⟩

/-- SEL of GRED (Table 17.1). -/
def selOf (b : BitVec 8) : Option SelG :=
  if b.getLsbD 7 then none
  else (GredOp.ofCode (b.extractLsb' 4 3)).map fun o => ⟨o, b.getLsbD 3, b.getLsbD 2, b.extractLsb' 0 2⟩

/-- An operand of P64-X (Table 9.9). -/
def tsrcOf (b : BitVec 8) : Option TSrc :=
  if !b.getLsbD 7 then some (.slot (b.setWidth 7))
  else if b.extractLsb' 3 4 = 0 then some (.stream (b.setWidth 3))
  else none

/-- The accumulator base of P64-X: 0x00 to 0x3F. -/
def accOf (b : BitVec 8) : Option (BitVec 6) := if b.toNat < 0x40 then some (b.setWidth 6) else none

/-- Table 9.14. -/
def decodeS (f : PFields) (ws : List Word) : Option Instr :=
  match f.opc with
  | 0x001 => do some (.iadd f.h (← iaOf f.md) (← r4Of .S f ws))
  | 0x002 => do some (.isub f.h (← iaOf f.md) (← r4Of .S f ws))
  | 0x003 => do some (.imul f.h (← iaOf f.md) (← r4Of .S f ws))
  | 0x004 => do some (.idiv f.h (← iaOf f.md) (← r4Of .S f ws))
  | 0x005 => do some (.irem f.h (← iaOf f.md) (← r4Of .S f ws))
  | 0x006 => do some (.iand f.h (← iaOf f.md) (← r4Of .S f ws))
  | 0x007 => do some (.ior f.h (← iaOf f.md) (← r4Of .S f ws))
  | 0x008 => do some (.ixor f.h (← iaOf f.md) (← r4Of .S f ws))
  | 0x009 => do some (.ishl f.h (← iaOf f.md) (← r4Of .S f ws))
  | 0x00A => do some (.ishr f.h (← iaOf f.md) (← r4Of .S f ws))
  | 0x00B => do some (.imin f.h (← iaOf f.md) (← r4Of .S f ws))
  | 0x00C => do some (.imax f.h (← iaOf f.md) (← r4Of .S f ws))
  | 0x00D => do some (.iclz f.h (← iaOf f.md) (← r4Of .S f ws))
  | 0x00E => do some (.ipopc f.h (← iaOf f.md) (← r4Of .S f ws))
  | 0x00F => do some (.isel f.h (← isOf f.md) (← r4Of .S f ws))
  | 0x010 => do
    if f.f3.toNat < 32 then
      some (.icmp f.h (← icOf f.md) (f.f3.setWidth 5) (← specOf .S f.f2 ws (pos2 f)) (← specOf .S f.f1 ws (pos1 f))
        (← specOf .S f.f0 ws (pos0 f)))
    else none
  | 0x020 => do some (.ld f.h (← smOf f.md) (← memOf .S f ws))
  | 0x021 => do some (.st f.h (← smOf f.md) (← memOf .S f ws))
  | 0x022 => do some (.at_ f.h (← saOf f.md) (← r4Of .S f ws))
  | 0x040 => do if f.md = 0 ∧ f.f0.toNat < 4 then some (.msend f.h (← q3Of .S f ws) (f.f0.setWidth 2)) else none
  | 0x041 => do if f.md = 0 ∧ f.f0.toNat < 4 then some (.mrecv f.h (← q3Of .S f ws) (f.f0.setWidth 2)) else none
  | 0x042 => do if f.md = 0 ∧ f.f0 = 0 then some (.nsub f.h (← q3Of .S f ws)) else none
  | 0x043 => do if f.md = 0 ∧ f.f0 = 0 then some (.phadv f.h (← q3Of .S f ws)) else none
  | 0x044 => do if f.md = 0 ∧ f.f0 = 0 then some (.phwait f.h (← q3Of .S f ws)) else none
  | 0x045 => do if f.md = 0 ∧ f.f0.toNat < 4 then some (.gbar f.h (← q3Of .S f ws) (f.f0.setWidth 2)) else none
  | 0x046 => do if f.md = 0 then some (.gred f.h (← q3Of .S f ws) (← selOf f.f0)) else none
  | 0x047 => do if f.md = 0 ∧ f.f0 = 0 then some (.gtime f.h (← q3Of .S f ws)) else none
  | 0x048 => do if f.md = 0 ∧ f.f0 = 0 then some (.drain f.h (← q3Of .S f ws)) else none
  | _ => none

/-- Table 9.15. -/
def decodeV (f : PFields) (ws : List Word) : Option Instr :=
  match f.opc with
  | 0x001 => do some (.vadd f.h (← vaOf f.md) (← r4Of .V f ws))
  | 0x002 => do some (.vsub f.h (← vaOf f.md) (← r4Of .V f ws))
  | 0x003 => do some (.vmul f.h (← vaOf f.md) (← r4Of .V f ws))
  | 0x004 => do some (.vfma f.h (← vaOf f.md) (← r4Of .V f ws))
  | 0x005 => do some (.vmin f.h (← vaOf f.md) (← r4Of .V f ws))
  | 0x006 => do some (.vmax f.h (← vaOf f.md) (← r4Of .V f ws))
  | 0x007 => do some (.vabs f.h (← vaOf f.md) (← r4Of .V f ws))
  | 0x008 => do some (.vneg f.h (← vaOf f.md) (← r4Of .V f ws))
  | 0x009 => do some (.vclamp f.h (← vaOf f.md) (← r4Of .V f ws))
  | 0x00A => do some (.vand f.h (← vaOf f.md) (← r4Of .V f ws))
  | 0x00B => do some (.vor f.h (← vaOf f.md) (← r4Of .V f ws))
  | 0x00C => do some (.vxor f.h (← vaOf f.md) (← r4Of .V f ws))
  | 0x00D => do some (.vshl f.h (← vaOf f.md) (← r4Of .V f ws))
  | 0x00E => do some (.vshr f.h (← vaOf f.md) (← r4Of .V f ws))
  | 0x00F => do some (.vsel f.h (← vaOf f.md) (← r4Of .V f ws))
  | 0x011 => do some (.vmovs f.h (← vaOf f.md) (← r4Of .V f ws))
  | 0x010 => do some (.vcmp f.h (← vcOf f.md) (← r4Of .V f ws))
  | 0x020 => do some (.vcvt f.h (← vvOf f.md) (← r4Of .V f ws))
  | 0x021 => do some (.vcvtSat f.h (← vvOf f.md) (← r4Of .V f ws))
  | 0x028 => do some (.vexp f.h (← vfOf f.md) (← r4Of .V f ws))
  | 0x029 => do some (.vlog f.h (← vfOf f.md) (← r4Of .V f ws))
  | 0x02A => do some (.vrcp f.h (← vfOf f.md) (← r4Of .V f ws))
  | 0x02B => do some (.vrsq f.h (← vfOf f.md) (← r4Of .V f ws))
  | 0x040 => do some (.vrotr f.h (← vxOf f.md) (← r4Of .V f ws))
  | 0x041 => do some (.vrotc f.h (← vxOf f.md) (← r4Of .V f ws))
  | 0x042 => do some (.vbcr f.h (← vxOf f.md) (← r4Of .V f ws))
  | 0x043 => do some (.vbcc f.h (← vxOf f.md) (← r4Of .V f ws))
  | 0x044 => do some (.vredr f.h (← vxOf f.md) (← r4Of .V f ws))
  | 0x045 => do some (.vredc f.h (← vxOf f.md) (← r4Of .V f ws))
  | 0x046 => do some (.vscanr f.h (← vxOf f.md) (← r4Of .V f ws))
  | 0x047 => do some (.vtrn f.h (← vxOf f.md) (← r4Of .V f ws))
  | 0x048 => do some (.vext f.h (← vxOf f.md) (← r4Of .V f ws))
  | 0x049 => do some (.part f.h (← vpOf f.md) (← r4Of .V f ws))
  | 0x060 => do some (.vld f.h (← vmOf f.md) (← memOf .V f ws))
  | 0x061 => do some (.vst f.h (← vmOf f.md) (← memOf .V f ws))
  | 0x064 => do some (.vgath f.h (← vmOf f.md) (← memOf .V f ws))
  | 0x065 => do some (.vscat f.h (← vmOf f.md) (← memOf .V f ws))
  | 0x062 => do some (.vldp f.h (← vqOf f.md) (← memOf .V f ws))
  | 0x063 => do
    let tag := wordAt ws (pos0 f)
    if f.f0.getLsbD 6 || tag.extractLsb' 16 16 ≠ 0 then none
    else
      let o ← memOf .V f ws
      some (.vstp f.h (← vqOf f.md) o.d o.base o.aux (f.f0.getLsbD 7) (f.f0.setWidth 6) (tag.extractLsb' 8 8)
        (tag.extractLsb' 0 8))
  | 0x070 =>
    if f.f3 = 0xFD ∧ f.f2 = 0xFD ∧ f.f1 = 0xFD ∧ f.f0 = 0xFD ∧ f.md.extractLsb' 2 7 = 0 then
      some (.vlend f.h (f.md.getLsbD 9) (f.md.extractLsb' 0 2))
    else none
  | _ => none

/-- Table 9.16. -/
def decodeM (f : PFields) (ws : List Word) : Option Instr :=
  match f.opc with
  | 0x001 => if f.md = 0 ∧ f.f3 = 0xFD ∧ f.f2 = 0xFD ∧ f.f1 = 0xFD ∧ f.f0 = 0 then some (.alease f.h) else none
  | 0x002 => if f.md = 0 ∧ f.f3 = 0xFD ∧ f.f2 = 0xFD ∧ f.f1 = 0xFD ∧ f.f0 = 0 then some (.arel f.h) else none
  | 0x008 =>
    if f.md = 0 ∧ f.f3 = 0xFD ∧ f.f1 = 0xFD ∧ f.f0 = 0 ∧ f.f2.toNat < 0x80 then some (.tsclaim f.h (f.f2.setWidth 7))
    else none
  | 0x009 =>
    if f.md = 0 ∧ f.f3 = 0xFD ∧ f.f1 = 0xFD ∧ f.f0 = 0 ∧ f.f2.toNat < 0x80 then some (.tsrel f.h (f.f2.setWidth 7))
    else none
  | 0x010 => do
    if f.f3 = 0xFD ∧ f.f1 = 0xFD ∧ f.f0 = 0xFD ∧ f.md.extractLsb' 4 6 = 0 then
      some (.mcfg f.h (← McfgItem.ofCode (f.md.extractLsb' 0 4)) (← specOf .M f.f2 ws (pos2 f)))
    else none
  | 0x020 => do
    if f.md.extractLsb' 0 9 = 0 ∧ f.f2 = 0xFD ∧ f.f1 = 0xFD ∧ f.f0.extractLsb' 0 6 = 0 then
      some (.mbegin f.h (f.md.getLsbD 9) (← accOf f.f3) (f.f0.extractLsb' 6 2))
    else none
  | 0x021 => do
    if f.md = 0 ∧ f.f3 = 0xFD ∧ f.f2 = 0xFD ∧ f.f0 = 0 then some (.mloadb f.h (← tsrcOf f.f1)) else none
  | 0x022 => do
    if f.md = 0 ∧ f.f1 = 0xFD then
      some (.mma f.h (← accOf f.f3) (← tsrcOf f.f2) (f.f0.extractLsb' 6 2) (f.f0.extractLsb' 0 6))
    else none
  | 0x023 => do
    if f.md = 0 ∧ f.f2 = 0xFD ∧ f.f1 = 0xFD ∧ f.f0 = 0 then some (.mret f.h (← accOf f.f3)) else none
  | _ => none

/-- Table 9.17. -/
def decodeC (f : PFields) (ws : List Word) : Option Instr :=
  match f.opc with
  | 0x001 => do some (.cpy f.h (← ckOf f.md) (← k3Of f ws))
  | 0x002 => do some (.cpyp f.h (← cpOf f.md) (← k3Of f ws))
  | 0x003 => do some (.cpyr f.h (← ckOf f.md) (← k3Of f ws))
  | 0x008 => do
    if f.md.extractLsb' 0 7 = 0 then some (.cdec f.h (f.md.extractLsb' 8 2) (f.md.getLsbD 7) (← k3Of f ws)) else none
  | 0x009 => do some (.cenc f.h (← ckOf f.md) (← k3Of f ws))
  | 0x010 => do some (.sbind f.h (← ckOf f.md) (← k3Of f ws))
  | 0x011 => do some (.sunbind f.h (← ckOf f.md) (← k3Of f ws))
  | 0x018 => do
    if f.md.extractLsb' 0 4 = 0 then
      some (.tsfill f.h (f.md.extractLsb' 8 2) (← Swz.ofCode (f.md.extractLsb' 4 4)) (← k3Of f ws))
    else none
  | 0x020 => do some (.cbw f.h (← ckOf f.md) (← k3Of f ws))
  | 0x028 => do some (.xsend f.h (← cxOf f.md) (← k3Of f ws))
  | 0x029 => do some (.xrecv f.h (← cxOf f.md) (← k3Of f ws))
  | 0x02A => do some (.xfree f.h (← cxOf f.md) (← k3Of f ws))
  | _ => none

/-- The private map of an engine; SC0 and SC1 read P64 words as S opcodes (R219). -/
def decodeP64 (e : Eng) (f : PFields) (ws : List Word) : Option Instr :=
  match e with
  | .S => decodeS f ws
  | .V => decodeV f ws
  | .M => decodeM f ws
  | .C => decodeC f ws

/-- The last check of step 2 of R220: every field legal where the instruction is fetched. -/
def checkLegal (env : DecEnv) : Except DecodeError Instr → Except DecodeError Instr
  | .ok i => if i.legalOn env then .ok i else .error .illegalField
  | .error r => .error r

/-- Reads the instruction that begins with the first of `ws` (R198, R220 step 2, R221). -/
def decode (env : DecEnv) (ws : List Word) : Decoded :=
  if (wordAt ws 0).getLsbD 31 then
    let f := pFields ws
    match subFmt env.eng f.opc with
    | none => ⟨2, .error .unassignedP64⟩
    | some fmt =>
      ⟨p64Len fmt f, checkLegal env (match decodeP64 env.eng f ws with | some i => .ok i | none => .error .reservedCode)⟩
  else
    let f := cFields ws
    if cAssigned f.opc then ⟨c32Len f, checkLegal env (decodeC32 f)⟩ else ⟨1, .error .unassignedC32⟩

/-! ### The encoder -/

/-- A literal's words, low word first. -/
def lit64Words (w : Dword) : List Word := [w.extractLsb' 0 32, w.extractLsb' 32 32]

def CSrc.code : CSrc → BitVec 5
  | .a n => 0#1 ++ n
  | .lc n => 0b100#3 ++ n
  | .zero => 28
  | .lit32 _ => 30
  | .lit64 _ => 31
def CSrc.lits : CSrc → List Word
  | .lit32 w => [w]
  | .lit64 w => lit64Words w
  | _ => []
def CDst.code : CDst → BitVec 5
  | .a n => 0#1 ++ n
  | .lc n => 0b100#3 ++ n
  | .zero => 28
def CReg.code : CReg → BitVec 5
  | .a n => 0#1 ++ n
  | .lc n => 0b100#3 ++ n

/-- Form I of Table 9.1. -/
def formI (opc : BitVec 6) (d s : BitVec 5) (imm : BitVec 15) : Word := 0#1 ++ opc ++ d ++ s ++ imm
/-- Form T of Table 9.1. -/
def formT (opc : BitVec 6) (d s t : BitVec 5) (imm : BitVec 10) : Word := 0#1 ++ opc ++ d ++ s ++ t ++ imm

def encI (opc : BitVec 6) (d : BitVec 5) (s : CSrc) (imm : BitVec 15) : List Word := formI opc d s.code imm :: s.lits
def encT (opc : BitVec 6) (d : BitVec 5) (s t : CSrc) (imm : BitVec 10) : List Word :=
  formT opc d s.code t.code imm :: (s.lits ++ t.lits)

def Spec.code : Spec → BitVec 8
  | .x n => 0b000#3 ++ n
  | .v n => 0b00#2 ++ n
  | .o n => 0b01000#5 ++ n
  | .l n => 0b010010#6 ++ n
  | .q n => 0b01010#5 ++ n
  | .a n => 0b0110#4 ++ n
  | .none => 0xFD
  | .lit32 _ => 0xFE
  | .lit64 _ => 0xFF
def Spec.lits : Spec → List Word
  | .lit32 w => [w]
  | .lit64 w => lit64Words w
  | _ => []

def bit (b : Bool) : BitVec 1 := if b then 1 else 0

/-- Word 0 of P64 (Table 9.5). -/
def word0 (h : Hdr) (opc : BitVec 9) (md : BitVec 10) : Word :=
  1#1 ++ h.wait ++ h.sig ++ opc ++ h.guard ++ bit h.neg ++ md
def word1 (a b c d : BitVec 8) : Word := a ++ b ++ c ++ d

def encR (h : Hdr) (opc : BitVec 9) (md : BitVec 10) (o : R4) : List Word :=
  word0 h opc md :: word1 o.dst.code o.a.code o.b.code o.c.code :: (o.dst.lits ++ o.a.lits ++ o.b.lits ++ o.c.lits)
def encM (h : Hdr) (opc : BitVec 9) (md : BitVec 10) (o : MemOp) : List Word :=
  word0 h opc md :: word1 o.d.code o.base.code o.aux.code o.disp :: (o.d.lits ++ o.base.lits ++ o.aux.lits)
def encQ (h : Hdr) (opc : BitVec 9) (o : Q3) (sel : BitVec 8) : List Word :=
  word0 h opc 0 :: word1 o.dst.code o.a.code o.b.code sel :: (o.dst.lits ++ o.a.lits ++ o.b.lits)
def encK (h : Hdr) (opc : BitVec 9) (md : BitVec 10) (o : K3) : List Word :=
  word0 h opc md :: (o.adr.code ++ o.aux.code ++ o.cwi) :: (o.adr.lits ++ o.aux.lits)
def encX (h : Hdr) (opc : BitVec 9) (md : BitVec 10) (acc sa sb last : BitVec 8) : List Word :=
  [word0 h opc md, word1 acc sa sb last]

def ModIA.enc (m : ModIA) : BitVec 10 := 0#1 ++ bit m.w32 ++ bit m.u ++ bit m.sat ++ 0#6
def ModIC.enc (m : ModIC) : BitVec 10 := 0#1 ++ bit m.w32 ++ bit m.u ++ m.cond.code ++ 0#4
def ModIS.enc (m : ModIS) : BitVec 10 := 0#1 ++ bit m.w32 ++ 0#3 ++ m.psel
def ModSM.enc (m : ModSM) : BitVec 10 := m.region ++ m.size ++ bit m.sx ++ 0#4
def ModSA.enc (m : ModSA) : BitVec 10 := m.region ++ m.op.code ++ bit m.w64 ++ bit m.u ++ 0#1
def ModVA.enc (m : ModVA) : BitVec 10 := m.ty.code ++ m.rnd.code ++ bit m.sat ++ bit m.obc ++ 0#1 ++ bit m.slotB
def ModVC.enc (m : ModVC) : BitVec 10 := m.ty.code ++ m.cond.code ++ bit m.obc ++ 0#1 ++ bit m.slotB
def ModVF.enc (m : ModVF) : BitVec 10 := 0#4 ++ m.rnd.code ++ 0#1 ++ bit m.obc ++ 0#2
def ModVV.enc (m : ModVV) : BitVec 10 := m.tty.code ++ m.sty.code ++ m.rnd.code
def ModVX.enc (m : ModVX) : BitVec 10 := m.ty.code ++ m.rnd.code ++ m.op.code ++ bit m.obc
def ModVP.enc (m : ModVP) : BitVec 10 := m.ty.code ++ m.cond.code ++ bit m.way4 ++ 0#2
def ModVM.enc (m : ModVM) : BitVec 10 := m.region ++ m.ty.code ++ m.rnd.code ++ bit m.sat
def ModVQ.enc (m : ModVQ) : BitVec 10 := m.region ++ m.wc ++ m.rnd.code ++ bit m.sat ++ 0#2
def ckEnc (q : BitVec 2) : BitVec 10 := q ++ 0#8
def ModCP.enc (m : ModCP) : BitVec 10 := m.queue ++ bit m.vae ++ m.wc ++ 0#5
def ModCX.enc (m : ModCX) : BitVec 10 := m.queue ++ m.ch ++ bit m.dir ++ 0#4
def SelG.enc (m : SelG) : BitVec 8 := 0#1 ++ m.op.code ++ bit m.w32 ++ bit m.u ++ m.gslot
def TSrc.code : TSrc → BitVec 8
  | .slot n => 0#1 ++ n
  | .stream n => 0b10000#5 ++ n

/-- The words of an engine instruction; an event row has none. -/
def encode : Instr → List Word
  | .nop => [formI 0x00 0 0 0]
  | .amov d s i => encI 0x01 d.code s i
  | .aadd d s t i => encT 0x02 d.code s t i
  | .asub d s t i => encT 0x03 d.code s t i
  | .aand d s t i => encT 0x04 d.code s t i
  | .ashl d s t i => encT 0x05 d.code s t i
  | .acmp p s t c u => encT 0x06 p s t (c.code ++ bit u ++ 0#6)
  | .ald d s i => encI 0x08 d.code s i
  | .ast d s i => encI 0x09 d.code s i
  | .b s i => encI 0x10 0 s i
  | .bc p s i => encI 0x11 p s i
  | .bcNot p s i => encI 0x12 p s i
  | .call d s i => encI 0x13 (0#1 ++ d) s i
  | .ret s => [formI 0x14 0 s.code 0]
  | .loop lc s rot stg e => encI 0x15 (0b100#3 ++ lc) s (bit rot ++ stg ++ e)
  | .pset p v => [formI 0x18 p 0 (0#14 ++ bit v)]
  | .plog p s t fn => [formT 0x19 p s t (0#6 ++ fn)]
  | .mfs d sr => [formI 0x20 d.code 0 (0#5 ++ sr)]
  | .mts s sr => encI 0x21 0 s (0#5 ++ sr)
  | .tsig m => [formI 0x28 0 0 (0#12 ++ m)]
  | .twait m => [formI 0x29 0 0 (0#12 ++ m)]
  | .fence sc q => [formI 0x2A 0 0 (0#8 ++ sc ++ q)]
  | .tfence => [formI 0x2B 0 0 0]
  | .rend => [formI 0x2C 0 0 0]
  | .trap c => [formI 0x30 0 0 (0#7 ++ c)]
  | .bkpt c => [formI 0x31 0 0 (0#7 ++ c)]
  | .eret => [formI 0x32 0 0 0]
  | .iadd h m o => encR h 0x001 m.enc o
  | .isub h m o => encR h 0x002 m.enc o
  | .imul h m o => encR h 0x003 m.enc o
  | .idiv h m o => encR h 0x004 m.enc o
  | .irem h m o => encR h 0x005 m.enc o
  | .iand h m o => encR h 0x006 m.enc o
  | .ior h m o => encR h 0x007 m.enc o
  | .ixor h m o => encR h 0x008 m.enc o
  | .ishl h m o => encR h 0x009 m.enc o
  | .ishr h m o => encR h 0x00A m.enc o
  | .imin h m o => encR h 0x00B m.enc o
  | .imax h m o => encR h 0x00C m.enc o
  | .iclz h m o => encR h 0x00D m.enc o
  | .ipopc h m o => encR h 0x00E m.enc o
  | .isel h m o => encR h 0x00F m.enc o
  | .icmp h m p sa sb sc =>
    word0 h 0x010 m.enc :: word1 (0#3 ++ p) sa.code sb.code sc.code :: (sa.lits ++ sb.lits ++ sc.lits)
  | .ld h m o => encM h 0x020 m.enc o
  | .st h m o => encM h 0x021 m.enc o
  | .at_ h m o => encR h 0x022 m.enc o
  | .msend h o k => encQ h 0x040 o (0#6 ++ k)
  | .mrecv h o k => encQ h 0x041 o (0#6 ++ k)
  | .nsub h o => encQ h 0x042 o 0
  | .phadv h o => encQ h 0x043 o 0
  | .phwait h o => encQ h 0x044 o 0
  | .gbar h o g => encQ h 0x045 o (0#6 ++ g)
  | .gred h o s => encQ h 0x046 o s.enc
  | .gtime h o => encQ h 0x047 o 0
  | .drain h o => encQ h 0x048 o 0
  | .vadd h m o => encR h 0x001 m.enc o
  | .vsub h m o => encR h 0x002 m.enc o
  | .vmul h m o => encR h 0x003 m.enc o
  | .vfma h m o => encR h 0x004 m.enc o
  | .vmin h m o => encR h 0x005 m.enc o
  | .vmax h m o => encR h 0x006 m.enc o
  | .vabs h m o => encR h 0x007 m.enc o
  | .vneg h m o => encR h 0x008 m.enc o
  | .vclamp h m o => encR h 0x009 m.enc o
  | .vand h m o => encR h 0x00A m.enc o
  | .vor h m o => encR h 0x00B m.enc o
  | .vxor h m o => encR h 0x00C m.enc o
  | .vshl h m o => encR h 0x00D m.enc o
  | .vshr h m o => encR h 0x00E m.enc o
  | .vsel h m o => encR h 0x00F m.enc o
  | .vmovs h m o => encR h 0x011 m.enc o
  | .vcmp h m o => encR h 0x010 m.enc o
  | .vcvt h m o => encR h 0x020 m.enc o
  | .vcvtSat h m o => encR h 0x021 m.enc o
  | .vexp h m o => encR h 0x028 m.enc o
  | .vlog h m o => encR h 0x029 m.enc o
  | .vrcp h m o => encR h 0x02A m.enc o
  | .vrsq h m o => encR h 0x02B m.enc o
  | .vrotr h m o => encR h 0x040 m.enc o
  | .vrotc h m o => encR h 0x041 m.enc o
  | .vbcr h m o => encR h 0x042 m.enc o
  | .vbcc h m o => encR h 0x043 m.enc o
  | .vredr h m o => encR h 0x044 m.enc o
  | .vredc h m o => encR h 0x045 m.enc o
  | .vscanr h m o => encR h 0x046 m.enc o
  | .vtrn h m o => encR h 0x047 m.enc o
  | .vext h m o => encR h 0x048 m.enc o
  | .part h m o => encR h 0x049 m.enc o
  | .vld h m o => encM h 0x060 m.enc o
  | .vst h m o => encM h 0x061 m.enc o
  | .vgath h m o => encM h 0x064 m.enc o
  | .vscat h m o => encM h 0x065 m.enc o
  | .vldp h m o => encM h 0x062 m.enc o
  | .vstp h m d base aux ben bidx scale fmt =>
    word0 h 0x063 m.enc :: word1 d.code base.code aux.code (bit ben ++ 0#1 ++ bidx) ::
      (d.lits ++ base.lits ++ aux.lits ++ [0#16 ++ scale ++ fmt])
  | .vlend h r bank => [word0 h 0x070 (bit r ++ 0#7 ++ bank), word1 0xFD 0xFD 0xFD 0xFD]
  | .alease h => encX h 0x001 0 0xFD 0xFD 0xFD 0
  | .arel h => encX h 0x002 0 0xFD 0xFD 0xFD 0
  | .tsclaim h n => encX h 0x008 0 0xFD (0#1 ++ n) 0xFD 0
  | .tsrel h n => encX h 0x009 0 0xFD (0#1 ++ n) 0xFD 0
  | .mcfg h item v => word0 h 0x010 (0#6 ++ item.code) :: word1 0xFD v.code 0xFD 0xFD :: v.lits
  | .mbegin h iacc acc rows => encX h 0x020 (bit iacc ++ 0#9) (0#2 ++ acc) 0xFD 0xFD (rows ++ 0#6)
  | .mloadb h src => encX h 0x021 0 0xFD 0xFD src.code 0
  | .mma h acc src rows kch => encX h 0x022 0 (0#2 ++ acc) src.code 0xFD (rows ++ kch)
  | .mret h acc => encX h 0x023 0 (0#2 ++ acc) 0xFD 0xFD 0
  | .cpy h q o => encK h 0x001 (ckEnc q) o
  | .cpyp h m o => encK h 0x002 m.enc o
  | .cpyr h q o => encK h 0x003 (ckEnc q) o
  | .cdec h q v o => encK h 0x008 (q ++ bit v ++ 0#7) o
  | .cenc h q o => encK h 0x009 (ckEnc q) o
  | .sbind h q o => encK h 0x010 (ckEnc q) o
  | .sunbind h q o => encK h 0x011 (ckEnc q) o
  | .tsfill h q s o => encK h 0x018 (q ++ 0#2 ++ (s.code.setWidth 2) ++ 0#4) o
  | .cbw h q o => encK h 0x020 (ckEnc q) o
  | .xsend h m o => encK h 0x028 m.enc o
  | .xrecv h m o => encK h 0x029 m.enc o
  | .xfree h m o => encK h 0x02A m.enc o
  | .packageReset _ | .mcSample _ _ | .pick | .dispatchArrival _ | .resourceReport _ | .completionReport _
  | .jobComplete _ | .preemptRequest _ | .preemptStop _ | .preemptTimeout _ | .contextSave _ | .saveWatchdogExpiry _
  | .contextRestore _ | .leaseGrant _ | .kicksetWrite _ _ | .kickpendWrite _ _ | .drainreqWrite _ _ | .hqctlRelease _ _
  | .scgoWrite _ _ | .schedMachineCheck _ _ | .schedTakingOver | .hubReset | .resultLand _ _ | .tokenPopResume _ _
  | .glintReplay _ _ _ | .machineCheck _ _ | .failedRecordTimer _ | .arrayRebuild _ _ | .patrolScrub _ _
  | .repairWrite _ _ | .arrtestWrite _ _ | .dieHeartbeat _ | .dieHeartbeatTimeout _ | .dieRailFault _
  | .dieHealthEvent _ _ | .reconfiguration _ | .reconfigRestore _ | .rotationVisit _ | .rotationSkip _
  | .selftestEnd _ _ | .ckptReqWrite _ _ | .checkpointWrite _ | .checkpointMirrorAck _ | .peerHeartbeatSend
  | .peerHeartbeat | .peerHeartbeatMiss | .peerQueryAnswer _ | .peerQueryTimeout | .packageFailure | .facetArrival _ _
  | .decodeTimeout _ _ _ _ | .flowAckSend _ _ | .flowAck _ _ _ _ | .lossNotice _ _ _ _ | .sourceAckTimeout _ _ _ _
  | .pathDown _ _ _ | .pathUp _ _ _ | .laneDegrade _ _ | .permitArrival _ _ | .msgAppendArrival _ _ | .spillMoveIn _ _
  | .msgCreditReport _ _ | .groupEpisodeComplete _ _ | .phaseDoneAdvance _ _ | .translationWalk _ _ _
  | .debugStopEdge _ | .recordWindow _ _ | .replayWindowCheck _ _ | .sensorWrite _ _ _ _ | .sensorEnd _ _
  | .sensorRecord _ | .timeCorrection _ | .lockInterfaceRequest _ | .startInterfaceRequest _ | .stopInterfaceRequest _
  | .flr _ | .ideIntegrityFailure _ | .worldReset _ | .getVersion _ | .getCapabilities _ | .negotiateAlgorithms _
  | .getDigests _ | .getCertificate _ | .challenge _ _ | .getMeasurements _ _ | .keyExchange _ _ | .finish _ _
  | .keyUpdate _ _ | .endSession _ _ | .resync _ _ | .ackErrorRecords _ _ | .modeSet _ _ | .setLeaseParams _ _ _
  | .setFabrate _ _ | .testMode _ _ | .createTdi _ _ _ | .destroyTdi _ _ | .createContext _ _ | .destroyContext _
  | .invalidateTranslations _ _ _ _ | .setSlotCtl _ _ _ | .setSlotDeadline _ _ _ | .setSlotLevelTable _ _ _
  | .setSubmissionRing _ _ _ _ | .setCompletionRing _ _ _ _ | .setSensorRegion _ _ _ _ | .setSensorRecordRing _ _ _ _
  | .setSlotContext _ _ _ | .raiseLevel _ _ | .releaseDie _ _ | .rotationPeriod _ _ | .peerLostToUp _
  | .writeOwnership _ _ _ _ | .installWeightKey _ _ _ _ | .debugStop _ _ _ _ | .debugImageRead _ _ _
  | .debugRegisterWrite _ _ _ _ _ | .debugResume _ _ _ _ | .debugDump _ _ _ | .debugImageWrite _ _ _
  | .selectTimeSource _ _ | .stageFirmware _ _ _ _ | .activateFirmware _ _ | .clearFabricCounters _
  | .packageResetCommand _ _ | .mqcfgWrite _ _ _ | .mqptrHeadWrite _ _ _ | .stickyWrite _ _ _ | .tstatAbandon _ _
  | .trcctlWrite _ _ | .registerWrite _ _ | .mretRetire _ | .quotaStall _ | .cCommandPerformed _ _
  | .mCommandPerformed _ | .streamRowTransfer _ _ | .peerMcQuery | .badCode _ _ | .peerPortDown _ | .peerPortUp _ => []

/-- The instruction of an opcode-table row's bits, numbered as the table numbers them: bit 0 the least significant bit
of the first word, operand words of zeros beyond. Only C32 rows have bits in the table, and every engine reads them
alike; the M engine's environment is used for a special register that S does not have. -/
def decodeTableWord (nbits w : Nat) : Option Instr :=
  let v := w % 2 ^ nbits
  let ws : List Word := (List.range 9).map fun k => BitVec.ofNat 32 (v / 2 ^ (32 * k))
  match (decode ⟨.S, false, false⟩ ws).result with
  | .ok i => some i
  | .error _ =>
    match (decode ⟨.M, false, false⟩ ws).result with
    | .ok i => some i
    | .error _ =>
      match (decode ⟨.C, false, false⟩ ws).result with
      | .ok i => some i
      | .error _ => none

end Sys2Proof
end

