-- ==== Sys2Proof/Machine/Aes.lean ====
section
/-! DEFINITION. AES-256 and GCM as in FIPS 197 and NIST SP 800-38D, over bytes in the order those standards give them
(R291, R292, R340). -/

namespace Sys2Proof.Machine

/-! AES-256. -/

/-- The S-box of FIPS 197. -/
def aesSbox : List Byte :=
  [0x63, 0x7C, 0x77, 0x7B, 0xF2, 0x6B, 0x6F, 0xC5, 0x30, 0x01, 0x67, 0x2B, 0xFE, 0xD7, 0xAB, 0x76,
   0xCA, 0x82, 0xC9, 0x7D, 0xFA, 0x59, 0x47, 0xF0, 0xAD, 0xD4, 0xA2, 0xAF, 0x9C, 0xA4, 0x72, 0xC0] ++
  [0xB7, 0xFD, 0x93, 0x26, 0x36, 0x3F, 0xF7, 0xCC, 0x34, 0xA5, 0xE5, 0xF1, 0x71, 0xD8, 0x31, 0x15,
   0x04, 0xC7, 0x23, 0xC3, 0x18, 0x96, 0x05, 0x9A, 0x07, 0x12, 0x80, 0xE2, 0xEB, 0x27, 0xB2, 0x75] ++
  [0x09, 0x83, 0x2C, 0x1A, 0x1B, 0x6E, 0x5A, 0xA0, 0x52, 0x3B, 0xD6, 0xB3, 0x29, 0xE3, 0x2F, 0x84,
   0x53, 0xD1, 0x00, 0xED, 0x20, 0xFC, 0xB1, 0x5B, 0x6A, 0xCB, 0xBE, 0x39, 0x4A, 0x4C, 0x58, 0xCF] ++
  [0xD0, 0xEF, 0xAA, 0xFB, 0x43, 0x4D, 0x33, 0x85, 0x45, 0xF9, 0x02, 0x7F, 0x50, 0x3C, 0x9F, 0xA8,
   0x51, 0xA3, 0x40, 0x8F, 0x92, 0x9D, 0x38, 0xF5, 0xBC, 0xB6, 0xDA, 0x21, 0x10, 0xFF, 0xF3, 0xD2] ++
  [0xCD, 0x0C, 0x13, 0xEC, 0x5F, 0x97, 0x44, 0x17, 0xC4, 0xA7, 0x7E, 0x3D, 0x64, 0x5D, 0x19, 0x73,
   0x60, 0x81, 0x4F, 0xDC, 0x22, 0x2A, 0x90, 0x88, 0x46, 0xEE, 0xB8, 0x14, 0xDE, 0x5E, 0x0B, 0xDB] ++
  [0xE0, 0x32, 0x3A, 0x0A, 0x49, 0x06, 0x24, 0x5C, 0xC2, 0xD3, 0xAC, 0x62, 0x91, 0x95, 0xE4, 0x79,
   0xE7, 0xC8, 0x37, 0x6D, 0x8D, 0xD5, 0x4E, 0xA9, 0x6C, 0x56, 0xF4, 0xEA, 0x65, 0x7A, 0xAE, 0x08] ++
  [0xBA, 0x78, 0x25, 0x2E, 0x1C, 0xA6, 0xB4, 0xC6, 0xE8, 0xDD, 0x74, 0x1F, 0x4B, 0xBD, 0x8B, 0x8A,
   0x70, 0x3E, 0xB5, 0x66, 0x48, 0x03, 0xF6, 0x0E, 0x61, 0x35, 0x57, 0xB9, 0x86, 0xC1, 0x1D, 0x9E] ++
  [0xE1, 0xF8, 0x98, 0x11, 0x69, 0xD9, 0x8E, 0x94, 0x9B, 0x1E, 0x87, 0xE9, 0xCE, 0x55, 0x28, 0xDF,
   0x8C, 0xA1, 0x89, 0x0D, 0xBF, 0xE6, 0x42, 0x68, 0x41, 0x99, 0x2D, 0x0F, 0xB0, 0x54, 0xBB, 0x16]

def subByte (b : Byte) : Byte := aesSbox.getD b.toNat 0

/-- Multiplication by x in the field of AES. -/
def xtime (b : Byte) : Byte := if b.getLsbD 7 then (b <<< 1) ^^^ 0x1B else b <<< 1

def xorBytes (a b : List Byte) : List Byte := a.zipWith (· ^^^ ·) b

/-- The round constant of step n, from 1. -/
def aesRcon : Nat → Byte
  | 0 => 0x8D
  | n + 1 => xtime (aesRcon n)

/-- The key schedule: n more words after the eight of a window, the next of which has number i. -/
def expandFrom (i : Nat) : Nat → List (List Byte) → List (List Byte)
  | 0, _ => []
  | n + 1, ws =>
    let t := ws.getD 7 []
    let t' :=
      if i % 8 = 0 then
        match t with
        | [a, b, c, d] => [subByte b ^^^ aesRcon (i / 8), subByte c, subByte d, subByte a]
        | t => t
      else if i % 8 = 4 then t.map subByte
      else t
    let w := xorBytes (ws.getD 0 []) t'
    w :: expandFrom (i + 1) n (ws.drop 1 ++ [w])

/-- Pieces of n bytes. -/
def cutBytes (n : Nat) : Nat → List Byte → List (List Byte)
  | 0, _ => []
  | k + 1, bs => bs.take n :: cutBytes n k (bs.drop n)

/-- The 15 round keys of a 32-byte key. -/
def roundKeys (key : List Byte) : List (List Byte) :=
  let ws := cutBytes 4 8 key
  cutBytes 16 15 (ws ++ expandFrom 8 52 ws).flatten

/-- ShiftRows on a block whose columns are its runs of four bytes. -/
def shiftRows (b : List Byte) : List Byte := (List.range 16).map fun i => b.getD ((i + 4 * (i % 4)) % 16) 0

def mixColumn : List Byte → List Byte
  | [a, b, c, d] =>
    let t := a ^^^ b ^^^ c ^^^ d
    [a ^^^ t ^^^ xtime (a ^^^ b), b ^^^ t ^^^ xtime (b ^^^ c), c ^^^ t ^^^ xtime (c ^^^ d), d ^^^ t ^^^ xtime (d ^^^ a)]
  | l => l

def mixColumns (b : List Byte) : List Byte := ((cutBytes 4 4 b).map mixColumn).flatten

/-- The rounds after the first key addition. -/
def aesRounds : List (List Byte) → List Byte → List Byte
  | [], b => b
  | [k], b => xorBytes (shiftRows (b.map subByte)) k
  | k :: ks, b => aesRounds ks (xorBytes (mixColumns (shiftRows (b.map subByte))) k)

/-- The cipher on one 16-byte block. -/
def aesBlock (keys : List (List Byte)) (b : List Byte) : List Byte :=
  match keys with
  | [] => b
  | k :: ks => aesRounds ks (xorBytes b k)

/-! The inverse cipher. -/

def invSubByte (b : Byte) : Byte := BitVec.ofNat 8 (aesSbox.idxOf b)

def invShiftRows (b : List Byte) : List Byte := (List.range 16).map fun i => b.getD ((i + 12 * (i % 4)) % 16) 0

/-- The fourth power of MixColumns is the identity. -/
def invMixColumns (b : List Byte) : List Byte := mixColumns (mixColumns (mixColumns b))

/-- The rounds after the first key addition, the keys in reverse order. -/
def aesUnrounds : List (List Byte) → List Byte → List Byte
  | [], b => b
  | [k], b => xorBytes b k
  | k :: ks, b => aesUnrounds ks ((invShiftRows (invMixColumns (xorBytes b k))).map invSubByte)

def aesUnblock (keys : List (List Byte)) (b : List Byte) : List Byte :=
  match keys.reverse with
  | [] => b
  | k :: ks => aesUnrounds ks ((invShiftRows (xorBytes b k)).map invSubByte)

/-! XTS (R294): data units of 64 bytes, under a key of two halves. -/

/-- A tweak block times α in the field of XTS. -/
def xtsDouble (t : BitVec 128) : BitVec 128 := if t.getLsbD 127 then (t <<< 1) ^^^ 0x87 else t <<< 1

/-- The blocks of a unit, each through a block function between its tweak. -/
def xtsBlocks (f : List Byte → List Byte) : BitVec 128 → List (List Byte) → List Byte
  | _, [] => []
  | t, b :: bs =>
    let m := toBytes 16 t.toNat
    xorBytes (f (xorBytes b m)) m ++ xtsBlocks f (xtsDouble t) bs

/-- A line through a block function under a key's first half, its tweak under the second. -/
def xtsLine (f : List (List Byte) → List Byte → List Byte) (key : BitVec 512) (tweak : Nat) (line : List Byte) : List Byte :=
  let ks := toBytes 64 key.toNat
  let t := aesBlock (roundKeys (ks.drop 32)) (toBytes 16 tweak)
  xtsBlocks (f (roundKeys (ks.take 32))) (BitVec.ofNat 128 (ofBytes t)) (cutBytes 16 4 line)

def xtsEncrypt : BitVec 512 → Nat → List Byte → List Byte := xtsLine aesBlock
def xtsDecrypt : BitVec 512 → Nat → List Byte → List Byte := xtsLine aesUnblock

/-! GCM. -/

/-- The number that bytes write with the most significant first. -/
def ofBytesBe (bs : List Byte) : Nat := ofBytes bs.reverse
def toBytesBe (n : Nat) (v : Nat) : List Byte := (toBytes n v).reverse

/-- The counter block of unit u under an IV of 12 bytes (R292). -/
def gcmCounter (iv : List Byte) (u : Nat) : List Byte := iv ++ toBytesBe 4 (u + 2)

/-- Encrypts or decrypts the 16-byte units of a stream from unit u on. -/
def gcmStream (keys : List (List Byte)) (iv : List Byte) : Nat → List (List Byte) → List Byte
  | _, [] => []
  | u, b :: bs => xorBytes b (aesBlock keys (gcmCounter iv u)) ++ gcmStream keys iv (u + 1) bs

/-- The product of GHASH; bit 127 of a block is its first. -/
def ghashMul (x : BitVec 128) : Nat → BitVec 128 → BitVec 128 → BitVec 128
  | 0, _, z => z
  | n + 1, v, z =>
    let z' := if x.getLsbD n then z ^^^ v else z
    let v' := if v.getLsbD 0 then (v >>> 1) ^^^ (0xE1#128 <<< 120) else v >>> 1
    ghashMul x n v' z'

def ghash (h : BitVec 128) : BitVec 128 → List (List Byte) → BitVec 128
  | y, [] => y
  | y, b :: bs => ghash h (ghashMul (y ^^^ BitVec.ofNat 128 (ofBytesBe b)) 128 h 0) bs

/-- The 16-byte blocks of a run, the last one filled with zeros. -/
def padBlocks (bs : List Byte) : List (List Byte) :=
  let n := (bs.length + 15) / 16
  cutBytes 16 n (bs ++ List.replicate (16 * n - bs.length) 0)

/-- The tag over associated data and ciphertext. -/
def gcmTag (keys : List (List Byte)) (iv aad cipher : List Byte) : List Byte :=
  let h := BitVec.ofNat 128 (ofBytesBe (aesBlock keys (List.replicate 16 0)))
  let len := toBytesBe 8 (8 * aad.length) ++ toBytesBe 8 (8 * cipher.length)
  let y := ghash h 0 (padBlocks aad ++ padBlocks cipher ++ [len])
  xorBytes (toBytesBe 16 y.toNat) (aesBlock keys (iv ++ [0, 0, 0, 1]))

/-- The IV of a tile (R292): TENSOR, TILE, 48 zero bits. -/
def tileIv (tensor tile : BitVec 24) : List Byte :=
  toBytesBe 3 tensor.toNat ++ toBytesBe 3 tile.toNat ++ List.replicate 6 0

end Sys2Proof.Machine
end

