-- ==== Sys2Proof/Machine/Facets.lean ====
section
/-! DEFINITION. Facets: the CRC of R91, the code of R180, the facet header of Table 8.6, and how a source makes the facets of a message
(R178). -/

namespace Sys2Proof.Machine

/-- One bit of CRC-32C, polynomial 0x1EDC_6F41 reflected (R91). -/
def crcBit (c : Word) : Word := if c.getLsbD 0 then (c >>> 1) ^^^ 0x82F63B78 else c >>> 1

def crcBits : Nat → Word → Word
  | 0, c => c
  | n + 1, c => crcBits n (crcBit c)

def crcByte (c : Word) (b : Byte) : Word := crcBits 8 (c ^^^ b.setWidth 32)

/-- The running CRC over bytes, initial value 0xFFFF_FFFF, before the final exclusive-or. -/
def crcRun : Word → List Byte → Word
  | c, [] => c
  | c, b :: bs => crcRun (crcByte c b) bs

def crc32c (bs : List Byte) : Word := crcRun 0xFFFFFFFF bs ^^^ 0xFFFFFFFF

/-! The field of R180. -/

/-- Multiplication by α = 0x02 modulo 0x11D. -/
def gfDouble (b : Byte) : Byte := if b.getLsbD 7 then (b <<< 1) ^^^ 0x1D else b <<< 1

/-- Product, over the low n bits of the first factor. -/
def gfMulBits (b : Byte) : Nat → Nat → Byte
  | 0, _ => 0
  | n + 1, a => (if a % 2 = 1 then b else 0) ^^^ gfMulBits (gfDouble b) n (a / 2)

def gfMul (a b : Byte) : Byte := gfMulBits b 8 a.toNat

def gfPow (b : Byte) : Nat → Byte
  | 0 => 1
  | n + 1 => gfMul b (gfPow b n)

/-- Inverse: the field has 255 nonzero elements. -/
def gfInv (b : Byte) : Byte := gfPow b 254

/-- X[i] = α^i. -/
def gfPoint (i : Nat) : Byte := gfPow 2 i

/-- Lag(i, x, S). -/
def gfLag (i : Nat) (x : Byte) (S : List Nat) : Byte :=
  (S.filter (· ≠ i)).foldl (fun p t => gfMul p (gfMul (x ^^^ gfPoint t) (gfInv (gfPoint i ^^^ gfPoint t)))) 1

/-- Sum of payloads, each multiplied by a coefficient. -/
def gfCombine (L : Nat) (ys : List (Byte × List Byte)) : List Byte :=
  ys.foldl (fun acc y => acc.zipWith (fun a b => a ^^^ gfMul y.1 b) y.2) (List.replicate L 0)

/-- Data facet i from a set of k facets with their payloads. -/
def gfDecode (L : Nat) (fs : List (Nat × List Byte)) (i : Nat) : List Byte :=
  match fs.find? fun f => f.1 = i with
  | some f => f.2
  | none => gfCombine L (fs.map fun f => (gfLag f.1 (gfPoint i) (fs.map (·.1)), f.2))

/-- Parity facet k + j of data facets (Encode of R180). -/
def gfEncode (L k j : Nat) (ds : List (List Byte)) : List Byte :=
  gfCombine L ((List.range k).map fun i => (gfLag i (gfPoint (k + j)) (List.range k), ds.getD i []))

/-- Payload bytes of a facet (R178). -/
def facetLen (len k : Nat) : Nat := 16 * ((len + 16 * k - 1) / (16 * k))

/-- A rate code's k and m (Table 8.5). -/
def rateOf (code : Nat) : Nat × Nat := match code with | 0 => (1, 1) | 1 => (2, 1) | 2 => (4, 2) | _ => (2, 0)

/-- The bytes of a message of `len` bytes from k of its facets (R180, R183). -/
def decodeFacets (len k : Nat) (fs : List (Nat × List Byte)) : List Byte :=
  ((List.range k).flatMap (gfDecode (facetLen len k) fs)).take len

/-- Data facet i of a message: its L bytes, positions beyond the message filled with zero (R178). -/
def dataFacet (L : Nat) (data : List Byte) (i : Nat) : List Byte :=
  let d := (data.drop (i * L)).take L
  d ++ List.replicate (L - d.length) 0

end Sys2Proof.Machine

namespace Sys2Proof

def Facet.cls (f : Facet) : BitVec 3 := f.route.extractLsb' 8 3
def Facet.dstNo (f : Facet) : Nat := (f.route.extractLsb' 4 4).toNat
def Facet.srcNo (f : Facet) : Nat := (f.route.extractLsb' 0 4).toNat
def Facet.k (f : Facet) : Nat := (f.km.extractLsb' 4 4).toNat
def Facet.m (f : Facet) : Nat := (f.km.extractLsb' 0 4).toNat

/-- Header bytes 0 to 11 (Table 8.6). -/
def Facet.header (f : Facet) : List Byte :=
  toBytes 2 f.route.toNat ++ toBytes 2 f.msgid.toNat ++ toBytes 4 f.seq.toNat ++ [f.index, f.km] ++ toBytes 2 f.len.toNat

end Sys2Proof

namespace Sys2Proof.Machine

/-- The facets 0 to k + m − 1 of a message (R178, R180). -/
def facetsOf (src dst : Endpoint) (cls : BitVec 3) (k m : Nat) (msgid : Half) (seq : Word) (data : List Byte) : List Facet :=
  let L := facetLen data.length k
  let ds := (List.range k).map (dataFacet L data)
  (List.range (k + m)).map fun i =>
    let f : Facet :=
      { route := BitVec.ofNat 16 (256 * cls.toNat + 16 * dst.val + src.val), msgid := msgid, seq := seq, index := BitVec.ofNat 8 i,
        km := BitVec.ofNat 8 (16 * k + m), len := BitVec.ofNat 16 data.length, crc := 0,
        payload := if i < k then ds.getD i [] else gfEncode L k (i - k) ds }
    { f with crc := crc32c (f.header ++ f.payload) }

end Sys2Proof.Machine
end

