-- ==== Sys2Proof/Machine/Map.lean ====
section
/-! DEFINITION. Sparse storage by key in ONE canonical form: keys strictly rising, no entry equal to what an unlisted
key reads as. Main memory, tile payloads and every other sparse table of the machine are kept so, so that equal
contents are equal data. -/

namespace Sys2Proof.Machine

/-- Key and value pairs; `d` below is what an unlisted key reads as. -/
abbrev CMap (β : Type) := List (Nat × β)

variable {β : Type}

/-- The value at key k. -/
def CMap.get (d : β) : CMap β → Nat → β
  | [], _ => d
  | (j, v) :: m, k => if j = k then v else CMap.get d m k

/-- The map without key k. -/
def CMap.erase : CMap β → Nat → CMap β
  | [], _ => []
  | (j, v) :: m, k => if j = k then m else if k < j then (j, v) :: m else (j, v) :: CMap.erase m k

/-- The map with v at key k, v not the value of an unlisted key. -/
def CMap.insert : CMap β → Nat → β → CMap β
  | [], k, v => [(k, v)]
  | (j, w) :: m, k, v =>
    if k < j then (k, v) :: (j, w) :: m else if k = j then (k, v) :: m else (j, w) :: CMap.insert m k v

/-- A write of v at key k; writing what an unlisted key reads as removes the entry. -/
def CMap.set [DecidableEq β] (d : β) (m : CMap β) (k : Nat) (v : β) : CMap β :=
  if v = d then CMap.erase m k else CMap.insert m k v

/-- The map with every key of [lo, hi) back to the value of an unlisted key. -/
def CMap.clear : CMap β → Nat → Nat → CMap β
  | [], _, _ => []
  | (j, v) :: m, lo, hi => if lo ≤ j ∧ j < hi then CMap.clear m lo hi else (j, v) :: CMap.clear m lo hi

/-- Every key of the map is at least b, and they rise strictly. -/
def CMap.risesFrom : Nat → CMap β → Bool
  | _, [] => true
  | b, (j, _) :: m => b ≤ j && CMap.risesFrom (j + 1) m

/-- No listed value is what an unlisted key reads as. -/
def CMap.noDefault [DecidableEq β] (d : β) : CMap β → Bool
  | [] => true
  | (_, v) :: m => v ≠ d && CMap.noDefault d m

/-- The canonical form. -/
def CMap.wf [DecidableEq β] (d : β) (m : CMap β) : Bool := CMap.risesFrom 0 m && CMap.noDefault d m

end Sys2Proof.Machine
end

