-- ==== Sys2Proof/Machine/Types.lean ====
section
/-! DEFINITION. The plain data a compute core holds: engines, results in flight, command queues, the matrix chain, tile
slots, stream registers and message queues (02, 06, 10, 11 and the instruction reference). -/

namespace Sys2Proof.Machine

/-- A main or last-result register: element 64·row + col (R117). -/
abbrev VReg := Vector Word 1024
/-- An operand register, one row (R117). -/
abbrev VRow := Vector Word 64

/-- What every write of a job carries (R163, R166): the die it was issued on, and its phase vector, whose component for that die is
the stamp; and how many of the package's writes may be causally before it (R154): those performed by its issue, or by the last command
before it in its queue. -/
structure Stamp where
  die : Vd
  vec : Vector Word 8
  since : Nat
  deriving DecidableEq, Repr

/-- Of a command that makes no write. -/
def Stamp.zero : Stamp := { die := 0, vec := Vector.replicate 8 0, since := 0 }

/-- CUR of the slot on the issuing die, in the ec of issue (R163). -/
def Stamp.n (t : Stamp) : Word := t.vec[t.die]

/-- The phase weight (R166): the exact sum of the components. -/
def Stamp.weight (t : Stamp) : Nat := (t.vec.toList.map (·.toNat)).sum

/-- What the tie order of two writes asks of a write (R160): its phase weight, its die, with H as 8, the host as 9 and the peer as 10, and
its place in the order in which writes are performed. A byte that nothing has raced for has no place, 0. -/
structure Commit where
  weight : Nat
  die : Nat
  at_ : Nat
  deriving DecidableEq, Repr

def Commit.none : Commit := { weight := 0, die := 0, at_ := 0 }

/-- A write about to be performed: its keys, the writes that may be causally before it, and whether it has waited in a queue. -/
structure Tie where
  weight : Nat
  die : Nat
  since : Nat
  queued : Bool
  deriving DecidableEq, Repr

/-- Of a queued write. -/
def Stamp.tie (t : Stamp) : Tie := { weight := t.weight, die := t.die.val, since := t.since, queued := true }

/-- A write of SC0, SC1 or another agent at H, performed as it is issued (R166). -/
def Tie.hub (n : Nat) : Tie := { weight := 0, die := 8, since := n, queued := false }

/-- The write that stands at a byte is concurrent with this one, which has not seen it, and later in tie order: it stays (R160, R161). -/
def Tie.beaten (t : Tie) (c : Commit) : Bool :=
  t.since < c.at_ && (t.weight < c.weight || (t.weight = c.weight && t.die < c.die))

/-- The write is one of phase n of a die. -/
def Stamp.is (t : Stamp) (vd : Vd) (n : Word) : Bool := t.die = vd && t.n = n

/-- Where a landing result is written; vector registers are physical (R237). -/
inductive Write where
  | a (n : BitVec 4) (v : Dword)
  | lc (n : BitVec 2) (v : Dword)
  | x (n : BitVec 5) (v : Dword)
  | p (n : BitVec 5) (v : Bool)
  | sr (n : BitVec 10) (v : Dword)
  | v (n : BitVec 6) (r : VReg)
  | o (n : BitVec 3) (r : VRow)
  | l (n : BitVec 2) (r : VReg)
  | push (q : BitVec 3) (r : VReg) (stamp : Stamp)
  deriving DecidableEq, Repr

/-- What the trap of a lost read needs (R453): the read's address, whether it stood in a delay slot, the faulting
address, whether its loop-end action took place at its first issue, and the WAIT mask of the tokens it popped. -/
structure LostRead where
  epc : Dword
  ds : Bool
  va : Dword
  ended : Bool
  wait : BitVec 3
  deriving DecidableEq, Repr

/-- A result in flight (R227, R254): when it lands, what it writes, its flags and its token pushes (R205). -/
structure Flight where
  issuedAt : Nat := 0
  landAt : Nat
  writes : List Write
  flags : FlagSet
  sig : BitVec 3
  lost : Option LostRead
  deriving DecidableEq, Repr

/-- An active loop (R234): first address of the body, address of a word of its end instruction, counter, ROT, STG. -/
structure LoopEntry where
  start : Dword
  end_ : Dword
  lc : BitVec 2
  rot : Bool
  stg : BitVec 4
  deriving DecidableEq, Repr

/-- What landed on predicates and loop counters at the start of this schedule cycle (R326): the values before, and
which registers were written. -/
structure Latch where
  pOld : BitVec 32
  lcOld : Vector Dword 4
  pMask : BitVec 32
  lcMask : BitVec 4
  deriving DecidableEq, Repr

/-- A completion-word write that faulted (R248): its cause, the code it could not write, its index; `again` when a
second one has followed while it was pending. -/
structure Deferred where
  cause : Byte
  code : Half
  cwi : Half
  again : Bool
  deriving DecidableEq, Repr

/-- What a stream reports of a declared loss (Table 8.7): the address of the first lost write, or the queue and target
core of the first lost append. -/
inductive LossReport where
  | write (va : Dword)
  | append (queue : BitVec 2) (core : CoreId)
  deriving DecidableEq, Repr

/-- What a frozen engine waits on (Tables 2.7, 10.3). -/
inductive Wait where
  | tokens (mask : BitVec 3)
  | landing
  | streamPop (q : BitVec 3)
  | streamPush (q : BitVec 3)
  | unbind (q : BitVec 3) (cycle : Nat)
  | fence (scope : BitVec 3)
  | drain
  | rendStreams
  | rendDrain
  | queueFull (q : BitVec 2)
  | queueOrder
  | lease
  | retirement
  | release (n : BitVec 7)
  | quota (since : Nat)
  | message (k : BitVec 2)
  | group (entry : Byte) (episode : Nat)
  | groupDone (value : Dword) (flags : FlagSet)
  | phase (vd : Vd) (v : Word)
  | ring
  | link
  | replay
  deriving DecidableEq, Repr

/-- One engine of a core (R37, R38, R200, R206, R227, R231, R234, R237, R240 to R250, R374). `fencing`: a TFENCE has issued and
holds the engine's issue (R116). -/
structure Engine where
  started : Bool
  ended : Bool
  pc : Dword
  after : Option Dword
  ds : Bool
  a : Vector Dword 16
  lc : Vector Dword 4
  p : BitVec 32
  x : Vector Dword 32
  loops : List LoopEntry
  latch : Latch
  noEnd : Bool
  rrb : BitVec 5
  scycle : Nat
  flights : List Flight
  cause : Dword
  epc : Dword
  enpc : Dword
  tdetail : Dword
  tvec : Dword
  tscr0 : Dword
  tscr1 : Dword
  hm : Bool
  epcDone : Bool
  deferred : Option Deferred
  sticky : FlagSet
  trapen : FlagSet
  tokceil : BitVec 24
  cwa : Dword
  replays : BitVec 32
  escal : Byte
  frozen : Option Wait
  fencing : Bool
  popDone : Bool
  slotFree : Vector Nat 4
  divFree : Nat
  lost : Option LossReport
  seqCount : Nat
  winCrc : Word
  winAt : Nat
  deriving DecidableEq, Repr

/-- A running job (R35 to R41, R48, R284). `standIn` is the core whose group arrivals it counts: its own, or the one it
was saved on (R255); `leasePrio` the priority its array requests are placed at until its next ALEASE (R56). -/
structure Job where
  node : Word
  ctx : CtxId
  standIn : CoreId
  slot : SlotId
  dev : DevId
  world : World
  eng : BitVec 4
  imgBase : Dword
  imgLen : Nat
  spNeed : Nat
  tsNeed : Nat
  persist : Bool
  gvalid : BitVec 4
  gidx : BitVec 32
  arg0 : Dword
  arg1 : Dword
  leasePrio : BitVec 3
  deriving DecidableEq, Repr

/-- Core health: live, or in umbra (R252, R253). -/
inductive Health where
  | live | umbra
  deriving DecidableEq, Repr

/-- The accumulator group, working values and outcome of a matrix chain (R366). -/
inductive ChainState where
  | none | open | failed | retiring
  deriving DecidableEq, Repr

/-- The matrix chain of a core (R366, R369, R371). `fail` keeps the first failure code and its PROGRESS; `count` is the
number of MMA issued, `done` of MMA performed; `work` holds the working values of the group's registers from the
performance of MBEGIN on. -/
structure Chain where
  state : ChainState
  vbase : BitVec 6
  rows : Nat
  iacc : Bool
  count : Nat
  done : Nat
  fail : Option (Half × Nat)
  work : List VReg
  flags : FlagSet
  deriving DecidableEq, Repr

/-- The MCFG items (Table 17.4). -/
structure Mcfg where
  ncol : Nat
  arowbase : Nat
  kbase : Nat
  atrans : Bool
  btrans : Bool
  swz : Nat
  deriving DecidableEq, Repr

/-- An operand element of the array: its code, its width class's format byte and its scale byte (R108). -/
structure Elem where
  code : Half
  fmt : Byte
  scale : Byte
  deriving DecidableEq, Repr

/-- A stationary buffer (R367, R377): rows, their depth D, and the code of a failed load, if poisoned. -/
structure Stationary where
  depth : Nat
  rows : List (List Elem)
  poison : Option Half
  deriving DecidableEq, Repr

/-- The header of a tile slot as its last completed fill left it (Tables 6.3, 6.4); FILLING is derived from the counts
of fills in `TileSlot`. -/
inductive Fill where
  | free | empty | full | faulted
  deriving DecidableEq, Repr

structure TileHdr where
  tensor : BitVec 24
  tile : BitVec 24
  owner : Fin 6
  world : World
  enc : Bool
  fill : Fill
  swz : BitVec 4
  wc : BitVec 2
  err : Half
  deriving DecidableEq, Repr

/-- One line of a slot: 64 payload bytes and the block's tag (R127). -/
structure TileLine where
  data : BitVec 512
  fmt : Byte
  scale : Byte
  deriving DecidableEq, Repr

/-- A tile slot (R127 to R131): header, lines by row·L + l, how many fills have been issued and have ended, and when the last was
issued (R404); `dropped` in a restored job whose requeued fill has not ended (R255). -/
structure TileSlot where
  hdr : TileHdr
  lines : CMap TileLine
  issued : Nat
  issuedAt : Nat
  done : Nat
  dropped : Bool
  deriving DecidableEq, Repr

/-- A source of the array as a command carries it: a slot with the count of fills it was issued after (R131), or the
rows popped from a stream at issue (R365) with the width class of its FMT, the flags of their decoding, and the code of
popped data that was lost or uncorrectable (R369). -/
inductive MSrc where
  | slot (n : BitVec 7) (fills : Nat)
  | stream (rows : List (List Elem)) (cls : BitVec 2) (flags : FlagSet) (bad : Option Half)
  deriving DecidableEq, Repr

/-- A translation cached on a die, or in a core (R147): context, page base and size, and the leaf entry. -/
structure TlbEntry where
  vd : Vd
  ctx : CtxId
  base : Nat
  size : Nat
  leaf : Dword
  deriving DecidableEq, Repr

/-- The commands of the M queue (R365), markers included (R157, R407). `off` is a guarded-off command (R204). An MLOADB is
`quiet` once the chain it was issued in is abandoned: it sets no flag and writes no completion word (R111, R366). One that has been
performed ahead of its place (R376) leaves there what its chain is to take: its flags, or the code it failed with. -/
inductive MOp where
  | mbegin
  | mloadb (src : MSrc) (quiet : Bool)
  | loaded (flags : FlagSet)
  | loadFailed (code : Half)
  | mma (row : Nat) (rows : Nat) (k : Nat) (src : MSrc)
  | mret
  | mcfg (item : McfgItem) (v : Nat)
  | arel
  | token
  | fence (scope : BitVec 3)
  | off
  deriving DecidableEq, Repr

/-- A queued M command with its token pushes and the phase stamp of its writes (R163). -/
structure MCmd where
  op : MOp
  sig : BitVec 3
  stamp : Stamp
  deriving DecidableEq, Repr

/-- The stream descriptor as bound (Table 6.10). -/
structure StreamDesc where
  base : Dword
  engM : Bool
  bound : BitVec 6
  boundEn : Bool
  drain : Bool
  pane : Bool
  rowMode : Bool
  sat : Bool
  rnd : Rnd
  scale : Byte
  fmt : Byte
  counts : List Nat
  strides : List Int
  deriving DecidableEq, Repr

/-- What a stream holds for one pop or push (R143, R144): the elements as binary32 and, for the M engine, as array
elements, with the flags of widening; or what the pop raises. -/
inductive StreamItem where
  | rows (vals : VReg) (codes : List (List Elem)) (flags : FlagSet)
  | fault (cause : Byte) (detail : Dword) (code : Half)
  | lost (va : Dword)
  | machineCheck (info : McInfo)
  deriving DecidableEq, Repr

/-- A buffered pop or push: the row position it starts at, its contents, and the stamp of a push's writes (R163). -/
structure StreamBuf where
  pos : Nat
  item : StreamItem
  stamp : Stamp
  deriving DecidableEq, Repr

/-- A fault found when pushed rows were written (R412): its cause, detail and completion-word code, and the machine check it raises when
a word of a pane to be merged cannot be corrected (R262). -/
structure DrainFault where
  cause : Byte
  detail : Dword
  code : Half
  info : Option McInfo
  deriving DecidableEq, Repr

/-- A bound stream register (R142 to R145): the next row position to fetch, or the rows pushed so far; buffered pops or
pushes; the first loss of a drain (`err`); a fault found after its push; whether a trap has reported it, so that the rows
are written again after ERET (R412); and the panes or lines written. -/
structure Stream where
  desc : StreamDesc
  pos : Nat
  buf : List StreamBuf
  err : Option Half
  fault : Option DrainFault
  rewrite : Bool
  written : Nat
  deriving DecidableEq, Repr

/-- The commands of a C queue (R320), markers included. A marker that stands in several queues carries its number; SUNBIND
of a drain stream carries the stream, whose pushed rows it writes (R399). -/
inductive COp where
  | cpy | cpyp (m : ModCP) | cpyr | cdec (vonly : Bool) | cenc
  | sunbind (drain : Option Stream)
  | tsfill (slot : BitVec 7) (swz : Swz) (fillNo : Nat)
  | cbw | xsend (ch : BitVec 3) (dir : Bool) | xrecv (ch : BitVec 3) (dir : Bool) | xfree (ch : BitVec 3) (dir : Bool)
  | token (id : Nat)
  | fence (id : Nat) (scope : BitVec 3)
  | off
  deriving DecidableEq, Repr

/-- A queued C command: operands read at issue, completion index, token pushes, and the phase stamp of its writes
(R163). `permit` is set once an XSEND has taken its permit (R435): buffer ping = false, pong = true. -/
structure CCmd where
  op : COp
  adr : Dword
  aux : Dword
  cwi : Half
  sig : BitVec 3
  stamp : Stamp
  permit : Option Bool
  deriving DecidableEq, Repr

/-- A message queue (Tables 6.8, 6.9); `report` when a credit report is due (R380). -/
structure MsgQueue where
  en : Bool
  log2n : Nat
  base : Nat
  tail : Word
  head : Word
  report : Bool
  deriving DecidableEq, Repr

/-- A debugger attached to a core (R303, R304): the world of its function, and whether its command came through an IDE stream. -/
structure Debugger where
  world : World
  ide : Bool
  deriving DecidableEq, Repr

/-- A debug stop (R301 to R303): the engine whose cycle is named, or none for a stop at once, and whether the core has
stopped. -/
structure DebugStop where
  at_ : Option (Eng × Nat)
  stopped : Bool
  deriving DecidableEq, Repr

/-- A pre-emption in progress (R76, R77): when the request was made, whether it has reached the core, whether the
engines have stopped, when the save began and how often its watchdog has expired. -/
structure Preempt where
  since : Nat
  asked : Bool
  stopped : Bool
  saveBegun : Nat
  expiries : Nat
  deriving DecidableEq, Repr

/-- A core: 0 to 47 compute cores, 48 and 49 SC0 and SC1, which use only their S engine, health and margin (R18).
`mpop` holds what the M instruction at issue has popped so far (R365), `arels` the SIG masks of AREL commands that end with
an open chain (R330), `ending` the abort that waits for a C command in progress (R245): code, cause, and whether the node is
cancelled; `lentPrev` the ownership that the M engine still sees in the ec `lentAt` of a VLEND (R124); `exits` the engines that have left a
loop in this ec, with their SCYCLE (R299); `lastCtx` the context of the job last on the core (R309); `mtlb` the micro-TLB (R147). -/
structure Core where
  eS : Engine
  eV : Engine
  eM : Engine
  eC : Engine
  job : Option Job
  lastWorld : World
  lastCtx : Option CtxId
  health : Health
  tokens : Vector Nat 16
  vmain : Vector VReg 64
  vop : Vector VRow 8
  vlast : Vector VReg 4
  lent : BitVec 4
  lentPrev : BitVec 4
  lentAt : Nat
  mq : List MCmd
  chain : Chain
  mpop : List (BitVec 3 × StreamBuf)
  arels : List (BitVec 3)
  stat : Stationary
  statOld : Stationary
  mcfg : Mcfg
  tssel : BitVec 7
  tiles : Vector TileSlot 64
  cq : Vector (List CCmd) 4
  markers : Nat
  streams : Vector (Option Stream) 8
  mqs : Vector MsgQueue 4
  cal : Byte
  step : BitVec 3
  repair : Dword
  arrtestRaw : Bool
  ckptReq : Bool
  trcctl : BitVec 3
  drops : Word
  conflicts : CMap Nat
  exits : List (Eng × Nat)
  mtlb : List TlbEntry
  debugger : Option Debugger
  dbg : Option DebugStop
  preempt : Option Preempt
  spillSeq : Nat
  ending : Option (Half × Byte × Bool)
  deriving DecidableEq, Repr

end Sys2Proof.Machine
end

