-- ==== Sys2Proof/Machine/PkgTypes.lean ====
section
/-! DEFINITION. The plain data of the package outside its cores: contexts, nodes, the MD, the dies, the fabric, the
CFM, the MC and the host port (01, 03, 08, 12 to 15, 21). -/

namespace Sys2Proof.Machine

/-- The modes of Table 1.8. -/
inductive Mode where
  | m1 | m2 | m8
  deriving DecidableEq, Repr

/-- How a context records (Table 15.3, offset 0x30). -/
inductive RecMode where
  | off | record | replay
  deriving DecidableEq, Repr

/-- An entry of a bound table (Table 6.13). -/
structure BoundEntry where
  high : Word
  low : Word
  valid : Bool
  action : BitVec 2
  ty : BitVec 2
  deriving DecidableEq, Repr

/-- An entry of an exchange table (Table 8.9), as two dwords. -/
structure XchEntry where
  valid : Bool
  rcore : Nat
  size : Nat
  pong : Nat
  ping : Nat
  deriving DecidableEq, Repr

/-- The states of an exchange buffer (Table 8.10); DETACHED belongs to the direction. -/
inductive XBuf where
  | free | filling | full (lines : Nat) (marked : Bool) | held | returning
  deriving DecidableEq, Repr

/-- An exchange direction of a context (R190, R191, R435): attached core, the two buffers (ping, pong), permits at the
sending die, and which buffer the next send fills, the next receive takes, the next free returns. -/
structure XDir where
  attached : Option CoreId
  ping : XBuf
  pong : XBuf
  permits : Nat
  nextFill : Bool
  nextRecv : Bool
  nextFree : Bool
  deriving DecidableEq, Repr

/-- A path between two endpoints, the lower first, and its number. -/
abbrev PathKey := Endpoint × Endpoint × Fin 3

/-- A message append on its way to its target (R138): its sender, the core whose group arrivals the sender's job counts, context, target,
queue and 64 bytes; `spill` when the sender has sent it to the spill ring. One that crosses the fabric stands in its facets, each on
its path (R179), under the SEQ of its flow. -/
structure Append where
  from_ : CoreId
  member : CoreId
  seq : Nat
  ctx : CtxId
  slot : SlotId
  stamp : Stamp
  target : CoreId
  queue : BitVec 2
  data : BitVec 512
  spill : Bool
  msgSeq : Option Word
  facets : List (PathKey × Facet)
  deriving DecidableEq, Repr

/-- An entry spilled for a queue (R138): the target, the queue and its 64 bytes. -/
structure Spilled where
  target : CoreId
  queue : BitVec 2
  data : BitVec 512
  deriving DecidableEq, Repr

/-- A context (Table 15.3, R47, R149, R189, R291, R300, R306, R312). `producers` records, for each output pair, the
die that last produced it (R45). -/
structure Context where
  fn : HostFn
  dev : DevId
  world : World
  root : Dword
  groups : List (Option (BitVec 48))
  bounds : List BoundEntry
  xch : List XchEntry
  xdirs : List XDir
  spillBase : Dword
  spillQuota : Nat
  spilled : List Spilled
  quotaWait : Half
  recMode : RecMode
  recState : BitVec 2
  recUsed : Nat
  savePool : Dword
  saveSize : Nat
  traceBase : Dword
  traceLog2 : Nat
  traceOn : Bool
  logBase : Dword
  logSize : Nat
  paneStart : List Nat
  paneLen : List Nat
  key : Option (BitVec 256)
  nextId : Nat
  arrivals : CMap Nat
  producers : List ((BitVec 24 × BitVec 24) × Vd)
  deriving DecidableEq, Repr

/-- Node states (Table 2.4). -/
inductive NodeState where
  | waiting | ready | running | complete | failed | cancelled
  deriving DecidableEq, Repr

/-- Token counts, and the arrival counts of the bound group entries (Table 11.16). -/
structure CountBlock where
  tokens : List Nat
  arrivals : List Nat
  deriving DecidableEq, Repr

/-- What a context save keeps (R254): the place of the image in the context's memory, which holds the scratchpad too when PERSIST = 1;
and, so that blocks whose layout is not specified can be read back (log 30), the core as it stopped, the counts of its group entries and
the tile slots it claims. -/
structure SaveImage where
  core : Core
  from_ : CoreId
  counts : CountBlock
  tiles : List (BitVec 7 × TileSlot)
  addr : Nat
  incomplete : Bool
  deriving DecidableEq, Repr

/-- An accepted node of the graph store (R28 to R36). -/
structure Node where
  ctx : CtxId
  id : Word
  state : NodeState
  slot : SlotId
  cls : BitVec 2
  eng : BitVec 4
  persist : Bool
  imgBase : Dword
  imgLen : Nat
  ents : List Nat
  spNeed : Nat
  tsNeed : Nat
  gvalid : BitVec 4
  gidx : BitVec 32
  arg0 : Dword
  arg1 : Dword
  ins : List (BitVec 24 × BitVec 24)
  outs : List (BitVec 24 × BitVec 24)
  deps : List Word
  readyAt : Nat
  core : Option CoreId
  lastDie : Option Vd
  pickedAt : Nat
  hostTag : Dword
  cause : Byte
  released : Bool
  image : Option SaveImage
  deriving DecidableEq, Repr

/-- A completion report in the hold queue (R65, R449), or a completion record still to be written (R315): the node, its
kind and cause, the time and journal sequence of its journal entry. -/
structure HeldReport where
  ctx : CtxId
  id : Word
  kind : Byte
  cause : Byte
  slot : SlotId
  tag : Dword
  time : Dword
  seq : Dword
  deriving DecidableEq, Repr

/-- A drain of a slot's submission ring that waits for room in its completion ring (R448, R315): whose store began it, the next index and
the PROD it has read. -/
structure Drain where
  sc1 : Bool
  slot : SlotId
  at_ : Nat
  stop : Nat
  deriving DecidableEq, Repr

/-- A journal entry (Table 21.5). -/
structure JEntry where
  kind : Byte
  slot : Byte
  core : Byte
  node : Word
  ctx : Word
  aux : Word
  time : Dword
  deriving DecidableEq, Repr

/-- Scheduler core roles (Table 21.4). -/
inductive Role where
  | active | standby | takingOver | failed
  deriving DecidableEq, Repr

/-- Slot states (Table 12.5). -/
inductive SlotState where
  | normal | draining | restoring | nofit | taken | rotation
  deriving DecidableEq, Repr

/-- A ring in host memory (R314, R315): its address and log2 of its entries, with the device's own count. -/
structure Ring where
  addr : Dword
  n : Nat
  count : Nat
  deriving DecidableEq, Repr

/-- A level entry (Table 12.4). -/
structure LevelEntry where
  valid : Bool
  rot : Bool
  minM : Nat
  minC : Nat
  total : Nat
  pairs : Nat
  restart : Dword
  deriving DecidableEq, Repr

/-- A level table as the MD read it (R266). -/
structure LevelTable where
  take : Bool
  pmir : Bool
  entries : List LevelEntry
  ranges : List (Dword × Nat)
  deriving DecidableEq, Repr

/-- A complete checkpoint image (R270 to R273): sequence, and the bytes of the ranges with their range starts. -/
structure CkptImage where
  seq : Nat
  data : List (Nat × CMap Byte)
  bad : Bool
  deriving DecidableEq, Repr

/-- A stream slot (R55, R268, R314, R315, R317, R455, R271). `mirrorErr` is the code that ended the last copy to the peer
(R197), `unacked` the sequences it has not acknowledged, oldest first; `peerImages` are the images that the peer mirrored to this shadow
slot, by keeper (R270), and `incoming` is the one being
received; `mirrored` are the copies sent to the peer, newest first. -/
structure Slot where
  open_ : Bool
  preempt : Bool
  world : World
  prio : BitVec 3
  deadline : Dword
  svt : Dword
  gen : Byte
  state : SlotState
  level : BitVec 3
  ctx : Option CtxId
  sub : Option Ring
  comp : Option Ring
  senBase : Dword
  senSize : Nat
  senRing : Option Ring
  table : Option LevelTable
  shadow : Bool
  reserved : Nat
  last : BitVec 24
  lastPeer : BitVec 24
  images : List (Vd × List CkptImage)
  peerImages : List (Vd × List CkptImage)
  incoming : Option CkptImage
  mirrored : List CkptImage
  ckptPending : List Word
  mirroring : Bool
  unacked : List Nat
  mirrorErr : Half
  senOpen : Option Nat
  senFirst : Dword
  senLast : Dword
  senSeq : Word
  senDrops : Nat
  senLen : Option Dword
  deriving DecidableEq, Repr

/-- Die states (Table 12.1). -/
inductive DieState where
  | healthy | selftest | umbra | lost
  deriving DecidableEq, Repr

/-- The C-die array lease (R71, R72). Requests are kept with the grants that have passed them over. -/
structure Lease where
  holder : Option (Fin 6)
  count : Nat
  ending : Bool
  requests : List (Fin 6 × BitVec 3 × Nat)
  lastGrant : Option (Fin 6)
  deriving DecidableEq, Repr

/-- A die's resource report as the MD holds it (R60): free cores, scratchpad size of each free core in pages of 4 KiB, free
tile slots per core (M) or in the pool (C), lease load. -/
structure DieView where
  free : BitVec 6
  scratch : List Nat
  tiles : List Nat
  load : Nat
  deriving DecidableEq, Repr

/-- Credits a die holds for a target core and queue (R380): the free entries last reported, less those sent. -/
abbrev Credits := CMap Nat

/-- A virtual die (12, 01 R21, 06 R127, 07 R163, R166, 08 R188). `epoch` counts the reconfigurations after which the
contents of its DRAM became undefined (R276); `testing` says that the test after a host release runs (R258), `full` that a repair found
no free spare in the current test (R264); `advances` are the slots
of the PHADVs of this ec, whose steps take effect at its end (R391). -/
structure Die where
  state : DieState
  testing : Bool
  phase : CMap Word
  advances : List SlotId
  lease : Lease
  tiles : Vector TileSlot 128
  credits : Credits
  spares : CMap Nat
  lastBeat : Nat
  thermal : Nat
  thermalAt : Nat
  temp : Nat
  railOn : Bool
  view : DieView
  full : Bool
  rebuilds : Nat
  escalations : Nat
  lost : Nat
  stopDispatch : Bool
  epoch : Nat
  deriving DecidableEq, Repr

/-- A message in a decode buffer (R182, R183). -/
structure DecodeBuf where
  src : Endpoint
  cls : BitVec 3
  seq : Word
  msgid : Half
  k : Nat
  m : Nat
  len : Nat
  facets : List (Nat × List Byte)
  since : Nat
  deriving DecidableEq, Repr

/-- A message decoded and not yet released (R184), or delivered to its unit. -/
structure Message where
  src : Endpoint
  cls : BitVec 3
  seq : Word
  msgid : Half
  bytes : List Byte
  deriving DecidableEq, Repr

/-- Who is told of the loss of a message, by its MSGID (R178, Table 8.7): an S or V stream, for a write or an append; the copy of a
slot's checkpoint to the peer (R197); nobody beyond the CFM, or who the step that sends it tells (log 51); or nobody, and no record is
kept, for an acknowledgement (log 74). -/
inductive Issuer where
  | stream (u : UnitId) (e : Eng) (what : LossReport)
  | mirror (k : SlotId) (copy : Nat)
  | other
  | ack
  deriving DecidableEq, Repr

/-- A message a source keeps until it is acknowledged (R185). -/
structure Sent where
  seq : Word
  msgid : Half
  at_ : Nat
  who : Issuer
  deriving DecidableEq, Repr

/-- One direction of a flow (SRC, DST, CLASS) (R178, R184, R185): at the source the next SEQ and the outstanding
messages; at the destination the next SEQ to release, the lost ones ahead of it, and for a flow of the peer the N last
acknowledged. -/
structure Flow where
  src : Endpoint
  dst : Endpoint
  cls : BitVec 3
  nextSeq : Word
  outstanding : List Sent
  release : Word
  lostAhead : List Word
  acked : Word
  deriving DecidableEq, Repr

/-- An endpoint as a destination (R181 to R184, R188): decode buffers; the times at which messages not yet released were decoded,
which start the timers of the SEQs before them (R183); facets that wait for a buffer at the ingress of a module, with their arrival
times; decoded messages; what has been delivered to the endpoint's units; and FABCNT0 to FABCNT3. -/
structure EndPt where
  bufs : List DecodeBuf
  timers : List (Endpoint × BitVec 3 × Word × Nat)
  ingress : List (Module × Nat × Facet)
  decoded : List Message
  delivered : List Message
  cnt : List Dword
  deriving DecidableEq, Repr

/-- An arrival at a group episode (R354 to R356). -/
structure Arrival where
  ctx : CtxId
  entry : Byte
  core : CoreId
  episode : Nat
  sel : Option SelG
  operand : Dword
  deriving DecidableEq, Repr

/-- A dispatch on its way to a core (R62). -/
structure Dispatch where
  ctx : CtxId
  id : Word
  core : CoreId
  deriving DecidableEq, Repr

/-- TDI states (Table 13.2). -/
inductive TdiState where
  | unlocked | locked | run | error
  deriving DecidableEq, Repr

/-- A TDI (R288, R289): the device it was created on, its state, the configuration frozen when it was locked, and the
ownership entries its reset has locked; `step` is the next step of Table 13.3 while its sequence runs, `unlocks` whether the sequence
goes on to step 6, `runs` the pane-store bytes it has still to scrub, from and to; `ide` says that the keys of its IDE stream are in
place. -/
structure Tdi where
  dev : DevId
  state : TdiState
  frozen : List Byte
  locked : List Nat
  step : Option Nat
  unlocks : Bool
  runs : List (Nat × Nat)
  ide : Bool
  deriving DecidableEq, Repr

/-- A mailbox of a function (R311): TAG, STATUS and BUSY of MBSTAT and the last response. -/
structure Mailbox where
  fn : HostFn
  tag : Half
  status : Byte
  busy : Bool
  response : List Byte
  deriving DecidableEq, Repr

/-- The CFM's reconfiguration of a device (R275): idle, draining, restoring. -/
inductive CfmPhase where
  | idle | drain | restore
  deriving DecidableEq, Repr

/-- Peer states (Table 12.8). -/
inductive PeerState where
  | up | suspect | partitioned | lost
  deriving DecidableEq, Repr

/-- A record the CFM keeps until the host acknowledges it (Table 11.15), as its 32 bytes. -/
abbrev ErrorRecord := List Byte

/-- What the MC logs (R13, R21, R67, R318 and others). -/
inductive LogEvent where
  | power (step : Nat)
  | powerLimit
  | thermal (vd : Vd) (step : Nat)
  | shutdown (vd : Vd)
  | abort (sc1 : Bool) (cause : Byte)
  | machineCheck (unit : Byte) (syndrome : BitVec 72)
  | fuses (dark : BitVec 10)
  | imageRefused
  | peer
  | dieHealth (vd : Byte)
  | openRefused (slot : SlotId)
  | rotationSkip (vd : Vd)
  | saveWatchdog (core : CoreId)
  | repair (core : CoreId) (row : Dword)
  | dump (core : CoreId) (bytes : Nat)
  | hubLoss
  | firmware (chiplet : Chiplet)
  | packageFailed
  deriving DecidableEq, Repr

/-- A step of a thermometer counter (R296): its three fuses. -/
structure FuseStep where
  a : Bool
  b : Bool
  commit : Bool
  deriving DecidableEq, Repr

/-- A firmware bank pair of a chiplet (R296, R318): the image of the active bank and of the inactive one, whether that is a staged
image and marked for the next package reset, and the steps of the thermometer counter from the first up. -/
structure Firmware where
  active : List Byte
  inactive : List Byte
  staged : Bool
  marked : Bool
  steps : List FuseStep
  deriving DecidableEq, Repr

/-- What the responder holds for a requester (R297): the stages of the negotiation it has passed, its last answer, and its
sessions with whether they are finished and their keys. -/
structure Spdm where
  port : SpdmPort
  version : Bool
  caps : Bool
  algs : Bool
  answer : List Byte
  sessions : List (Word × Bool × BitVec 256)
  deriving DecidableEq, Repr

/-- What an engine's turn or an event's turn runs next; `tick` is 1 ns of wall time (R4). -/
inductive Turn where
  | engine (u : UnitId) (e : Eng)
  | event (i : Instr)
  | tick
  deriving DecidableEq, Repr

end Sys2Proof.Machine
end

