-- ==== Sys2Proof/Machine/State.lean ====
section
/-! DEFINITION. The state of the package: everything the specification gives it, as plain data, and its state after
package reset (R319, Table 15.4). -/

namespace Sys2Proof.Machine

/-- Why the model stops. No meaning of this model ends so: every behaviour the specification gives is a next state. -/
inductive Fault where
  /-- Raised by no meaning: an access to an address outside every region of the specification is a trap or a completion
  code there, never a stop (safe). -/
  | noSuchAddress
  deriving DecidableEq, Repr

/-- Why an instruction has no meaning here. -/
inductive Refusal where
  /-- Raised by an arm of exec whose instruction has no meaning in the model yet, by its mnemonic (safe). -/
  | notModelled (mnemonic : String)
  deriving DecidableEq, Repr

/-- The MD (R54 to R69). `waiting` holds reports a core has not yet handed over, `pending` the records that wait for room
in a completion ring (R315), `nextPick` the earliest time of the next dispatch (R59), `reserved` the
cores a pre-emption frees for a node (R76), `kickNew` the kick bits set in the current cycle (R63); `hqStores` the scheduler
cores whose stores to HQCTL are in progress, in order, and `releasing` the one whose store has written the head's record and not yet
released it (R449); `drains` the drains in progress (R448). -/
structure Md where
  nodes : List Node
  pool : List (CtxId × Word)
  overflow : List (CtxId × Word)
  held : List HeldReport
  waiting : List (CoreId × HeldReport)
  pending : List HeldReport
  kickpend : BitVec 48
  kickNew : BitVec 48
  journal : List (Nat × JEntry)
  jhead : Dword
  role0 : Role
  role1 : Role
  arrivals : List Arrival
  dispatching : List Dispatch
  reserved : List (CoreId × CtxId × Word)
  leaseMax : Vector (BitVec 12) 8
  maxChain : Vector (BitVec 9) 8
  mode : Mode
  dieList : Vector (List Vd) 8
  dark : BitVec 10
  vdPos : Vector (BitVec 4) 8
  nextPick : Nat
  hqStores : List Bool
  releasing : Option Bool
  drains : List Drain
  deriving DecidableEq, Repr

/-- The fabric, the exchange of messages and the peer ports: paths marked DOWN (R174), modules that run at x32 (R259). -/
structure Fab where
  rate : Half
  down : List PathKey
  degraded : List Module
  flows : List Flow
  ends : Vector EndPt 9
  appends : List Append
  portDown : Bool × Bool
  deriving DecidableEq, Repr

/-- The configuration manager (R258, R275, R278, R280, R282): the phase of each device, the rotation (period in seconds, the die in hand
and since when, and by die when it was last visited, plus one), the
peer, error records not yet acknowledged, and FAILED records that wait 10 µs after a machine check. `beatsSent` counts the
heartbeats sent to the peer; `peerEvents` are the times of the peer events the host has received (R280). -/
structure Cfm where
  phase : Vector CfmPhase 8
  rotPeriod : Nat
  rotDie : Option Vd
  rotSince : Nat
  rotVisits : CMap Nat
  peer : PeerState
  beatsSent : Nat
  peerSince : Nat
  lastPeerBeat : Nat
  pkgFailed : Bool
  records : List ErrorRecord
  peerEvents : List Nat
  pendingFails : List (CoreId × Nat × CtxId × Word)
  deriving DecidableEq, Repr

/-- The management controller and the precision time unit. `samples` are the last ten readings of package power, newest first
(R21), `rails` the last readings of voltage and current (R318), in mV and mA; `log` is the flash log with its precision times (R316);
`manifest` is the compatibility manifest (R295); `slew` is what is left of an offset to be slewed, `slewIn` the ticks since its last step
(R316); `answer` is the last answer to the peer's MC (R282), `sideBand` what it has sent over MCTP, in order (R283, R309). -/
structure Mc where
  held : Bool
  step : Nat
  samples : List Nat
  rails : List (Nat × Nat)
  lastStepAt : Nat
  log : List (Nat × LogEvent)
  firmware : Vector Firmware 4
  manifest : List Byte
  source : TimeSource
  slew : Int
  slewIn : Nat
  answer : Option Bool
  sideBand : List Byte
  deriving DecidableEq, Repr

/-- The host port, the trust machinery and the key store. -/
structure Port where
  boxes : List Mailbox
  testMode : Bool
  tdis : Vector (Option Tdi) 16
  keyGen : Vector Nat 16
  lastKey : Nat
  spdm : List Spdm
  deriving DecidableEq, Repr

/-- The package. `schedule` and `cur` say who moves next (log 1); `freeCount` counts the free values used (log 3);
`doom` lists, by ordinal, the messages the links will lose (log 10), `tag` is the ordinal of the first message of the current step;
`flips` the stored bits, data and horizontal check, of the words of SRAM arrays that differ from what was written, and
with any bit set a DRAM word that its channel cannot correct (R260, R262); `vflips`, by the first word of a group, the bits of the
vertical word that differ from the exclusive-or of what was written (R260); `writes` counts the writes that queued writes may race
with, and `commits` holds, by byte, the last of them (R160). -/
structure State where
  schedule : List Turn
  cur : UnitId × Eng
  time : Nat
  freeCount : Nat
  doom : List Nat
  msgCount : Nat
  tag : Nat
  flips : CMap (BitVec 72)
  vflips : CMap (BitVec 72)
  writes : Nat
  commits : CMap Commit
  cores : Vector Core 50
  dies : Vector Die 8
  mem : CMap Byte
  lineKey : CMap Nat
  owner : CMap Byte
  tlb : List TlbEntry
  contexts : Vector (Option Context) 64
  slots : Vector Slot 48
  md : Md
  fab : Fab
  cfm : Cfm
  mc : Mc
  port : Port
  deriving DecidableEq, Repr

/-! The state after package reset. -/

def VReg.zero : VReg := Vector.replicate 1024 0
def VRow.zero : VRow := Vector.replicate 64 0

def Latch.reset : Latch := { pOld := 1, lcOld := Vector.replicate 4 0, pMask := 0, lcMask := 0 }

/-- An engine at reset and at job start (R38, R240, R374). -/
def Engine.reset : Engine where
  started := false
  ended := false
  pc := 0
  after := none
  ds := false
  a := Vector.replicate 16 0
  lc := Vector.replicate 4 0
  p := 1
  x := Vector.replicate 32 0
  loops := []
  latch := Latch.reset
  noEnd := false
  rrb := 0
  scycle := 0
  flights := []
  cause := 0
  epc := 0
  enpc := 0
  tdetail := 0
  tvec := 0
  tscr0 := 0
  tscr1 := 0
  hm := false
  epcDone := false
  deferred := none
  sticky := 0
  trapen := 0
  tokceil := 0x080808
  cwa := 0
  replays := 0
  escal := 0
  frozen := none
  fencing := false
  popDone := false
  slotFree := Vector.replicate 4 0
  divFree := 0
  lost := none
  seqCount := 0
  winCrc := 0
  winAt := 0

def Chain.none : Chain where
  state := .none
  vbase := 0
  rows := 0
  iacc := false
  count := 0
  done := 0
  fail := Option.none
  work := []
  flags := 0

/-- The stationary registers after package reset and after a grant to a different holder: zero, D = 4E (R367). -/
def Stationary.reset (e : Nat) : Stationary := { depth := 4 * e, rows := [], poison := none }

/-- Table 17.4. -/
def Mcfg.reset (e : Nat) : Mcfg :=
  { ncol := e, arowbase := 0, kbase := 0, atrans := false, btrans := false, swz := 0 }

/-- A FREE slot's header (Tables 6.3, 6.4). -/
def TileHdr.reset : TileHdr :=
  { tensor := 0, tile := 0, owner := 0, world := 0, enc := false, fill := .free, swz := 0, wc := 0, err := 0 }

def TileSlot.reset : TileSlot := { hdr := TileHdr.reset, lines := [], issued := 0, issuedAt := 0, done := 0, dropped := false }

def MsgQueue.reset : MsgQueue := { en := false, log2n := 0, base := 0, tail := 0, head := 0, report := false }

/-- A core of array edge e at reset. -/
def Core.reset (e : Nat) : Core where
  eS := Engine.reset
  eV := Engine.reset
  eM := Engine.reset
  eC := Engine.reset
  job := none
  lastWorld := 0
  lastCtx := none
  health := .live
  tokens := Vector.replicate 16 0
  vmain := Vector.replicate 64 VReg.zero
  vop := Vector.replicate 8 VRow.zero
  vlast := Vector.replicate 4 VReg.zero
  lent := 0
  lentPrev := 0
  lentAt := 0
  mq := []
  chain := Chain.none
  mpop := []
  arels := []
  stat := Stationary.reset e
  statOld := Stationary.reset e
  mcfg := Mcfg.reset e
  tssel := 0
  tiles := Vector.replicate 64 TileSlot.reset
  cq := Vector.replicate 4 []
  markers := 0
  streams := Vector.replicate 8 none
  mqs := Vector.replicate 4 MsgQueue.reset
  cal := 0
  step := 0
  repair := 0
  arrtestRaw := false
  ckptReq := false
  trcctl := 0
  drops := 0
  conflicts := []
  exits := []
  mtlb := []
  debugger := none
  dbg := none
  preempt := none
  spillSeq := 0
  ending := none

/-- What the march test leaves in a core (Table 21.3): v0, v3, v4 and v5 zero, v1 and v32 to v63 all ones, RRB 4, and in the registers of
S that located no failing word. -/
def Core.marched (c : Core) : Core :=
  let ones : VReg := Vector.replicate 1024 0xFFFFFFFF
  let one (v : Vector VReg 64) (n : Fin 64) : Vector VReg 64 :=
    if n.val = 1 || 32 ≤ n.val then v.set n ones else if n.val = 0 || (3 ≤ n.val && n.val ≤ 5) then v.set n VReg.zero else v
  { c with vmain := (List.finRange 64).foldl one c.vmain, lastWorld := 0, eV := { c.eV with rrb := 4 },
           eS := { c.eS with x := ((c.eS.x.set 7 0).set 8 (BitVec.allOnes 64)).set 9 (BitVec.allOnes 64) |>.set 16 0 } }

/-- SC0 or SC1 at package reset: its S engine runs from the S entry of the hub image, every register zero (R446; the
entry is taken as offset 0 of the instruction memory, log 4). -/
def Core.schedReset : Core := { Core.reset 64 with eS := { Engine.reset with started := true } }

def Lease.reset : Lease := { holder := none, count := 0, ending := false, requests := [], lastGrant := none }

/-- Every core of a die free (log 9). -/
def DieView.reset (m : Bool) : DieView :=
  { free := 0x3F, scratch := List.replicate 6 (if m then 4096 else 1024),
    tiles := if m then List.replicate 6 64 else [128], load := 0 }

/-- A die after the boot test (Table 15.4): HEALTHY at the nominal clock. -/
def Die.reset (m : Bool) : Die where
  state := .healthy
  testing := false
  phase := []
  advances := []
  lease := Lease.reset
  tiles := Vector.replicate 128 TileSlot.reset
  credits := []
  spares := []
  lastBeat := 0
  thermal := 1000
  thermalAt := 0
  temp := 25
  railOn := true
  view := DieView.reset m
  full := false
  rebuilds := 0
  escalations := 0
  lost := 0
  stopDispatch := false
  epoch := 0

def EndPt.reset : EndPt :=
  { bufs := [], timers := [], ingress := [], decoded := [], delivered := [], cnt := [0, 0, 0, 0] }

/-- A stream slot after reset (Tables 3.1, 3.2, 12.5, R455). -/
def Slot.reset : Slot where
  open_ := false
  preempt := false
  world := 0
  prio := 0
  deadline := 0
  svt := 0
  gen := 0
  state := .normal
  level := 0
  ctx := none
  sub := none
  comp := none
  senBase := 0
  senSize := 0
  senRing := none
  table := none
  shadow := false
  reserved := 0
  last := 0
  lastPeer := 0
  images := []
  peerImages := []
  incoming := none
  mirrored := []
  ckptPending := []
  mirroring := false
  unacked := []
  mirrorErr := 0
  senOpen := none
  senFirst := 0
  senLast := 0
  senSeq := 0
  senDrops := 0
  senLen := none

/-- Whether a core number is a C-core's (R6); SC0 and SC1 have no array. -/
def isCCore (u : UnitId) : Bool := 24 ≤ u.val && u.val < 48

/-- The device's die lists in mode 1 (Table 1.8). -/
def mode1Lists : Vector (List Vd) 8 := #v[[0, 4, 1, 5, 2, 6, 3, 7], [], [], [], [], [], [], []]

def Md.reset : Md where
  nodes := []
  pool := []
  overflow := []
  held := []
  waiting := []
  pending := []
  kickpend := 0
  kickNew := 0
  journal := []
  jhead := 0
  role0 := .active
  role1 := .standby
  arrivals := []
  dispatching := []
  reserved := []
  leaseMax := Vector.replicate 8 64
  maxChain := Vector.replicate 8 256
  mode := .m1
  dieList := mode1Lists
  dark := 0x300
  vdPos := #v[0, 2, 4, 6, 1, 3, 5, 7]
  nextPick := 0
  hqStores := []
  releasing := none
  drains := []

def Fab.reset : Fab where
  rate := 0x0111
  down := []
  degraded := []
  flows := []
  ends := Vector.replicate 9 EndPt.reset
  appends := []
  portDown := (false, false)

def Cfm.reset : Cfm where
  phase := Vector.replicate 8 .idle
  rotPeriod := 0
  rotDie := none
  rotSince := 0
  rotVisits := []
  peer := .up
  beatsSent := 0
  peerSince := 0
  lastPeerBeat := 0
  pkgFailed := false
  records := []
  peerEvents := []
  pendingFails := []

/-- No image stored and no fuse blown. -/
def Firmware.reset : Firmware := { active := [], inactive := [], staged := false, marked := false, steps := [] }

def Mc.reset : Mc where
  held := false
  step := 1000
  samples := []
  rails := []
  lastStepAt := 0
  log := []
  firmware := Vector.replicate 4 Firmware.reset
  manifest := []
  source := .freeRunning
  slew := 0
  slewIn := 0
  answer := none
  sideBand := []

def Port.reset : Port where
  boxes := []
  testMode := false
  tdis := Vector.replicate 16 none
  keyGen := Vector.replicate 16 0
  lastKey := 0
  spdm := []

/-- The cores after reset, which have run the boot march test (Table 15.4): 24 M-cores, 24 C-cores, SC0 and SC1. -/
def resetCores : Vector Core 50 :=
  ⟨(List.replicate 24 (Core.reset 64).marched ++ (List.replicate 24 (Core.reset 256).marched ++
    List.replicate 2 Core.schedReset)).toArray, by simp⟩

def resetDies : Vector Die 8 :=
  ⟨(List.replicate 4 (Die.reset true) ++ List.replicate 4 (Die.reset false)).toArray, by simp⟩

/-- The machine right after package reset. The first turn is SC0's (log 1). -/
def State.reset : State where
  schedule := [.engine 48 .S]
  cur := (48, .S)
  time := 0
  freeCount := 0
  doom := []
  msgCount := 0
  tag := 0
  flips := []
  vflips := []
  writes := 0
  commits := []
  cores := resetCores
  dies := resetDies
  mem := []
  lineKey := []
  owner := []
  tlb := []
  contexts := Vector.replicate 64 none
  slots := Vector.replicate 48 Slot.reset
  md := Md.reset
  fab := Fab.reset
  cfm := Cfm.reset
  mc := Mc.reset
  port := Port.reset

end Sys2Proof.Machine
end

