-- ==== Sys2Proof/Machine/Access.lean ====
section
/-! DEFINITION. Where an address leads and what is stored there: the windows (R132, R140, R446), translation (R146,
R147), the layout of DRAM (R24), worlds (R285, R286), DRAM encryption as its owner sees it (R294), and the loss of
messages (R179, R185, R186). -/

namespace Sys2Proof.Machine

/-! Accessors. -/

def Core.eng (c : Core) : Eng → Engine
  | .S => c.eS | .V => c.eV | .M => c.eM | .C => c.eC

def Core.setEng (c : Core) (e : Eng) (g : Engine) : Core :=
  match e with
  | .S => { c with eS := g } | .V => { c with eV := g } | .M => { c with eM := g } | .C => { c with eC := g }

def State.core (s : State) (u : UnitId) : Core := s.cores[u]
def State.setCore (s : State) (u : UnitId) (c : Core) : State := { s with cores := s.cores.set u c }
def State.eng (s : State) (u : UnitId) (e : Eng) : Engine := (s.core u).eng e
def State.setEng (s : State) (u : UnitId) (e : Eng) (g : Engine) : State :=
  s.setCore u ((s.core u).setEng e g)
def State.modEng (s : State) (u : UnitId) (e : Eng) (f : Engine → Engine) : State := s.setEng u e (f (s.eng u e))
def State.modCore (s : State) (u : UnitId) (f : Core → Core) : State := s.setCore u (f (s.core u))
def State.die (s : State) (vd : Vd) : Die := s.dies[vd]
def State.setDie (s : State) (vd : Vd) (d : Die) : State := { s with dies := s.dies.set vd d }
def State.context (s : State) (c : CtxId) : Option Context := s.contexts[c]
def State.setContext (s : State) (c : CtxId) (x : Option Context) : State := { s with contexts := s.contexts.set c x }
def State.slot (s : State) (k : SlotId) : Slot := s.slots[k]
def State.setSlot (s : State) (k : SlotId) (x : Slot) : State := { s with slots := s.slots.set k x }
def State.modSlot (s : State) (k : SlotId) (f : Slot → Slot) : State := s.setSlot k (f (s.slot k))

/-- A compute core as a core that issues. -/
def unitOf (c : CoreId) : UnitId := ⟨c.val, by omega⟩

/-- The compute core of a unit, if it is one. -/
def coreOf (u : UnitId) : Option CoreId := if h : u.val < 48 then some ⟨u.val, h⟩ else none

def isSched (u : UnitId) : Bool := 48 ≤ u.val

/-- The die of a core (R6); SC0 and SC1 have none, and answer vd0 where a die is asked for. -/
def dieOf (u : UnitId) : Vd := if h : u.val / 6 < 8 then ⟨u.val / 6, h⟩ else 0

/-- Local number of a core (R6). -/
def localOf (u : UnitId) : Fin 6 := ⟨u.val % 6, Nat.mod_lt _ (by decide)⟩

def coreAt (vd : Vd) (l : Fin 6) : CoreId := ⟨vd.val * 6 + l.val, by omega⟩

/-- The endpoint of a core's die, or H (Table 8.6). -/
def endOf (u : UnitId) : Endpoint := if isSched u then 8 else ⟨(dieOf u).val, by omega⟩
def endOfVd (vd : Vd) : Endpoint := ⟨vd.val, by omega⟩

def isMDie (vd : Vd) : Bool := vd.val < 4

/-- Scratchpad bytes of a core (R17). -/
def scratchSize (u : UnitId) : Nat := if isCCore u then 0x400000 else 0x1000000

/-- The device a die belongs to in the current mode (Table 1.8). -/
def devOfDie (m : Mode) (vd : Vd) : DevId :=
  match m with
  | .m1 => 0
  | .m2 => if vd.val % 4 < 2 then 0 else 1
  | .m8 => vd

/-- The device that owns a stream slot (Table 1.8). -/
def devOfSlot (m : Mode) (k : SlotId) : DevId :=
  match m with
  | .m1 => 0
  | .m2 => ⟨k.val / 24, by omega⟩
  | .m8 => ⟨k.val / 6, by omega⟩

/-- The devices of a mode. -/
def devsOf : Mode → List DevId
  | .m1 => [0] | .m2 => [0, 1] | .m8 => [0, 1, 2, 3, 4, 5, 6, 7]

/-- A device's whole die list by Table 1.8. -/
def fullList (m : Mode) (d : DevId) : List Vd :=
  match m with
  | .m1 => if d = 0 then [0, 4, 1, 5, 2, 6, 3, 7] else []
  | .m2 => if d = 0 then [0, 4, 1, 5] else if d = 1 then [2, 6, 3, 7] else []
  | .m8 => [d]

def State.dieListOf (s : State) (d : DevId) : List Vd := s.md.dieList[d]

/-! The regions of memory. -/

/-- A byte location. -/
inductive Loc where
  | scratch (c : CoreId) (o : Nat)
  | pane (vd : Vd) (o : Nat)
  | dram (dev : DevId) (addr : Nat)
  | host (addr : Nat)
  deriving DecidableEq, Repr

def keyScratch (c : CoreId) (o : Nat) : Nat := 2 ^ 64 + 2 ^ 24 * c.val + o
def keyPane (vd : Vd) (o : Nat) : Nat := 2 * 2 ^ 64 + 2 ^ 25 * vd.val + o
def keyDram (vd : Vd) (o : Nat) : Nat := 3 * 2 ^ 64 + 2 ^ 37 * vd.val + o
def keyHost (a : Nat) : Nat := 4 * 2 ^ 64 + a
def keyHub (o : Nat) : Nat := 5 * 2 ^ 64 + o
def keyVector (c : CoreId) (o : Nat) : Nat := 7 * 2 ^ 64 + 2 ^ 18 * c.val + o
def keyOperand (c : CoreId) (o : Nat) : Nat := 8 * 2 ^ 64 + 2 ^ 24 * c.val + o
def keyImem (sc1 : Bool) (o : Nat) : Nat := 6 * 2 ^ 64 + (if sc1 then 2 ^ 18 else 0) + o

/-- What a byte that nothing has written reads as (log 2). -/
def memDefault : Byte := 0

/-- The canonical form of main memory. -/
abbrev Memory.wf (m : CMap Byte) : Prop := CMap.wf memDefault m = true

def State.rawByte (s : State) (k : Nat) : Byte := CMap.get memDefault s.mem k
def State.putByte (s : State) (k : Nat) (b : Byte) : State := { s with mem := CMap.set memDefault s.mem k b }

/-- n bytes from key k up. -/
def State.rawBytes (s : State) (k : Nat) : Nat → List Byte
  | 0 => []
  | n + 1 => s.rawByte k :: s.rawBytes (k + 1) n

def State.putBytes (s : State) (k : Nat) : List Byte → State
  | [] => s
  | b :: bs => (s.putByte k b).putBytes (k + 1) bs

/-! Stored bits (R260). Memory, the vector files and the tile slots hold what was written. A word is named by the key of its first byte;
bits 64 to 71 of its flips are those of h. -/

/-- The flips of the word that holds the byte at a key, and those of that byte. -/
def State.flipWord (s : State) (key : Nat) : BitVec 72 := CMap.get 0 s.flips (key / 8 * 8)
def State.flipByte (s : State) (key : Nat) : Byte := (s.flipWord key).extractLsb' (8 * (key % 8)) 8

/-- The key of the first word of a word's group: the 64 rows of one word position of a bank (R260, R443). Rows are 2,048 bytes, and
every array begins at a multiple of 131,072. -/
def groupOf (key : Nat) : Nat := key / 131072 * 131072 + key % 2048 / 8 * 8

/-- Key of an array's offset 0, and its size. -/
def arrayBase : SramArray → Nat
  | .scratch c => keyScratch c 0
  | .pane vd => keyPane vd 0
  | .vector c => keyVector c 0
  | .operand c => keyOperand c 0
def arraySize : SramArray → Nat
  | .scratch c => scratchSize (unitOf c)
  | .pane vd => if isMDie vd then 0x1B80000 else 0x680000
  | .vector _ => 2 ^ 18
  | .operand c => if !isCCore (unitOf c) then 2 ^ 19 else if localOf (unitOf c) = 0 then 2 ^ 24 else 0

/-- The 64 words of a word's group and position (R260, R443). -/
def groupWords (key : Nat) : List Nat := (List.range 64).map fun r => groupOf key + 2048 * r

/-- The exclusive-or of some words' flips. -/
def State.foldFlips (s : State) (ks : List Nat) : BitVec 72 := ks.foldl (fun x m => x ^^^ s.flipWord m) 0

/-- The vertical words of some groups are computed anew from what is stored. -/
def State.recomputeV (s : State) : List Nat → State
  | [] => s
  | g :: gs => ({ s with vflips := CMap.set 0 s.vflips g (s.foldFlips (groupWords g)) } : State).recomputeV gs

/-- A write of a byte of a word stores its bits and h anew; V takes in what was stored (R260). -/
def State.mendWord (s : State) (key : Nat) : State :=
  if s.flips.isEmpty then s
  else
    let f := s.flipWord key
    let f' := f &&& ~~~((0xFF#72 <<< (8 * (key % 8))) ||| 0xFF#72 <<< 64)
    if f = f' then s
    else { s with flips := CMap.set 0 s.flips (key / 8 * 8) f',
                  vflips := CMap.set 0 s.vflips (groupOf key) (CMap.get 0 s.vflips (groupOf key) ^^^ f ^^^ f') }

/-- The words of n bytes from a key on whose stored bits differ from what was written. -/
def State.flippedIn (s : State) (key n : Nat) : List Nat :=
  (s.flips.filter fun p => key ≤ p.1 && p.1 < key + n).map (·.1)

/-- A word is written whole: its bits and h are stored anew, and V takes in what was stored. -/
def State.mendAll (s : State) : List Nat → State
  | [] => s
  | k :: ks =>
    ({ s with flips := CMap.set 0 s.flips k 0,
              vflips := CMap.set 0 s.vflips (groupOf k) (CMap.get 0 s.vflips (groupOf k) ^^^ s.flipWord k) } : State).mendAll ks

/-- n bytes from a key on are written. -/
def State.mendRange (s : State) (key n : Nat) : State := if s.flips.isEmpty then s else s.mendAll (s.flippedIn key n)

/-- A write of a byte of a DRAM word. -/
def State.mendDram (s : State) (key : Nat) : State :=
  if s.flips.isEmpty then s
  else { s with flips := CMap.set 0 s.flips (key / 8 * 8) (s.flipWord key &&& ~~~(0xFF#72 <<< (8 * (key % 8)))) }

/-! DRAM (R24, R285, R294). -/

/-- 32 GB (R5). -/
def gb32 : Nat := 2 ^ 35

/-- The M-dies of a die list, in its order. -/
def mDies (l : List Vd) : List Vd := l.filter isMDie

/-- Bytes of a device's DRAM: the interleaved region and the die-local ones (R24). -/
def dramSize (l : List Vd) : Nat := gb32 * l.length + gb32 * (mDies l).length

/-- The die and the offset in its channel of a device memory address (R24). -/
def dramHome (l : List Vd) (a : Nat) : Option (Vd × Nat) :=
  let n := l.length
  if a < gb32 * n then
    match l[(a / 4096) % n]? with
    | some vd => some (vd, 4096 * (a / 4096 / n) + a % 4096)
    | none => none
  else
    match (mDies l)[(a - gb32 * n) / gb32]? with
    | some vd => some (vd, gb32 + (a - gb32 * n) % gb32)
    | none => none

/-- Where a device's ownership entries begin in the current mode (R285). -/
def ownerStart (m : Mode) (d : DevId) : Nat :=
  match m with
  | .m1 => 0
  | .m2 => 98304 * d.val
  | .m8 => if d.val ≤ 4 then 32768 * d.val else 4 * 32768 + 16384 * (d.val - 4)

def State.ownerOf (s : State) (d : DevId) (a : Nat) : Byte :=
  CMap.get 0 s.owner (ownerStart s.md.mode d + a / 2 ^ 21)

/-- R286. -/
def ownerAllows (o : Byte) (w : World) : Bool :=
  !(o.getLsbD 2) && (o.extractLsb' 4 4 = w || o.getLsbD 3)

/-- Checkpoint keepers of a device: its two highest-numbered HEALTHY M-dies, or the C-die of its mode-8 device
(R270). A mode-1 or mode-2 device left with no HEALTHY M-die is given no keeper by the rule: the model then takes its first C-die
(DESIGN CHOICE, log 78). -/
def State.keepers (s : State) (d : DevId) : List Vd :=
  let l := (s.dieListOf d).filter fun vd => (s.die vd).state = .healthy
  let ms := ([3, 2, 1, 0] : List Vd).filter fun vd => l.contains vd
  if ms.isEmpty then l.take 1 else ms.take 2

/-- 512 MiB. -/
def ckptBytes : Nat := 2 ^ 29

/-- The address lies in a checkpoint store (R270): the top 512 MiB of a keeper's die-local region. -/
def State.inCkptStore (s : State) (d : DevId) (a : Nat) : Bool :=
  match dramHome (s.dieListOf d) a with
  | none => false
  | some (vd, o) => (s.keepers d).contains vd && (if isMDie vd then 2 ^ 36 else gb32) - ckptBytes ≤ o

/-- The package-wide number of a line (R294): its tweak. -/
def State.lineNumber (s : State) (d : DevId) (a : Nat) : Nat := (2 ^ 21 * ownerStart s.md.mode d + a) / 64

/-- Under what a line is stored: the die's epoch (R276), the generation of the key, 0 for plaintext, and the tweak (R294). -/
structure LineTag where
  epoch : Nat
  gen : Nat
  tweak : Nat
  deriving DecidableEq, Repr

def LineTag.code (t : LineTag) : Nat := 2 ^ 128 * t.epoch + 2 ^ 64 * t.gen + t.tweak
def LineTag.ofCode (n : Nat) : LineTag := { epoch := n / 2 ^ 128, gen := n / 2 ^ 64 % 2 ^ 64, tweak := n % 2 ^ 64 }

/-- The tag of a line that world w writes, in a granule of this ownership entry. -/
def State.lineTag (s : State) (vd : Vd) (d : DevId) (a : Nat) (w : World) : LineTag :=
  let gen := if w = 0 || (s.ownerOf d a).getLsbD 3 then 0 else s.port.keyGen[w.toNat]
  { epoch := (s.die vd).epoch, gen := gen, tweak := if gen = 0 then 0 else s.lineNumber d a }

/-- A line's stored 64 bytes as the traffic of another tag reads them (R294): the ciphertext of one key under the other, or what a
reconfiguration left there (R276). Memory holds a line as its writer reads it. -/
def reread (n : Nat) (from_ to_ : LineTag) (line : List Byte) : List Byte :=
  if from_ = to_ then line
  else if from_.epoch ≠ to_.epoch then (List.range 64).map fun i => Config.freeByte (n + i)
  else
    let cipher := if from_.gen = 0 then line else xtsEncrypt (Config.xtsKey from_.gen) from_.tweak line
    if to_.gen = 0 then cipher else xtsDecrypt (Config.xtsKey to_.gen) to_.tweak cipher

/-- The 64 bytes of the line at an offset of a die's channel as world w reads them. -/
def State.dramLine (s : State) (vd : Vd) (o : Nat) (d : DevId) (a : Nat) (w : World) : List Byte :=
  let k := keyDram vd o / 64
  reread (s.freeCount + 64 * k) (LineTag.ofCode (CMap.get 0 s.lineKey k)) (s.lineTag vd d a w) (s.rawBytes (64 * k) 64)

/-- Reads one byte of a device's DRAM as world w sees it. -/
def State.dramByte (s : State) (d : DevId) (w : World) (a : Nat) : Byte :=
  match dramHome (s.dieListOf d) a with
  | none => memDefault
  | some (vd, o) =>
    if CMap.get 0 s.lineKey (keyDram vd o / 64) = (s.lineTag vd d a w).code then s.rawByte (keyDram vd o)
    else (s.dramLine vd o d a w).getD (o % 64) 0

/-- Makes a line's 64 bytes what world w reads of them, before a write to part of it. -/
def State.claimLine (s : State) (d : DevId) (w : World) (a : Nat) : State :=
  match dramHome (s.dieListOf d) a with
  | none => s
  | some (vd, o) =>
    let tag := (s.lineTag vd d a w).code
    let k := keyDram vd o / 64
    if CMap.get 0 s.lineKey k = tag then s
    else { s.putBytes (64 * k) (s.dramLine vd o d a w) with lineKey := CMap.set 0 s.lineKey k tag }

def State.putDramByte (s : State) (d : DevId) (w : World) (a : Nat) (b : Byte) : State :=
  match dramHome (s.dieListOf d) a with
  | none => s
  | some (vd, o) => ((s.claimLine d w a).mendDram (keyDram vd o)).putByte (keyDram vd o) b

/-! One byte at a location, and runs of bytes. -/

def State.locByte (s : State) (w : World) : Loc → Byte
  | .scratch c o => s.rawByte (keyScratch c o) ^^^ s.flipByte (keyScratch c o)
  | .pane vd o => s.rawByte (keyPane vd o) ^^^ s.flipByte (keyPane vd o)
  | .dram d a => s.dramByte d w a
  | .host a => s.rawByte (keyHost a)

def State.putLoc (s : State) (w : World) (b : Byte) : Loc → State
  | .scratch c o => (s.mendWord (keyScratch c o)).putByte (keyScratch c o) b
  | .pane vd o => (s.mendWord (keyPane vd o)).putByte (keyPane vd o) b
  | .dram d a => s.putDramByte d w a b
  | .host a => s.putByte (keyHost a) b

/-- The location n bytes on. -/
def Loc.plus : Loc → Nat → Loc
  | .scratch c o, n => .scratch c (o + n)
  | .pane vd o, n => .pane vd (o + n)
  | .dram d a, n => .dram d (a + n)
  | .host a, n => .host (a + n)

/-- n bytes from a location within one page or window. -/
def State.readLoc (s : State) (w : World) (l : Loc) : Nat → List Byte
  | 0 => []
  | n + 1 => s.locByte w l :: s.readLoc w (l.plus 1) n

def State.writeLoc (s : State) (w : World) (l : Loc) : List Byte → State
  | [] => s
  | b :: bs => (s.putLoc w b l).writeLoc w (l.plus 1) bs

/-! Tie order (R160, R161). Writes that are queued, of C commands and of the rows pushed into drain streams, may be performed after a
concurrent write that is later in tie order; that write then stays. -/

/-- Key of the byte at a location. -/
def State.locKey (s : State) : Loc → Option Nat
  | .scratch c o => some (keyScratch c o)
  | .pane vd o => some (keyPane vd o)
  | .dram d a => (dramHome (s.dieListOf d) a).map fun h => keyDram h.1 h.2
  | .host a => some (keyHost a)

/-- A command writes memory beside its completion word. -/
def COp.writes : COp → Bool
  | .cpy | .cpyp _ | .cpyr | .cdec _ | .cenc | .cbw | .sunbind (some _) => true
  | _ => false

/-- Writes of a core that have issued and are not performed. -/
def Core.writesOut (c : Core) : Nat :=
  (c.cq.toList.map fun l => (l.filter (·.op.writes)).length).sum +
    (c.streams.toList.map fun t => match t with | some t => if t.desc.drain then t.buf.length else 0 | none => 0).sum +
    (c.eV.flights.filter fun f => f.writes.any fun w => match w with | .push _ _ _ => true | _ => false).length

/-- A queued write, other than this one, is still to be performed. -/
def State.racing (s : State) (t : Tie) : Bool :=
  let n := ((List.finRange 48).map fun k => (s.core (unitOf k)).writesOut).sum +
    (s.md.nodes.map fun m => match m.image with | some im => im.core.writesOut | none => 0).sum
  (if t.queued then 1 else 0) < n

/-- Records the write of a byte that queued writes may race with. -/
def State.noteByte (s : State) (t : Tie) (l : Loc) : State :=
  match s.locKey l with
  | some k => { s with commits := CMap.set Commit.none s.commits k { weight := t.weight, die := t.die, at_ := s.writes + 1 } }
  | none => s

/-- Records the performed write of n bytes at a location. -/
def State.noteWrite (s : State) (t : Tie) (l : Loc) (n : Nat) : State :=
  if s.racing t then
    let s := (List.range n).foldl (fun s i => s.noteByte t (l.plus i)) s
    { s with writes := s.writes + 1 }
  else s

/-- The write may change the byte at a location. -/
def State.mayWrite (s : State) (t : Tie) (l : Loc) : Bool :=
  s.commits.isEmpty || (match s.locKey l with | some k => !t.beaten (CMap.get Commit.none s.commits k) | none => true)

/-- The endpoint a location lives at; host memory behind H. -/
def State.homeOf (s : State) : Loc → Endpoint
  | .scratch c _ => endOf (unitOf c)
  | .pane vd _ => endOfVd vd
  | .dram d a => match dramHome (s.dieListOf d) a with | some (vd, _) => endOfVd vd | none => 8
  | .host _ => 8

/-! Positions, modules and paths (R10 to R12, R172, R174). -/

/-- Position code of a virtual die. -/
def State.posOf (s : State) (vd : Vd) : Nat := (s.md.vdPos[vd]).toNat % 10

def ringPos (n : Nat) : Fin 10 := ⟨n % 10, Nat.mod_lt _ (by decide)⟩

/-- What a path crosses: its modules, and the positions that forward, with 10 for H. -/
structure Route where
  modules : List Module
  through : List Nat
  deriving DecidableEq, Repr

/-- The ring from position p over n modules clockwise. -/
def ringWay (p n : Nat) : Route :=
  { modules := (List.range n).map fun i => .ring (ringPos (p + i)),
    through := (List.range (n - 1)).map fun i => (p + i + 1) % 10 }

/-- Steps from position p to the next live one, clockwise or not. -/
def State.nextLive (s : State) (p : Nat) (cw : Bool) : Nat :=
  (((List.range 9).map (· + 1)).find? fun i => !s.md.dark.getLsbD ((if cw then p + i else p + 10 - i) % 10)).getD 1

/-- Path p between two dies at different positions (R172): the shorter way round the ring, through H, the longer way. A tie goes
clockwise first. -/
def dieRoute (a b : Nat) (p : Fin 3) : Route :=
  let cw := (b + 10 - a) % 10
  let way (clock : Bool) : Route := if clock then ringWay a cw else ringWay b (10 - cw)
  match p with
  | 0 => way (cw ≤ 5)
  | 1 => { modules := [.hub (ringPos a), .hub (ringPos b)], through := [10] }
  | 2 => way (5 < cw)

/-- Path p between a die at position a and H (R172). -/
def State.hubRoute (s : State) (a : Nat) (p : Fin 3) : Route :=
  let side (cw : Bool) : Route :=
    let n := s.nextLive a cw
    let e := (if cw then a + n else a + 10 - n) % 10
    let r := if cw then ringWay a n else ringWay e n
    { modules := r.modules ++ [.hub (ringPos e)], through := r.through ++ [e] }
  match p with
  | 0 => { modules := [.hub (ringPos a)], through := [] }
  | 1 => side true
  | 2 => side false

/-- What path p between two endpoints crosses. -/
def State.route (s : State) (a b : Endpoint) (p : Fin 3) : Route :=
  if a = b then { modules := [], through := [] }
  else if ha : a.val < 8 then
    if hb : b.val < 8 then dieRoute (s.posOf ⟨a.val, ha⟩) (s.posOf ⟨b.val, hb⟩) p else s.hubRoute (s.posOf ⟨a.val, ha⟩) p
  else if hb : b.val < 8 then s.hubRoute (s.posOf ⟨b.val, hb⟩) p
  else { modules := [], through := [] }

/-- A path between two endpoints, in either order: from the other end the two ways of a tie change places. -/
def State.pathKey (s : State) (a b : Endpoint) (p : Fin 3) : Endpoint × Endpoint × Fin 3 :=
  if a ≤ b then (a, b, p)
  else if (s.route a b p).modules.all fun m => (s.route b a p).modules.contains m then (b, a, p)
  else (b, a, 2 - p)

def State.pathUp (s : State) (a b : Endpoint) (p : Fin 3) : Bool := !s.fab.down.contains (s.pathKey a b p)

def State.anyPath (s : State) (a b : Endpoint) : Bool := s.pathUp a b 0 || s.pathUp a b 1 || s.pathUp a b 2

/-- Every path between two endpoints. -/
def allPaths : List (Endpoint × Endpoint × Fin 3) :=
  (List.finRange 9).flatMap fun a => ((List.finRange 9).filter (a < ·)).flatMap fun b =>
    ([0, 1, 2] : List (Fin 3)).map fun p => (a, b, p)

/-- A message on its way loses its facets on some paths. -/
def Append.cut (a : Append) (ps : List PathKey) : Append := { a with facets := a.facets.filter fun f => !ps.contains f.1 }

/-- Marks the paths that a condition names DOWN; facets already on one count as not arrived (R174). -/
def State.markDown (s : State) (bad : Route → Bool) : State :=
  let more := allPaths.filter fun k => bad (s.route k.1 k.2.1 k.2.2) && !s.fab.down.contains k
  { s with fab := { s.fab with down := more ++ s.fab.down, appends := s.fab.appends.map fun a => a.cut more } }

/-- A path goes through a position, or ends there. -/
def Route.meets (r : Route) (q : Nat) : Bool :=
  let ends (m : Module) : Bool :=
    match m with
    | .ring p => p.val = q || (p.val + 1) % 10 = q
    | .hub p => p.val = q
    | .peer _ => false
  r.through.contains q || r.modules.any ends

/-! Messages (R176 to R179, R185, R186). -/

def State.logMc (s : State) (e : LogEvent) : State := { s with mc := { s.mc with log := s.mc.log ++ [(s.time, e)] } }

/-- Whether message number n from the next one on, between two endpoints, arrives. -/
def State.arrives (s : State) (src dst : Endpoint) (n : Nat) : Bool :=
  src = dst || (s.anyPath src dst && !s.doom.contains (s.msgCount + n))

/-- A flow that has carried nothing (R178). -/
def Flow.fresh (src dst : Endpoint) (cls : BitVec 3) : Flow :=
  { src := src, dst := dst, cls := cls, nextSeq := 0, outstanding := [], release := 0, lostAhead := [], acked := 0 }

def State.flow (s : State) (src dst : Endpoint) (cls : BitVec 3) : Flow :=
  (s.fab.flows.find? fun f => f.src = src && f.dst = dst && f.cls = cls).getD (Flow.fresh src dst cls)

def State.setFlow (s : State) (f : Flow) : State :=
  { s with fab := { s.fab with flows := f :: s.fab.flows.filter fun g => g.src ≠ f.src || g.dst ≠ f.dst || g.cls ≠ f.cls } }

/-- The rate of a class: CTL and the peer classes always use code 0 (R177, R196). -/
def State.classRate (s : State) (cls : BitVec 3) : Nat × Nat :=
  if cls.toNat < 3 then rateOf (s.fab.rate.toNat / 16 ^ cls.toNat % 16) else (1, 1)

/-- Adds n to the 16-bit field at bit lo of a counter, stopping at its all-ones value (R188). -/
def countField (c : Dword) (lo n : Nat) : Dword :=
  let f := (c.extractLsb' lo 16).toNat
  c + BitVec.ofNat 64 ((min 0xFFFF (f + n) - f) * 2 ^ lo)

/-- Adds n to a field of FABCNT at an endpoint (Table 8.8): 0 RECOVERED, 16 BAD, 32 LATE, 48 LOST. FABCNTc exists for c from 0 to
3: what a facet or message of another class counts as, a facet that names reserved class 6 or 7 included, is kept in no
register (DESIGN CHOICE, log 76). -/
def State.countFab (s : State) (dst : Endpoint) (cls : BitVec 3) (lo n : Nat) : State :=
  let e := s.fab.ends[dst]
  let e' := if 4 ≤ cls.toNat then e else { e with cnt := setAt e.cnt cls.toNat (countField (e.cnt.getD cls.toNat 0) lo n) }
  { s with fab := { s.fab with ends := s.fab.ends.set dst e' } }

/-- Cost of a path and of one facet's serialisation on it, in sixteenths of a nanosecond at the nominal clock (Table 8.1). -/
def State.pathCost (s : State) (r : Route) : Nat :=
  16 * (8 + 12 * r.modules.length +
    (r.through.map fun p => if p = 10 then 20 else if s.md.dark.getLsbD p then 4 else 6).sum)

def State.serial (s : State) (r : Route) (bytes : Nat) : Nat :=
  if r.modules.any s.fab.degraded.contains then bytes / 8 else bytes / 16

/-- When each facet of a message arrives: facet i goes on the path at place i mod |U| of the UP paths, after the facets before it
there (R179). -/
def State.facetTimes (s : State) (src dst : Endpoint) (k m len : Nat) : List Nat :=
  let ups := (([0, 1, 2] : List (Fin 3)).filter (s.pathUp src dst)).map (s.route src dst)
  let n := ups.length
  (List.range (k + m)).map fun i =>
    let r := ups.getD (i % n) { modules := [], through := [] }
    s.pathCost r + s.serial r (16 + facetLen len k) * (i / n + 1)

/-- Facet i is among the first k to arrive; of two at one time the lower index comes first. -/
def firstOf (ts : List Nat) (k i : Nat) : Bool :=
  let t := ts.getD i 0
  ((List.range ts.length).filter fun j => ts.getD j 0 < t || (ts.getD j 0 = t && j < i)).length < k

/-- A message is decoded with a data facet absent (R188): one beyond the data facets is among the first k. -/
def State.recovers (s : State) (src dst : Endpoint) (cls : BitVec 3) (len : Nat) : Bool :=
  let (k, m) := s.classRate cls
  let ts := s.facetTimes src dst k m len
  (List.range m).any fun j => firstOf ts k (k + j)

/-- MSGID of the next message: the tag of the instruction or command whose step sends it (Table 8.6), counted by the ordinal of
the step's first message. -/
def State.msgTag (s : State) : Half := BitVec.ofNat 16 s.tag

/-- The facets of the next message of a flow, each with its path: facet i takes the path at place i mod |U| of the UP paths (R178,
R179). -/
def State.formFacets (s : State) (src dst : Endpoint) (cls : BitVec 3) (data : List Byte) : List (PathKey × Facet) :=
  let ups := (([0, 1, 2] : List (Fin 3)).filter (s.pathUp src dst)).map (s.pathKey src dst)
  let (k, m) := s.classRate cls
  let fs := facetsOf src dst cls k m s.msgTag (s.flow src dst cls).nextSeq data
  match ups with
  | [] => []
  | p :: _ => (fs.zip (List.range fs.length)).map fun f => (ups.getD (f.2 % ups.length) p, f.1)

/-- An endpoint's die-health event for a lost message (R183, R187): a step of its own for a die; H's goes into the MC's log. -/
def State.healthNote (s : State) (e : Endpoint) : State :=
  if h : e.val < 8 then { s with schedule := .event (.dieHealthEvent ⟨e.val, h⟩ .messageLost) :: s.schedule }
  else s.logMc (.dieHealth 0xFF)

/-- A loss counts against its source die (R283). -/
def State.countLoss (s : State) (src : Endpoint) : State :=
  if h : src.val < 8 then
    s.setDie ⟨src.val, h⟩ { s.die ⟨src.val, h⟩ with lost := min 0xFFFF ((s.die ⟨src.val, h⟩).lost + 1) }
  else s

/-- Counts one message of `len` bytes from src to dst in its flow (R178). One that arrives is released at once and stays
outstanding until it is acknowledged (R184, R185), unless the step that sends it settles what its issuer hears; the facets beyond the
first k come late (R184), and it counts under RECOVERED
when a data facet was not among the first (R188). A message lost on its way counts under LOST at its destination (R183, log 10),
which tells the CFM, as its source does (R187). -/
def State.countMsg (s : State) (src dst : Endpoint) (cls : BitVec 3 := 0) (len : Nat := 64) (who : Issuer := .other) :
    State :=
  if src = dst then s
  else
    let f := s.flow src dst cls
    let ok := s.arrives src dst 0
    let keep := match who with | .ack => false | .other => 3 ≤ cls.toNat | _ => true
    let sent : Sent := { seq := f.nextSeq, msgid := s.msgTag, at_ := s.time, who := who }
    let f' : Flow :=
      { f with nextSeq := f.nextSeq + 1, release := f.nextSeq + 1,
               outstanding := if ok && keep then f.outstanding ++ [sent] else f.outstanding }
    let s' := { s.setFlow f' with msgCount := s.msgCount + 1 }
    if ok then
      let s' := s'.countFab dst cls 32 (s.classRate cls).2
      if s.recovers src dst cls len then s'.countFab dst cls 0 1 else s'
    else
      let s' := if s.anyPath src dst then (s'.countFab dst cls 48 1).healthNote dst else s'
      (s'.countLoss src).healthNote src

/-- Sends one message: whether it arrives. -/
def State.send (s : State) (src dst : Endpoint) (cls : BitVec 3) (len : Nat) (who : Issuer) : Bool × State :=
  (s.arrives src dst 0, s.countMsg src dst cls len who)

/-- A remote read of n bytes: the request, and the reply from the endpoint that holds them (R176). A request's length is not
specified and is taken as one line (log 74). -/
def State.ask (s : State) (src dst : Endpoint) (n : Nat) : Bool × State :=
  let (ok, s) := s.send src dst 0 64 .other
  if ok then s.send dst src 0 n .other else (false, s)

/-- A CTL message (R176): one that is lost on its way is sent again, since the users of the class resend (Table 8.7). -/
def State.ctl (s : State) (src dst : Endpoint) : State :=
  let (ok, s) := s.send src dst 3 64 .other
  if ok || !s.anyPath src dst then s else { ({ s with doom := [] } : State).countMsg src dst 3 with doom := s.doom }

/-- A CTL message can reach its endpoint. -/
def State.ctlUp (s : State) (src dst : Endpoint) : Bool := src = dst || s.anyPath src dst

/-- A CTL message that no path carries is lost, and its user sends it again: once in a microsecond, until a path is UP (R185, R187;
log 51). -/
def State.ctlDown (s : State) (src dst : Endpoint) : State := if s.time % 1000 = 0 then (s.send src dst 3 64 .other).2 else s

/-- The device's own reading of memory that another endpoint holds (R176): a lost message is sent again (log 51). -/
def State.askSure (s : State) (src dst : Endpoint) (n : Nat) : State :=
  if src = dst then s
  else
    let (ok, s) := s.ask src dst n
    if ok then s else { (({ s with doom := [] } : State).ask src dst n).2 with doom := s.doom }

/-- The device's own write of n bytes from one endpoint to another (R176): a lost message is sent again (log 51). -/
def State.sendSure (s : State) (src dst : Endpoint) (n : Nat) : State :=
  let (ok, s) := s.send src dst 0 n .other
  if ok then s else { (({ s with doom := [] } : State).send src dst 0 n .other).2 with doom := s.doom }

/-- A lost write of S or V is reported at the engine's next FENCE, DRAIN or REND (R187). -/
def State.noteLost (s : State) (u : UnitId) (e : Eng) (r : LossReport) : State :=
  s.modEng u e fun g => { g with lost := match g.lost with | some q => some q | none => some r }

/-- Tells the issuer of a message that it is lost (Table 8.7, R197): the copy of a checkpoint to the peer ends. A message of a read or
of a command stays outstanding for no longer than its step, which tells its issuer what became of it (log 51). -/
def State.reportLost (s : State) : Issuer → State
  | .stream u e r => s.noteLost u e r
  | .mirror k n =>
    s.modSlot k fun x =>
      { x with mirroring := (x.unacked.filter (· ≠ n)) ≠ [], unacked := x.unacked.filter (· ≠ n),
               mirrored := x.mirrored.filter fun i => i.seq ≠ n, mirrorErr := 0x0171 }
  | .other | .ack => s

/-- The source declares a message lost (R185, R187, R197): its record goes, the loss is counted and its issuer told. -/
def State.declareLost (s : State) (src dst : Endpoint) (cls : BitVec 3) (o : Sent) : State :=
  let f := s.flow src dst cls
  let s := (s.setFlow { f with outstanding := f.outstanding.erase o }).reportLost o.who
  if 4 ≤ cls.toNat then (if cls = 5 then s.logMc .peer else s) else (s.countLoss src).healthNote src

/-- A message to the peer's H on the peer ports (R196, R197): its two facets go on port 0 and port 1, or both on the one that is up. -/
def State.sendPeer (s : State) (cls : BitVec 3) (who : Issuer) : Bool × State :=
  let f := s.flow 8 8 cls
  let ok := !(s.fab.portDown.1 && s.fab.portDown.2) && !s.doom.contains s.msgCount
  let sent : Sent := { seq := f.nextSeq, msgid := s.msgTag, at_ := s.time, who := who }
  let s := { s.setFlow { f with nextSeq := f.nextSeq + 1,
                                outstanding := if ok && who ≠ .ack then f.outstanding ++ [sent] else f.outstanding } with
             msgCount := s.msgCount + 1 }
  (ok, if ok then s else if cls = 5 then s.logMc .peer else s.reportLost who)

/-- CTL messages to several endpoints. -/
def State.ctlAll (s : State) (src : Endpoint) : List Endpoint → State
  | [] => s
  | d :: ds => (s.ctl src d).ctlAll src ds

/-! Translation (R146, R147, Tables 6.11, 6.12). -/

/-- Cause codes (Table 11.1). -/
def cTranslation : Byte := 0x01
def cProtection : Byte := 0x02
def cAlignment : Byte := 0x03
def cWorld : Byte := 0x04
def cScratch : Byte := 0x05
def cPane : Byte := 0x06
def cIllegal : Byte := 0x21
def cPrivileged : Byte := 0x22
def cCeiling : Byte := 0x23
def cBankLent : Byte := 0x24
def cLendHazard : Byte := 0x25
def cDelaySlot : Byte := 0x26
def cUnclaimed : Byte := 0x27
def cQuota : Byte := 0x28
def cOrphan : Byte := 0x29
def cChain : Byte := 0x2A
def cLoopNest : Byte := 0x2B
def cSoft : Byte := 0x2C
def cBreak : Byte := 0x2D
def cArith : Byte := 0x41
def cGlint : Byte := 0x51
def cMachine : Byte := 0x61
def cLoss : Byte := 0x71

/-- The codes of Table 11.1. -/
def causeCodes : List Byte :=
  [cTranslation, cProtection, cAlignment, cWorld, cScratch, cPane, cIllegal, cPrivileged, cCeiling, cBankLent, cLendHazard,
   cDelaySlot, cUnclaimed, cQuota, cOrphan, cChain, cLoopNest, cSoft, cBreak, cArith, cGlint, cMachine, cLoss]

/-- The kinds of access a leaf may allow (R147); `named` asks only where an address leads. -/
inductive Acc where
  | read | write | both | fetch | named
  deriving DecidableEq, Repr

def leafAllows (leaf : Dword) : Acc → Bool
  | .read => leaf.getLsbD 4
  | .write => leaf.getLsbD 5
  | .both => leaf.getLsbD 4 && leaf.getLsbD 5
  | .fetch => leaf.getLsbD 7
  | .named => true

/-- Low address bit of each level's index, and the page size of a leaf there (Table 6.11). -/
def levelShift (level : Nat) : Nat := if level = 0 then 16 else 12 + 9 * level

/-- A dword of a table, read as the context's world sees it. -/
def State.tableEntry (s : State) (x : Context) (a : Nat) : Dword :=
  BitVec.ofNat 64 (ofBytes (s.readLoc x.world (.dram x.dev a) 8))

/-- ADDR of an entry, or of a leaf. -/
def entryAddr (e : Dword) : Nat := 2 ^ 16 * (e.extractLsb' 16 41).toNat

/-- A nonzero reserved bit of Table 6.12. -/
def entryReserved (e : Dword) : Bool := e.extractLsb' 57 7 ≠ 0 || e.extractLsb' 8 8 ≠ 0 || e.extractLsb' 1 3 ≠ 0

/-- The walk from a level's table: the leaf, with page base and size, or none for TRANSLATION. -/
def State.walkFrom (s : State) (x : Context) (va : Nat) (table : Nat) : Nat → Option (Dword × Nat)
  | 0 =>
    let e := s.tableEntry x (table + 8 * ((va / 2 ^ 16) % 32))
    if table % 256 ≠ 0 || dramSize (s.dieListOf x.dev) < table + 256 then none
    else if !e.getLsbD 0 || entryReserved e then none
    else if !e.getLsbD 56 && dramSize (s.dieListOf x.dev) < entryAddr e + 2 ^ 16 then none
    else some (e, 2 ^ 16)
  | k + 1 =>
    let sh := levelShift (k + 1)
    let e := s.tableEntry x (table + 8 * ((va / 2 ^ sh) % 512))
    if table % 4096 ≠ 0 || dramSize (s.dieListOf x.dev) < table + 4096 then none
    else if !e.getLsbD 0 || entryReserved e then none
    else if e.getLsbD 6 then
      if k + 1 = 2 || k + 1 = 1 then
        let a := entryAddr e
        if a % 2 ^ sh ≠ 0 then none
        else if !e.getLsbD 56 && dramSize (s.dieListOf x.dev) < a + 2 ^ sh then none
        else some (e, 2 ^ sh)
      else none
    else if e.getLsbD 56 then none
    else s.walkFrom x va (entryAddr e) k

/-- A cached translation maps an address of a context. -/
def TlbEntry.maps (t : TlbEntry) (c : CtxId) (va : Nat) : Bool := t.ctx = c && (t.base ≤ va && va < t.base + t.size)

/-- Keeps the cached translations that a condition names, on the dies and in the cores. -/
def State.keepTlb (s : State) (keep : TlbEntry → Bool) : State :=
  { s with tlb := s.tlb.filter keep,
           cores := if s.cores.all fun c => c.mtlb.isEmpty then s.cores else s.cores.map fun c => { c with mtlb := c.mtlb.filter keep } }

/-- The leaf that maps a virtual address for an access from a core, or from H: one in the core's micro-TLB, one cached on its die,
else that of a walk (R147). -/
def State.leafOf (s : State) (u : Option UnitId) (c : CtxId) (x : Context) (va : Nat) : Option (Dword × Nat) :=
  let cached : Option TlbEntry := match u with
    | none => none
    | some k => ((s.core k).mtlb.find? fun t => t.maps c va).or (s.tlb.find? fun t => t.vd = dieOf k && t.maps c va)
  match cached with
  | some t => some (t.leaf, t.size)
  | none => s.walkFrom x va x.root.toNat 4

/-- What an access by context c finds: the location, or the cause of its fault (R146, R147, R270, R286). -/
def State.translate (s : State) (u : Option UnitId) (c : CtxId) (w : World) (acc : Acc) (va : Nat) : Except Byte Loc :=
  match s.context c with
  | none => .error cTranslation
  | some x =>
    if 2 ^ 57 ≤ va then .error cTranslation
    else
      match s.leafOf u c x va with
      | none => .error cTranslation
      | some (leaf, size) =>
        if !leafAllows leaf acc then .error cProtection
        else
          let a := entryAddr leaf % 2 ^ 56 / size * size + va % size
          if leaf.getLsbD 56 then .ok (.host a)
          else if s.inCkptStore x.dev a then .error cProtection
          else if !ownerAllows (s.ownerOf x.dev a) w then .error cWorld
          else .ok (.dram x.dev a)

/-! Windows. -/

/-- What an address names before translation. -/
inductive Window where
  | scratch (c : Nat) (o : Nat)
  | pane (vd : Nat) (o : Nat)
  | mapped
  deriving DecidableEq, Repr

def scratchBase : Nat := 0x01F0000000000000
def paneBase : Nat := 0x01F4000000000000
def hubBase : Nat := 0x01E0000000000000

/-- R132, R140. -/
def windowOf (ea : Nat) : Window :=
  if scratchBase ≤ ea ∧ ea < scratchBase + 2 ^ 30 then
    .scratch (ea % 2 ^ 30 / 2 ^ 24) (ea % 2 ^ 24)
  else if paneBase ≤ ea ∧ ea < paneBase + 2 ^ 28 then .pane (ea % 2 ^ 28 / 2 ^ 25) (ea % 2 ^ 25)
  else .mapped

/-- The fault of an address that must be aligned: a scratch window of core 48 to 62 comes first (R132). -/
def alignFault (ea align : Nat) : Option Byte :=
  match windowOf ea with
  | .scratch c _ => if 48 ≤ c && c ≤ 62 then some cScratch else if ea % align ≠ 0 then some cAlignment else none
  | _ => if ea % align ≠ 0 then some cAlignment else none

/-- The context that holds unit n of an M-die's pane store (R140). The k-th run of a context is that of the k-th M-die of its
device's whole list by Table 1.8, so that a die that leaves the list moves no run (DEDUCED, log 77). -/
def State.paneOwner (s : State) (vd : Vd) (n : Nat) : Option CtxId :=
  (List.finRange 64).find? fun c =>
    match s.context c with
    | none => false
    | some x =>
      match (mDies (fullList s.md.mode x.dev)).findIdx? (· = vd) with
      | none => false
      | some k => x.paneStart.getD k 0 ≤ n && n < x.paneStart.getD k 0 + x.paneLen.getD k 0

/-- The checks of R140 for a job of context c. -/
def State.paneLoc (s : State) (c : CtxId) (w : World) (vd o : Nat) : Except Byte Loc :=
  match s.context c with
  | none => .error cProtection
  | some x =>
    if h : vd < 8 then
      if !(mDies (s.dieListOf x.dev)).contains ⟨vd, h⟩ || 0x1B80000 ≤ o then .error cScratch
      else
        match s.paneOwner ⟨vd, h⟩ (o / 0x10000) with
        | none => .error cProtection
        | some c' =>
          if c' = c then .ok (.pane ⟨vd, h⟩ o)
          else
            match s.context c' with
            | some x' => if x'.world ≠ w then .error cWorld else .error cProtection
            | none => .error cProtection
    else .error cScratch

/-- The location of an S or V access of `size` bytes, aligned to `align`, by a job (R362, R327, R134). -/
def State.resolve (s : State) (u : UnitId) (j : Job) (acc : Acc) (align : Nat) (ea : Nat) : Except Byte Loc :=
  match windowOf ea with
  | .scratch c o =>
    if 48 ≤ c && c ≤ 62 then .error cScratch
    else if c ≠ 63 && c ≠ u.val then .error cProtection
    else if 4096 * j.spNeed ≤ o then .error cScratch
    else if ea % align ≠ 0 then .error cAlignment
    else match coreOf u with | some k => .ok (.scratch k o) | none => .error cProtection
  | .pane vd o =>
    match s.paneLoc j.ctx j.world vd o with
    | .error e => .error e
    | .ok l => if ea % align ≠ 0 then .error cAlignment else .ok l
  | .mapped =>
    if ea % align ≠ 0 then .error cAlignment
    else
      match s.translate (some u) j.ctx j.world acc ea with
      | .error e => .error e
      | .ok (.host _) => .error cProtection
      | .ok l => .ok l

/-- The checks of R132 for a C command or stream that reaches any core's scratchpad. -/
def State.farScratch (s : State) (u : UnitId) (j : Job) (c o : Nat) : Except Byte Loc :=
  if 48 ≤ c && c ≤ 62 then .error cScratch
  else
    let t : Nat := if c = 63 then u.val else c
    if h : t < 48 then
      let k : CoreId := ⟨t, h⟩
      if !(s.dieListOf j.dev).contains (dieOf (unitOf k)) then .error cProtection
      else
        match (s.core (unitOf k)).job with
        | none => .error cProtection
        | some j' =>
          if j'.world ≠ j.world then .error cWorld
          else if j'.ctx ≠ j.ctx then .error cProtection
          else if 4096 * j'.spNeed ≤ o then .error cScratch
          else .ok (.scratch k o)
    else .error cProtection

/-- The location of one byte of a C or M command's or a stream's access; host addresses are allowed (R323). -/
def State.cmdLoc (s : State) (u : UnitId) (j : Job) (acc : Acc) (ea : Nat) : Except Byte Loc :=
  match windowOf ea with
  | .scratch c o => s.farScratch u j c o
  | .pane vd o => s.paneLoc j.ctx j.world vd o
  | .mapped => s.translate (some u) j.ctx j.world acc ea

/-- n bytes at a virtual address, each resolved on its own; the first fault wins. -/
def State.cmdRead (s : State) (u : UnitId) (j : Job) (ea : Nat) : Nat → Except Byte (List Byte)
  | 0 => .ok []
  | n + 1 =>
    match s.cmdLoc u j .read ea with
    | .error e => .error e
    | .ok l =>
      match s.cmdRead u j (ea + 1) n with
      | .error e => .error e
      | .ok bs => .ok (s.locByte j.world l :: bs)

/-- The locations of n bytes at a virtual address. -/
def State.cmdLocs (s : State) (u : UnitId) (j : Job) (acc : Acc) (ea : Nat) : Nat → Except Byte (List Loc)
  | 0 => .ok []
  | n + 1 =>
    match s.cmdLoc u j acc ea with
    | .error e => .error e
    | .ok l =>
      match s.cmdLocs u j acc (ea + 1) n with
      | .error e => .error e
      | .ok ls => .ok (l :: ls)

/-- Writes bytes at their locations. -/
def State.writeLocs (s : State) (w : World) : List Loc → List Byte → State
  | l :: ls, b :: bs => (s.putLoc w b l).writeLocs w ls bs
  | _, _ => s

def State.readLocs (s : State) (w : World) (ls : List Loc) : List Byte := ls.map (s.locByte w)

/-- The locations lie in host memory, at least one of them. -/
def anyHost (ls : List Loc) : Bool := ls.any fun l => match l with | .host _ => true | _ => false

end Sys2Proof.Machine
end

