-- ==== Sys2Proof/Machine/Trace.lean ====
section
/-! DEFINITION. The trace ring (R300, Table 14.2), and recording and replay of scratchpad arrivals
(R305 to R307, Table 14.5). -/

namespace Sys2Proof.Machine

/-! The trace ring. -/

/-- Bytes of device memory, as the device reads and writes them for a world (R286): a byte of a granule that the world may not
reach reads as a free value, and a write to one is dropped (log 80). -/
def State.ownRead (s : State) (d : DevId) (w : World) (a n : Nat) : List Byte :=
  (List.range n).map fun i =>
    if ownerAllows (s.ownerOf d (a + i)) w then s.dramByte d w (a + i) else Config.freeByte (s.freeCount + a + i)

def State.ownWrite (s : State) (d : DevId) (w : World) (a : Nat) : List Byte → State
  | [] => s
  | b :: bs => (if ownerAllows (s.ownerOf d a) w then s.putDramByte d w a b else s).ownWrite d w (a + 1) bs

/-- The endpoint that holds an address of a device's memory. -/
def State.dramEnd (s : State) (d : DevId) (a : Nat) : Endpoint := s.homeOf (.dram d a)

/-- A write by the device from an endpoint, in a message for each 4 KiB-aligned part of it (R176, R452); a part whose message is lost is
not written (R186). -/
def State.sendOwn (s : State) (src : Endpoint) (d : DevId) (w : World) : Nat → Nat → List Byte → State
  | 0, _, _ => s
  | _ + 1, _, [] => s
  | n + 1, a, bs =>
    let k := 4096 - a % 4096
    let part := bs.take k
    let (ok, s) := s.send src (s.dramEnd d a) 0 part.length .other
    (if ok then s.ownWrite d w a part else s).sendOwn src d w n (a + k) (bs.drop k)

/-- The device reads n bytes from an address on, from an endpoint (R176). -/
def State.askOwn (s : State) (src : Endpoint) (d : DevId) : Nat → Nat → Nat → State
  | 0, _, _ => s
  | k + 1, a, n =>
    let m := min n (4096 - a % 4096)
    if n = 0 then s else (s.askSure src (s.dramEnd d a) m).askOwn src d k (a + m) (n - m)

/-- A context's own memory, for its world; a write comes from an endpoint. -/
def State.devRead (s : State) (x : Context) (a n : Nat) : List Byte := s.ownRead x.dev x.world a n
def State.devWrite (s : State) (src : Endpoint) (x : Context) (a : Nat) (bs : List Byte) : State :=
  s.sendOwn src x.dev x.world (bs.length / 4096 + 2) a bs

/-- Writes bytes at area offset off of a ring that wraps at `size`; a record never crosses the end. -/
def State.ringPut (s : State) (src : Endpoint) (x : Context) (size prod : Nat) (bs : List Byte) : State :=
  s.devWrite src x (x.traceBase.toNat + 64 + prod % size) bs

/-- A PAD record that fills the area to its end (Table 14.2). -/
def padRecord (n : Nat) : List Byte := [0, 0, 0, 0] ++ toBytes 4 n ++ List.replicate (n - 8) 0

/-- Places a record of core u in its context's ring, or drops it and counts the drop (R300). -/
def State.trace (s : State) (u : UnitId) (rec_ : List Byte) : State :=
  match (s.core u).job with
  | none => s
  | some j =>
    match s.context j.ctx with
    | none => s
    | some x =>
      if !(s.core u).trcctl.getLsbD 0 || !x.traceOn then s
      else
        let size := 2 ^ x.traceLog2
        let prod := ofBytes (s.devRead x x.traceBase.toNat 8)
        let cons := ofBytes (s.devRead x (x.traceBase.toNat + 8) 8)
        let n := rec_.length
        let room := size - prod % size
        let pad := if room < n then room else 0
        if size < (2 ^ 64 + prod + pad + n - cons) % 2 ^ 64 then
          s.modCore u fun c => { c with drops := if c.drops = 0xFFFFFFFF then c.drops else c.drops + 1 }
        else
          let s := if pad = 0 then s else s.ringPut (endOf u) x size prod (padRecord pad)
          let s := s.ringPut (endOf u) x size (prod + pad) rec_
          s.devWrite (endOf u) x x.traceBase.toNat (toBytes 8 (prod + pad + n))

def engNo : Eng → Nat
  | .S => 0 | .V => 1 | .M => 2 | .C => 3

/-- A STOP or BREAK record (Table 14.2). -/
def stopRecord (s : State) (kind : Byte) (u : UnitId) (e : Byte) (code : Byte) (scycle : Nat) : List Byte :=
  [kind, BitVec.ofNat 8 u.val, e, code] ++ List.replicate 4 0 ++ toBytes 8 scycle ++ toBytes 8 s.time ++
    List.replicate 8 0

/-- The conflict matrix catches up (R298). Which requesters lost a bank in which ec is timing, so what a cell has gained since the
matrix was last read is a free value; a cell stops at 0xFFFF (log 34). Cell (requester, bank) has key 32·requester + bank. -/
def countConflicts (n : Nat) (m : CMap Nat) : CMap Nat :=
  (List.range 256).foldl (fun m i =>
    CMap.set 0 m i (min 0xFFFF (CMap.get 0 m i + (Config.freeDword (n + i)).toNat))) m

def State.countConflicts (s : State) (u : UnitId) : State :=
  let n := s.freeCount
  ({ s with freeCount := n + 256 } : State).modCore u fun c => { c with conflicts := Machine.countConflicts n c.conflicts }

/-- The 256 counts, requester-major. -/
def Core.matrix (c : Core) : List Byte := (List.range 256).flatMap fun i => toBytes 2 (CMap.get 0 c.conflicts i)

/-- An engine leaves a loop (R299): it is marked for the snapshot of this ec. -/
def State.snapshot (s : State) (u : UnitId) (e : Eng) : State :=
  if (s.core u).trcctl.getLsbD 1 then
    s.modCore u fun c => { c with exits := c.exits ++ [(e, (s.eng u e).scycle)] }
  else s

/-- The lowest engine that is marked, with its SCYCLE. -/
def lowestExit (xs : List (Eng × Nat)) : Nat :=
  match [Eng.S, .V, .M, .C].findSome? fun e => xs.find? fun x => x.1 = e with
  | some x => x.2
  | none => 0

/-- The snapshot record of an ec (Table 14.2): it marks each engine that left a loop, and the matrix is cleared (R299). -/
def State.flushExits (s : State) (u : UnitId) : State :=
  let xs := (s.core u).exits
  if xs.isEmpty then s
  else
    let s := s.countConflicts u
    let mask := (([Eng.S, .V, .M, .C].filter fun e => xs.any fun x => x.1 = e).map fun e => 2 ^ engNo e).sum
    let r := [0x01, BitVec.ofNat 8 u.val, BitVec.ofNat 8 mask] ++ List.replicate 5 0 ++
      toBytes 8 (lowestExit xs) ++ toBytes 8 s.time ++ List.replicate 8 0 ++ (s.core u).matrix
    (s.trace u r).modCore u fun c => { c with conflicts := [], exits := [] }

def State.flushAllExits (s : State) : List UnitId → State
  | [] => s
  | u :: us => (s.flushExits u).flushAllExits us

/-! Recording and replay. -/

/-- A log entry, written from an endpoint, at the next place of the record log (R306), which is full when USED, the bytes of entries,
reaches the size. -/
def State.logAppend (s : State) (src : Endpoint) (c : CtxId) (x : Context) (e : List Byte) : State :=
  let used := x.recUsed + 16
  let s := s.devWrite src x (x.logBase.toNat + 64 + x.recUsed) e
  let s := s.devWrite src x x.logBase.toNat (toBytes 8 used)
  let full := x.logSize ≤ used
  let s := if full then s.devWrite src x (x.logBase.toNat + 8) [1] else s
  s.setContext c (some { x with recUsed := used, recState := if full then 1 else x.recState })

/-- An ARRIVAL entry (Table 14.5). -/
def arrivalEntry (target issuer req : Nat) (seq off : Nat) : List Byte :=
  [0x01, BitVec.ofNat 8 target, BitVec.ofNat 8 issuer, BitVec.ofNat 8 req] ++ toBytes 4 seq ++ toBytes 4 off ++
    List.replicate 4 0

/-- The first ARRIVAL of a word in the log from offset pos on, with the offset after it: replay serves a word's
arrivals in logged order, so entries already served are skipped by the count of arrivals the word has had. -/
def firstArrival (target off : Nat) : List (List Byte) → Nat → Option (List Byte)
  | [], _ => none
  | e :: es, skip =>
    if e.getD 0 0 = 0x01 ∧ (e.getD 1 0).toNat = target ∧ ofBytes ((e.drop 8).take 4) = off then
      match skip with
      | 0 => some e
      | k + 1 => firstArrival target off es k
    else firstArrival target off es skip

/-- Splits a log into its 16-byte entries. -/
def logEntries : Nat → List Byte → List (List Byte)
  | 0, _ => []
  | n + 1, bs => bs.take 16 :: logEntries n (bs.drop 16)

/-- Key of the count of arrivals replayed at a word, kept with the context's arrival counts. -/
def replayKey (target off : Nat) : Nat := 2 ^ 32 + 2 ^ 24 * target + off

/-- Drops a context to free mode (R307). -/
def State.freeMode (s : State) (src : Endpoint) (c : CtxId) (x : Context) : State :=
  let s := s.devWrite src x (x.logBase.toNat + 8) [3]
  s.setContext c (some { x with recState := 3 })

/-- The REPLAY_END record (Table 14.2). -/
def replayEnd (u : UnitId) (scycle : Nat) : List Byte :=
  [0x05, BitVec.ofNat 8 u.val] ++ List.replicate 6 0 ++ toBytes 8 scycle ++ List.replicate 16 0

/-- Appends an entry to a recording; when it fills the log, the record REPLAY_END marks the point (R305). -/
def State.logEntry (s : State) (src : Endpoint) (c : CtxId) (x : Context) (u : UnitId) (scycle : Nat) (e : List Byte) : State :=
  let s := s.logAppend src c x e
  if x.logSize ≤ x.recUsed + 16 then s.trace u (replayEnd u scycle) else s

/-- One arrival at a word of core `target`'s scratchpad in context c, of issuer u, requester `req` and its sequence count
(R305, R307): the state after it, or none when the replayed order makes it wait. -/
def State.arriveAs (s : State) (c : CtxId) (target : CoreId) (u : UnitId) (scycle req seq off : Nat) : Option State :=
  match s.context c with
  | none => some s
  | some x =>
    let w := off / 8 * 8
    match x.recMode with
    | .off => some s
    | .record =>
      if x.recState = 0 then some (s.logEntry (endOf (unitOf target)) c x u scycle (arrivalEntry target.val u.val req seq w)) else some s
    | .replay =>
      if x.recState = 2 then
        let n := CMap.get 0 x.arrivals (replayKey target.val w)
        let log := logEntries (x.recUsed / 16) (s.devRead x (x.logBase.toNat + 64) x.recUsed)
        match firstArrival target.val w log n with
        | none => some ((s.freeMode (endOf (unitOf target)) c x).trace u (replayEnd u scycle))
        | some ent =>
          if (ent.getD 2 0).toNat = u.val ∧ (ent.getD 3 0).toNat = req ∧
              ofBytes ((ent.drop 4).take 4) = seq % 2 ^ 32 then
            some (s.setContext c
              (some { x with arrivals := CMap.set 0 x.arrivals (replayKey target.val w) (n + 1) }))
          else none
      else some s

/-- The arrivals of one access at n words from an offset up; all carry the access's sequence count. -/
def State.arriveWords (s : State) (c : CtxId) (target : CoreId) (u : UnitId) (scycle req seq off : Nat) :
    Nat → Option State
  | 0 => some s
  | n + 1 =>
    match s.arriveAs c target u scycle req seq off with
    | none => none
    | some s => s.arriveWords c target u scycle req seq (off + 8) n

/-- The arrivals of an access of engine e of issuer u, at n words of a scratchpad. -/
def State.arriveRange (s : State) (target : CoreId) (u : UnitId) (e : Eng) (req off n : Nat) : Option State :=
  let g := s.eng u e
  let s1 := s.modEng u e fun g => { g with seqCount := g.seqCount + 1 }
  match (s.core u).job with
  | none => some s1
  | some j => s1.arriveWords j.ctx target u g.scycle req g.seqCount off n

/-- The arrivals of an access at a location; only scratchpads are logged. -/
def State.arriveLoc (s : State) (l : Loc) (u : UnitId) (e : Eng) (bytes : Nat) : Option State :=
  match l with
  | .scratch k o => s.arriveRange k u e (engNo e) o ((o % 8 + bytes + 7) / 8)
  | _ => some s

/-- The CRC of an engine's window takes in a write it commits or a value an atomic returns (R305). -/
def State.windowNote (s : State) (u : UnitId) (e : Eng) (bs : List Byte) : State :=
  match (s.core u).job with
  | none => s
  | some j =>
    match s.context j.ctx with
    | none => s
    | some x => if x.recMode = .off then s else s.modEng u e fun g => { g with winCrc := crcRun g.winCrc bs }

end Sys2Proof.Machine
end

