-- ==== Sys2Proof/Machine/Job.lean ====
section
/-! DEFINITION. The life of a job on a core: completion words (R247, R248), the journal (R66), what ends with a job
(R46, R111, R190, R245, R456), AbortJob (R245) and the clear between worlds (R287). -/

namespace Sys2Proof.Machine

/-! The journal and the graph store. -/

/-- Writes one journal entry, and JHEAD with it (R66, R447). -/
def State.journal (s : State) (kind : Byte) (slot : Option SlotId) (core : Option CoreId) (node ctx aux : Word) :
    State :=
  let q := s.md.jhead + 1
  let j : JEntry :=
    { kind := kind, slot := match slot with | some k => BitVec.ofNat 8 k.val | none => 0,
      core := match core with | some k => BitVec.ofNat 8 k.val | none => 0xFF,
      node := node, ctx := ctx, aux := aux, time := BitVec.ofNat 64 s.time }
  { s with md := { s.md with jhead := q, journal := ((q.toNat, j) :: s.md.journal).take 65536 } }

def ctxWord (c : CtxId) : Word := BitVec.ofNat 32 c.val

def State.node (s : State) (c : CtxId) (id : Word) : Option Node :=
  s.md.nodes.find? fun n => n.ctx = c && n.id = id

/-- Replaces the node of the same context and id. -/
def putNode (n : Node) : List Node → List Node
  | [] => []
  | m :: ms => if m.ctx = n.ctx ∧ m.id = n.id then n :: ms else m :: putNode n ms

def State.setNode (s : State) (n : Node) : State := { s with md := { s.md with nodes := putNode n s.md.nodes } }

/-- A machine-check record (Table 11.15). -/
def mcRecord (time : Nat) (unit : Byte) (i : McInfo) : ErrorRecord :=
  toBytes 8 time ++ [i.kind, unit] ++ toBytes 2 i.bank.toNat ++ toBytes 4 (2 ^ 12 * i.row.toNat + i.word.toNat) ++
    toBytes 8 (2 ^ 56 * i.hsyn.toNat + i.vsyn.toNat % 2 ^ 56) ++ toBytes 8 i.va.toNat

/-- Unit byte of a compute core (Table 11.15). -/
def unitByte (u : UnitId) : Byte :=
  if isSched u then 0xFF else BitVec.ofNat 8 ((dieOf u).val * 16 + (localOf u).val * 2)

def State.addRecord (s : State) (r : ErrorRecord) : State :=
  { s with cfm := { s.cfm with records := s.cfm.records ++ [r] } }

/-! Completion rings (R315). -/

/-- A dword of host memory. -/
def State.hostDword (s : State) (a : Nat) : Nat := ofBytes (s.readLoc 0 (.host a) 8)
def State.hostWrite (s : State) (a : Nat) (bs : List Byte) : State := s.writeLoc 0 (.host a) bs

/-- A ring of 32-byte records has room: PROD − CONS is below 2^n, CONS as the host last wrote it. -/
def State.ringRoom (s : State) (r : Ring) : Bool :=
  (2 ^ 64 + r.count - s.hostDword (r.addr.toNat + 8)) % 2 ^ 64 < 2 ^ r.n

/-- Writes one 32-byte record, then PROD. -/
def State.ringWrite (s : State) (r : Ring) (rec_ : List Byte) : State :=
  let s := s.hostWrite (r.addr.toNat + 64 + 32 * (r.count % 2 ^ r.n)) rec_
  s.hostWrite r.addr.toNat (toBytes 8 (r.count + 1))

/-- The 32 bytes of a completion record. -/
def HeldReport.bytes (h : HeldReport) : List Byte :=
  toBytes 4 h.id.toNat ++ [h.kind, h.cause, 0, 0] ++ toBytes 8 h.tag.toNat ++ toBytes 8 h.time.toNat ++
    toBytes 8 h.seq.toNat

/-- The slot's ring takes a record now. -/
def State.recordRoom (s : State) (k : SlotId) : Bool :=
  match (s.slot k).comp with | some r => s.ringRoom r | none => true

/-- Writes a completion record to its slot's ring. -/
def State.writeRecord (s : State) (h : HeldReport) : State :=
  match (s.slot h.slot).comp with
  | none => s
  | some r => (s.ringWrite r h.bytes).modSlot h.slot fun k => { k with comp := some { r with count := r.count + 1 } }

/-- Writes a record the MD makes itself, after those of the slot that already wait for room. -/
def State.postRecord (s : State) (h : HeldReport) : State :=
  if s.recordRoom h.slot && !s.md.pending.any (fun p => p.slot = h.slot) then s.writeRecord h
  else { s with md := { s.md with pending := s.md.pending ++ [h] } }

/-- Writes the waiting records whose rings have room. -/
def State.flushRecords (s : State) : List HeldReport → State
  | [] => s
  | h :: hs => (s.postRecord h).flushRecords hs

def State.flushPending (s : State) : State :=
  ({ s with md := { s.md with pending := [] } } : State).flushRecords s.md.pending

/-- The report of a finished job (R65). -/
def Node.report (n : Node) (kind cause : Byte) : HeldReport :=
  { ctx := n.ctx, id := n.id, kind := kind, cause := cause, slot := n.slot, tag := n.hostTag, time := 0, seq := 0 }

/-- Removes a node from the ready pool; the overflow list fills the place (R57). -/
def State.unpool (s : State) (n : Node) : State :=
  let out (l : List (CtxId × Word)) : List (CtxId × Word) := l.filter fun x => x ≠ (n.ctx, n.id)
  let pool := out s.md.pool
  let rest := out s.md.overflow
  let room := 4096 - pool.length
  { s with md := { s.md with pool := pool ++ rest.take room, overflow := rest.drop room } }

/-- A READY node enters the pool, or the overflow list while the pool is full (R57). -/
def State.toPool (s : State) (n : Node) : State :=
  let md := s.md
  if md.pool.length < 4096 then { s with md := { md with pool := md.pool ++ [(n.ctx, n.id)] } }
  else { s with md := { md with overflow := md.overflow ++ [(n.ctx, n.id)] } }

/-- A node becomes CANCELLED: journalled, and its record written by the MD (R35, R36, R66). -/
def State.cancelNode (s : State) (n : Node) : State :=
  let s := (s.unpool n).journal 7 (some n.slot) none n.id (ctxWord n.ctx) 0
  let s := s.setNode { n with state := .cancelled, core := none, cause := 0, image := none }
  s.postRecord { n.report 3 0 with time := BitVec.ofNat 64 s.time, seq := s.md.jhead }

/-! Tile slots (R127, R130): an M-core's own, a C-die's shared. -/

def State.tile (s : State) (u : UnitId) (n : BitVec 7) : TileSlot :=
  if isCCore u then (s.die (dieOf u)).tiles[n.toNat] else (s.core u).tiles[n.toNat % 64]

def State.setTile (s : State) (u : UnitId) (n : BitVec 7) (t : TileSlot) : State :=
  if isCCore u then s.setDie (dieOf u) { s.die (dieOf u) with tiles := (s.die (dieOf u)).tiles.set n.toNat t }
  else s.modCore u fun c => { c with tiles := c.tiles.set (n.toNat % 64) t (Nat.mod_lt _ (by decide)) }

/-- The slot is claimed by this core. -/
def State.claims (s : State) (u : UnitId) (n : BitVec 7) : Bool :=
  let t := s.tile u n
  t.hdr.fill ≠ .free && t.hdr.owner = localOf u

/-- Slot numbers of a core (R127). -/
def slotNums (u : UnitId) : List (BitVec 7) := (List.range (slotCount (isCCore u))).map (BitVec.ofNat 7)

/-- How many slots the core's job claims. -/
def State.claimCount (s : State) (u : UnitId) : Nat := ((slotNums u).filter (s.claims u)).length

/-- Releases every slot the core claims. A released slot's payload is no longer observable, so it is dropped. -/
def State.releaseTiles (s : State) (u : UnitId) : State :=
  (slotNums u).foldl (fun s n => if s.claims u n then s.setTile u n TileSlot.reset else s) s

/-! Completion words (R247, R248, Table 11.10). -/

/-- The word: DONE, QUEUE, PROGRESS, CODE. -/
def cword (queue progress : Nat) (code : Half) : Dword :=
  BitVec.ofNat 64 (2 ^ 63 + 2 ^ 60 * queue + progress % 2 ^ 24 * 2 ^ 32 + code.toNat)

/-- Address of completion word cwi of an engine (Table 11.9). -/
def cwAddr (cwa : Dword) (cwi : Half) : Nat := (cwa.toNat / 8 % 2 ^ 54 * 8 + 8 * cwi.toNat) % 2 ^ 64

/-- Holds a fault of a completion-word write. -/
def Engine.holdFault (g : Engine) (c : Byte) (code cwi : Half) : Engine :=
  { g with deferred := some { cause := c, code := code, cwi := cwi, again := g.deferred.isSome } }

/-- Sends a completion word to its locations, where it arrives by `arrive`; a word whose message is lost is not written (R186), and no
bank serves it (R305). -/
def State.sendCw (s : State) (u : UnitId) (j : Job) (t : Tie) (l : Loc) (ls : List Loc) (v : Dword)
    (arrive : State → Loc → Option State) : Option State :=
  let (ok, s) := s.send (endOf u) (s.homeOf l) 0 8 .other
  if ok then (arrive s l).map fun s => (s.writeLocs j.world (l :: ls) (toBytes 8 v.toNat)).noteWrite { t with queued := false } l 8
  else some s

/-- Writes a completion word of engine e, with the keys of its command (R166), or records the fault that stops it (R248); `arrive` is its
arrival at its first
location. -/
def State.putCw (s : State) (u : UnitId) (j : Job) (e : Eng) (t : Tie) (cwi : Half) (v : Dword)
    (arrive : State → Loc → Option State) : Option State :=
  let g := s.eng u e
  let code := v.extractLsb' 0 16
  if g.cwa.getLsbD 0 then
    match s.cmdLocs u j .write (cwAddr g.cwa cwi) 8 with
    | .error c => some (s.setEng u e (g.holdFault c code cwi))
    | .ok ls =>
      if e = .M && anyHost ls then some (s.setEng u e (g.holdFault cProtection code cwi))
      else
        match ls with
        | [] => some s
        | l :: ls => s.sendCw u j t l ls v arrive
  else some s

/-- A completion word in its place among the arrivals at a scratchpad word (R305, R307): none while replay makes it wait. -/
def State.tryCw (s : State) (u : UnitId) (j : Job) (e : Eng) (t : Tie) (cwi : Half) (v : Dword) : Option State :=
  s.putCw u j e t cwi v fun s l => s.arriveLoc l u e 8

/-- A completion word of a job that is being ended: it waits for no replayed order, since its engine has stopped. -/
def State.writeCw (s : State) (u : UnitId) (j : Job) (e : Eng) (t : Tie) (cwi : Half) (v : Dword) : State :=
  (s.putCw u j e t cwi v fun s l => some ((s.arriveLoc l u e 8).getD s)).getD s

/-! Message queues (R137, R138). -/

/-- The 64 bytes of entry n of a queue. -/
def State.queueEntry (s : State) (k : CoreId) (q : MsgQueue) (n : Nat) : BitVec 512 :=
  BitVec.ofNat 512 (ofBytes (s.rawBytes (keyScratch k (q.base + 64 * (n % 2 ^ q.log2n))) 64))

/-- The entries from HEAD to TAIL. -/
def State.queueEntries (s : State) (k : CoreId) (qn : BitVec 2) (q : MsgQueue) : List Spilled :=
  (List.range (q.tail - q.head).toNat).map fun i =>
    { target := k, queue := qn, data := s.queueEntry k q (q.head.toNat + i) }

/-- Places an entry's 64 bytes in the spill ring of a context, from an endpoint (R138); a granule that its world may not reach is not
written (R286, log 80). The specification gives the ring's base and size and not
the place of an entry in it: the place is a free value (log 71). -/
def State.spillPut (s : State) (src : Endpoint) (x : Context) (data : BitVec 512) : State :=
  if x.spillQuota / 64 = 0 then s
  else
    let at_ := (Config.freeDword s.freeCount).toNat % (x.spillQuota / 64)
    ({ s with freeCount := s.freeCount + 1 } : State).devWrite src x (x.spillBase.toNat + 64 * at_) (toBytes 64 data.toNat)

/-- Moves what is left in a queue to the context's spill ring, ahead of every entry spilled for it (R137). -/
def State.spillQueue (s : State) (u : UnitId) (ctx : CtxId) (qn : BitVec 2) : State :=
  match coreOf u, s.context ctx with
  | some k, some x =>
    let q := (s.core u).mqs[qn.toNat]
    let es := s.queueEntries k qn q
    let s := s.setContext ctx (some { x with spilled := es ++ x.spilled })
    let s := es.foldl (fun s e => s.spillPut (endOf u) x e.data) s
    s.modCore u fun c => { c with mqs := c.mqs.set qn.toNat { q with head := q.tail } }
  | _, _ => s

/-! Exchange directions (R190). -/

/-- A direction with no receiver: DETACHED, no permits. -/
def XDir.detached : XDir :=
  { attached := none, ping := .free, pong := .free, permits := 0, nextFill := false, nextRecv := false,
    nextFree := false }

def State.detach (s : State) (ctx : CtxId) (k : CoreId) : State :=
  match s.context ctx with
  | none => s
  | some x =>
    s.setContext ctx (some { x with xdirs := x.xdirs.map fun d => if d.attached = some k then XDir.detached else d })

/-! Ending a job. -/

/-- A lease held or asked for by a core ends (R71). -/
def State.dropLease (s : State) (u : UnitId) : State :=
  if isCCore u then
    let d := s.die (dieOf u)
    let l := d.lease
    let l := { l with holder := if l.holder = some (localOf u) then none else l.holder,
                      requests := l.requests.filter fun r => r.1 ≠ localOf u }
    s.setDie (dieOf u) { d with lease := l }
  else s

/-- An engine that no longer runs. -/
def Engine.stopped (g : Engine) : Engine :=
  { g with started := false, ended := false, after := none, ds := false, loops := [], flights := [], frozen := none,
           fencing := false, popDone := false, deferred := none, lost := none, hm := false }

/-- What every end of a job leaves on its core (R46, R111, R145, R190, R444): tokens discarded, banks returned, slots
released, streams unbound, queued messages spilled, exchange directions detached, the lease ended. -/
def State.cleanup (s : State) (u : UnitId) (j : Job) : State :=
  let s := (s.flushExits u).releaseTiles u
  let s := s.spillQueue u j.ctx 0
  let s := s.spillQueue u j.ctx 1
  let s := s.spillQueue u j.ctx 2
  let s := s.spillQueue u j.ctx 3
  let s := match coreOf u with | some k => s.detach j.ctx k | none => s
  let s := s.dropLease u
  s.modCore u fun c =>
    { c with
      eS := c.eS.stopped, eV := c.eV.stopped, eM := c.eM.stopped, eC := c.eC.stopped,
      exits := [], job := none, lastWorld := j.world, lastCtx := some j.ctx, tokens := Vector.replicate 16 0, lent := 0, lentPrev := 0, mq := [],
      chain := Chain.none, mpop := [], arels := [], cq := Vector.replicate 4 [], streams := Vector.replicate 8 none, mqs := Vector.replicate 4 MsgQueue.reset,
      arrtestRaw := false, ckptReq := false, preempt := none, ending := none }

/-- The core's job ends COMPLETE, and its report waits for the MD (R43, R65). -/
def State.completeJob (s : State) (u : UnitId) : State :=
  match (s.core u).job, coreOf u with
  | some j, some k =>
    let req := (s.core u).ckptReq
    let s := s.cleanup u j
    match s.node j.ctx j.node with
    | none => s
    | some n =>
      let n := { n with state := .complete, core := none, lastDie := some (dieOf u) }
      let s := s.setNode n
      let s := if req then s.modSlot j.slot fun x => { x with ckptPending := x.ckptPending ++ [n.id] } else s
      { s with md := { s.md with waiting := s.md.waiting ++ [(k, n.report 1 0)] } }
  | _, _ => s

/-- The exchange entry a command names on its die (R189). -/
def exchIndex (u : UnitId) (ch : BitVec 3) (dir : Bool) : Nat :=
  16 * ((dieOf u).val % 4) + 2 * ch.toNat + (if dir then 1 else 0)

def XDir.buf (d : XDir) (pong : Bool) : XBuf := if pong then d.pong else d.ping
def XDir.setBuf (d : XDir) (pong : Bool) (b : XBuf) : XDir := if pong then { d with pong := b } else { d with ping := b }

/-- Replaces direction i of a context. -/
def State.setXdir (s : State) (ctx : CtxId) (i : Nat) (d : XDir) : State :=
  match s.context ctx with
  | none => s
  | some x => s.setContext ctx (some { x with xdirs := setAt x.xdirs i d })

def State.xdir (s : State) (ctx : CtxId) (i : Nat) : XDir :=
  match s.context ctx with
  | none => XDir.detached
  | some x => x.xdirs.getD i XDir.detached

/-- An XSEND that has taken a permit and is cut short leaves its buffer FULL with the loss mark (Table 8.10). -/
def State.cutSend (s : State) (u : UnitId) (j : Job) (c : CCmd) : State :=
  match c.op, c.permit with
  | .xsend ch dir, some b =>
    let i := exchIndex u ch dir
    let d := s.xdir j.ctx i
    if d.buf b = .filling then s.setXdir j.ctx i (d.setBuf b (.full (c.aux.toNat / 64) true)) else s
  | _, _ => s

def State.cutSends (s : State) (u : UnitId) (j : Job) : State :=
  (s.core u).cq.toList.flatten.foldl (fun s c => s.cutSend u j c) s

/-- A C command of the core is in progress: an XSEND that holds a permit (R435). Every other command is performed in one
step. -/
def Core.sending (c : Core) : Bool := c.cq.toList.any fun l => l.any fun k => k.permit.isSome

/-- Codes 0x0150 and 0x0151 of Table 11.11. -/
def cwAborted : Half := 0x0150
def cwUmbra : Half := 0x0151

/-- A chain is under way: its MBEGIN has been performed. -/
def Chain.running (c : Chain) : Bool := c.state ≠ .none && !c.work.isEmpty

/-- Every M command not yet begun completes with a code, in queue order (R245, R252, R456). Of the commands of a chain only its
queued MRET writes a word (R247), with the MMA performed as its PROGRESS, and a chain still open writes none (R366); a load outside a
chain writes one (R377). `inside` when the commands stand in a chain. -/
def State.failMQueue (s : State) (u : UnitId) (j : Job) (code : Half) : Bool → List MCmd → State
  | _, [] => s
  | inside, c :: cs =>
    match c.op with
    | .mret => (s.writeCw u j .M c.stamp.tie 0xFFFF (cword 4 (s.core u).chain.done code)).failMQueue u j code false cs
    | .mbegin => s.failMQueue u j code true cs
    | .mloadb _ quiet =>
      (if inside || quiet then s else s.writeCw u j .M c.stamp.tie 0xFFFF (cword 4 0 code)).failMQueue u j code inside cs
    | _ => s.failMQueue u j code inside cs

/-- Every C command of a queue not yet begun completes with a code, in queue order (R245, R252). Markers and guarded-off
commands write no word. -/
def State.failQueue (s : State) (u : UnitId) (j : Job) (qn : Nat) (code : Half) : List CCmd → State
  | [] => s
  | c :: cs =>
    let s :=
      match c.op with
      | .off | .token _ | .fence _ _ => s
      | _ => s.writeCw u j .C c.stamp.tie c.cwi (cword qn 0 code)
    s.failQueue u j qn code cs

def State.failCommands (s : State) (u : UnitId) (j : Job) (code : Half) : State :=
  let q := (s.core u).cq
  let s := s.failMQueue u j code (s.core u).chain.running (s.core u).mq
  let s := s.failQueue u j 0 code q[0]
  let s := s.failQueue u j 1 code q[1]
  let s := s.failQueue u j 2 code q[2]
  s.failQueue u j 3 code q[3]

/-- The core's job ends without completing: queued commands get `code`, an open chain writes nothing, and the node
becomes FAILED with its cause, or CANCELLED (R245, R252, R456). -/
def State.endJob (s : State) (u : UnitId) (code : Half) (cause : Byte) (cancel : Bool) : State :=
  match (s.core u).job, coreOf u with
  | some j, some k =>
    let s := (s.failCommands u j code).cutSends u j
    let s := s.cleanup u j
    match s.node j.ctx j.node with
    | none => s
    | some n =>
      let n := { n with core := none, lastDie := some (dieOf u) }
      if cancel then s.cancelNode n
      else
        let n := { n with state := .failed, cause := cause }
        let s := s.setNode n
        { s with md := { s.md with waiting := s.md.waiting ++ [(k, n.report 2 cause)] } }
  | _, _ => s


/-- Ends the job with a code: an abort first lets a C command in progress complete, with every engine stopped (R245). -/
def State.killJob (s : State) (u : UnitId) (code : Half) (cause : Byte) (cancel : Bool) : State :=
  if code = cwAborted && (s.core u).sending then
    s.modCore u fun c =>
      { c with eS := { c.eS with started := false }, eV := { c.eV with started := false },
               eM := { c.eM with started := false }, eC := { c.eC with started := false },
               ending := some (code, cause, cancel) }
  else s.endJob u code cause cancel

/-! Scheduler cores (R67, R245). -/

def State.role (s : State) (sc1 : Bool) : Role := if sc1 then s.md.role1 else s.md.role0
def State.setRole (s : State) (sc1 : Bool) (r : Role) : State :=
  { s with md := if sc1 then { s.md with role1 := r } else { s.md with role0 := r } }

def scUnit (sc1 : Bool) : UnitId := if sc1 then 49 else 48

/-- A scheduler core enters FAILED (Table 3.3): it issues nothing more; with no partner in STANDBY it is hub loss,
else the CFM hears of H. The partner's takeover is a step of its own (SCHED_TAKING_OVER). -/
def State.failSched (s : State) (sc1 : Bool) : State :=
  let was := s.role sc1
  let md : Md := { s.md with releasing := if s.md.releasing = some sc1 then none else s.md.releasing,
                             hqStores := s.md.hqStores.filter (· ≠ sc1) }
  let s : State := { s with md := md }
  let s := s.setRole sc1 .failed
  let s := s.modEng (scUnit sc1) .S Engine.stopped
  if was = .standby then s.logMc (.dieHealth 0xFF)
  else if s.role (!sc1) = .standby then s
  else s.logMc .hubLoss

/-- AbortJob(c) (R245): on a compute core the job ends FAILED with cause c; on a scheduler core all issue stops, the MC
logs c and the core enters FAILED. -/
def State.abortJob (s : State) (u : UnitId) (c : Byte) : State :=
  if isSched u then (s.logMc (.abort (u.val = 49) c)).failSched (u.val = 49) else s.killJob u cwAborted c false

/-- A second fault of a completion word while one is pending aborts the job (R248), with the cause of the second. -/
def State.abortAgain (s : State) (u : UnitId) (e : Eng) : State :=
  match (s.eng u e).deferred with
  | some d => if d.again then s.abortJob u d.cause else s
  | none => s

/-! Between worlds, and the start of a job. -/

/-- A core's scratchpad, and its check bits, written with zeros. -/
def State.zeroScratch (s : State) (k : CoreId) : State :=
  let clear {α : Type} (m : CMap α) : CMap α := CMap.clear m (keyScratch k 0) (keyScratch k (2 ^ 24))
  { s with mem := clear s.mem, flips := clear s.flips, vflips := clear s.vflips }

/-- The check bits of a core's vector file, of which every word is written. -/
def State.mendFile (s : State) (k : CoreId) : State :=
  let clear {α : Type} (m : CMap α) : CMap α := CMap.clear m (keyVector k 0) (keyVector k (2 ^ 18))
  { s with flips := clear s.flips, vflips := clear s.vflips }

/-- The clear of R287: vector files, scratchpad, streams, tokens, micro-TLB; and the stationary registers, since a job never reads
a value that another world wrote. -/
def State.worldClear (s : State) (u : UnitId) : State :=
  let s := match coreOf u with
    | some k => (s.zeroScratch k).mendFile k
    | none => s
  s.modCore u fun c =>
    { c with vmain := Vector.replicate 64 VReg.zero, vop := Vector.replicate 8 VRow.zero,
             vlast := Vector.replicate 4 VReg.zero, streams := Vector.replicate 8 none,
             tokens := Vector.replicate 16 0, mtlb := [], stat := Stationary.reset (edge (isCCore u)),
             statOld := Stationary.reset (edge (isCCore u)) }

/-- An engine at the start of a stream (R38, R240). GLINTCNT belongs to the core and survives. An engine whose stream is not
started is not touched by the job (R37). -/
def Engine.start (g : Engine) (on : Bool) (pc : Dword) (rec_ : Word) : Engine :=
  if on then { Engine.reset with started := true, pc := pc, replays := g.replays, escal := g.escal, winCrc := rec_ } else g

/-- The fields of a job from its node (R37). -/
def Node.job (n : Node) (k : CoreId) (dev : DevId) (w : World) (prio : BitVec 3) : Job :=
  { node := n.id, ctx := n.ctx, standIn := k, slot := n.slot, dev := dev, world := w, eng := n.eng, imgBase := n.imgBase,
    imgLen := n.imgLen, spNeed := n.spNeed, tsNeed := n.tsNeed, persist := n.persist, gvalid := n.gvalid,
    gidx := n.gidx, arg0 := n.arg0, arg1 := n.arg1, leasePrio := prio }

/-- A core that runs a job of world w takes a debugger's commands: one of that world, through TDI w's IDE stream where w ≠ 0 (R304). -/
def Debugger.reaches (d : Debugger) (w : World) : Bool := d.world = w && (w = 0 || d.ide)

/-- A stop armed on a core stays armed for its next job, of world w, if it came by the path that a core of that job accepts (R304). -/
def Core.keepStop (c : Core) (w : World) : Option DebugStop :=
  match c.dbg with
  | some d => if d.stopped || !c.debugger.any (·.reaches w) then none else some d
  | none => none

/-- Starts a job (R37, R38, R48): every stream ENG names, in one ec. -/
def State.startJob (s : State) (u : UnitId) (n : Node) (dev : DevId) (w : World) : State :=
  let s := if (s.core u).lastWorld = w then s else s.worldClear u
  let prio := (s.slot n.slot).prio
  let ent (k : Nat) : Dword := n.imgBase + BitVec.ofNat 64 (n.ents.getD k 0)
  s.modCore u fun c =>
    let es := c.eS.start (n.eng.getLsbD 0) (ent 0) 0xFFFFFFFF
    { c with
      eS := if n.eng.getLsbD 0 then { es with x := (es.x.set 1 n.arg0).set 2 n.arg1 } else es,
      eV := c.eV.start (n.eng.getLsbD 1) (ent 1) 0xFFFFFFFF,
      eM := c.eM.start (n.eng.getLsbD 2) (ent 2) 0xFFFFFFFF,
      eC := c.eC.start (n.eng.getLsbD 3) (ent 3) 0xFFFFFFFF,
      job := some (n.job (coreAt (dieOf u) (localOf u)) dev w prio), tokens := Vector.replicate 16 0, lent := 0, lentPrev := 0,
      mq := [], chain := Chain.none, mpop := [], arels := [],
      cq := Vector.replicate 4 [], mcfg := Mcfg.reset (edge (isCCore u)), tssel := 0,
      streams := Vector.replicate 8 none, mqs := Vector.replicate 4 MsgQueue.reset, trcctl := 0, drops := 0,
      conflicts := [], spillSeq := 0, repair := c.repair, ckptReq := false, arrtestRaw := false, preempt := none, ending := none,
      exits := [], dbg := c.keepStop w }

end Sys2Proof.Machine
end

