-- ==== Sys2Proof/Machine/Sregs.lean ====
section
/-! DEFINITION. Special registers (Table 17.6): what MFS reads and what a write does, field by field under the access
codes of Table 0.2. The rows that name one register (MQCFG_WRITE, STICKY_WRITE and others) use the same operations. -/

namespace Sys2Proof.Machine

def dw (n : Nat) : Dword := BitVec.ofNat 64 n

/-- DIEMAP (Table 1.2); a die in umbra or lost reads 0xF (R16, R258). A die that the host has released shows its position again as its
test ends, outside any reconfiguration: R16 and R258 do not say when (DESIGN CHOICE, log 49). -/
def State.diemap (s : State) : Dword :=
  let field (vd : Vd) : Nat :=
    match (s.die vd).state with
    | .umbra | .lost => 0xF
    | _ => (s.md.vdPos[vd]).toNat
  dw (2 ^ 32 * s.md.dark.toNat + ((List.finRange 8).map fun vd => field vd * 2 ^ (4 * vd.val)).sum)

/-- JOBINFO (Table 2.5); zero on SC0 and SC1. -/
def State.jobinfo (s : State) (u : UnitId) : Dword :=
  if isSched u then 0
  else
    let cls := if isCCore u then 2 else 1
    match (s.core u).job with
    | none => dw (2 ^ 24 * cls + 2 ^ 8 * u.val)
    | some j =>
      dw (2 ^ 32 * j.node.toNat + 2 ^ 26 * j.slot.val + 2 ^ 24 * cls + 2 ^ 20 * j.eng.toNat + 2 ^ 8 * u.val +
        j.world.toNat * 2 ^ 4)

/-- GSLOTS (Table 2.6). -/
def State.gslots (s : State) (u : UnitId) : Dword :=
  match (s.core u).job with
  | none => 0
  | some j => dw (2 ^ 32 * j.gvalid.toNat + j.gidx.toNat)

/-- MQCFGk (Table 6.8). -/
def MsgQueue.cfg (q : MsgQueue) : Dword := dw ((if q.en then 2 ^ 63 else 0) + 2 ^ 32 * q.log2n + q.base)
/-- MQPTRk (Table 6.9). -/
def MsgQueue.ptr (q : MsgQueue) : Dword := q.tail ++ q.head

/-- Slot FILL as it reads (Tables 6.3, 6.6): FILLING while a fill issued has not ended. -/
def TileSlot.filling (t : TileSlot) : Bool := t.done < t.issued && !t.dropped
/-- The fills a command issued now is ordered after. -/
def TileSlot.fillsSeen (t : TileSlot) : Nat := if t.dropped then t.done else t.issued
/-- The slot as M commands and reads of TSHDR0 see it at a time: a TSFILL of this same ec is not yet seen (R404). -/
def TileSlot.seen (t : TileSlot) (time : Nat) : TileSlot :=
  if t.issuedAt = time then { t with issued := t.issued - 1 } else t
def TileSlot.fillCode (t : TileSlot) : Nat :=
  if t.filling then 2
  else match t.hdr.fill with | .free => 0 | .empty => 1 | .full => 3 | .faulted => 4

/-- TSHDR0 (Table 6.3): a slot this core has not claimed reads zero except FILL; ENC reads 0 while FILLING (R404). -/
def State.tshdr0 (s : State) (u : UnitId) : Dword :=
  let n := (s.core u).tssel
  if n.toNat < slotCount (isCCore u) then
    let t := (s.tile u n).seen s.time
    let f := 2 ^ 24 * t.fillCode
    if s.claims u n then
      let h := t.hdr
      dw (2 ^ 40 * h.tensor.toNat + 2 ^ 32 * h.owner.val + 2 ^ 28 * h.world.toNat +
        (if h.enc && !t.filling then 2 ^ 27 else 0) + f + 2 ^ 20 * h.swz.toNat + 2 ^ 18 * h.wc.toNat +
        h.err.toNat)
    else dw f
  else 0

/-- TSHDR1 (Table 6.4). -/
def State.tshdr1 (s : State) (u : UnitId) : Dword :=
  let n := (s.core u).tssel
  if n.toNat < slotCount (isCCore u) && s.claims u n then dw (2 ^ 40 * (s.tile u n).hdr.tile.toNat) else 0

/-- PHSTAT (Table 7.4): keys 2s and 2s + 1 of a die's phase table hold CUR and DONE of slot s. -/
def Die.cur (d : Die) (k : SlotId) : Word := CMap.get 0 d.phase (2 * k.val)
def Die.done (d : Die) (k : SlotId) : Word := CMap.get 0 d.phase (2 * k.val + 1)
def Die.setCur (d : Die) (k : SlotId) (v : Word) : Die := { d with phase := CMap.set 0 d.phase (2 * k.val) v }
def Die.setDone (d : Die) (k : SlotId) (v : Word) : Die := { d with phase := CMap.set 0 d.phase (2 * k.val + 1) v }
/-- CUR in this ec: the steps of PHADV take effect at its end (R391). -/
def Die.curNow (d : Die) (k : SlotId) : Word := d.cur k - BitVec.ofNat 32 (d.advances.filter (· = k)).length
/-- Component e of the phase vector of slot s on this die (R166). -/
def Die.vec (d : Die) (k : SlotId) (e : Vd) : Word := CMap.get 0 d.phase (96 + 8 * k.val + e.val)
def Die.setVec (d : Die) (k : SlotId) (e : Vd) (v : Word) : Die :=
  { d with phase := CMap.set 0 d.phase (96 + 8 * k.val + e.val) v }

/-- The phase vector of slot k's writes issued on a die now (R166): its own component is CUR, every other the latest value a
PHWAIT of the slot there has waited for. -/
def State.phaseVec (s : State) (vd : Vd) (k : SlotId) : Vector Word 8 :=
  ⟨((List.finRange 8).map fun e => if e = vd then (s.die vd).curNow k else (s.die vd).vec k e).toArray, by simp⟩

/-- What a write of a core's job carries (R163, R166). -/
def State.stampOf (s : State) (u : UnitId) : Stamp :=
  match (s.core u).job with
  | some j => { die := dieOf u, vec := s.phaseVec (dieOf u) j.slot, since := s.writes }
  | none => .zero

/-- The keys of a write that a core performs as it issues it (R160). -/
def State.tieOf (s : State) (u : UnitId) : Tie :=
  if isSched u then Tie.hub s.writes else { (s.stampOf u).tie with since := s.writes, queued := false }

def State.phstat (s : State) (u : UnitId) : Dword :=
  match (s.core u).job with
  | none => 0
  | some j => (s.die (dieOf u)).done j.slot ++ (s.die (dieOf u)).curNow j.slot

/-- FABPATH (Table 8.2). -/
def State.fabpath (s : State) (u : UnitId) : Dword :=
  let me := endOf u
  let three (d : Endpoint) : Nat :=
    (if s.pathUp me d 0 then 1 else 0) + (if s.pathUp me d 1 then 2 else 0) + (if s.pathUp me d 2 then 4 else 0)
  let toVd (vd : Vd) : Nat :=
    if endOfVd vd = me then 0
    else match (s.die vd).state with | .umbra | .lost => 0 | _ => three (endOfVd vd)
  dw ((if isSched u then 0 else three 8 * 2 ^ 24) + ((List.finRange 8).map fun vd => toVd vd * 2 ^ (3 * vd.val)).sum)

/-- CKPT (Table 12.6). -/
def State.ckptReg (s : State) (u : UnitId) : Dword :=
  match (s.core u).job with
  | none => if (s.core u).ckptReq then 1 else 0
  | some j =>
    let k := s.slot j.slot
    dw (2 ^ 40 * k.last.toNat + 2 ^ 16 * k.lastPeer.toNat + (if (s.core u).ckptReq then 1 else 0))

/-- Bank ownership as it is seen at a time: a VLEND of this same ec is not yet seen (R124). -/
def Core.lentSeen (c : Core) (time : Nat) : BitVec 4 := if c.lentAt = time then c.lentPrev else c.lent

/-- The value of a special register at an engine (R373). -/
def State.readSr (s : State) (u : UnitId) (e : Eng) (n : BitVec 10) : Dword :=
  let c := s.core u
  let g := c.eng e
  let dev := devOfDie s.md.mode (dieOf u)
  match n.toNat with
  | 0x00 => g.cause
  | 0x01 => g.epc
  | 0x02 => g.enpc
  | 0x03 => g.tdetail
  | 0x04 => g.tvec
  | 0x05 => dw ((if g.hm then 1 else 0) + (if g.hm && g.deferred.isSome then 2 else 0))
  | 0x06 => g.tscr0
  | 0x07 => g.tscr1
  | 0x08 => g.cwa
  | 0x0A => g.tokceil.setWidth 64
  | 0x0C => dw (2 ^ 32 * g.escal.toNat + g.replays.toNat)
  | 0x0D => dw (2 ^ 8 * c.cal.toNat + c.step.toNat)
  | 0x10 => s.diemap
  | 0x11 => s.jobinfo u
  | 0x12 => s.gslots u
  | 0x18 => g.rrb.setWidth 64
  | 0x19 => dw g.scycle
  | 0x20 => (s.md.leaseMax[dev]).setWidth 64
  | 0x21 => (s.md.maxChain[dev]).setWidth 64
  | 0x30 => g.sticky.setWidth 64
  | 0x31 => g.trapen.setWidth 64
  | 0x40 => (c.lentSeen s.time).setWidth 64
  | 0x44 => c.tssel.setWidth 64
  | 0x45 => s.tshdr0 u
  | 0x46 => s.tshdr1 u
  | 0x50 => c.mqs[0].cfg
  | 0x51 => c.mqs[1].cfg
  | 0x52 => c.mqs[2].cfg
  | 0x53 => c.mqs[3].cfg
  | 0x54 => c.mqs[0].ptr
  | 0x55 => c.mqs[1].ptr
  | 0x56 => c.mqs[2].ptr
  | 0x57 => c.mqs[3].ptr
  | 0x58 => match c.job with
    | none => 100
    | some j => match s.context j.ctx with | some x => x.quotaWait.setWidth 64 | none => 100
  | 0x60 => if isSched u then 0 else s.phstat u
  | 0x70 => s.fab.rate.setWidth 64
  | 0x74 => (s.fab.ends[endOf u]).cnt.getD 0 0
  | 0x75 => (s.fab.ends[endOf u]).cnt.getD 1 0
  | 0x76 => (s.fab.ends[endOf u]).cnt.getD 2 0
  | 0x77 => (s.fab.ends[endOf u]).cnt.getD 3 0
  | 0x78 => s.fabpath u
  | 0xE0 => c.repair
  | 0xE1 => if c.arrtestRaw then 1 else 0
  | 0xE4 => s.ckptReg u
  | 0xF0 => dw (2 ^ 32 * c.drops.toNat + c.trcctl.toNat)
  | _ => 0

/-! Writes. -/

/-- Bits [56:2] and, where kept, bit 0 of an address register (Tables 11.3 to 11.5). -/
def addrMask : Dword := 0x01FFFFFFFFFFFFFC
def addrMask0 : Dword := 0x01FFFFFFFFFFFFFD

/-- An MTS to MQCFGk (R137). LOG2N may be 4 to 16, but its field [35:32] has 4 bits, which hold no 16: the model takes the field as it
stands, so a queue of 65,536 entries cannot be set up (DESIGN CHOICE, log 99). -/
def State.writeMqcfg (s : State) (u : UnitId) (k : BitVec 2) (v : Dword) : State :=
  let q := (s.core u).mqs[k.toNat]
  if q.en then
    if v.getLsbD 63 then s
    else
      let s := match (s.core u).job with | some j => s.spillQueue u j.ctx k | none => s
      s.modCore u fun c => { c with mqs := c.mqs.set k.toNat { c.mqs[k.toNat] with en := false } }
  else
    let lg := (v.extractLsb' 32 4).toNat
    let on := v.getLsbD 63 && 4 ≤ lg && lg ≤ 16
    let q' : MsgQueue :=
      { q with base := (v.extractLsb' 0 24).toNat / 64 * 64, log2n := lg, en := on, report := q.report || on }
    s.modCore u fun c => { c with mqs := c.mqs.set k.toNat q' }

/-- The write would enable queue k with a range outside the job's scratchpad (R137). -/
def State.mqcfgOutside (s : State) (u : UnitId) (k : BitVec 2) (v : Dword) : Bool :=
  let q := (s.core u).mqs[k.toNat]
  let lg := (v.extractLsb' 32 4).toNat
  match (s.core u).job with
  | none => false
  | some j =>
    !q.en && v.getLsbD 63 && 4 ≤ lg && lg ≤ 16 &&
      4096 * j.spNeed < (v.extractLsb' 0 24).toNat / 64 * 64 + 64 * 2 ^ lg

/-- An MTS to MQPTRk.HEAD (R137). -/
def State.writeMqptr (s : State) (u : UnitId) (k : BitVec 2) (v : Dword) : State :=
  let q := (s.core u).mqs[k.toNat]
  let h := v.extractLsb' 0 32
  if (q.tail - h).toNat ≤ 2 ^ q.log2n then
    s.modCore u fun c => { c with mqs := c.mqs.set k.toNat { q with head := h } }
  else s

/-- Key of a bank's spare count in a die's table (R264): CORE, ARRAY, BANK. -/
def spareKey (core array bank : Nat) : Nat := (core * 8 + array) * 32 + bank

/-- The array and offset of a row that REPAIR names (R264, R443), when the machine holds its bytes: a core's scratchpad, vector file or
operand memory, or a die's shared SRAM and a C-die's operand memory among the die-shared arrays. Their banks and rows are all numbered as
a scratchpad's (log 36). Of the instruction memories REPAIR reaches, a compute core's are caches, which hold no state. -/
def repairRow (vd : Vd) (core array bank row : Nat) : Option (SramArray × Nat) :=
  let o := row * 2048 + bank * 64
  let at_ (a : SramArray) : Option (SramArray × Nat) := if o < arraySize a then some (a, o) else none
  if h : core < 6 then
    let k := coreAt vd ⟨core, h⟩
    match array with
    | 0 => at_ (.scratch k)
    | 1 => at_ (.vector k)
    | 2 => if isMDie vd then at_ (.operand k) else none
    | _ => none
  else if core = 7 then
    match array with
    | 2 => if isMDie vd then none else at_ (.operand (coreAt vd 0))
    | 3 => at_ (.pane vd)
    | _ => none
  else none

/-- The two elements of a register that hold word w of it, changed. -/
def VReg.modWord (r : VReg) (w : Nat) (f : Dword → Dword) : VReg :=
  let i := 2 * (w % 512)
  let lo := r.toList.getD i 0
  let hi := r.toList.getD (i + 1) 0
  let d := f (hi ++ lo)
  (r.set! i (d.extractLsb' 0 32)).set! (i + 1) (d.extractLsb' 32 32)

/-- Word w of a line, changed. -/
def TileLine.modWord (l : TileLine) (w : Nat) (f : Dword → Dword) : TileLine :=
  let d := f (l.data.extractLsb' (64 * (w % 8)) 64)
  { l with data := (l.data &&& ~~~((BitVec.allOnes 64).setWidth 512 <<< (64 * (w % 8)))) ||| (d.setWidth 512 <<< (64 * (w % 8))) }

/-- Bytes of a tile slot (Table 1.3). -/
def slotBytes (u : UnitId) : Nat := if isCCore u then 131072 else 8192

/-- Changes what a vector file or operand memory holds in the word at an offset. A tile slot's lines are the 64-byte lines of its bytes, in
order (DESIGN CHOICE, log 36). -/
def State.modArray (s : State) (a : SramArray) (o : Nat) (f : Dword → Dword) : State :=
  match a with
  | .vector c =>
    let r : Fin 64 := ⟨o / 4096 % 64, Nat.mod_lt _ (by decide)⟩
    s.modCore (unitOf c) fun k => { k with vmain := k.vmain.set r ((k.vmain[r]).modWord (o % 4096 / 8) f) }
  | .operand c =>
    let u := unitOf c
    let n := BitVec.ofNat 7 (o / slotBytes u)
    let t := s.tile u n
    let i := o % slotBytes u / 64
    s.setTile u n { t with lines := t.lines.map fun p => if p.1 = i then (p.1, p.2.modWord (o % 64 / 8) f) else p }
  | _ => s

/-- A spare row serves: it reads zero, and V of its groups is computed anew (R264). -/
def State.spareRow (s : State) (a : SramArray) (o : Nat) : State :=
  let k := arrayBase a + o
  let s := { s with mem := CMap.clear s.mem k (k + 64), flips := CMap.clear s.flips k (k + 64) }
  let s := (List.range 8).foldl (fun s w => s.modArray a (o + 8 * w) fun _ => 0) s
  s.recomputeV ((List.range 8).map fun w => groupOf (k + 8 * w))

/-- A write of REPAIR that takes effect (R264, Table 12.2). VALID, FULL and SPARE tell of the last request, so that a write with VALID = 0
leaves them; a request that finds no spare leaves SPARE and makes the die fail its test. -/
def State.repairNow (s : State) (u : UnitId) (v : Dword) : State :=
  let vd := dieOf u
  let d := s.die vd
  let core := (v.extractLsb' 56 3).toNat
  let array := (v.extractLsb' 53 3).toNat
  let bank := (v.extractLsb' 48 5).toNat
  let row := (v.extractLsb' 0 20).toNat
  let kept : Nat := 2 ^ 56 * core + 2 ^ 53 * array + 2 ^ 48 * bank + row
  let old := (s.core u).repair
  let spare : Nat := 2 ^ 44 * (old.extractLsb' 44 4).toNat
  if core = 6 ∨ 5 ≤ array then s
  else if v.getLsbD 63 then
    let used := CMap.get 0 d.spares (spareKey core array bank)
    if used < 16 then
      let s := s.setDie vd { d with spares := CMap.set 0 d.spares (spareKey core array bank) (used + 1) }
      let s := s.modCore u fun c => { c with repair := dw (2 ^ 63 + kept + 2 ^ 44 * used) }
      let s := s.logMc (.repair ⟨u.val % 48, by omega⟩ (dw kept))
      match repairRow vd core array bank row with
      | some (a, o) => s.spareRow a o
      | none => s
    else (s.setDie vd { d with full := true }).modCore u fun c => { c with repair := dw (2 ^ 62 + kept + spare) }
  else s.modCore u fun c => { c with repair := dw (2 ^ 62 * (old.extractLsb' 62 2).toNat + kept + spare) }

/-- A write of REPAIR: it takes effect only while the core's die is in SELFTEST; those of the boot test are made inside PACKAGE_RESET
(R264). -/
def State.writeRepair (s : State) (u : UnitId) (v : Dword) : State :=
  if (s.die (dieOf u)).state = .selftest then s.repairNow u v else s

/-- A write of ARRTEST (R444): the boot test, whose own writes are made inside PACKAGE_RESET, or SELFTEST. -/
def State.writeArrtest (s : State) (u : UnitId) (v : Dword) : State :=
  if (s.die (dieOf u)).state = .selftest then s.modCore u fun c => { c with arrtestRaw := v.getLsbD 0 } else s

/-- A write of CKPT.REQ (R271). -/
def State.writeCkpt (s : State) (u : UnitId) (v : Dword) : State :=
  s.modCore u fun c => { c with ckptReq := v.getLsbD 0 }

/-- A write of TRCCTL (R300): one that sets EN has no effect while the context has no ring. -/
def State.writeTrcctl (s : State) (u : UnitId) (v : Dword) : State :=
  let ring := match (s.core u).job with
    | none => false
    | some j => match s.context j.ctx with | some x => x.traceOn | none => false
  if v.getLsbD 0 && !ring then s else s.modCore u fun c => { c with trcctl := v.extractLsb' 0 3 }

/-- A write of STICKY clears each bit written as 1 (Table 5.5). -/
def State.writeSticky (s : State) (u : UnitId) (e : Eng) (v : Dword) : State :=
  s.modEng u e fun g => { g with sticky := g.sticky &&& ~~~(v.extractLsb' 0 9) }

/-- A write of TSTAT with ABANDON = 1 abandons the job with the cause of the trap being handled (R245). -/
def State.writeTstat (s : State) (u : UnitId) (e : Eng) (v : Dword) : State :=
  if v.getLsbD 2 then s.abortJob u ((s.eng u e).cause.extractLsb' 0 8) else s

/-- TOKCEIL: a field written as 0 keeps its value (R374). -/
def ceilField (old new : BitVec 8) : BitVec 8 := if new = 0 then old else new

def Engine.writeTokceil (g : Engine) (v : Dword) : Engine :=
  { g with tokceil :=
      ceilField (g.tokceil.extractLsb' 16 8) (v.extractLsb' 16 8) ++
      ceilField (g.tokceil.extractLsb' 8 8) (v.extractLsb' 8 8) ++
      ceilField (g.tokceil.extractLsb' 0 8) (v.extractLsb' 0 8) }

/-- A write of a special register (R373): RO and reserved fields keep their values. -/
def State.writeSr (s : State) (u : UnitId) (e : Eng) (n : BitVec 10) (v : Dword) : State :=
  match n.toNat with
  | 0x01 => s.modEng u e fun g => { g with epc := v &&& addrMask, epcDone := false }
  | 0x02 => s.modEng u e fun g => { g with enpc := v &&& addrMask0 }
  | 0x04 => s.modEng u e fun g => { g with tvec := v &&& addrMask0 }
  | 0x05 => s.writeTstat u e v
  | 0x06 => s.modEng u e fun g => { g with tscr0 := v }
  | 0x07 => s.modEng u e fun g => { g with tscr1 := v }
  | 0x08 => s.modEng u e fun g => { g with cwa := v &&& 0x01FFFFFFFFFFFFF9 }
  | 0x0A => s.modEng u e fun g => g.writeTokceil v
  | 0x18 => s.modEng u e fun g => { g with rrb := v.extractLsb' 0 5 }
  | 0x30 => s.writeSticky u e v
  | 0x31 => s.modEng u e fun g => { g with trapen := v.extractLsb' 0 9 }
  | 0x44 => s.modCore u fun c => { c with tssel := v.extractLsb' 0 7 }
  | 0x50 => s.writeMqcfg u 0 v
  | 0x51 => s.writeMqcfg u 1 v
  | 0x52 => s.writeMqcfg u 2 v
  | 0x53 => s.writeMqcfg u 3 v
  | 0x54 => s.writeMqptr u 0 v
  | 0x55 => s.writeMqptr u 1 v
  | 0x56 => s.writeMqptr u 2 v
  | 0x57 => s.writeMqptr u 3 v
  | 0xE0 => s.writeRepair u v
  | 0xE1 => s.writeArrtest u v
  | 0xE4 => s.writeCkpt u v
  | 0xF0 => s.writeTrcctl u v
  | _ => s

end Sys2Proof.Machine
end

