-- ==== Sys2Proof/Machine/Md.lean ====
section
/-! DEFINITION. The master distributor: reading and checking node descriptors (R27 to R31), dependences (R34 to R36),
the pick and the choice of a core (R57 to R62), the ring drain (R448) and the release of completions (R65, R449). -/

namespace Sys2Proof.Machine

/-! Descriptors. -/

/-- A dword of a context's memory as the MD reads it, or the cause of the fault: windows and host addresses name no
descriptor (R27). -/
def State.mdDword (s : State) (c : CtxId) (w : World) (a : Nat) : Except (Byte × Nat) Dword :=
  match windowOf a with
  | .mapped =>
    match s.translate none c w .read a with
    | .error e => .error (e, a)
    | .ok (.host _) => .error (cProtection, a)
    | .ok l => .ok (dw (ofBytes (s.readLoc w l 8)))
  | _ => .error (cProtection, a)

/-- n dwords from an address up; the first fault wins. -/
def State.mdDwords (s : State) (c : CtxId) (w : World) (a : Nat) : Nat → Except (Byte × Nat) (List Dword)
  | 0 => .ok []
  | n + 1 =>
    match s.mdDword c w a with
    | .error e => .error e
    | .ok d =>
      match s.mdDwords c w (a + 8) n with
      | .error e => .error e
      | .ok ds => .ok (d :: ds)

/-- A node descriptor and its code descriptor as read (Tables 2.1, 2.2). -/
structure Desc where
  hdr : List Dword
  ins : List Dword
  outs : List Dword
  edges : List Dword
  code : List Dword

def Desc.h (d : Desc) (k : Nat) : Dword := d.hdr.getD k 0
def Desc.c (d : Desc) (k : Nat) : Dword := d.code.getD k 0
def Desc.slotNo (d : Desc) : Nat := ((d.h 0).extractLsb' 26 6).toNat
def Desc.cls (d : Desc) : BitVec 2 := (d.h 0).extractLsb' 24 2
def Desc.eng (d : Desc) : BitVec 4 := (d.h 0).extractLsb' 20 4
def Desc.sp (d : Desc) : Nat := ((d.h 2).extractLsb' 32 16).toNat
def Desc.ts (d : Desc) : Nat := ((d.h 2).extractLsb' 24 8).toNat
def Desc.gvalid (d : Desc) : BitVec 4 := (d.h 3).extractLsb' 32 4
def Desc.gidx (d : Desc) : BitVec 32 := (d.h 3).extractLsb' 0 32
def Desc.imgBase (d : Desc) : Dword := d.c 0
def Desc.imgLen (d : Desc) : Nat := ((d.c 1).extractLsb' 0 32).toNat

/-- Entry offsets of S, V, M and C. -/
def Desc.ents (d : Desc) : List Nat :=
  [((d.c 2).extractLsb' 0 32).toNat, ((d.c 2).extractLsb' 32 32).toNat,
   ((d.c 3).extractLsb' 0 32).toNat, ((d.c 3).extractLsb' 32 32).toNat]

/-- Why a descriptor could not be read whole: a fault, or a misalignment that is answered with ALIGN. -/
inductive DescFault where
  | fault (cause : Byte) (at_ : Nat)
  | align

/-- Reads a node descriptor and the code descriptor it names. -/
def State.readDesc (s : State) (c : CtxId) (w : World) (a : Nat) : Except DescFault Desc :=
  if a % 8 ≠ 0 then .error .align
  else
    match s.mdDwords c w a 8 with
    | .error (e, b) => .error (.fault e b)
    | .ok hdr =>
      let h0 := hdr.getD 0 0
      let nin := (h0.extractLsb' 48 8).toNat
      let nout := (h0.extractLsb' 40 8).toNat
      let nedge := (h0.extractLsb' 32 8).toNat
      match s.mdDwords c w (a + 64) (nin + nout + nedge) with
      | .error (e, b) => .error (.fault e b)
      | .ok ents =>
        let code := (hdr.getD 1 0).toNat
        if code % 64 ≠ 0 then .error .align
        else
          match s.mdDwords c w code 8 with
          | .error (e, b) => .error (.fault e b)
          | .ok cd =>
            .ok { hdr := hdr, ins := ents.take nin, outs := (ents.drop nin).take nout,
                  edges := ents.drop (nin + nout), code := cd }

/-! The checks of Table 2.3. -/

def stAccepted : Byte := 0x00
def stBusy : Byte := 0x01
def stAlign : Byte := 0x10
def stReserved : Byte := 0x11
def stEng : Byte := 0x12
def stClass : Byte := 0x13
def stCount : Byte := 0x14
def stStream : Byte := 0x15
def stUnfit : Byte := 0x16
def stGroup : Byte := 0x17
def stDieOutside : Byte := 0x18
def stEdge : Byte := 0x19
def stId : Byte := 0x1A
def stUnreadable : Byte := 0x1B

/-- IMGBASE, IMGLEN or a used entry offset breaks R30. -/
def Desc.misaligned (d : Desc) : Bool :=
  d.imgBase.toNat % 64 ≠ 0 || d.imgLen = 0 || d.imgLen % 4 ≠ 0 ||
    [0, 1, 2, 3].any fun k =>
      d.eng.getLsbD k && (d.ents.getD k 0 % 4 ≠ 0 || d.imgLen ≤ d.ents.getD k 0)

/-- A reserved field is nonzero. -/
def Desc.reserved (d : Desc) : Bool :=
  (d.h 0).extractLsb' 56 8 ≠ 0 || (d.h 0).extractLsb' 0 19 ≠ 0 || (d.h 1).extractLsb' 57 7 ≠ 0 ||
  (d.h 2).extractLsb' 48 16 ≠ 0 || (d.h 2).extractLsb' 0 24 ≠ 0 || (d.h 3).extractLsb' 36 28 ≠ 0 ||
  d.h 6 ≠ 0 || d.h 7 ≠ 0 ||
  (d.ins ++ d.outs).any (fun e => e.extractLsb' 0 16 ≠ 0) || d.edges.any (fun e => e.extractLsb' 32 32 ≠ 0) ||
  (d.c 1).extractLsb' 32 32 ≠ 0 || d.c 4 ≠ 0 || d.c 5 ≠ 0 || d.c 6 ≠ 0 || d.c 7 ≠ 0

def Desc.overCount (d : Desc) : Bool :=
  32 < d.ins.length || 16 < d.outs.length || 16 < d.edges.length || 4096 < d.sp || 128 < d.ts

/-- The classes R33 allows. -/
def allowsM (cls : BitVec 2) (ts : Nat) : Bool := cls = 1 || (cls = 0 && ts ≤ 64)
def allowsC (cls : BitVec 2) (sp : Nat) : Bool := cls = 2 || (cls = 0 && sp ≤ 1024)

/-- A core of an allowed class that could hold the needs when empty. -/
def classFits (cls : BitVec 2) (sp ts : Nat) (k : CoreId) : Bool :=
  if isCCore (unitOf k) then allowsC cls sp && sp ≤ 1024 && ts ≤ 128 else allowsM cls ts && sp ≤ 4096 && ts ≤ 64

/-- The core's class is allowed. -/
def classAllows (cls : BitVec 2) (sp ts : Nat) (k : CoreId) : Bool :=
  if isCCore (unitOf k) then allowsC cls sp else allowsM cls ts

/-- Cores of a device's current die list. -/
def State.devCores (s : State) (d : DevId) : List CoreId :=
  (List.finRange 48).filter fun k => (s.dieListOf d).contains (dieOf (unitOf k))

/-- Group indices a node binds. -/
def boundEntries (gvalid : BitVec 4) (gidx : BitVec 32) : List Nat :=
  ([0, 1, 2, 3].filter fun k => gvalid.getLsbD k).map fun k => (gidx.toNat / 2 ^ (8 * k)) % 256

/-- Members of a group entry; none when the entry is empty. -/
def Context.group (x : Context) (i : Nat) : Option (BitVec 48) := (x.groups.getD i none)

/-- A core is a member of every bound entry. -/
def Context.memberOfAll (x : Context) (gvalid : BitVec 4) (gidx : BitVec 32) (k : CoreId) : Bool :=
  (boundEntries gvalid gidx).all fun i => match x.group i with | some m => m.getLsbD k.val | none => false

/-- Nodes of the graph store (R57). -/
def Node.alive (n : Node) : Bool :=
  match n.state with | .waiting | .ready | .running => true | _ => false

/-- The status of a submission to a context (Table 2.3), after BUSY and the descriptor's reading. `drain` is the slot a
ring drain serves; an NSUB compares the slot's world with its own. -/
def State.checkDesc (s : State) (c : CtxId) (x : Context) (w : World) (d : Desc) (drain : Option SlotId) : Byte :=
  let cores := s.devCores x.dev
  let badSlot : Bool :=
    if h : d.slotNo < 48 then
      let k : SlotId := ⟨d.slotNo, h⟩
      let sl := s.slot k
      !sl.open_ || sl.state = .nofit || devOfSlot s.md.mode k ≠ x.dev || sl.ctx ≠ some c || sl.world ≠ w ||
        (match drain with | some q => q ≠ k | none => false)
    else true
  let bound := boundEntries d.gvalid d.gidx
  if d.misaligned then stAlign
  else if d.reserved then stReserved
  else if !d.eng.getLsbD 0 then stEng
  else if d.cls = 3 then stClass
  else if d.overCount then stCount
  else if badSlot then stStream
  else if !cores.any (classFits d.cls d.sp d.ts) then stUnfit
  else if bound.any (fun i => x.group i = none) ||
      !((List.finRange 48).any fun k => classAllows d.cls d.sp d.ts k && x.memberOfAll d.gvalid d.gidx k) then stGroup
  else if bound.any (fun i => match x.group i with
      | none => false
      | some m => (List.finRange 48).any fun k => m.getLsbD k.val && !cores.contains k) then stDieOutside
  else if d.edges.any (fun e => e.extractLsb' 0 32 = 0 || x.nextId ≤ (e.extractLsb' 0 32).toNat) then stEdge
  else if 2 ^ 32 - 1 < x.nextId then stId
  else stAccepted

/-! Dependences. -/

/-- TENSOR and TILE of an operand entry. -/
def pairOf (e : Dword) : BitVec 24 × BitVec 24 := (e.extractLsb' 40 24, e.extractLsb' 16 24)

/-- The most recently accepted node of a context that declares a pair as an output. Nodes stand in acceptance order. -/
def lastOut (c : CtxId) (p : BitVec 24 × BitVec 24) : List Node → Option Word
  | [] => none
  | n :: ns =>
    match lastOut c p ns with
    | some i => some i
    | none => if n.ctx = c ∧ n.outs.contains p then some n.id else none

/-- Rule 2 of R34: every node that declares the pair, after the last that declares it as an output, and that one. -/
def pairUsers (c : CtxId) (p : BitVec 24 × BitVec 24) (ns : List Node) : List Word :=
  let last := lastOut c p ns
  (ns.filter fun n =>
    n.ctx = c && (n.ins.contains p || n.outs.contains p) &&
      (match last with | some i => i.toNat ≤ n.id.toNat | none => true)).map (·.id)

/-- Every node that a new node with these operands depends on (R34). -/
def depsOf (c : CtxId) (ins outs : List (BitVec 24 × BitVec 24)) (edges : List Word) (ns : List Node) : List Word :=
  (ins.filterMap fun p => lastOut c p ns) ++ (outs.flatMap fun p => pairUsers c p ns) ++ edges

/-- A dependence is satisfied: COMPLETE and released. -/
def Node.satisfied (n : Node) : Bool := n.state = .complete && n.released

/-- A dependence has failed: CANCELLED, or FAILED and released. A node accepted while a node it depends on is FAILED with its report not
yet released stays WAITING until the release (DESIGN CHOICE, log 94). -/
def Node.broken (n : Node) : Bool := n.state = .cancelled || (n.state = .failed && n.released)

/-- A node enters READY (R57, R66). -/
def State.makeReady (s : State) (n : Node) : State :=
  let s := s.journal 2 (some n.slot) none n.id (ctxWord n.ctx) 0
  (s.setNode { n with state := .ready, deps := [], core := none, readyAt := s.time }).toPool n

/-- Evaluates the WAITING nodes of a context in acceptance order (R34, R36): a dependence is always on an earlier node,
so one pass settles every node. -/
def State.evalNodes (s : State) (c : CtxId) : List Word → State
  | [] => s
  | id :: ids =>
    let s :=
      match s.node c id with
      | none => s
      | some n =>
        if n.state ≠ NodeState.waiting then s
        else
          let found := n.deps.filterMap (s.node c)
          if found.any Node.broken then s.cancelNode n
          else
            let left := n.deps.filter fun d => match s.node c d with | some m => !m.satisfied | none => false
            if left.isEmpty then s.makeReady n else s.setNode { n with deps := left }
    s.evalNodes c ids

/-- The MD evaluates every dependant in a context. -/
def State.evaluate (s : State) (c : CtxId) : State :=
  s.evalNodes c ((s.md.nodes.filter fun n => n.ctx = c).map (·.id))

/-- The consumer index of a slot's submission ring as it stands (R66): what an ACCEPT that comes from no ring carries, so
that a takeover drains the ring from there (R68, R69). -/
def State.ringIndex (s : State) (k : SlotId) : Word :=
  match (s.slot k).sub with | some r => BitVec.ofNat 32 r.count | none => 0

/-- Accepts a checked descriptor (R31, R32, R34): the new id, and the state. `aux` is the ring index after the entry, none
for a submission that no ring holds (NSUB, a restart node). -/
def State.accept (s : State) (c : CtxId) (x : Context) (d : Desc) (tag : Dword) (aux : Option Word) : Word × State :=
  let id : Word := BitVec.ofNat 32 x.nextId
  let slot : SlotId := ⟨d.slotNo % 48, Nat.mod_lt _ (by decide)⟩
  let ins := d.ins.map pairOf
  let outs := d.outs.map pairOf
  let n : Node :=
    { ctx := c, id := id, state := .waiting, slot := slot, cls := d.cls, eng := d.eng, persist := (d.h 0).getLsbD 19,
      imgBase := d.imgBase, imgLen := d.imgLen, ents := d.ents, spNeed := d.sp, tsNeed := d.ts, gvalid := d.gvalid,
      gidx := d.gidx, arg0 := d.h 4, arg1 := d.h 5, ins := ins, outs := outs,
      deps := depsOf c ins outs (d.edges.map (·.extractLsb' 0 32)) s.md.nodes, readyAt := 0,
      core := none, lastDie := none, pickedAt := 0, hostTag := tag, cause := 0, released := false, image := none }
  let s := s.journal 1 (some slot) none id (ctxWord c) (aux.getD (s.ringIndex slot))
  let s := s.setContext c (some { x with nextId := x.nextId + 1 })
  let s : State := { s with md := { s.md with nodes := s.md.nodes ++ [n] } }
  (id, s.evalNodes c [id])

/-- The graph store is full (R57). -/
def State.storeFull (s : State) : Bool := 32768 ≤ (s.md.nodes.filter Node.alive).length

/-- How a submission ends: the answer, or a fault of a descriptor's reading. -/
inductive Submitted where
  | answer (id : Word) (status : Byte) (s : State)
  | fault (cause : Byte) (at_ : Nat)

/-- The MD's reads of n bytes of a context's memory (R176). -/
def State.mdAsked (s : State) (c : CtxId) (w : World) : Nat → Nat → Nat → State
  | 0, _, _ => s
  | k + 1, a, n =>
    let m := min n (4096 - a % 4096)
    if n = 0 then s
    else
      (match s.translate none c w .read a with
        | .ok l => s.askSure 8 (s.homeOf l) m
        | .error _ => s).mdAsked c w k (a + m) (n - m)

/-- The reads of a descriptor at an address, and of its code descriptor. -/
def State.descAsked (s : State) (c : CtxId) (w : World) (a : Nat) (d : Desc) : State :=
  (s.mdAsked c w 3 a (64 + 8 * (d.ins.length + d.outs.length + d.edges.length))).mdAsked c w 2 (d.h 1).toNat 64

/-- Submits the descriptor at an address to a context (R31). -/
def State.submit (s : State) (c : CtxId) (w : World) (a : Nat) (drain : Option SlotId) (tag : Dword)
    (aux : Option Word) : Submitted :=
  match s.context c with
  | none => .fault cTranslation a
  | some x =>
    if s.storeFull then .answer 0 stBusy s
    else
      match s.readDesc c w a with
      | .error .align => .answer 0 stAlign s
      | .error (.fault e b) => .fault e b
      | .ok d =>
        let s := s.descAsked c w a d
        let st := s.checkDesc c x w d drain
        if st = stAccepted then
          let (id, s) := s.accept c x d tag aux
          .answer id stAccepted s
        else .answer 0 st s

/-! The ring drain (R314, R448). -/

/-- The full count congruent to FROM modulo 2^32 that lies from PROD − 2^31 to PROD. -/
def fullCount (from_ : Word) (prod : Nat) : Nat := prod - (2 ^ 32 + prod - from_.toNat) % 2 ^ 32

/-- A record of the slot still waits for room in the completion ring (R315). -/
def State.recordsWait (s : State) (k : SlotId) : Bool := s.md.pending.any fun p => p.slot = k

/-- Submits entries i, i + 1, … of a slot's ring; `n` are left. Answers the last AUX. A REFUSED record that finds the completion ring full
holds the drain (R315). A slot without a context has no descriptor that could be read (log 103). -/
def State.drainEntries (s : State) (k : SlotId) (r : Ring) (c : Option CtxId) (w : World) (i : Nat) : Nat → Nat × State
  | 0 => (i, s)
  | n + 1 =>
    if s.recordsWait k then (i, s)
    else
      let e := r.addr.toNat + 64 + 16 * (i % 2 ^ r.n)
      let desc := s.hostDword e
      let tag := dw (s.hostDword (e + 8))
      let aux : Word := BitVec.ofNat 32 (i + 1)
      let refuse (st : Byte) : State :=
        let s := s.journal 1 (some k) none 0 (c.elim 0xFFFFFFFF ctxWord) aux
        s.postRecord { ctx := c.getD 0, id := 0, kind := 4, cause := st, slot := k, tag := tag, time := BitVec.ofNat 64 s.time,
                       seq := s.md.jhead }
      match c with
      | none => (refuse stUnreadable).drainEntries k r none w (i + 1) n
      | some x =>
        match s.submit x w desc (some k) tag (some aux) with
        | .fault _ _ => (refuse stUnreadable).drainEntries k r (some x) w (i + 1) n
        | .answer _ st s' =>
          if st = stAccepted then s'.drainEntries k r (some x) w (i + 1) n
          else if st = stBusy then
            (i, { s with md := { s.md with kickpend := s.md.kickpend ||| (1#48 <<< k.val) } })
          else (refuse st).drainEntries k r (some x) w (i + 1) n

/-- A drain goes on as far as it can; at its end CONS is written. -/
def State.runDrain (s : State) (d : Drain) (r : Ring) : State :=
  let x := s.slot d.slot
  let (last, s) := s.drainEntries d.slot r x.ctx x.world d.at_ (d.stop - d.at_)
  if s.recordsWait d.slot then { s with md := { s.md with drains := s.md.drains ++ [{ d with at_ := last }] } }
  else (s.hostWrite (r.addr.toNat + 8) (toBytes 8 last)).modSlot d.slot fun x => { x with sub := some { r with count := last } }

/-- Drains that waited go on; one whose ring is gone has ended. -/
def State.runDrains (s : State) : List Drain → State
  | [] => s
  | d :: ds => (match (s.slot d.slot).sub with | some r => s.runDrain d r | none => s).runDrains ds

def State.drainOn (s : State) : State :=
  if s.md.drains.isEmpty then s else ({ s with md := { s.md with drains := [] } } : State).runDrains s.md.drains

/-- DRAINREQ by a scheduler core (R448): a slot without a ring, or a core in another role, drains nothing. -/
def State.drainReq (s : State) (sc1 : Bool) (v : Dword) : State :=
  let n := (v.extractLsb' 32 6).toNat
  if s.role sc1 ≠ .active ∧ s.role sc1 ≠ .takingOver then s
  else if h : n < 48 then
    match (s.slot ⟨n, h⟩).sub with
    | some r =>
      let prod := s.hostDword r.addr.toNat
      s.runDrain { sc1 := sc1, slot := ⟨n, h⟩, at_ := fullCount (v.extractLsb' 0 32) prod, stop := prod } r
    | none => s
  else s

/-- SCGO by a core in TAKING_OVER makes it ACTIVE (R68). -/
def State.scgo (s : State) (sc1 : Bool) (v : Dword) : State :=
  if v.getLsbD 0 && s.role sc1 = .takingOver then s.setRole sc1 .active else s

/-! Kicks (R63). -/

/-- The intake of a world is closed: its TDI is in ERROR, or the sequence that resets it runs (R288, R289). -/
def State.intakeShut (s : State) (w : World) : Bool :=
  match s.port.tdis[w.toNat] with
  | some t => t.state = .error || t.step.isSome
  | none => false

/-- The slots whose world takes kicks, as a mask. -/
def State.kickable (s : State) : BitVec 48 :=
  BitVec.ofNat 48 ((List.finRange 48).map fun k => if s.intakeShut (s.slot k).world then 0 else 2 ^ k.val).sum

/-- Sets kick bits; a kick of a world that is being reset is refused, whoever sends it (R289). -/
def State.kickset (s : State) (m : BitVec 48) : State :=
  let m := m &&& s.kickable
  { s with md := { s.md with kickpend := s.md.kickpend ||| m, kickNew := s.md.kickNew ||| m } }

/-- Clears kick bits; one set in the same cycle stays set. -/
def State.kickclear (s : State) (m : BitVec 48) : State :=
  { s with md := { s.md with kickpend := s.md.kickpend &&& ~~~(m &&& ~~~s.md.kickNew) } }

/-! The hold queue and the release of completions (R65, R449). -/

/-- Records the producers of a COMPLETE node's outputs (R45). -/
def Context.produced (x : Context) (vd : Vd) : List (BitVec 24 × BitVec 24) → Context
  | [] => x
  | p :: ps => ({ x with producers := (p, vd) :: x.producers.filter fun q => q.1 ≠ p } : Context).produced vd ps

/-- Releases a finished node: producers, outputs and dependants; journalled RELEASE. -/
def State.release (s : State) (h : HeldReport) : State :=
  let s := s.journal 5 (some h.slot) none h.id (ctxWord h.ctx) 0
  match s.node h.ctx h.id with
  | none => s
  | some n =>
    let s := s.setNode { n with released := true }
    let s :=
      match s.context h.ctx, n.lastDie with
      | some x, some vd => if n.state = NodeState.complete then s.setContext h.ctx (some (x.produced vd n.outs)) else s
      | _, _ => s
    s.evaluate h.ctx

/-- The head of the hold queue waits: for room in its ring (R315), or for its checkpoint (R272). -/
def State.headWaits (s : State) : Bool :=
  match s.md.held with
  | [] => false
  | h :: _ =>
    !s.recordRoom h.slot || s.recordsWait h.slot || (s.slot h.slot).ckptPending.contains h.id

/-- A store to HQCTL that acts: REL = 1, by the ACTIVE core, with an entry in the queue. -/
def State.hqActs (s : State) (sc1 : Bool) (v : Dword) : Bool :=
  v.getLsbD 0 && s.role sc1 = .active && !s.md.held.isEmpty

/-- One step of the store to HQCTL that is first in order (R449): it writes the completion record of the head of the hold queue, or, that
done, releases the entry. A core that fails between the two leaves the entry at the head, and its record is written again (R69). -/
def State.hqStep (s : State) : State :=
  match s.md.hqStores with
  | [] => s
  | sc1 :: rest =>
    let ended : State := { s with md := { s.md with hqStores := rest, releasing := none } }
    match s.md.held with
    | [] => ended
    | h :: hs =>
      if s.role sc1 ≠ .active then ended
      else if s.md.releasing = some sc1 then ({ ended with md := { ended.md with held := hs } } : State).release h
      else if s.headWaits then s
      else
        let s := s.writeRecord h
        { s with md := { s.md with releasing := some sc1 } }

/-- Steps of the stores to HQCTL in progress. -/
def State.hqSteps (s : State) : Nat → State
  | 0 => s
  | n + 1 => s.hqStep.hqSteps n

/-- A store to HQCTL that acts begins. -/
def State.hqBegin (s : State) (sc1 : Bool) (v : Dword) : State :=
  if s.hqActs sc1 v then { s with md := { s.md with hqStores := s.md.hqStores ++ [sc1] } } else s

/-- The stores in progress go on: both steps of each, as far as nothing stands against them. -/
def State.hqOn (s : State) : State := if s.md.hqStores.isEmpty then s else s.hqSteps (2 * s.md.hqStores.length)

/-- A store to HQCTL: both steps (R449). -/
def State.hqRelease (s : State) (sc1 : Bool) (v : Dword) : State := (s.hqBegin sc1 v).hqOn

/-- A core's report enters the hold queue with its RECEIVE entry, when the queue has room (R65). -/
def State.receiveReport (s : State) (k : CoreId) : State :=
  match s.md.waiting.find? fun p => p.1 = k with
  | none => s
  | some (_, h) =>
    if 1024 ≤ s.md.held.length then s
    else
      let s := s.journal 4 (some h.slot) (some k) h.id (ctxWord h.ctx) 0
      let h := { h with time := BitVec.ofNat 64 s.time, seq := s.md.jhead }
      { s with md := { s.md with waiting := s.md.waiting.filter (fun p => p.1 ≠ k), held := s.md.held ++ [h] } }

/-! The resource view (R60). -/

/-- Tile slots a core's job reserves. -/
def State.coreTilesUsed (s : State) (k : CoreId) : Nat :=
  match (s.core (unitOf k)).job with | some j => j.tsNeed | none => 0

/-- Tile slots reserved on a C-die. -/
def State.dieTilesUsed (s : State) (vd : Vd) : Nat := ((List.finRange 6).map fun l => s.coreTilesUsed (coreAt vd l)).sum

/-- A core is free as the MD counts it: live, without a job, its last report accepted (R65). -/
def State.coreFree (s : State) (k : CoreId) : Bool :=
  let c := s.core (unitOf k)
  c.health = .live && c.job.isNone && !s.md.waiting.any fun p => p.1 = k

/-- What a die would report now. Its lease load counts each core once, be it a holder that asks again. -/
def State.dieNow (s : State) (vd : Vd) : DieView :=
  let free : Nat := ((List.finRange 6).map fun l => if s.coreFree (coreAt vd l) then 2 ^ l.val else 0).sum
  if isMDie vd then
    { free := BitVec.ofNat 6 free, scratch := List.replicate 6 4096, load := 0,
      tiles := (List.finRange 6).map fun l => 64 - s.coreTilesUsed (coreAt vd l) }
  else
    let l := (s.die vd).lease
    { free := BitVec.ofNat 6 free, scratch := List.replicate 6 1024, tiles := [128 - s.dieTilesUsed vd],
      load := ((List.finRange 6).filter fun i => l.holder = some i || l.requests.any fun q => q.1 = i).length }

/-! The pick (R58, R59, R61). -/

/-- Lexicographic order of key lists. -/
def keyLt : List Nat → List Nat → Bool
  | _, [] => false
  | [], _ :: _ => true
  | a :: as, b :: bs => a < b || (a = b && keyLt as bs)

/-- Effective priority (R58). -/
def State.effPrio (s : State) (n : Node) : Nat := min 7 ((s.slot n.slot).prio.toNat + (s.time - n.readyAt) / 100000)

def State.overdue (s : State) (n : Node) : Bool := 1000000 ≤ s.time - n.readyAt

/-- Keys 1 to 7 as one list. -/
def State.rankKey (s : State) (n : Node) : List Nat :=
  let dl := (s.slot n.slot).deadline.toNat
  if s.overdue n then [0, n.readyAt, n.ctx.val, n.id.toNat]
  else [1, 7 - s.effPrio n, if dl = 0 then 2 ^ 64 else dl, n.readyAt, n.ctx.val, n.id.toNat]

def State.insertRank (s : State) (n : Node) : List Node → List Node
  | [] => [n]
  | m :: ms => if keyLt (s.rankKey n) (s.rankKey m) then n :: m :: ms else m :: s.insertRank n ms

/-- The pool in rank order. -/
def State.ranked (s : State) : List Node :=
  ((s.md.pool.filterMap fun p => s.node p.1 p.2).filter fun n => n.state = .ready).foldr s.insertRank []

/-- Free tile slots for a core in the MD's view. -/
def DieView.tilesFor (v : DieView) (m : Bool) (l : Fin 6) : Nat := if m then v.tiles.getD l.val 0 else v.tiles.getD 0 0

/-- The core is kept for another node by a pre-emption (R76). -/
def State.keptFor (s : State) (k : CoreId) (n : Node) : Bool :=
  s.md.reserved.any fun r => r.1 = k && (r.2.1 ≠ n.ctx || r.2.2 ≠ n.id) &&
    (match s.node r.2.1 r.2.2 with | some m => m.state = .ready | none => false)

/-- Core k suits node n, whatever runs there: class, device, groups, scratchpad; a pre-empted node resumes on the same
class (R33, R79). -/
def State.suits (s : State) (n : Node) (k : CoreId) : Bool :=
  let vd := dieOf (unitOf k)
  match s.context n.ctx with
  | none => false
  | some x =>
    !s.cfm.pkgFailed && (match (s.slot n.slot).state with | .draining | .restoring => false | _ => true) &&
      (s.dieListOf x.dev).contains vd && (s.die vd).state = .healthy && !(s.die vd).stopDispatch &&
      classFits n.cls n.spNeed n.tsNeed k && x.memberOfAll n.gvalid n.gidx k &&
      (match n.image with | some im => isCCore (unitOf im.from_) = isCCore (unitOf k) | none => true)

/-- Core k is free in the MD's view and node n fits it. -/
def State.fitsView (s : State) (n : Node) (k : CoreId) : Bool :=
  let vd := dieOf (unitOf k)
  let v := (s.die vd).view
  v.free.getLsbD (k.val % 6) && n.spNeed ≤ v.scratch.getD (k.val % 6) 0 && n.tsNeed ≤ v.tilesFor (isMDie vd) (localOf (unitOf k)) && s.suits n k &&
    !s.keptFor k n

/-- Key of a die for a node (R61). -/
def State.dieKey (s : State) (n : Node) (vd : Vd) : List Nat :=
  let x := s.context n.ctx
  let prod := (n.ins.filter fun p => match x with
    | some x => x.producers.any fun q => q.1 = p && q.2 = vd
    | none => false).length
  let v := (s.die vd).view
  [64 - prod, if n.image.isSome && n.lastDie = some vd then 0 else 1, v.load, 6 - popcountNat 6 v.free.toNat, vd.val]
where
  popcountNat : Nat → Nat → Nat
    | 0, _ => 0
    | k + 1, v => v % 2 + popcountNat k (v / 2)

/-- The better of two cores for a node: by its die's key, then the local number. -/
def State.betterCore (s : State) (n : Node) (a b : CoreId) : CoreId :=
  let key (k : CoreId) : List Nat := s.dieKey n (dieOf (unitOf k)) ++ [k.val % 6]
  if keyLt (key b) (key a) then b else a

/-- The core R61 chooses for a node, if one fits. -/
def State.chooseCore (s : State) (n : Node) : Option CoreId :=
  match (List.finRange 48).filter (s.fitsView n) with
  | [] => none
  | k :: ks => some (ks.foldl (s.betterCore n) k)

/-- Dispatches a node to a core (R59, R62, R66): RUNNING from the pick, its needs deducted from the view. -/
def State.dispatch (s : State) (n : Node) (k : CoreId) : State :=
  let vd := dieOf (unitOf k)
  let s := (s.unpool n).journal 3 (some n.slot) (some k) n.id (ctxWord n.ctx) 0
  let s := s.setNode { n with state := .running, core := some k, pickedAt := s.time }
  let d := s.die vd
  let l := k.val % 6
  let v := d.view
  let v' : DieView :=
    { v with free := v.free &&& ~~~(1#6 <<< l),
             tiles := if isMDie vd then setAt v.tiles l (v.tiles.getD l 0 - n.tsNeed)
                      else [v.tiles.getD 0 0 - n.tsNeed] }
  let s := s.setDie vd { d with view := v' }
  { s with md := { s.md with dispatching := s.md.dispatching ++ [{ ctx := n.ctx, id := n.id, core := k }],
                             reserved := s.md.reserved.filter (fun r => r.1 ≠ k && r.2 ≠ (n.ctx, n.id)),
                             nextPick := s.time + 10 } }

/-- Classes(N) and Classes(H) meet (R59). -/
def classesMeet (a b : Node) : Bool :=
  (allowsM a.cls a.tsNeed && allowsM b.cls b.tsNeed) || (allowsC a.cls a.spNeed && allowsC b.cls b.spNeed)

/-- Nodes of the rank order that H does not hold back, in order. -/
def heldBack (h : Option Node) (n : Node) : Bool :=
  match h with | some h => (n.ctx ≠ h.ctx || n.id ≠ h.id) && classesMeet n h | none => false

/-- The first node of a list that fits a core, with the core. -/
def State.firstFit (s : State) : List Node → Option (Node × CoreId)
  | [] => none
  | n :: ns => match s.chooseCore n with | some k => some (n, k) | none => s.firstFit ns

/-- A job that may be pre-empted for node n (R76), with its core: RUNNING on a core that n would fit. -/
def State.victims (s : State) (n : Node) : List (Node × CoreId) :=
  s.md.nodes.filterMap fun j =>
    match j.core with
    | none => none
    | some k =>
      let c := s.core (unitOf k)
      let v := (s.die (dieOf (unitOf k))).view
      let here := match c.job with | some r => r.ctx = j.ctx && r.node = j.id | none => false
      if j.state = .running && here && (s.slot j.slot).preempt && (s.slot j.slot).prio.toNat < s.effPrio n &&
          s.suits n k && n.tsNeed ≤ v.tilesFor (isMDie (dieOf (unitOf k))) (localOf (unitOf k)) + j.tsNeed &&
          c.preempt.isNone then some (j, k)
      else none

/-- Key of a victim: lowest slot PRIO, then latest deadline (0 is latest), then most recent dispatch. -/
def State.victimKey (s : State) (j : Node) : List Nat :=
  let dl := (s.slot j.slot).deadline.toNat
  [(s.slot j.slot).prio.toNat, if dl = 0 then 0 else 2 ^ 64 - dl, 2 ^ 64 - min j.pickedAt (2 ^ 64)]

def State.bestVictim (s : State) : List (Node × CoreId) → Option (Node × CoreId)
  | [] => none
  | v :: vs =>
    match s.bestVictim vs with
    | none => some v
    | some w => if keyLt (s.victimKey w.1) (s.victimKey v.1) then some w else some v

/-- Starts a pre-emption (R76): the core is kept for the node and the job asked to stop. -/
def State.startPreempt (s : State) (n : Node) (j : Node) (k : CoreId) : State :=
  let s := s.journal 6 (some j.slot) (some k) j.id (ctxWord j.ctx) 0
  let s := s.modCore (unitOf k) fun c =>
    { c with preempt := some { since := s.time, asked := false, stopped := false, saveBegun := 0, expiries := 0 } }
  { s with md := { s.md with reserved := (k, n.ctx, n.id) :: s.md.reserved.filter fun r => r.1 ≠ k } }

/-- One pick (R59, R76): at most one dispatch in 10 ns. -/
def State.pickNow (s : State) : State :=
  if s.time < s.md.nextPick || s.cfm.pkgFailed then s
  else
    let pool := s.ranked
    let h := pool.find? fun n => s.overdue n && (s.chooseCore n).isNone
    match s.firstFit (pool.filter fun n => !heldBack h n) with
    | some (n, k) =>
      let s' :=
        match pool with
        | f :: _ => if (f.ctx ≠ n.ctx || f.id ≠ n.id) && !heldBack h f
            then match s.bestVictim (s.victims f) with | some (j, v) => s.startPreempt f j v | none => s
            else s
        | [] => s
      s'.dispatch n k
    | none =>
      match pool with
      | [] => s
      | f :: _ =>
        if heldBack h f then s
        else match s.bestVictim (s.victims f) with | some (j, v) => s.startPreempt f j v | none => s

/-- Whether the core takes the dispatch against its own state (R62). -/
def State.takesDispatch (s : State) (n : Node) (k : CoreId) : Bool :=
  let u := unitOf k
  s.coreFree k && (s.core u).preempt.isNone && s.suits n k &&
    (if isCCore u then s.dieTilesUsed (dieOf u) + n.tsNeed ≤ 128 else n.tsNeed ≤ 64)

/-- The core refuses a dispatch (R62): the node is READY again, its READY time unchanged; the change is journalled (R66) and
the pool's bound holds (R57). -/
def State.refuseDispatch (s : State) (n : Node) : State :=
  let s := s.journal 2 (some n.slot) none n.id (ctxWord n.ctx) 0
  (s.setNode { n with state := .ready, core := none }).toPool n

/-- Takes the dispatch on its way to a core out of the MD's list. -/
def State.dropDispatch (s : State) (k : CoreId) : State :=
  { s with md := { s.md with dispatching := s.md.dispatching.filter fun d => d.core ≠ k } }

/-- A dispatch reaches its core (R62). A node with a saved image waits for CONTEXT_RESTORE. -/
def State.arriveDispatch (s : State) (k : CoreId) : State :=
  match s.md.dispatching.find? fun d => d.core = k with
  | none => s
  | some d =>
    match s.node d.ctx d.id, s.context d.ctx with
    | some n, some x =>
      if n.state ≠ .running then s.dropDispatch k
      else if !s.takesDispatch n k then (s.dropDispatch k).refuseDispatch n
      else if n.image.isSome then s
      else (s.dropDispatch k).startJob (unitOf k) n x.dev x.world
    | _, _ => s.dropDispatch k

/-! Meanings. -/

/-- PICK (R59). -/
def execPick (s : State) : Host.Outcome State Fault Refusal := .next s.pickNow

/-- DISPATCH_ARRIVAL (R62, R37). -/
def execDispatchArrival (k : CoreId) (s : State) : Host.Outcome State Fault Refusal :=
  .next (if s.md.dispatching.any fun d => d.core = k then
      (if s.ctlUp 8 (endOf (unitOf k)) then (s.ctl 8 (endOf (unitOf k))).arriveDispatch k else s.ctlDown 8 (endOf (unitOf k)))
    else s)

/-- RESOURCE_REPORT (R60): the MD's copy becomes what the die holds. A report that is lost leaves the copy as it was: the next one
replaces it (Table 8.7). -/
def execResourceReport (vd : Vd) (s : State) : Host.Outcome State Fault Refusal :=
  .next (match (s.die vd).state with
    | .healthy =>
      let view := s.dieNow vd
      let (ok, s) := s.send (endOfVd vd) 8 3 64 .other
      if ok then s.setDie vd { s.die vd with view := view } else s
    | _ => s)

/-- COMPLETION_REPORT (R65): a CTL message to the MD. -/
def execCompletionReport (k : CoreId) (s : State) : Host.Outcome State Fault Refusal :=
  .next (if s.md.waiting.any (fun p => p.1 = k) && s.md.held.length < 1024 then
      (if s.ctlUp (endOf (unitOf k)) 8 then (s.ctl (endOf (unitOf k)) 8).receiveReport k else s.ctlDown (endOf (unitOf k)) 8)
    else s)

end Sys2Proof.Machine
end

