-- ==== Sys2Proof/Machine/Slots.lean ====
section
/-! DEFINITION. Stream slots: level tables and the choice of a level (R266 to R269), opening and closing (R55, R163, R267,
R288, R455), checkpoint images (R270, R272, R273) and the restart of a slot. -/

namespace Sys2Proof.Machine

/-! Level tables. -/

def State.slotDev (s : State) (k : SlotId) : DevId := devOfSlot s.md.mode k

/-- A dword of a slot's level table; the address is a device memory address, read as the slot's world (log 19). -/
def State.svtDword (s : State) (k : SlotId) (off : Nat) : Dword :=
  dw (ofBytes (s.ownRead (s.slotDev k) (s.slot k).world ((s.slot k).svt.toNat + off) 8))

/-- The slot's world may read the table: 0x60 bytes and its ranges (R286). -/
def State.svtAllowed (s : State) (k : SlotId) : Bool :=
  let n := 0x60 + 16 * ((s.svtDword k 0).extractLsb' 4 4).toNat
  (List.range (n / 8)).all fun i => ownerAllows (s.ownerOf (s.slotDev k) ((s.slot k).svt.toNat + 8 * i)) (s.slot k).world

/-- Entry e of a level table (Table 12.4). -/
def State.levelEntry (s : State) (k : SlotId) (e : Nat) : LevelEntry :=
  let d := s.svtDword k (0x10 + 16 * e)
  { valid := d.getLsbD 63, rot := d.getLsbD 62, minM := (d.extractLsb' 52 4).toNat, minC := (d.extractLsb' 48 4).toNat,
    total := (d.extractLsb' 44 4).toNat, pairs := (d.extractLsb' 40 4).toNat,
    restart := s.svtDword k (0x18 + 16 * e) }

/-- The table as the MD reads it (R266). -/
def State.readLevels (s : State) (k : SlotId) : LevelTable :=
  let h := s.svtDword k 0
  { take := h.getLsbD 9, pmir := h.getLsbD 8,
    entries := [0, 1, 2, 3, 4].map (s.levelEntry k),
    ranges := (List.range (h.extractLsb' 4 4).toNat).map fun r =>
      (s.svtDword k (0x60 + 16 * r), (s.svtDword k (0x68 + 16 * r)).toNat) }

/-- A reserved bit of the table is nonzero. -/
def State.levelsReserved (s : State) (k : SlotId) : Bool :=
  let h := s.svtDword k 0
  h.extractLsb' 10 54 ≠ 0 || h.extractLsb' 0 4 ≠ 0 ||
    [0, 1, 2, 3, 4].any fun e =>
      let d := s.svtDword k (0x10 + 16 * e)
      d.extractLsb' 56 6 ≠ 0 || d.extractLsb' 0 40 ≠ 0

/-- Counts of M-dies, C-dies and whole pairs among some dies. -/
def pairsIn (l : List Vd) : Nat :=
  (([(0, 4), (1, 5), (2, 6), (3, 7)] : List (Vd × Vd)).filter fun p => l.contains p.1 && l.contains p.2).length

/-- An entry fits these dies (R266). -/
def LevelEntry.fits (e : LevelEntry) (l : List Vd) : Bool :=
  let m := (mDies l).length
  e.minM ≤ m && e.minC ≤ l.length - m && e.total ≤ l.length && e.pairs ≤ pairsIn l

def LevelEntry.inRange (e : LevelEntry) : Bool :=
  e.minM ≤ 4 && e.minC ≤ 4 && 1 ≤ e.total && e.total ≤ 8 && e.minM + e.minC ≤ e.total && e.pairs ≤ 4

/-- HEALTHY dies of a device. -/
def State.healthyDies (s : State) (d : DevId) : List Vd := (s.dieListOf d).filter fun vd => (s.die vd).state = .healthy

/-- Total bytes of a table's ranges. -/
def rangeTotal (t : LevelTable) : Nat := (t.ranges.map (·.2)).sum

/-- Two ranges of a list overlap. -/
def rangesOverlap : List (Dword × Nat) → Bool
  | [] => false
  | r :: rs => rs.any (fun q => r.1.toNat < q.1.toNat + q.2 && q.1.toNat < r.1.toNat + r.2) || rangesOverlap rs

/-- Reservations of a device's other slots. -/
def State.reservedOther (s : State) (k : SlotId) : Nat :=
  (((List.finRange 48).filter fun q => q ≠ k && s.slotDev q = s.slotDev k).map fun q => (s.slot q).reserved).sum

/-- The table passes R267. -/
def State.levelsOk (s : State) (k : SlotId) : Bool :=
  let t := s.readLevels k
  let valid := t.entries.filter (·.valid)
  let plain := valid.filter fun e => !e.rot
  let least := plain.foldl (fun m e => min m e.total) 8
  let dev := s.slotDev k
  (s.slot k).svt.toNat % 8 = 0 && s.svtAllowed k && !s.levelsReserved k && !plain.isEmpty && (valid.filter (·.rot)).length ≤ 1 &&
    valid.all (fun e => e.inRange && e.fits (fullList s.md.mode dev)) &&
    t.ranges.all (fun r => r.1.toNat % 4096 = 0 && r.2 ≠ 0 && r.2 % 4096 = 0 && r.1.toNat + r.2 ≤ gb32 * least) &&
    !rangesOverlap t.ranges && rangeTotal t ≤ 192 * 2 ^ 20 && 2 * rangeTotal t + s.reservedOther k ≤ ckptBytes

/-- The lowest-index entry that fits (R269). -/
def fitIndex (l : List Vd) : Nat → List LevelEntry → Option Nat
  | _, [] => none
  | i, e :: es => if e.valid && !e.rot && e.fits l then some i else fitIndex l (i + 1) es

/-- Cancels a slot's WAITING and READY nodes, in order. -/
def State.cancelSlot (s : State) (k : SlotId) : State :=
  ((s.md.nodes.filter fun n => n.slot = k && (n.state = .waiting || n.state = .ready)).map fun n => (n.ctx, n.id)).foldl
    (fun s p => match s.node p.1 p.2 with
      | some n => if n.state = NodeState.waiting || n.state = NodeState.ready then s.cancelNode n else s
      | none => s) s

/-- Chooses the level of a slot, or NOFIT with its nodes cancelled, which stays until the host closes and reopens it (R269). -/
def State.chooseLevel (s : State) (k : SlotId) : State :=
  match (s.slot k).table with
  | none => s
  | some t =>
    match fitIndex (s.healthyDies (s.slotDev k)) 0 t.entries with
    | some i => s.modSlot k fun x => { x with level := BitVec.ofNat 3 i, state := .normal }
    | none => (s.modSlot k fun x => { x with state := .nofit }).cancelSlot k

/-- Both phase counters of a slot and its phase vectors become 0 on every die (R163, R166). -/
def State.resetPhases (s : State) (k : SlotId) : State :=
  (List.finRange 8).foldl (fun s vd =>
    let d := s.die vd
    let d := { d with advances := d.advances.filter (· ≠ k) }
    s.setDie vd ((List.finRange 8).foldl (fun d e => d.setVec k e 0) ((d.setCur k 0).setDone k 0))) s

/-- A slot may open (R267, R288, R289, R455). -/
def State.mayOpen (s : State) (k : SlotId) (w : World) : Bool :=
  (match (s.slot k).ctx with
    | some c => (match s.context c with | some x => x.world = w | none => false)
    | none => false) &&
  (s.slot k).comp.isSome &&
  (w = 0 || match s.port.tdis[w.toNat] with | some t => t.state = .run | none => false) && !s.intakeShut w && s.levelsOk k

/-- OPEN goes from 0 to 1. -/
def State.openSlot (s : State) (k : SlotId) : State :=
  let t := s.readLevels k
  let s := s.modSlot k fun x =>
    { x with open_ := true, table := some t, shadow := false, reserved := 2 * rangeTotal t, gen := 0, images := [],
             last := 0, state := .normal, mirrored := [], unacked := [], mirroring := false, mirrorErr := 0 }
  (s.resetPhases k).chooseLevel k

/-- STATE of a slot that leaves a reconfiguration by closing (R290). -/
def SlotState.left : SlotState → SlotState
  | .draining | .restoring => .normal
  | st => st

/-- A write of OPEN = 0 (R55, R270), also to a slot that is closed: READY and WAITING nodes are cancelled. The reservation of a slot that
closes ends; that of a shadow slot, which is closed already, stays. -/
def State.closeSlot (s : State) (k : SlotId) : State :=
  (s.modSlot k fun x =>
    { x with open_ := false, reserved := if x.open_ then 0 else x.reserved, state := x.state.left }).cancelSlot k

/-! The slot registers. -/

/-- SLOTCTL (Table 3.1). -/
def Slot.ctl (x : Slot) : Dword :=
  dw ((if x.open_ then 2 ^ 15 else 0) + (if x.preempt then 2 ^ 14 else 0) + 2 ^ 8 * x.world.toNat + x.prio.toNat)

def SlotState.code : SlotState → Nat
  | .normal => 0 | .draining => 1 | .restoring => 2 | .nofit => 3 | .taken => 4 | .rotation => 5

/-- SLOTSV (Table 12.5). -/
def Slot.sv (x : Slot) : Dword := dw (2 ^ 8 * x.gen.toNat + 2 ^ 4 * x.state.code + x.level.toNat)

/-- A change of WORLD that R55 ignores. -/
def State.worldFixed (s : State) (k : SlotId) (w : World) : Bool :=
  (s.slot k).world ≠ w && ((s.slot k).open_ || s.md.nodes.any fun n => n.slot = k && n.alive)

/-- The journal entry of a slot write: AUX is the MD offset. -/
def State.journalSlot (s : State) (k : SlotId) (off : Nat) : State :=
  s.journal 8 (some k) none 0 (match (s.slot k).ctx with | some c => ctxWord c | none => 0xFFFFFFFF)
    (BitVec.ofNat 32 off)

/-- A write of SLOTCTL, field by field (R55). A refused OPEN is logged for the host (R267), in the MC's log: the rule names no channel
(DESIGN CHOICE, log 40). -/
def State.writeSlotctl (s : State) (k : SlotId) (v : Dword) : State :=
  let w : World := v.extractLsb' 8 4
  let was := (s.slot k).open_
  let s := s.journalSlot k (0x1000 + 16 * k.val)
  let w' := if s.worldFixed k w then (s.slot k).world else w
  let s := s.modSlot k fun x => { x with world := w', preempt := v.getLsbD 14, prio := v.extractLsb' 0 3 }
  if v.getLsbD 15 then
    if was then s else if s.mayOpen k w' then s.openSlot k else s.logMc (.openRefused k)
  else s.closeSlot k

/-- A write of SLOTDL. -/
def State.writeSlotdl (s : State) (k : SlotId) (v : Dword) : State :=
  (s.journalSlot k (0x1008 + 16 * k.val)).modSlot k fun x => { x with deadline := v }

/-- A write of SLOTSVT: nothing while OPEN = 1 (R268). -/
def State.writeSlotsvt (s : State) (k : SlotId) (v : Dword) : State :=
  if (s.slot k).open_ then s else s.modSlot k fun x => { x with svt := v }

/-! Checkpoints (R270, R272, R273). -/

/-- Bytes in a map from 0 up. -/
def bytesMap (bs : List Byte) : CMap Byte := (bs.zip (List.range bs.length)).foldl (fun m p => CMap.set 0 m p.2 p.1) []

/-- A checkpoint image of the slot's ranges, as its world reads them now (R286). -/
def State.takeImage (s : State) (k : SlotId) (seq : Nat) : CkptImage :=
  let t := (s.slot k).table
  let rs := match t with | some t => t.ranges | none => []
  { seq := seq, bad := false,
    data := rs.map fun r => (r.1.toNat, bytesMap (s.ownRead (s.slotDev k) (s.slot k).world r.1.toNat r.2)) }

/-- The next sequence number: modulo 2^24, skipping 0. -/
def nextSeq (n : BitVec 24) : BitVec 24 := if n + 1 = 0 then 1 else n + 1

/-- Puts an image in place of a keeper's older one. -/
def putImage (im : CkptImage) (l : List CkptImage) : List CkptImage := im :: l.take 1

/-- Images by keeper with a new one written in place of each keeper's older one. -/
def keepImage (keep : List Vd) (im : CkptImage) (old : List (Vd × List CkptImage)) : List (Vd × List CkptImage) :=
  keep.map fun vd => (vd, putImage im ((old.find? fun p => p.1 = vd).map (·.2) |>.getD []))

/-- Sends n messages of a copy to the peer (R272, R196); the loss of one ends the copy (R197). -/
def State.sendCopy (s : State) (k : SlotId) (seq : Nat) : Nat → State
  | 0 => s
  | n + 1 =>
    let (ok, s) := s.sendPeer 4 (.mirror k seq)
    if ok then s.sendCopy k seq n else s

/-- Messages of a copy: one for each 4 KiB of its ranges. -/
def copyMessages (t : LevelTable) : Nat := (t.ranges.map fun r => (r.2 + 4095) / 4096).sum

/-- The copy of a new image to the peer begins (R272): while the peer is UP or SUSPECT. A PARTITIONED peer is sent nothing until it is
UP again (Table 12.8). -/
def State.mirror (s : State) (k : SlotId) (im : CkptImage) : State :=
  match (s.slot k).table with
  | some t =>
    if t.pmir && (s.cfm.peer = .up || s.cfm.peer = .suspect) then
      (s.modSlot k fun x =>
        { x with mirrored := putImage im x.mirrored, mirroring := true, unacked := x.unacked ++ [im.seq], mirrorErr := 0 }).sendCopy
          k im.seq (copyMessages t)
    else s
  | none => s

/-- The messages that move n bytes of device memory from an address on to an endpoint, or from it (R176). -/
def State.moveOwn (s : State) (d : DevId) (e : Endpoint) (out : Bool) : Nat → Nat → Nat → State
  | 0, _, _ => s
  | k + 1, a, n =>
    let m := min n (4096 - a % 4096)
    let home := s.dramEnd d a
    if n = 0 then s else ((if out then s.sendSure home e m else s.sendSure e home m)).moveOwn d e out k (a + m) (n - m)

/-- The messages of an image's ranges between memory and a keeper. -/
def State.moveImage (s : State) (d : DevId) (e : Endpoint) (out : Bool) : List (Dword × Nat) → State
  | [] => s
  | r :: rs => (s.moveOwn d e out (r.2 / 4096 + 2) r.1.toNat r.2).moveImage d e out rs

/-- The ranges a slot's table names. -/
def Slot.ranges (x : Slot) : List (Dword × Nat) := match x.table with | some t => t.ranges | none => []

/-- The checkpoint engine's write of a slot's oldest request. -/
def State.checkpoint (s : State) (k : SlotId) : State :=
  match (s.slot k).ckptPending with
  | [] => s
  | _ :: rest =>
    let seq := nextSeq (s.slot k).last
    let im := s.takeImage k seq.toNat
    let keep := s.keepers (s.slotDev k)
    let s := keep.foldl (fun s vd => s.moveImage (s.slotDev k) (endOfVd vd) true (s.slot k).ranges) s
    (s.modSlot k fun x => { x with ckptPending := rest, last := seq, images := keepImage keep im x.images }).mirror k im

/-- A word of a keeper's checkpoint store cannot be corrected: the CRC of what the keeper holds fails (R272, R265). Where in its store an
image lies is not specified: every image of the keeper then fails (DESIGN CHOICE, log 83). -/
def State.storeFails (s : State) (vd : Vd) : Bool :=
  let top := keyDram vd (if isMDie vd then 2 ^ 36 else gb32)
  s.flips.any fun p => top - ckptBytes ≤ p.1 && p.1 < top

/-- The images that HEALTHY keepers hold whole (R273), the newest of each keeper first, then the older ones. -/
def State.soundImages (s : State) (k : SlotId) (held : List (Vd × List CkptImage)) : List CkptImage :=
  let keep := ((s.keepers (s.slotDev k)).filter fun vd => !s.storeFails vd).filterMap fun vd =>
    (held.find? fun p => p.1 = vd).map (·.2)
  ((keep.filterMap fun l => l[0]?) ++ (keep.filterMap fun l => l[1]?)).filter fun i => !i.bad

/-- The image a restore uses (R273): the newest sound one of a HEALTHY keeper, else an older one, else the copy mirrored
to the peer while it is UP. -/
def State.restoreImage (s : State) (k : SlotId) : Option CkptImage :=
  let x := s.slot k
  match s.soundImages k x.images with
  | i :: _ => some i
  | [] => if s.cfm.peer = .up then (x.mirrored.filter fun i => !i.bad && !x.unacked.contains i.seq).head? else none

/-- Writes an image's ranges back at their device memory addresses, as the slot's world (R286). -/
def State.restoreFrom (s : State) (k : SlotId) (im : CkptImage) (ranges : List (Dword × Nat)) : State :=
  let from_ := match s.keepers (s.slotDev k) with | vd :: _ => endOfVd vd | [] => 8
  let s := s.moveImage (s.slotDev k) from_ false ranges
  (ranges.zip im.data).foldl (fun s p =>
    s.ownWrite (s.slotDev k) (s.slot k).world p.1.1.toNat ((List.range p.1.2).map fun i => CMap.get 0 p.2.2 i)) s

/-- Restores a slot's ranges. -/
def State.restoreRanges (s : State) (k : SlotId) : State :=
  match (s.slot k).table, s.restoreImage k with
  | some t, some im => s.restoreFrom k im t.ranges
  | _, _ => s

/-- Submits the restart node of the level in force (R275, R281). -/
def State.submitRestart (s : State) (k : SlotId) : State :=
  match (s.slot k).table, (s.slot k).ctx with
  | some t, some c =>
    match t.entries[(s.slot k).level.toNat]? with
    | none => s
    | some e =>
      match s.submit c (s.slot k).world e.restart.toNat none 0 none with
      | .answer _ _ s => s
      | .fault _ _ => s
  | _, _ => s

/-- CHECKPOINT_WRITE (R272). -/
def execCheckpointWrite (k : SlotId) (s : State) : Host.Outcome State Fault Refusal := .next (s.checkpoint k)

/-- CHECKPOINT_MIRROR_ACK (R272, R280): the peer acknowledges the oldest copy under way, and LASTPEER advances to it unless the peer is
PARTITIONED or LOST. -/
def execCheckpointMirrorAck (k : SlotId) (s : State) : Host.Outcome State Fault Refusal :=
  .next (match (s.slot k).unacked with
    | [] => s
    | n :: rest =>
      if s.cfm.peer = .up || s.cfm.peer = .suspect then
        s.modSlot k fun x => { x with lastPeer := BitVec.ofNat 24 n, unacked := rest, mirroring := rest ≠ [] }
      else s)

end Sys2Proof.Machine
end

