-- ==== Sys2Proof/Machine/Hub.lean ====
section
/-! DEFINITION. The hub window of SC0 and SC1 (R446, Tables 21.4 and 21.5): MD registers, the journal ring and the
scheduler tables; and the writes of the kick registers (R63). -/

namespace Sys2Proof.Machine

def Role.code : Role → Nat
  | .active => 0 | .standby => 1 | .takingOver => 2 | .failed => 3

/-- HQHEAD (Table 21.4). -/
def State.hqhead (s : State) : Dword :=
  match s.md.held with
  | [] => 0
  | h :: _ => dw (2 ^ 63 + 2 ^ 40 * h.kind.toNat + 2 ^ 32 * h.slot.val + h.id.toNat)

/-- The slot register at an MD offset: slot, and which of SLOTCTL, SLOTDL, SLOTSVT, SLOTSV (0 to 3). -/
def slotReg (off : Nat) : Option (SlotId × Nat) :=
  if h : 0x1000 ≤ off ∧ off < 0x1300 then some (⟨(off - 0x1000) / 16, by omega⟩, (off - 0x1000) % 16 / 8)
  else if h : 0x1400 ≤ off ∧ off < 0x1700 then some (⟨(off - 0x1400) / 16, by omega⟩, 2 + (off - 0x1400) % 16 / 8)
  else none

/-- An MD register, by the offset of its dword. -/
def State.mdReg (s : State) (off : Nat) : Dword :=
  match slotReg off with
  | some (k, 0) => (s.slot k).ctl
  | some (k, 1) => (s.slot k).deadline
  | some (k, 2) => (s.slot k).svt
  | some (k, _) => (s.slot k).sv
  | none =>
    match off with
    | 0x0108 => s.md.kickpend.setWidth 64
    | 0x0200 => s.md.jhead
    | 0x0210 => dw (s.md.role1.code * 4 + s.md.role0.code)
    | 0x0220 => s.hqhead
    | _ => 0

/-- The 32 bytes of a journal entry (Table 21.5). -/
def JEntry.bytes (q : Nat) (j : JEntry) : List Byte :=
  toBytes 8 q ++ [j.kind, j.slot, j.core, 0] ++ toBytes 4 j.node.toNat ++ toBytes 4 j.ctx.toNat ++
    toBytes 4 j.aux.toNat ++ toBytes 8 j.time.toNat

/-- The newest journal entry whose sequence number falls on place i of the ring. -/
def State.journalAt (s : State) (i : Nat) : List Byte :=
  match s.md.journal.find? fun p => p.1 % 65536 = i with
  | some (q, j) => j.bytes q
  | none => List.replicate 32 0

/-- The dword of the hub window that starts at an offset. -/
def State.hubDword (s : State) (off : Nat) : Dword :=
  if off < 0x100000 then s.mdReg off
  else if off < 0x300000 then
    dw (ofBytes (((s.journalAt ((off - 0x100000) / 32)).drop (off % 32)).take 8))
  else if off < 0x320000 then dw (ofBytes (s.rawBytes (keyHub off) 8))
  else 0

/-- n bytes of the window, within one dword. -/
def State.hubRead (s : State) (off n : Nat) : List Byte :=
  ((toBytes 8 (s.hubDword (off / 8 * 8)).toNat).drop (off % 8)).take n

/-- Bytes written over those of a dword. -/
def mergeBytes (old : Dword) (at_ : Nat) (bs : List Byte) : Dword :=
  let o := toBytes 8 old.toNat
  dw (ofBytes (o.take at_ ++ bs ++ o.drop (at_ + bs.length)))

/-- The kick bits of a write's bytes; the bytes not written act as zeros. -/
def kickBits (at_ : Nat) (bs : List Byte) : BitVec 48 := (mergeBytes 0 at_ bs).extractLsb' 0 48

/-- A write to MD register space by a scheduler core. -/
def State.mdWrite (s : State) (sc1 : Bool) (off : Nat) (bs : List Byte) : State :=
  let base := off / 8 * 8
  let at_ := off % 8
  let v := mergeBytes (s.mdReg base) at_ bs
  match slotReg base with
  | some (k, 0) => s.writeSlotctl k v
  | some (k, 1) => s.writeSlotdl k v
  | some (k, 2) => s.writeSlotsvt k v
  | some _ => s
  | none =>
    match base with
    | 0x0100 => s.kickset (kickBits at_ bs)
    | 0x0108 => s.kickclear (kickBits at_ bs)
    | 0x0218 => if bs.length = 8 then s.scgo sc1 v else s
    | 0x0228 => if bs.length = 8 then s.hqRelease sc1 v else s
    | 0x0230 => if bs.length = 8 then s.drainReq sc1 v else s
    | _ => s

/-- A store to the window. -/
def State.hubWrite (s : State) (sc1 : Bool) (off : Nat) (bs : List Byte) : State :=
  if off < 0x100000 then s.mdWrite sc1 off bs
  else if 0x300000 ≤ off && off < 0x320000 then s.putBytes (keyHub off) bs
  else s

/-- A store of a scheduler core to DRAINREQ or HQCTL is still in progress: it is performed when its drain, or its release, ends
(R448, R449). -/
def State.hubBusy (s : State) (sc1 : Bool) : Bool := s.md.hqStores.contains sc1 || s.md.drains.any fun d => d.sc1 = sc1

/-- A store by a scheduler core: to HQCTL, its first step. -/
def State.hubStore (s : State) (sc1 : Bool) (off : Nat) (bs : List Byte) : State :=
  if off = 0x0228 && bs.length = 8 then (s.hqBegin sc1 (mergeBytes 0 0 bs)).hqStep else s.hubWrite sc1 off bs

/-- Where a scheduler core's access goes: an offset in the window, or the cause of its fault (R446). -/
def hubResolve (ea align : Nat) : Except Byte Nat :=
  if hubBase ≤ ea ∧ ea < hubBase + 0x400000 then
    if ea % align ≠ 0 then .error cAlignment else .ok (ea % 0x400000)
  else .error cProtection

/-- The slots whose kick bits a host function or another source may set (R63, R310, log 20). -/
def State.kickMask (s : State) (src : KickSrc) : BitVec 48 :=
  let pick (f : SlotId → Bool) : BitVec 48 :=
    BitVec.ofNat 48 ((List.finRange 48).map fun k => if f k then 2 ^ k.val else 0).sum
  match src with
  | .host (.pf d) => pick fun k => s.slotDev k = d && !s.intakeShut (s.slot k).world
  | .host (.vf w) => pick fun k => (s.slot k).world = w && s.port.tdis[w.toNat].isSome && !s.intakeShut w
  | .peer | .sched _ => pick fun k => !s.intakeShut (s.slot k).world

/-- KICKSET_WRITE (R63). -/
def execKicksetWrite (src : KickSrc) (v : Dword) (s : State) : Host.Outcome State Fault Refusal :=
  .next (s.kickset (v.extractLsb' 0 48 &&& s.kickMask src))

/-- KICKPEND_WRITE (R63). -/
def execKickpendWrite (_ : Bool) (v : Dword) (s : State) : Host.Outcome State Fault Refusal :=
  .next (s.kickclear (v.extractLsb' 0 48))

/-- DRAINREQ_WRITE (R448). -/
def execDrainreqWrite (sc1 : Bool) (v : Dword) (s : State) : Host.Outcome State Fault Refusal :=
  .next (s.drainReq sc1 v)

/-- HQCTL_RELEASE (R449): both steps; one that finds the completion ring full goes on when it has room. -/
def execHqctlRelease (sc1 : Bool) (v : Dword) (s : State) : Host.Outcome State Fault Refusal :=
  .next (s.hqRelease sc1 v)

/-- SCGO_WRITE (R68). -/
def execScgoWrite (sc1 : Bool) (v : Dword) (s : State) : Host.Outcome State Fault Refusal := .next (s.scgo sc1 v)

/-- SCHED_MACHINE_CHECK (R67, R245): the record goes to the CFM, and the core enters FAILED. -/
def execSchedMachineCheck (sc1 : Bool) (i : McInfo) (s : State) : Host.Outcome State Fault Refusal :=
  .next (if s.role sc1 = .failed then s
    else ((s.addRecord (mcRecord s.time 0xFF i)).logMc (.machineCheck 0xFF i.vsyn)).failSched sc1)

/-- SCHED_TAKING_OVER (R67, R449): a STANDBY core whose partner is FAILED becomes TAKING_OVER; once the stores of the
failed core in progress have ended. -/
def execSchedTakingOver (s : State) : Host.Outcome State Fault Refusal :=
  .next (if s.md.role0 = .failed && s.md.role1 = .standby && !s.hubBusy false then s.setRole true .takingOver
    else if s.md.role1 = .failed && s.md.role0 = .standby && !s.hubBusy true then s.setRole false .takingOver
    else s)

/-- A scheduler core after a reload from its signed image: every register zero, from the S entry (R67, R446). -/
def State.reloadSched (s : State) (sc1 : Bool) : State :=
  if s.role sc1 = .failed then (s.setRole sc1 .standby).setCore (scUnit sc1) Core.schedReset else s

/-- HUB_RESET (R67). -/
def execHubReset (s : State) : Host.Outcome State Fault Refusal := .next ((s.reloadSched false).reloadSched true)

end Sys2Proof.Machine
end

