-- ==== Sys2Proof/Machine/Array.lean ====
section
/-! DEFINITION. The protection of SRAM arrays (R260 to R263, R443) and what ends a core's service: machine checks (R253)
and umbra (R252). Memory holds the data that was written; State.flips and State.vflips hold the stored bits that differ from it. -/

namespace Sys2Proof.Machine

/-! Machine checks and umbra. -/

/-- A job on a core that is halted: nothing more is written, the node is FAILED, and its record waits 10 µs (R253). -/
def State.haltJob (s : State) (u : UnitId) : State :=
  match (s.core u).job, coreOf u with
  | some j, some k =>
    let s := (s.cutSends u j).cleanup u j
    match s.node j.ctx j.node with
    | none => s
    | some n =>
      let s := s.setNode { n with state := .failed, cause := cMachine, core := none, lastDie := some (dieOf u) }
      { s with cfm := { s.cfm with pendingFails := s.cfm.pendingFails ++ [(k, s.time, j.ctx, j.node)] } }
  | _, _ => s

/-- Raises a die-health event: a step of its own, which the CFM takes next (R187, R252). -/
def State.raiseHealth (s : State) (vd : Vd) (why : HealthCause) : State :=
  { s with schedule := .event (.dieHealthEvent vd why) :: s.schedule }

/-- A machine check of a core (R253): every engine halts, the core enters umbra, and the CFM receives the record, with all 72 bits of
the vertical syndrome in the MC's log (R262). On SC0 and SC1 it follows the role table (R67). -/
def State.machineCheck (s : State) (u : UnitId) (i : McInfo) : State :=
  if isSched u then
    ((s.addRecord (mcRecord s.time 0xFF i)).logMc (.machineCheck 0xFF i.vsyn)).failSched (u.val = 49)
  else
    let s := (s.addRecord (mcRecord s.time (unitByte u) i)).logMc (.machineCheck (unitByte u) i.vsyn)
    ((s.haltJob u).modCore u fun c => { c with health := .umbra, preempt := none }).raiseHealth (dieOf u) .coreUmbra

/-- Umbra(GLINT_LIMIT) (R252). On SC0 and SC1, which run no job and have no umbra in R252, the abort is logged with its cause and the core
enters FAILED, as after a machine check (DESIGN CHOICE, log 100). -/
def State.umbra (s : State) (u : UnitId) : State :=
  if isSched u then (s.logMc (.abort (u.val = 49) cGlint)).failSched (u.val = 49)
  else
    ((s.killJob u cwUmbra cGlint false).modCore u fun c => { c with health := .umbra, preempt := none }).raiseHealth
      (dieOf u) .coreUmbra

/-! Die-shared SRAM. -/

def State.setDieState (s : State) (vd : Vd) (st : DieState) : State :=
  (s.setDie vd { s.die vd with state := st, testing := false }).logMc (.dieHealth (BitVec.ofNat 8 vd.val))

/-- The cores of a die. -/
def coresOf (vd : Vd) : List CoreId := (List.finRange 6).map (coreAt vd)

/-- No core of the die issues any more. -/
def State.haltDie (s : State) (vd : Vd) : State :=
  (coresOf vd).foldl (fun s k => s.modCore (unitOf k) fun c => { c with health := .umbra, preempt := none }) s

/-- Every core of the die is halted (R253). -/
def State.haltShared (s : State) (vd : Vd) : State :=
  (coresOf vd).foldl (fun s k => s.haltJob (unitOf k)) (s.haltDie vd)

/-- Unit byte of a die's shared arrays: local number 7, as in REPAIR (Table 12.2, log 36). -/
def sharedUnit (vd : Vd) : Byte := BitVec.ofNat 8 (vd.val * 16 + 14)

/-- A machine check in die-shared SRAM (R253, Table 12.1): the CFM receives the record, every core of the die is halted, and a
HEALTHY die enters UMBRA. -/
def State.sharedCheck (s : State) (vd : Vd) (i : McInfo) : State :=
  let s := (s.addRecord (mcRecord s.time (sharedUnit vd) i)).logMc (.machineCheck (sharedUnit vd) i.vsyn)
  let s := s.haltShared vd
  if (s.die vd).state = .healthy then s.setDieState vd .umbra else s

/-! Words, checks and rebuilds. -/

/-- Parity of the flips of column i, its check bit included: bits i, 8 + i, … and 64 + i (R260). -/
def columnOdd (f : BitVec 72) (i : Nat) : Bool :=
  ((List.range 9).foldl (fun b m => b != f.getLsbD (8 * m + i)) false)

/-- A word with these flips fails its horizontal check. -/
def flipFails (f : BitVec 72) : Bool := (List.range 8).any (columnOdd f)

/-- The horizontal syndrome of a word with these flips. -/
def hSyndrome (f : BitVec 72) : Byte :=
  BitVec.ofNat 8 ((List.range 8).map fun i => if columnOdd f i then 2 ^ i else 0).sum

def arrayDie : SramArray → Vd
  | .scratch c => dieOf (unitOf c)
  | .pane vd => vd
  | .vector c | .operand c => dieOf (unitOf c)

/-- The other 63. -/
def groupMates (key : Nat) : List Nat := (groupWords key).filter (· ≠ key / 8 * 8)

/-- The bits of a group's vertical word that differ from what was written. -/
def State.vflip (s : State) (key : Nat) : BitVec 72 := CMap.get 0 s.vflips (groupOf key)

/-- The record of a word that cannot be corrected (R262, R443): the horizontal syndrome of that word, and V against the group. The
banks and rows of every array are numbered as a scratchpad's (log 36). -/
def State.arrayInfo (s : State) (a : SramArray) (o : Nat) (va : Dword) : McInfo :=
  let key := arrayBase a + o
  { kind := 1, bank := BitVec.ofNat 16 (o / 64 % 32), row := BitVec.ofNat 20 (o / 2048),
    word := BitVec.ofNat 12 (o % 64 / 8), hsyn := hSyndrome (s.flipWord key),
    vsyn := s.foldFlips (groupWords key) ^^^ s.vflip key, va := va }

/-- Rebuilds a failing word as V exclusive-or the other 63 words (R261), or finds it uncorrectable (R262). V agrees with the word that
is written back and stays (log 36). -/
def State.rebuild (s : State) (a : SramArray) (o : Nat) (va : Dword) : Except McInfo State :=
  let key := arrayBase a + o
  let mates := groupMates key
  let left := s.foldFlips mates ^^^ s.vflip key
  if mates.any (fun m => flipFails (s.flipWord m)) || flipFails left then .error (s.arrayInfo a o va)
  else
    let d := s.die (arrayDie a)
    let s := { s with flips := CMap.set 0 s.flips (key / 8 * 8) left }
    .ok (s.setDie (arrayDie a) { d with rebuilds := min 0xFFFF (d.rebuilds + 1) })

/-- The array's check is off: ARRTEST.RAW of a scratchpad's core (R444). -/
def State.rawArray (s : State) : SramArray → Bool
  | .scratch c => (s.core (unitOf c)).arrtestRaw
  | _ => false

/-- What a vector file or operand memory holds becomes what it has stored: the word reads as it is. -/
def State.absorb (s : State) (a : SramArray) (o : Nat) : State :=
  let key := arrayBase a + o
  let f := s.flipWord key
  (s.mendAll [key]).modArray a o fun d => d ^^^ f.extractLsb' 0 64

/-- The words at some keys of a vector file or operand memory are read: each failing one is rebuilt (R261, R262). -/
def State.readWords (s : State) (a : SramArray) : List Nat → Except McInfo State
  | [] => .ok s
  | key :: ks =>
    let o := key - arrayBase a
    if flipFails (s.flipWord key) then
      match s.rebuild a o 0 with
      | .error i => .error i
      | .ok s => (s.absorb a o).readWords a ks
    else (s.absorb a o).readWords a ks

/-- n bytes from an offset of an array are read. -/
def State.readArray (s : State) (a : SramArray) (o n : Nat) : Except McInfo State :=
  if s.flips.isEmpty && s.vflips.isEmpty then .ok s else s.readWords a (s.flippedIn (arrayBase a + o) n)

/-- Registers of a core's vector file are read. -/
def State.readFile (s : State) (u : UnitId) : List Nat → Except McInfo State
  | [] => .ok s
  | n :: ns =>
    match coreOf u with
    | none => .ok s
    | some k => match s.readArray (.vector k) (4096 * n) 4096 with | .error i => .error i | .ok s => s.readFile u ns

/-- The operand memory that holds a core's tile slots. -/
def operandOf (u : UnitId) : SramArray :=
  .operand (if isCCore u then coreAt (dieOf u) 0 else coreAt (dieOf u) (localOf u))

/-- A tile slot of a core is read, whole (log 36). -/
def State.readSlot (s : State) (u : UnitId) (n : BitVec 7) : Except McInfo State :=
  s.readArray (operandOf u) (slotBytes u * n.toNat) (slotBytes u)

/-- A tile slot is written: its check bits with it. -/
def State.mendSlot (s : State) (u : UnitId) (n : BitVec 7) : State :=
  s.mendRange (arrayBase (operandOf u) + slotBytes u * n.toNat) (slotBytes u)

/-- Makes the words of an access good before it reads: each failing word is rebuilt. -/
def State.checkWords (s : State) (a : SramArray) (va : Dword) (o : Nat) : Nat → Except McInfo State
  | 0 => .ok s
  | n + 1 =>
    if flipFails (s.flipWord (arrayBase a + o)) && !s.rawArray a then
      match s.rebuild a o va with
      | .error i => .error i
      | .ok s => s.checkWords a va (o + 8) n
    else s.checkWords a va (o + 8) n

/-- Where a word that cannot be corrected lies: in an array, or in a DRAM channel. -/
inductive BadWord where
  | array (a : SramArray)
  | channel
  deriving DecidableEq, Repr

/-- The record of a DRAM word that its channel cannot correct (R262): what the rule does not state of it is free. -/
def channelInfo (n : Nat) (va : Dword) : McInfo :=
  let f := Config.freeKey n
  { kind := 1, bank := 0xFFFF, row := f.extractLsb' 0 20, word := f.extractLsb' 20 12, hsyn := f.extractLsb' 32 8,
    vsyn := f.extractLsb' 40 72, va := va }

/-- The DRAM words of n bytes of a device's memory are sound. -/
def State.checkDram (s : State) (d : DevId) (a : Nat) (va : Dword) : Nat → Except McInfo State
  | 0 => .ok s
  | n + 1 =>
    match dramHome (s.dieListOf d) a with
    | some (vd, o) => if s.flipWord (keyDram vd o) ≠ 0 then .error (channelInfo s.freeCount va) else s.checkDram d (a + 1) va n
    | none => s.checkDram d (a + 1) va n

/-- The words of an access at a location. -/
def State.checkLoc (s : State) (l : Loc) (va : Dword) (bytes : Nat) : Except (BadWord × McInfo) State :=
  if s.flips.isEmpty && s.vflips.isEmpty then .ok s
  else
    let tag (b : BadWord) (r : Except McInfo State) : Except (BadWord × McInfo) State :=
      match r with | .ok s => .ok s | .error i => .error (b, i)
    match l with
    | .scratch c o => tag (.array (.scratch c)) (s.checkWords (.scratch c) va (o / 8 * 8) ((o % 8 + bytes + 7) / 8))
    | .pane vd o => tag (.array (.pane vd)) (s.checkWords (.pane vd) va (o / 8 * 8) ((o % 8 + bytes + 7) / 8))
    | .dram d a => tag .channel (s.checkDram d a va bytes)
    | .host _ => .ok s

/-- The words of bytes at their locations, for a command's read (R262). -/
def State.checkLocs (s : State) : List Loc → Except (BadWord × McInfo) State
  | [] => .ok s
  | l :: ls =>
    match s.checkLoc l 0 1 with
    | .error i => .error i
    | .ok s => s.checkLocs ls

/-- What an uncorrectable word of an array does to the core or the die that owns it (R253, R262). -/
def State.arrayCheck (s : State) (b : BadWord) (i : McInfo) : State :=
  match b with
  | .array (.scratch c) => if (s.core (unitOf c)).health = .live then s.machineCheck (unitOf c) i else s
  | .array (.pane vd) => s.sharedCheck vd i
  | .array (.vector c) => if (s.core (unitOf c)).health = .live then s.machineCheck (unitOf c) i else s
  | .array (.operand c) =>
    if isCCore (unitOf c) then s.sharedCheck (dieOf (unitOf c)) i
    else if (s.core (unitOf c)).health = .live then s.machineCheck (unitOf c) i else s
  | .channel => s

/-- What an S or V read of it does besides: a machine check of the reader, which can have no value (R262, log 36). -/
def State.readCheck (s : State) (u : UnitId) (b : BadWord) (i : McInfo) : State :=
  let s := s.arrayCheck b i
  if (s.core u).health = .live then s.machineCheck u i else s

/-! Meanings. -/

/-- MACHINE_CHECK (R253). -/
def execMachineCheck (k : CoreId) (i : McInfo) (s : State) : Host.Outcome State Fault Refusal :=
  .next (if (s.core (unitOf k)).health = .live then s.machineCheck (unitOf k) i else s)

/-- FAILED_RECORD_TIMER (R253, R36): 10 µs after the machine check, the FAILED report goes its way. -/
def execFailedRecordTimer (k : CoreId) (s : State) : Host.Outcome State Fault Refusal :=
  .next (match s.cfm.pendingFails.find? fun p => p.1 = k && p.2.1 + 10000 ≤ s.time with
    | none => s
    | some p =>
      let s : State := { s with cfm := { s.cfm with pendingFails := s.cfm.pendingFails.erase p } }
      match s.node p.2.2.1 p.2.2.2 with
      | none => s
      | some n => { s with md := { s.md with waiting := s.md.waiting ++ [(k, n.report 2 n.cause)] } })

/-- ARRAY_REBUILD (R261, R262): a failing word is rebuilt, or there is a machine check of kind 1; under ARRTEST.RAW no rebuild runs
(R444). -/
def execArrayRebuild (a : SramArray) (o : BitVec 25) (s : State) : Host.Outcome State Fault Refusal :=
  .next (if o.toNat < arraySize a && !s.rawArray a && flipFails (s.flipWord (arrayBase a + o.toNat)) then
      match s.rebuild a o.toNat 0 with
      | .ok s => s
      | .error i => s.arrayCheck (.array a) i
    else s)

/-- The key of a word lies in a bank of an array. -/
def inBank (a : SramArray) (bank key : Nat) : Bool :=
  arrayBase a ≤ key && key < arrayBase a + arraySize a && (key - arrayBase a) / 64 % 32 = bank

/-- The patrol rebuilds or reports each word of a bank that fails its check (R263). -/
def State.patrolWords (s : State) (a : SramArray) (bank : Nat) : List Nat → State
  | [] => s
  | key :: ks =>
    if inBank a bank key && flipFails (s.flipWord key) then
      match s.rebuild a (key - arrayBase a) 0 with
      | .ok s => s.patrolWords a bank ks
      | .error i => (s.arrayCheck (.array a) i).patrolWords a bank ks
    else s.patrolWords a bank ks

/-- A V that disagrees with a group of clean words is rewritten from them (R263). -/
def State.patrolGroups (s : State) (a : SramArray) (bank : Nat) : List Nat → State
  | [] => s
  | g :: gs =>
    if inBank a bank g && !(groupWords g).any fun m => flipFails (s.flipWord m) then
      (s.recomputeV [g]).patrolGroups a bank gs
    else s.patrolGroups a bank gs

/-- Every word of a bank, and every group of it. A group can disagree only where a word or V has flipped. -/
def State.patrol (s : State) (a : SramArray) (bank : Nat) : State :=
  let s := s.patrolWords a bank (s.flips.map (·.1))
  s.patrolGroups a bank (s.flips.map (fun p => groupOf p.1) ++ s.vflips.map (·.1))

/-- PATROL_SCRUB (R263, R444): the scratchpad of a core under ARRTEST.RAW is skipped. -/
def execPatrolScrub (a : SramArray) (bank : BitVec 5) (s : State) : Host.Outcome State Fault Refusal :=
  .next (if s.rawArray a then s else s.patrol a bank.toNat)

/-- REPAIR_WRITE (R264). -/
def execRepairWrite (k : CoreId) (v : Dword) (s : State) : Host.Outcome State Fault Refusal :=
  .next (s.writeRepair (unitOf k) v)

/-- ARRTEST_WRITE (R444). -/
def execArrtestWrite (k : CoreId) (v : Dword) (s : State) : Host.Outcome State Fault Refusal :=
  .next (s.writeArrtest (unitOf k) v)

/-- Replays of one stage (R250): `fires` is how often the shadow latch fires; `tries` the replays since the last
escalation. -/
def State.replays (s : State) (u : UnitId) (e : Eng) : Nat → Nat → State
  | 0, _ => s
  | n + 1, tries =>
    let count (g : Engine) : Engine := { g with replays := if g.replays = 0xFFFFFFFF then g.replays else g.replays + 1 }
    if tries < 3 then (s.modEng u e count).replays u e n (tries + 1)
    else if (s.core u).step.toNat < 4 then
      let vd := dieOf u
      let d := s.die vd
      let s := if isSched u then s else s.setDie vd { d with escalations := min 0xFFFF (d.escalations + 1) }
      let s := s.modCore u fun c => { c with step := c.step + 1 }
      (s.modEng u e fun g => count { g with escal := if g.escal = 0xFF then g.escal else g.escal + 1 }).replays u e n 1
    else s.umbra u

/-- GLINT_REPLAY (R250): `fires` firings of the latch at one stage of an engine that runs, on a compute core or a scheduler core. -/
def execGlintReplay (u : UnitId) (e : Eng) (fires : Nat) (s : State) : Host.Outcome State Fault Refusal :=
  .next (if (s.eng u e).started && (s.core u).health = .live then s.replays u e fires 0 else s)

end Sys2Proof.Machine
end

