-- ==== Sys2Proof/Machine/Flags.lean ====
section
/-! DEFINITION. The flags of STICKY (Table 5.5) and what the scalar integer operations set (R359). -/

namespace Sys2Proof.Machine

def fNV : FlagSet := 0x001
def fDZ : FlagSet := 0x002
def fOF : FlagSet := 0x004
def fUF : FlagSet := 0x008
def fNX : FlagSet := 0x010
def fSAT : FlagSet := 0x020
def fACC : FlagSet := 0x040
def fFMT : FlagSet := 0x080
def fBOUND : FlagSet := 0x100

/-- A flag set under a condition. -/
def fIf (b : Bool) (f : FlagSet) : FlagSet := if b then f else 0

/-- The range of a w-bit integer, unsigned or signed. -/
def intMin (w : Nat) (u : Bool) : Int := if u then 0 else -(2 ^ (w - 1) : Int)
def intMax (w : Nat) (u : Bool) : Int := if u then 2 ^ w - 1 else 2 ^ (w - 1) - 1

/-- A w-bit pattern read as the instruction reads it (R359). -/
def readInt (w : Nat) (u : Bool) (n : Nat) : Int := if u then ((n % 2 ^ w : Nat) : Int) else signedOf w n

/-- An exact result clamped to the range of w and U, with SAT when clamping changes it; without `sat` it wraps. -/
def satInt (w : Nat) (u sat : Bool) (v : Int) : Nat × FlagSet :=
  if sat then
    let c := clampInt (intMin w u) (intMax w u) v
    (wrapNat w c, fIf (c ≠ v) fSAT)
  else (wrapNat w v, 0)

/-- A w-bit pattern as a 64-bit register value: a 32-bit one is sign-extended, or zero-extended when `zx` (R359). -/
def widenRes (w32 zx : Bool) (n : Nat) : Dword :=
  if w32 then (if zx then (BitVec.ofNat 32 n).setWidth 64 else (BitVec.ofNat 32 n).signExtend 64)
  else BitVec.ofNat 64 n

/-- A comparison (Table 9.4). -/
def condInt (c : Cond) (a b : Int) : Bool :=
  match c with
  | .eq => a = b | .ne => a ≠ b | .lt => a < b | .le => a ≤ b | .gt => b < a | .ge => b ≤ a

/-- Number of 1 bits among the low n bits. -/
def popcount : Nat → Nat → Nat
  | 0, _ => 0
  | n + 1, v => v % 2 + popcount n (v / 2)

/-- Leading zero bits of a in w bits. -/
def clz : Nat → Nat → Nat
  | 0, _ => 0
  | w + 1, a => if a / 2 ^ w % 2 = 1 then 0 else 1 + clz w a

end Sys2Proof.Machine
end

