-- ==== Sys2Proof/Machine/Lease.lean ====
section
/-! DEFINITION. The array lease of a C-die (R70 to R75, R329, R330, R370). -/

namespace Sys2Proof.Machine

def State.setLease (s : State) (vd : Vd) (l : Lease) : State := s.setDie vd { s.die vd with lease := l }

/-- The core holds its array: an M-core always does (R70). -/
def State.holdsLease (s : State) (u : UnitId) : Bool :=
  !isCCore u || (s.die (dieOf u)).lease.holder = some (localOf u)

/-! What the queues of M and C may begin. -/

/-- A source that a queued command may read now: every fill issued before the command has ended (R131). -/
def State.sourceReady (s : State) (u : UnitId) : MSrc → Bool
  | .slot n fills => fills ≤ (s.tile u n).done
  | .stream _ _ _ _ => true

/-- A command loads a stationary buffer. -/
def MOp.isLoad : MOp → Bool
  | .mloadb _ _ => true
  | _ => false

/-- A load that has filled its buffer ahead of its place. -/
def MOp.isLoaded : MOp → Bool
  | .loaded _ => true
  | _ => false

/-- The place of a load that has been performed ahead of it. -/
def MOp.begun : MOp → Bool
  | .loaded _ | .loadFailed _ => true
  | _ => false

/-- An MMA among the queued commands uses the buffer that the next load fills: the load behind it has been performed. -/
def usesOld : List MCmd → Bool
  | [] => false
  | m :: ms => (match m.op with | .mma _ _ _ _ => ms.any (·.op.isLoaded) | _ => false) || usesOld ms

/-- A queued command may begin behind these (R365): when they are performed; an MLOADB when the load before it is, with every MMA that
uses the buffer it fills and every FENCE (R376, R351). -/
def State.mBegins (s : State) (u : UnitId) (ahead : List MCmd) : MOp → Bool
  | .mloadb m _ =>
    s.sourceReady u m && s.holdsLease u && !usesOld ahead &&
      !ahead.any fun c => match c.op with | .mloadb _ _ | .fence _ => true | _ => false
  | .mma _ _ _ m => ahead.isEmpty && s.sourceReady u m && s.holdsLease u
  | _ => ahead.isEmpty

/-- Queued commands that have not begun (R365). -/
def State.mWaiting (s : State) (u : UnitId) : List MCmd → List MCmd → Nat
  | _, [] => 0
  | ahead, m :: ms => (if m.op.begun || s.mBegins u ahead m.op then 0 else 1) + s.mWaiting u (ahead ++ [m]) ms

/-- The M queue takes a command: at most 8 have not begun (R365). -/
def State.mqRoom (s : State) (u : UnitId) : Bool := s.mWaiting u [] (s.core u).mq < 8

/-- A fill may begin (R404, R131): every fill of its slot before it has ended, and every M command issued before it that
reads the slot has been performed. -/
def State.fillReady (s : State) (u : UnitId) (n : BitVec 7) (fillNo : Nat) : Bool :=
  (s.tile u n).done + 1 = fillNo && !(s.core u).mq.any fun c => match c.op with
    | .mloadb (.slot m k) _ => m = n && k < fillNo
    | .mma _ _ _ (.slot m k) => m = n && k < fillNo
    | _ => false

/-- The head of a C queue has begun: a TSFILL waits for its slot (R404), an XSEND for a permit (R435), a FENCE for the other queues
(R157). -/
def State.cBegun (s : State) (u : UnitId) (c : CCmd) : Bool :=
  match c.op with
  | .tsfill n _ fillNo => s.fillReady u n fillNo
  | .xsend _ _ => c.permit.isSome
  | .fence _ _ => false
  | _ => true

/-- A C queue takes a command: at most 16 have not begun (R320). -/
def State.cqRoom (s : State) (u : UnitId) (q : Nat) : Bool :=
  match (s.core u).cq.getD q [] with
  | [] => true
  | c :: cs => cs.length + (if s.cBegun u c then 0 else 1) < 16

/-! The lease. -/

/-- Places a core's request at its job's lease priority (R72), once. -/
def State.requestLease (s : State) (u : UnitId) : State :=
  let l := (s.die (dieOf u)).lease
  if l.requests.any fun r => r.1 = localOf u then s
  else
    let prio : BitVec 3 := match (s.core u).job with | some j => j.leasePrio | none => 0
    s.setLease (dieOf u) { l with requests := l.requests ++ [(localOf u, prio, 0)] }

/-- ALEASE takes its slot's PRIO as the job's lease priority (R329, R56), which later requests of the job keep. -/
def State.takePrio (s : State) (u : UnitId) : State :=
  s.modCore u fun c => { c with job := c.job.map fun j => { j with leasePrio := (s.slot j.slot).prio } }

/-- ALEASE's request; one that is already placed stands (R329). -/
def State.askLease (s : State) (u : UnitId) : State :=
  if (s.die (dieOf u)).lease.requests.any fun r => r.1 = localOf u then s else (s.takePrio u).requestLease u

/-- The lease of the holder ends (R72): with no other request it keeps the array and its count restarts at zero. -/
def State.endLease (s : State) (u : UnitId) : State :=
  let l := (s.die (dieOf u)).lease
  let others := l.requests.filter fun r => r.1 ≠ localOf u
  let l' : Lease := { l with ending := false, count := 0 }
  if others.isEmpty then s.setLease (dieOf u) { l' with requests := [] } else s.setLease (dieOf u) { l' with holder := none }

/-- Counts an MLOADB or MMA that issues under the lease (R71). -/
def State.countLease (s : State) (u : UnitId) : State :=
  if isCCore u then
    let l := (s.die (dieOf u)).lease
    s.setLease (dieOf u) { l with count := l.count + 1 }
  else s

def State.leaseMax (s : State) (u : UnitId) : Nat := (s.md.leaseMax[devOfDie s.md.mode (dieOf u)]).toNat

/-- A command that counts toward the lease. -/
def MOp.counted : MOp → Bool
  | .mloadb _ _ | .mma _ _ _ _ => true
  | _ => false

/-- Pushes the tokens of the AREL commands that the end of a lease performs (R330). -/
def State.takeArels (s : State) (u : UnitId) (push : State → BitVec 3 → State) : State :=
  let l := (s.core u).arels
  l.foldl push (s.modCore u fun c => { c with arels := [] })

/-- Ends the holder's lease where R71 says so, outside a chain: after REND, or once its count is used up and every counted
command has been performed. -/
def State.leaseCheck (s : State) (u : UnitId) : State :=
  let c := s.core u
  let l := (s.die (dieOf u)).lease
  if isCCore u && l.holder = some (localOf u) && c.chain.state = .none &&
      (((l.ending || c.eM.ended) && c.mq.isEmpty) || (s.leaseMax u ≤ l.count && !c.mq.any fun m => m.op.counted)) then s.endLease u
  else s

/-- REND on the M engine ends the lease once every M command has been performed (R71). -/
def State.leaseRend (s : State) (u : UnitId) : State :=
  let l := (s.die (dieOf u)).lease
  if isCCore u && l.holder = some (localOf u) then (s.setLease (dieOf u) { l with ending := true }).leaseCheck u else s

/-- An MBEGIN or MLOADB must ask for the array again (R71, R330): an AREL is queued, or waits for a chain that retires; or, with no
chain, the count is used up. -/
def State.leaseSpent (s : State) (u : UnitId) : Bool :=
  let c := s.core u
  isCCore u &&
    ((c.chain.state = .none || c.chain.state = .retiring) && (c.mq.any (fun m => m.op = .arel) || !c.arels.isEmpty) ||
      c.chain.state = .none && s.leaseMax u ≤ (s.die (dieOf u)).lease.count)

/-- Counted commands left in the queue of a core that does not hold the array ask for it (R370, R72). -/
def State.askQueued (s : State) (u : UnitId) : State :=
  if !s.holdsLease u && (s.core u).mq.any fun m => m.op.counted then s.requestLease u else s

/-- Places of the round-robin after the last core granted (R72). -/
def rrPlace (last : Option (Fin 6)) (k : Fin 6) : Nat :=
  match last with
  | none => k.val
  | some l => (k.val + 5 - l.val) % 6

/-- Request a is served before b (R72). -/
def leaseBefore (last : Option (Fin 6)) (a b : Fin 6 × BitVec 3 × Nat) : Bool :=
  let ra := rrPlace last a.1
  let rb := rrPlace last b.1
  if 5 ≤ a.2.2 || 5 ≤ b.2.2 then
    if 5 ≤ a.2.2 && 5 ≤ b.2.2 then ra < rb else 5 ≤ a.2.2
  else b.2.1.toNat < a.2.1.toNat || (a.2.1 = b.2.1 && ra < rb)

/-- The request the arbiter chooses. -/
def leaseChoice (last : Option (Fin 6)) : List (Fin 6 × BitVec 3 × Nat) → Option (Fin 6 × BitVec 3 × Nat)
  | [] => none
  | r :: rs =>
    match leaseChoice last rs with
    | none => some r
    | some q => if leaseBefore last q r then some q else some r

/-- The arbiter's grant (R72): the holder's count starts at zero, and the stationary registers read zero when the array
changes hands (R73). -/
def State.grantLease (s : State) (vd : Vd) : State :=
  let l := (s.die vd).lease
  match l.holder, leaseChoice l.lastGrant l.requests with
  | none, some r =>
    let rest := (l.requests.filter fun q => q.1 ≠ r.1).map fun q => (q.1, q.2.1, q.2.2 + 1)
    let s := s.setLease vd { holder := some r.1, count := 0, ending := false, requests := rest, lastGrant := some r.1 }
    if l.lastGrant = some r.1 then s
    else s.modCore (unitOf (coreAt vd r.1)) fun c => { c with stat := Stationary.reset 256, statOld := Stationary.reset 256 }
  | _, _ => s

/-- LEASE_GRANT (R72). -/
def execLeaseGrant (vd : Vd) (s : State) : Host.Outcome State Fault Refusal := .next (s.grantLease vd)

end Sys2Proof.Machine
end

