-- ==== Sys2Proof/Machine/Fetch.lean ====
section
/-! DEFINITION. Fetching instruction words (R41, R198, R446). A fetch reads memory, so a store changes what a later
fetch reads (log 16). -/

namespace Sys2Proof.Machine

/-- Bytes of a scheduler core's instruction memory (R18). -/
def imemSize : Nat := 0x40000

/-- The word at an address of an engine's instruction stream, or the cause of the fault. A scheduler core's program
counter is an offset in its instruction memory (log 4). -/
def State.fetchWord (s : State) (u : UnitId) (a : Nat) : Except Byte Word :=
  if isSched u then
    if a + 4 ≤ imemSize then .ok (BitVec.ofNat 32 (ofBytes (s.rawBytes (keyImem (u.val = 49) a) 4)))
    else .error cProtection
  else
    match (s.core u).job with
    | none => .error cProtection
    | some j =>
      if a < j.imgBase.toNat ∨ j.imgBase.toNat + j.imgLen < a + 4 then .error cProtection
      else
        match windowOf a with
        | .mapped =>
          match s.translate (some u) j.ctx j.world .fetch a with
          | .error e => .error e
          | .ok (.host _) => .error cProtection
          | .ok l => .ok (BitVec.ofNat 32 (ofBytes (s.readLoc j.world l 4)))
        | _ => .error cProtection

/-- The endpoint that holds the word at an engine's program counter. -/
def State.fetchHome (s : State) (u : UnitId) (e : Eng) : Endpoint :=
  let a := (s.eng u e).pc.toNat
  match isSched u, (s.core u).job with
  | false, some j =>
    match windowOf a, s.translate (some u) j.ctx j.world .fetch a with
    | .mapped, .ok (.dram d a) => s.homeOf (.dram d a)
    | _, _ => endOf u
  | _, _ => endOf u

/-- A fetch can reach its words. -/
def State.fetchReaches (s : State) (u : UnitId) (e : Eng) : Bool := s.ctlUp (endOf u) (s.fetchHome u e)

/-- A fetch from another die is a remote read of a line (R176); a lost one is made again (log 10). -/
def State.fetchAsked (s : State) (u : UnitId) (e : Eng) : State := s.askSure (endOf u) (s.fetchHome u e) 64

/-- The words from an address on, up to n, and the address and cause of the first that cannot be fetched. -/
def State.fetchWords (s : State) (u : UnitId) (a : Nat) : Nat → List Word × Option (Nat × Byte)
  | 0 => ([], none)
  | n + 1 =>
    match s.fetchWord u a with
    | .error c => ([], some (a, c))
    | .ok w =>
      let (ws, f) := s.fetchWords u (a + 4) n
      (w :: ws, f)

/-- The decode environment of an engine (R202, R210, R219). -/
def envOf (u : UnitId) (e : Eng) : DecEnv := { eng := e, sched := isSched u, cCore := isCCore u }

/-- What an engine finds at an address: words that decode (with their length), words that do not, or a fault of the
fetch of some word. No instruction exceeds nine words (R198). The length of words that cannot all be fetched is reckoned from those
that can: one word when the first is missing, and a specifier that lies in a missing word carries no literal (DESIGN CHOICE,
log 91). -/
inductive Fetched where
  | ok (i : Instr) (len : Nat)
  | illegal (word : Word) (len : Nat)
  | fault (at_ : Nat) (cause : Byte) (len : Nat)

def State.fetch (s : State) (u : UnitId) (e : Eng) (a : Nat) : Fetched :=
  let (ws, bad) := s.fetchWords u a 9
  let d := decode (envOf u e) ws
  let len := d.words
  match bad with
  | some (b, c) =>
    if ws.length < len ∨ ws = [] then .fault b c (max 1 len)
    else match d.result with | .ok i => .ok i len | .error _ => .illegal (wordAt ws 0) len
  | none => match d.result with | .ok i => .ok i len | .error _ => .illegal (wordAt ws 0) len

/-- Length of the instruction at an address, by R221 when it is illegal; none when it cannot be fetched whole. -/
def State.lenAt (s : State) (u : UnitId) (e : Eng) (a : Nat) : Option Nat :=
  match s.fetch u e a with
  | .ok _ n => some n
  | .illegal _ n => some n
  | .fault _ _ _ => none

/-- The address after the instruction that includes the word at `end_` (R364), found from the body's start on. Where a word of the
body up to there cannot be fetched, no length is known: the instruction is then taken to be that one word (DESIGN CHOICE,
log 81). -/
def State.afterEnd (s : State) (u : UnitId) (e : Eng) (end_ : Nat) : Nat → Nat → Nat
  | 0, _ => end_ + 4
  | n + 1, a =>
    match s.lenAt u e a with
    | none => end_ + 4
    | some k => if end_ < a + 4 * k then a + 4 * k else s.afterEnd u e end_ n (a + 4 * k)

end Sys2Proof.Machine
end

