-- ==== Sys2Proof/Machine/Ops.lean ====
section
/-! DEFINITION. The named operations every instruction shares: results in flight and their landing (R227 to R229),
tokens (R205, R46, R53), taking an exception (R244, R245, R248) and the return from one (R245), hardware loops (R235,
R236), and the issue of an instruction with the checks of R220 in their order. -/

namespace Sys2Proof.Machine

/-- What a meaning answers. -/
abbrev Out := Host.Outcome State Fault Refusal

/-- The core's engines do not issue: it is stopped by the debugger or for a pre-emption, its job is being aborted, or it is no
longer live. -/
def Core.halted (c : Core) : Bool :=
  c.ending.isSome ||
  (match c.dbg with | some d => d.stopped | none => false) ||
  (match c.preempt with | some p => p.stopped | none => false) || c.health ≠ .live

/-! Landing. -/

/-- Writes a result to its register; a write to x0 or p0 is discarded (R206, R200). -/
def Engine.put (g : Engine) : Write → Engine
  | .a n v => { g with a := g.a.set n.toNat v }
  | .lc n v =>
    { g with lc := g.lc.set n.toNat v, latch := { g.latch with lcMask := g.latch.lcMask ||| (1#4 <<< n.toNat) } }
  | .x n v => if n = 0 then g else { g with x := g.x.set n.toNat v }
  | .p n v =>
    if n = 0 then g
    else
      let m := 1#32 <<< n.toNat
      { g with p := if v then g.p ||| m else g.p &&& ~~~m, latch := { g.latch with pMask := g.latch.pMask ||| m } }
  | _ => g

/-- A register of a core's vector file is written: the check bits of its words with it (R260). -/
def State.mendVector (s : State) (u : UnitId) (n : Nat) : State :=
  match coreOf u with
  | some k => s.mendRange (keyVector k (4096 * n)) 4096
  | none => s

/-- Lands one write of an engine. -/
def State.landWrite (s : State) (u : UnitId) (e : Eng) : Write → State
  | .a n v => s.modEng u e (·.put (.a n v))
  | .lc n v => s.modEng u e (·.put (.lc n v))
  | .x n v => s.modEng u e (·.put (.x n v))
  | .p n v => s.modEng u e (·.put (.p n v))
  | .sr n v => s.writeSr u e n v
  | .v n r => (s.mendVector u n.toNat).modCore u fun c => { c with vmain := c.vmain.set n.toNat r }
  | .o n r => s.modCore u fun c => { c with vop := c.vop.set n.toNat r }
  | .l n r => s.modCore u fun c => { c with vlast := c.vlast.set n.toNat r }
  | .push q r w =>
    s.modCore u fun c =>
      match c.streams[q.toNat] with
      | none => c
      | some t =>
        let n := if t.desc.rowMode then 1 else 16
        let t' : Stream := { t with buf := t.buf ++ [{ pos := t.pos, item := .rows r [] 0, stamp := w }], pos := t.pos + n }
        { c with streams := c.streams.set q.toNat (some t') }

def State.landWrites (s : State) (u : UnitId) (e : Eng) : List Write → State
  | [] => s
  | w :: ws => (s.landWrite u e w).landWrites u e ws

/-- Index of the token queue from engine a to engine b. -/
def queueIx (a b : Eng) : Fin 16 := ⟨4 * engNo a + engNo b, by cases a <;> cases b <;> decide⟩

/-- The engine that mask bit k of engine e names (Table 9.6). -/
def maskEng (e : Eng) (k : Nat) : Eng :=
  match (engNo e + 1 + k) % 4 with
  | 0 => .S | 1 => .V | 2 => .M | _ => .C

/-- Pushes one token into each queue of a mask of engine e (R205). -/
def Core.push (c : Core) (e : Eng) (m : BitVec 3) : Core :=
  let one (k : Nat) (t : Vector Nat 16) : Vector Nat 16 :=
    if m.getLsbD k then let q := queueIx e (maskEng e k); t.set q (t[q] + 1) else t
  { c with tokens := one 2 (one 1 (one 0 c.tokens)) }

def State.push (s : State) (u : UnitId) (e : Eng) (m : BitVec 3) : State :=
  if m = 0 then s else s.modCore u (·.push e m)

/-- A due result lands unless its push finds the stream's buffer full, or its read was lost (R144, R453). -/
def Core.blocked (c : Core) (f : Flight) : Bool :=
  f.lost.isSome || f.writes.any fun w =>
    match w with
    | .push q _ _ => match c.streams[q.toNat] with | some t => 4 ≤ t.buf.length | none => false
    | _ => false

/-- Lands the due results of an engine in issue order, so that the later-issued of two wins a register (R229). It stops
before the first that cannot land: the engine then stands frozen at this cycle. A flag and a write of STICKY that land in one ec land in
that order too: an earlier flag is set first and the write clears it (DEDUCED, log 26). -/
def State.landList (s : State) (u : UnitId) (e : Eng) (now : Nat) : List Flight → State
  | [] => s
  | f :: fs =>
    if now < f.landAt then s.landList u e now fs
    else if (s.core u).blocked f then s
    else
      let s := s.landWrites u e f.writes
      let s := s.modEng u e fun g =>
        { g with sticky := g.sticky ||| f.flags, flights := g.flights.erase f }
      (s.push u e f.sig).landList u e now fs

/-- Due results of an engine that have not landed. -/
def Engine.due (g : Engine) : Bool := g.flights.any fun f => f.landAt ≤ g.scycle

def State.land (s : State) (u : UnitId) (e : Eng) : State :=
  let g := s.eng u e
  s.landList u e g.scycle g.flights

/-- One schedule cycle passes: SCYCLE advances and the results due then land (R227, R231). -/
def State.advance (s : State) (u : UnitId) (e : Eng) : State :=
  let s := s.modEng u e fun g =>
    { g with scycle := g.scycle + 1, latch := { pOld := g.p, lcOld := g.lc, pMask := 0, lcMask := 0 } }
  s.land u e

/-- A message append of this core's S engine has not arrived. -/
def State.appendsOut (s : State) (u : UnitId) : Bool := s.fab.appends.any fun a => unitOf a.from_ = u

/-- Puts a result in flight (R227). -/
def State.fly (s : State) (u : UnitId) (e : Eng) (lat : Nat) (ws : List Write) (flags : FlagSet) (sig : BitVec 3) :
    State :=
  s.modEng u e fun g =>
    { g with flights := g.flights ++ [{ landAt := g.scycle + lat, issuedAt := g.scycle, writes := ws, flags := flags, sig := sig,
                                        lost := none }] }

/-- What a lost read keeps for its trap (R453): the read at the engine's pc, of n words. A read issued again after such a trap has had its
loop-end action already. -/
def Engine.lostRead (g : Engine) (len : Nat) (wait : BitVec 3) (va : Dword) : LostRead :=
  { epc := g.pc, ds := g.ds, va := va, wait := wait,
    ended := g.noEnd || !g.hm && g.loops.any fun l => g.pc.toNat ≤ l.end_.toNat && l.end_.toNat < g.pc.toNat + 4 * len }

/-- Puts a read's result in flight, lost or not (R453). -/
def State.flyRead (s : State) (u : UnitId) (e : Eng) (lat : Nat) (ws : List Write) (flags : FlagSet) (sig : BitVec 3)
    (lost : Option LostRead) : State :=
  s.modEng u e fun g =>
    { g with flights := g.flights ++ [{ landAt := g.scycle + lat, issuedAt := g.scycle, writes := ws, flags := flags, sig := sig,
                                        lost := lost }] }

/-! Tokens. -/

/-- How many pushes to a queue the sender's issued work still promises (R205). -/
def Core.promised (c : Core) (a b : Eng) : Nat :=
  let hits (m : BitVec 3) : Bool := [0, 1, 2].any fun k => m.getLsbD k && maskEng a k = b
  let n (l : List (BitVec 3)) : Nat := (l.filter hits).length
  match a with
  | .S => n (c.eS.flights.map (·.sig))
  | .V => n (c.eV.flights.map (·.sig))
  | .M => n (c.mq.map (·.sig)) + n c.arels
  | .C =>
    -- a TSIG marker stands in all four queues and pushes once: only its copy in C0 carries the mask
    n (c.cq[0].map (·.sig)) + n (c.cq[1].map (·.sig)) + n (c.cq[2].map (·.sig)) + n (c.cq[3].map (·.sig))

/-- Ceiling of the queue named by mask bit k (Table 17.5). -/
def Engine.ceil (g : Engine) (k : Nat) : Nat := (g.tokceil.toNat / 2 ^ (8 * k)) % 256

/-- The mask bits whose queues one more push would take above their ceilings (R205). -/
def Core.overCeil (c : Core) (e : Eng) (m : BitVec 3) : BitVec 3 :=
  let bit (k : Nat) : Nat :=
    let b := maskEng e k
    if m.getLsbD k && (c.eng e).ceil k < c.tokens[queueIx e b] + c.promised e b + 1 then 2 ^ k else 0
  BitVec.ofNat 3 (bit 0 + bit 1 + bit 2)

/-- The mask bits whose queues hold no token. -/
def Core.emptyBits (c : Core) (e : Eng) (m : BitVec 3) : BitVec 3 :=
  let bit (k : Nat) : Nat := if m.getLsbD k && c.tokens[queueIx (maskEng e k) e] = 0 then 2 ^ k else 0
  BitVec.ofNat 3 (bit 0 + bit 1 + bit 2)

/-- Engine e holds work that an explicit DRAIN of S waits on (R53). -/
def Core.holdsDrain (c : Core) (e : Eng) : Bool :=
  match e with
  | .V => !c.eV.flights.isEmpty
  | .M => c.chain.state = .open || c.chain.state = .failed
  | _ => false

/-- An engine has executed REND: its stream has ended, or S stands in REND, where it waits for the other streams (R43). -/
def Engine.inRend (g : Engine) : Bool := g.ended || g.frozen = some .rendStreams || g.frozen = some .rendDrain

/-- No push to the queue from a to e can still occur within the job (R46), or none while S waits in its DRAIN for work
of e (R53). -/
def Core.orphan (c : Core) (a e : Eng) : Bool :=
  let ga := c.eng a
  (!ga.started || ga.inRend) && c.promised a e = 0 ||
    (a = .S && c.eS.frozen = some .drain && c.promised .S e = 0 && c.holdsDrain e)

/-- The empty queues of a mask that are orphaned. -/
def Core.orphanBits (c : Core) (e : Eng) (m : BitVec 3) : BitVec 3 :=
  let m := c.emptyBits e m
  let bit (k : Nat) : Nat := if m.getLsbD k && c.orphan (maskEng e k) e then 2 ^ k else 0
  BitVec.ofNat 3 (bit 0 + bit 1 + bit 2)

/-- Adds n tokens back to, or pops one from, each queue of a WAIT mask. -/
def Core.popMask (c : Core) (e : Eng) (m : BitVec 3) : Core :=
  let one (k : Nat) (t : Vector Nat 16) : Vector Nat 16 :=
    if m.getLsbD k then let q := queueIx (maskEng e k) e; t.set q (t[q] - 1) else t
  { c with tokens := one 2 (one 1 (one 0 c.tokens)) }

def Core.unpopMask (c : Core) (e : Eng) (m : BitVec 3) : Core :=
  let one (k : Nat) (t : Vector Nat 16) : Vector Nat 16 :=
    if m.getLsbD k then let q := queueIx (maskEng e k) e; t.set q (t[q] + 1) else t
  { c with tokens := one 2 (one 1 (one 0 c.tokens)) }

/-! Taking an exception. -/

/-- An M instruction that raises an exception partway through its pops has popped nothing (R220): the stream fetches
again from the first of them. -/
def Core.undoPops (c : Core) : Core :=
  match c.mpop with
  | [] => c
  | (q, b) :: _ =>
    match c.streams[q.toNat] with
    | none => { c with mpop := [] }
    | some t => { c with mpop := [], streams := c.streams.set q.toNat (some { t with buf := [], pos := b.pos }) }

/-- Takes an exception on an engine (R244, R245): with TSTAT.HM = 1 or TVEC.EN = 0 the job is aborted with its cause;
else CAUSE, TDETAIL, EPC and ENPC (with its SEQ bit) save it, HM is set and the handler at TVEC issues next. -/
def State.takeTrap (s : State) (u : UnitId) (e : Eng) (cause : Byte) (detail epc enpc : Dword) (ds def_ : Bool) :
    State :=
  let s := if e = .M then s.modCore u Core.undoPops else s
  let g := s.eng u e
  if g.hm || !g.tvec.getLsbD 0 then s.abortJob u cause
  else
    s.setEng u e
      { g with
        cause := dw ((if def_ then 2 ^ 15 else 0) + (if ds then 2 ^ 14 else 0) + cause.toNat),
        tdetail := detail,
        epc := epc &&& addrMask,
        enpc := enpc &&& addrMask0,
        hm := true,
        pc := g.tvec &&& addrMask,
        after := none,
        ds := false,
        noEnd := false,
        epcDone := false,
        frozen := none,
        fencing := false,
        popDone := false }

/-- The return from an exception (R245): HM := 0, the instruction at EPC issues next, and ENPC follows it unless
ENPC.SEQ = 1. With SEQ = 0 a delay slot is resumed as one (CAUSE.DS). -/
def Engine.eret (g : Engine) : Engine :=
  let seq := g.enpc.getLsbD 0
  { g with
    hm := false,
    pc := g.epc,
    after := if seq then none else some (g.enpc &&& addrMask),
    ds := !seq && g.cause.getLsbD 14,
    noEnd := g.epcDone,
    epcDone := false,
    frozen := none,
    popDone := false }

/-! Hardware loops. -/

/-- The shift of the stage predicates (R235): p(16 + j) := p(15 + j) for j = 15 down to 1, and p16 := b. -/
def shiftStages (p : BitVec 32) (b : Bool) : BitVec 32 :=
  let low := p &&& 0xFFFF
  let high := (p >>> 16) <<< 17
  low ||| high ||| (if b then 0x10000#32 else 0)

/-- The registers a loop-end action reads and writes. -/
structure LoopRegs where
  p : BitVec 32
  lc : Vector Dword 4
  rrb : BitVec 5

/-- The loop-end action of one entry (R235): the registers after it, and whether the loop repeats. -/
def loopAction (l : LoopEntry) (r : LoopRegs) : LoopRegs × Bool :=
  let c := r.lc[l.lc.toNat]
  if c.toNat ≤ 1 then ({ r with lc := r.lc.set l.lc.toNat 0 }, false)
  else
    let c' := c - 1
    let r := { r with lc := r.lc.set l.lc.toNat c' }
    if l.rot then
      ({ r with rrb := r.rrb - 1, p := shiftStages r.p (l.stg.toNat < c'.toNat) }, true)
    else (r, true)

/-- The actions of every loop that ends on an instruction, outward from the innermost, until one repeats (R235). -/
def loopEnds (pc : Nat) (len : Nat) : List LoopEntry → LoopRegs → List LoopEntry × LoopRegs × Option Dword
  | [], r => ([], r, none)
  | l :: ls, r =>
    if pc ≤ l.end_.toNat ∧ l.end_.toNat < pc + 4 * len then
      let (r', again) := loopAction l r
      if again then (l :: ls, r', some l.start) else loopEnds pc len ls r'
    else (l :: ls, r, none)

/-- The registers as they stand before the results that landed in this cycle (R326). -/
def Engine.loopRegs (g : Engine) : LoopRegs :=
  let k := g.latch
  { p := (g.p &&& ~~~k.pMask) ||| (k.pOld &&& k.pMask),
    lc := g.lc.mapIdx fun i v => if k.lcMask.getLsbD i then k.lcOld.getD i v else v,
    rrb := g.rrb }

/-- The loop-end action of the instruction at pc (R235, R326): what landed in this cycle is written after it. -/
def Engine.endLoops (g : Engine) (len : Nat) (next : Dword) : Engine × Dword :=
  if g.hm || g.noEnd then (g, next)
  else
    let (ls, r, again) := loopEnds g.pc.toNat len g.loops g.loopRegs
    let k := g.latch
    ({ g with
       loops := ls, rrb := r.rrb,
       p := (r.p &&& ~~~k.pMask) ||| (g.p &&& k.pMask),
       lc := r.lc.mapIdx fun i v => if k.lcMask.getLsbD i then g.lc.getD i v else v },
     again.getD next)

/-- A taken B or BC that leaves active loop bodies pops their entries and those inside (R236). A body reaches to the last word of its
end instruction (R234), which `after` finds. -/
def leaveLoops (after : LoopEntry → Nat) (pc target : Nat) : List LoopEntry → List LoopEntry
  | [] => []
  | l :: ls =>
    let inBody (a : Nat) : Bool := l.start.toNat ≤ a && (a ≤ l.end_.toNat || a < after l)
    let rest := leaveLoops after pc target ls
    if rest.length < ls.length then rest
    else if inBody pc && !inBody target then ls
    else l :: ls

/-- An instruction of n words at pc is the end of the innermost active loop. -/
def Engine.endsLoop (g : Engine) (pc len : Nat) : Bool :=
  g.loops.any fun l => pc ≤ l.end_.toNat && l.end_.toNat < pc + 4 * len

/-! Issue. -/

/-- Words of an instruction. -/
def instrWords (i : Instr) : Nat := (encode i).length

/-- How an instruction's own effect ends. -/
inductive Res where
  /-- Issued: the next instruction follows in sequence. -/
  | seq (s : State)
  /-- A taken branch with its delay slot, to a target (R232); `pops` when it leaves loops (R236). -/
  | goto (s : State) (target : Dword) (pops : Bool)
  /-- A branch not taken: its delay slot is next. -/
  | slot (s : State)
  /-- Issued, and the instruction at this address is next unless a loop-end action selects another. -/
  | to (s : State) (addr : Dword)
  /-- Issued, with no cycle to pass: the job or stream has ended, or an exception was taken. -/
  | done (s : State)
  /-- The engine freezes (R228). -/
  | freeze (s : State) (w : Wait)
  /-- Issue is held while the pipeline advances (R228). -/
  | hold (s : State)
  /-- The instruction raises an exception; the state is the one it leaves. -/
  | trap (s : State) (cause : Byte) (detail : Dword)

/-- The address that follows an instruction of n words, by the rule for a delay slot. -/
def Engine.follows (g : Engine) (len : Nat) : Dword := g.after.getD (g.pc + BitVec.ofNat 64 (4 * len))

/-- An exception for which Table 11.6 names a faulting address the instruction does not have: TDETAIL is a free value. -/
def trapFree (s : State) (cause : Byte) : Res :=
  .trap { s with freeCount := s.freeCount + 1 } cause (Config.freeDword s.freeCount)

/-- The engine after an instruction of n words that is followed by the one at `a`, unless a loop repeats. -/
def Engine.stepTo (g : Engine) (len : Nat) (a : Dword) : Engine :=
  let (g', next) := g.endLoops len a
  { g' with pc := next, after := none, ds := false, noEnd := false, frozen := none, popDone := false }

/-- The engine after an instruction that issued in sequence. -/
def Engine.stepSeq (g : Engine) (len : Nat) : Engine := g.stepTo len (g.follows len)

/-- Marks the engine for a snapshot when loops have been left (R299). -/
def State.exits (s : State) (u : UnitId) (e : Eng) (before : Nat) : State :=
  let g := s.eng u e
  if !g.hm && g.loops.length < before then s.snapshot u e else s

/-- Takes the exception of the instruction at the engine's pc, of n words (R220, R244); one cycle passes. -/
def State.trapHere (s : State) (u : UnitId) (e : Eng) (len : Nat) (cause : Byte) (detail : Dword) : State :=
  let g := s.eng u e
  (s.takeTrap u e cause detail g.pc (g.follows len) g.ds false).advance u e

/-- Address after the end instruction of an active loop. -/
def State.loopAfter (s : State) (u : UnitId) (e : Eng) (l : LoopEntry) : Nat :=
  s.afterEnd u e l.end_.toNat 1024 l.start.toNat

/-- Brings the result of an instruction of n words about. `undo` is the WAIT mask of pops an earlier freeze has made,
which an exception undoes, since the instruction then has no effect (R220). -/
def Res.settle (u : UnitId) (e : Eng) (len : Nat) (undo : BitVec 3) : Res → State
  | .seq s =>
    let n := (s.eng u e).loops.length
    ((s.modEng u e (·.stepSeq len)).exits u e n).advance u e
  | .goto s t pops =>
    let n := (s.eng u e).loops.length
    let s := s.modEng u e fun g =>
      { g with pc := g.pc + BitVec.ofNat 64 (4 * len), after := some t, ds := true, frozen := none, popDone := false,
               loops := if pops then leaveLoops (s.loopAfter u e) g.pc.toNat t.toNat g.loops else g.loops }
    (s.exits u e n).advance u e
  | .slot s =>
    (s.modEng u e fun g =>
      { g with pc := g.follows len, after := none, ds := true, frozen := none, popDone := false }).advance u e
  | .to s a =>
    let n := (s.eng u e).loops.length
    ((s.modEng u e (·.stepTo len a)).exits u e n).advance u e
  | .done s => s
  | .freeze s w => s.modEng u e fun g => { g with frozen := some w }
  | .hold s => s.advance u e
  | .trap s c d => (s.modCore u (·.unpopMask e undo)).trapHere u e len c d

/-- Branches, ERET and LOOP may not stand in a delay slot; a branch or its delay slot may not end a loop (R233).
`slotLen` is the length of the instruction after it. -/
def delaySlotFault (g : Engine) (i : Instr) (len slotLen : Nat) : Bool :=
  match i with
  | .b _ _ | .bc _ _ _ | .bcNot _ _ _ | .call _ _ _ | .ret _ =>
    g.ds || g.endsLoop g.pc.toNat len || g.endsLoop (g.pc.toNat + 4 * len) slotLen
  | .eret | .loop _ _ _ _ _ => g.ds
  | _ => false

/-- The executing unit and engine, and the engine's registers. -/
def State.me (s : State) : Engine := s.eng s.cur.1 s.cur.2

/-- The queues an instruction pops from: its WAIT mask, or TWAIT's own. -/
def popMaskOf (i : Instr) (h : Option Hdr) : BitVec 3 :=
  match i, h with
  | .twait m, _ => m
  | _, some h => h.wait
  | _, none => 0

/-- Issues an instruction: the deferred fault of R248, then the checks of R220 after fetch, in their order, then its own
effect. `slotLen` is the length of the instruction in a branch's delay slot. -/
def State.issue (s : State) (i : Instr) (slotLen : Nat) (h : Option Hdr) (busy : Bool) (off on : State → Res) :
    State :=
  let u := s.cur.1
  let e := s.cur.2
  let g := s.eng u e
  let c := s.core u
  let len := instrWords i
  let wait : BitVec 3 := match h with | some h => h.wait | none => 0
  let sig : BitVec 3 := match h with | some h => h.sig | none => 0
  let undo : BitVec 3 := if g.popDone then popMaskOf i h else 0
  match g.deferred, g.hm with
  | some d, false =>
    let s := (s.setEng u e { g with deferred := none }).modCore u (·.unpopMask e undo)
    (s.takeTrap u e d.cause (dw (2 ^ 48 * d.code.toNat + d.cwi.toNat)) g.pc (g.follows len) g.ds true).advance u e
  | _, _ =>
    if !i.legalOn (envOf u e) then s.trapHere u e len cIllegal (dw (wordAt (encode i) 0).toNat)
    else if delaySlotFault g i len slotLen then s.trapHere u e len cDelaySlot g.pc
    else if busy then s.advance u e
    else if c.overCeil e sig ≠ 0 then (Res.trap s cCeiling ((c.overCeil e sig).setWidth 64)).settle u e len undo
    else if !g.popDone && c.orphanBits e wait ≠ 0 then
      s.trapHere u e len cOrphan ((c.orphanBits e wait).setWidth 64)
    else if !g.popDone && c.emptyBits e wait ≠ 0 then
      (Res.freeze s (.tokens wait)).settle u e len 0
    else
      let s1 :=
        if g.popDone || wait = 0 then s
        else s.setCore u ((c.popMask e wait).setEng e { g with popDone := true })
      let guardOn := match h with | some h => g.p.getLsbD h.guard.toNat != h.neg | none => true
      ((if guardOn then on s1 else off s1)).settle u e len (if wait = 0 then 0 else wait)

/-- Issues a C32 instruction: it has no guard and no masks (R201). -/
def State.issueC (s : State) (i : Instr) (on : State → Res) : State := s.issue i 0 none false on on

/-- What a guarded-off S or V instruction does: its pushes come at its latency (R204). -/
def offSV (lat : Nat) (h : Hdr) (s : State) : Res :=
  .seq (if h.sig = 0 then s else s.fly s.cur.1 s.cur.2 lat [] 0 h.sig)

end Sys2Proof.Machine
end

