-- ==== Sys2Proof/Machine/Operands.lean ====
section
/-! DEFINITION. Reading and writing operands: C32 register codes (Table 9.2), the specifiers of S, M and C (Table 9.7),
and the vector operands of V (R117 to R122, R206, R410 to R412). -/

namespace Sys2Proof.Machine

/-- Value of a C32 source (Table 9.2). -/
def Engine.csrc (g : Engine) : CSrc → Dword
  | .a n => g.a[n.toNat]
  | .lc n => g.lc[n.toNat]
  | .zero => 0
  | .lit32 w => w.signExtend 64
  | .lit64 w => w

def Engine.creg (g : Engine) : CReg → Dword
  | .a n => g.a[n.toNat]
  | .lc n => g.lc[n.toNat]

/-- The value of AST's data register (Table 9.2: code 28 is zero). -/
def Engine.cdat (g : Engine) : CDst → Dword
  | .a n => g.a[n.toNat]
  | .lc n => g.lc[n.toNat]
  | .zero => 0

/-- Writes to a C32 destination; code 28 discards the result. -/
def cdstWrite (v : Dword) : CDst → List Write
  | .a n => [.a n v]
  | .lc n => [.lc n v]
  | .zero => []

def cregWrite (v : Dword) : CReg → Write
  | .a n => .a n v
  | .lc n => .lc n v

/-- Value of a scalar specifier of S, M or C (R206, R207). -/
def Engine.scalar (g : Engine) : Spec → Dword
  | .x n => g.x[n.toNat]
  | .a n => g.a[n.toNat]
  | .lit32 w => w.signExtend 64
  | .lit64 w => w
  | _ => 0

/-- Writes to a scalar destination of S; 0xFD writes no register. -/
def sdstWrite (v : Dword) : Spec → List Write
  | .x n => [.x n v]
  | .a n => [.a n v]
  | _ => []

/-- Value of a predicate; p0 reads 1 (R200). -/
def Engine.pred (g : Engine) (n : BitVec 5) : Bool := g.p.getLsbD n.toNat

/-! Vector operands. -/

/-- The physical register of a logical name (R122). -/
def physReg (rrb : BitVec 5) (n : BitVec 6) : BitVec 6 :=
  if n.toNat < 32 then n else BitVec.ofNat 6 (32 + (n.toNat - 32 + rrb.toNat) % 32)

/-- The bank of a physical register (R117). -/
def bankOf (n : BitVec 6) : Nat := n.toNat / 16

/-- The elements f 0, f 1, … as a list. -/
def genList (f : Nat → Word) : Nat → Nat → List Word
  | _, 0 => []
  | i, n + 1 => f i :: genList f (i + 1) n

theorem genList_length (f : Nat → Word) (i n : Nat) : (genList f i n).length = n := by
  induction n generalizing i with
  | zero => rfl
  | succ n ih => simp [genList, ih]

/-- The register whose element i is f i. -/
def VReg.gen (f : Nat → Word) : VReg := ⟨(genList f 0 1024).toArray, by simp [genList_length]⟩
def VRow.gen (f : Nat → Word) : VRow := ⟨(genList f 0 64).toArray, by simp [genList_length]⟩

/-- Element i; 0 beyond the register. -/
def VReg.at_ (r : VReg) (i : Nat) : Word := r.getD i 0
def VRow.at_ (r : VRow) (i : Nat) : Word := r.getD i 0

/-- Every element the same. -/
def VReg.splat (w : Word) : VReg := Vector.replicate 1024 w

/-- An o register as a source: its row in all 16 rows, or with column broadcast element i of it along row i (R118). -/
def VRow.spread (r : VRow) (obc : Bool) : VReg :=
  VReg.gen fun i => if obc then r.at_ (i / 64) else r.at_ (i % 64)

/-- The elements of a vector source (R206, R207): v mapped by RRB, o, l, a stream's next item, a broadcast, or a
literal. A row-mode stream supplies its row as an o register would (R410). -/
def Core.vread (c : Core) (obc : Bool) : Spec → VReg
  | .v n => c.vmain[(physReg c.eV.rrb n).toNat]
  | .o n => (c.vop[n.toNat]).spread obc
  | .l n => c.vlast[n.toNat]
  | .q n =>
    match c.streams[n.toNat] with
    | none => VReg.zero
    | some t =>
      match t.buf with
      | { item := .rows r _ _, .. } :: _ => if t.desc.rowMode then (VRow.gen fun i => r.at_ i).spread obc else r
      | _ => VReg.zero
  | .a n => VReg.splat ((c.eV.a[n.toNat]).setWidth 32)
  | .lit32 w => VReg.splat w
  | _ => VReg.zero

/-- The flags that the widening of a popped item sets (R429). -/
def Core.popFlags (c : Core) : Spec → FlagSet
  | .q n =>
    match c.streams[n.toNat] with
    | none => 0
    | some t => match t.buf with | { item := .rows _ _ f, .. } :: _ => f | _ => 0
  | _ => 0

/-- The scalar value of a specifier on V that is used as an amount, an index or an address: 64 bits of a, or the
literal. -/
def Engine.vscalar (g : Engine) : Spec → Dword
  | .a n => g.a[n.toNat]
  | .lit32 w => w.signExtend 64
  | .lit64 w => w
  | _ => 0

/-- A physical main register that a specifier of V names, if it names one. -/
def vnamed (rrb : BitVec 5) : Spec → List (BitVec 6)
  | .v n => [physReg rrb n]
  | _ => []

/-- A register of a lent bank is named (R125). -/
def Core.lentNamed (c : Core) (fs : List Spec) : Bool :=
  fs.any fun f => (vnamed c.eV.rrb f).any fun n => c.lent.getLsbD (bankOf n)

/-- The row an o destination takes (R118). -/
def VReg.row0 (r : VReg) : VRow := VRow.gen fun i => r.at_ i

/-- Writes to a vector destination that is no stream, with the slot's last-result entry (R118, R119). -/
def Core.vdst (c : Core) (slot : BitVec 2) (r : VReg) : Spec → List Write
  | .v n => [.v (physReg c.eV.rrb n) r, .l slot r]
  | .o n => [.o n r.row0, .l slot r]
  | _ => [.l slot r]

end Sys2Proof.Machine
end

