-- ==== Sys2Proof/Machine/Control.lean ====
section
/-! DEFINITION. The shared control subset C32 (Table 9.3) but for ALD and AST: address arithmetic, branches, loops,
predicates, special registers, tokens, fences, the end of a stream, and the instructions that raise or leave an
exception. The executing unit and engine are those of State.cur. -/

namespace Sys2Proof.Machine

/-- A C32 instruction whose result v lands in d at issue + 1. -/
def State.land1 (s : State) (ws : List Write) : State := s.fly s.cur.1 s.cur.2 1 ws 0 0

/-- NOP: no state but SCYCLE (R384). -/
def execNop (s : State) : Out := .next (s.issueC .nop fun s => .seq s)

/-- AMOV: d := value(s) + imm (R331). -/
def execAmov (d : CDst) (a : CSrc) (imm : BitVec 15) (s : State) : Out :=
  .next (s.issueC (.amov d a imm) fun s => .seq (s.land1 (cdstWrite (s.me.csrc a + imm.signExtend 64) d)))

/-- The second operand of form T (R324). -/
def Engine.form2 (g : Engine) (t : CSrc) (imm : BitVec 10) : Dword := g.csrc t + imm.signExtend 64

/-- AADD (R324). -/
def execAadd (d : CDst) (a t : CSrc) (imm : BitVec 10) (s : State) : Out :=
  .next (s.issueC (.aadd d a t imm) fun s => .seq (s.land1 (cdstWrite (s.me.csrc a + s.me.form2 t imm) d)))

/-- ASUB (R324). -/
def execAsub (d : CDst) (a t : CSrc) (imm : BitVec 10) (s : State) : Out :=
  .next (s.issueC (.asub d a t imm) fun s => .seq (s.land1 (cdstWrite (s.me.csrc a - s.me.form2 t imm) d)))

/-- AAND (R324). -/
def execAand (d : CDst) (a t : CSrc) (imm : BitVec 10) (s : State) : Out :=
  .next (s.issueC (.aand d a t imm) fun s => .seq (s.land1 (cdstWrite (s.me.csrc a &&& s.me.form2 t imm) d)))

/-- The shift of ASHL by a signed count (R324). -/
def ashlVal (v n : Dword) : Dword :=
  let k := n.toInt
  if 0 ≤ k then (if k ≤ 63 then v <<< k.toNat else 0)
  else if -63 ≤ k then v.sshiftRight (-k).toNat
  else if v.msb then BitVec.allOnes 64 else 0

/-- ASHL (R324). -/
def execAshl (d : CDst) (a t : CSrc) (imm : BitVec 10) (s : State) : Out :=
  .next (s.issueC (.ashl d a t imm) fun s => .seq (s.land1 (cdstWrite (ashlVal (s.me.csrc a) (s.me.form2 t imm)) d)))

/-- ACMP: p := value(s) COND value(t), 64 bits (R325). -/
def execAcmp (p : BitVec 5) (a t : CSrc) (c : Cond) (uns : Bool) (s : State) : Out :=
  .next (s.issueC (.acmp p a t c uns) fun s =>
    let g := s.me
    .seq (s.land1 [.p p (condInt c (readInt 64 uns (g.csrc a).toNat) (readInt 64 uns (g.csrc t).toNat))]))

/-- Length of the instruction that follows a branch of n words; 1 when it cannot be fetched. -/
def State.slotLen (s : State) (len : Nat) : Nat :=
  (s.lenAt s.cur.1 s.cur.2 (s.me.pc.toNat + 4 * len)).getD 1

/-- The target of a branch (R336): the base is the branch's own address for code 28. -/
def Engine.target (g : Engine) (a : CSrc) (off : BitVec 15) : Dword :=
  (match a with | .zero => g.pc | a => g.csrc a) + (off.signExtend 64 <<< 2)

/-- A taken branch: a target that is no multiple of 4 raises ALIGNMENT (R337, R198). -/
def takeBranch (s : State) (t : Dword) (pops : Bool) : Res :=
  if t.extractLsb' 0 2 ≠ 0 then .trap s cAlignment t else .goto s t pops

/-- B (R336, R337). -/
def execB (a : CSrc) (off : BitVec 15) (s : State) : Out :=
  let i := Instr.b a off
  .next (s.issue i (s.slotLen (instrWords i)) none false
    (fun s => takeBranch s (s.me.target a off) true) (fun s => takeBranch s (s.me.target a off) true))

/-- BC: taken when the predicate is 1 (R336, R337). -/
def execBc (p : BitVec 5) (a : CSrc) (off : BitVec 15) (s : State) : Out :=
  let i := Instr.bc p a off
  let go (s : State) : Res := if s.me.pred p then takeBranch s (s.me.target a off) true else .slot s
  .next (s.issue i (s.slotLen (instrWords i)) none false go go)

/-- BC with `!`: taken when the predicate is 0. -/
def execBcNot (p : BitVec 5) (a : CSrc) (off : BitVec 15) (s : State) : Out :=
  let i := Instr.bcNot p a off
  let go (s : State) : Res := if s.me.pred p then .slot s else takeBranch s (s.me.target a off) true
  .next (s.issue i (s.slotLen (instrWords i)) none false go go)

/-- The link of a CALL (R337): the first word after its delay slot, whose length is R221's. When the slot cannot be
fetched the specification states no link: a free value (log 22). -/
def State.callLink (s : State) (len : Nat) : Dword × State :=
  match s.lenAt s.cur.1 s.cur.2 (s.me.pc.toNat + 4 * len) with
  | some n => (s.me.pc + BitVec.ofNat 64 (4 * len + 4 * n), s)
  | none => (Config.freeDword s.freeCount, { s with freeCount := s.freeCount + 1 })

/-- CALL (R336, R337). -/
def execCall (d : BitVec 4) (a : CSrc) (off : BitVec 15) (s : State) : Out :=
  let i := Instr.call d a off
  let go (s : State) : Res :=
    let t := s.me.target a off
    if t.extractLsb' 0 2 ≠ 0 then .trap s cAlignment t
    else
      let (v, s) := s.callLink (instrWords i)
      .goto (s.land1 [.a d v]) t false
  .next (s.issue i (s.slotLen (instrWords i)) none false go go)

/-- RET (R396). -/
def execRet (r : CReg) (s : State) : Out :=
  let i := Instr.ret r
  let go (s : State) : Res := takeBranch s (s.me.creg r) false
  .next (s.issue i (s.slotLen (instrWords i)) none false go go)

/-- Why LOOP raises LOOP_NEST (R234, Table 11.6): 1 depth, 2 counter in use, 3 end beyond the enclosing end, whose instruction has its
last word before `after` (R364). -/
def nestFault (ls : List LoopEntry) (lc : BitVec 2) (end_ after : Nat) : Nat :=
  if 4 ≤ ls.length then 1
  else if ls.any fun l => l.lc = lc then 2
  else if !ls.isEmpty && after ≤ end_ then 3
  else 0

/-- Address after the end instruction of the innermost active loop. -/
def State.innerAfter (s : State) (u : UnitId) (e : Eng) : Nat :=
  match (s.eng u e).loops with
  | [] => 0
  | l :: _ => s.loopAfter u e l

/-- LOOP (R234, R238, R363). -/
def execLoop (lc : BitVec 2) (a : CSrc) (rot : Bool) (stg : BitVec 4) (end_ : BitVec 10) (s : State) : Out :=
  let i := Instr.loop lc a rot stg end_
  .next (s.issueC i fun s =>
    let u := s.cur.1
    let e := s.cur.2
    let g := s.me
    let start := g.pc.toNat + 4 * instrWords i
    let stop := start + 4 * end_.toNat
    let count := g.csrc a
    let bad := nestFault g.loops lc stop (s.innerAfter u e)
    if bad ≠ 0 then .trap s cLoopNest (dw (2 ^ 62 * bad) ||| g.pc)
    else if count = 0 then .to s (dw (s.afterEnd u e stop 1024 start))
    else
      let l : LoopEntry := { start := dw start, end_ := dw stop, lc := lc, rot := rot, stg := stg }
      .seq (s.setEng u e
        { g with
          loops := l :: g.loops,
          lc := g.lc.set lc.toNat (dw (min (count.toNat + stg.toNat) (2 ^ 64 - 1))),
          p := if rot then (g.p &&& 0xFFFF) ||| 0x10000 else g.p }))

/-- PSET (R393). -/
def execPset (p : BitVec 5) (v : Bool) (s : State) : Out :=
  .next (s.issueC (.pset p v) fun s => .seq (s.land1 [.p p v]))

/-- PLOG: p := FN[2·ps + pt] (R393). -/
def execPlog (p a b : BitVec 5) (fn : BitVec 4) (s : State) : Out :=
  .next (s.issueC (.plog p a b fn) fun s =>
    let g := s.me
    .seq (s.land1 [.p p (fn.getLsbD ((if g.pred a then 2 else 0) + (if g.pred b then 1 else 0)))]))

/-- MFS (R373). -/
def execMfs (d : CReg) (n : BitVec 10) (s : State) : Out :=
  .next (s.issueC (.mfs d n) fun s => .seq (s.land1 [cregWrite (s.readSr s.cur.1 s.cur.2 n) d]))

/-- Handler-only writes (R243). -/
def privilegedWrite (n : BitVec 10) (v : Dword) : Bool := n = 0x001 || n = 0x002 || (n = 0x005 && v.getLsbD 2)

/-- The message queue an MQCFG number names. -/
def mqcfgOf (n : BitVec 10) : Option (BitVec 2) :=
  if 0x50 ≤ n.toNat ∧ n.toNat ≤ 0x53 then some (BitVec.ofNat 2 n.toNat) else none

/-- MTS: the write takes effect from the ec after its issue (R373, R243, R137). -/
def execMts (a : CSrc) (n : BitVec 10) (s : State) : Out :=
  .next (s.issueC (.mts a n) fun s =>
    let g := s.me
    let v := g.csrc a
    let outside := match mqcfgOf n with | some k => s.mqcfgOutside s.cur.1 k v | none => false
    if !g.hm && privilegedWrite n v then .trap s cPrivileged g.pc
    else if outside then
      .trap s cScratch (dw (scratchBase + 2 ^ 24 * s.cur.1.val + (v.extractLsb' 0 24).toNat / 64 * 64))
    else .seq (s.land1 [.sr n v]))

/-- Appends a command to a C queue. -/
def Core.enqueueC (c : Core) (q : Nat) (cmd : CCmd) : Core :=
  if h : q < 4 then { c with cq := c.cq.set q (c.cq[q] ++ [cmd]) } else c

/-- A marker command. -/
def marker (op : COp) (sig : BitVec 3) : CCmd :=
  { op := op, adr := 0, aux := 0, cwi := 0, sig := sig, stamp := .zero, permit := none }

/-- TSIG (R407): the pushes of S and V come at issue + 1; on M and C a marker enters the queues, and only its copy in
C0 carries the mask. -/
def execTsig (m : BitVec 3) (s : State) : Out :=
  .next (s.issueC (.tsig m) fun s =>
    let u := s.cur.1
    let e := s.cur.2
    let c := s.core u
    if c.overCeil e m ≠ 0 then .trap s cCeiling ((c.overCeil e m).setWidth 64)
    else
      match e with
      | .M => if s.mqRoom u then .seq (s.setCore u { c with mq := c.mq ++ [{ op := .token, sig := m, stamp := .zero }] })
              else .freeze s (.queueFull 0)
      | .C =>
        if s.cqRoom u 0 && s.cqRoom u 1 && s.cqRoom u 2 && s.cqRoom u 3 then
          let id := c.markers
          let c := { c with markers := id + 1 }
          .seq (s.setCore u ((((c.enqueueC 0 (marker (.token id) m)).enqueueC 1 (marker (.token id) 0)).enqueueC 2
            (marker (.token id) 0)).enqueueC 3 (marker (.token id) 0)))
        else .freeze s (.queueFull 0)
      | _ => .seq (s.fly u e 1 [] 0 m))

/-- TWAIT (R408, R46, R53). -/
def execTwait (m : BitVec 3) (s : State) : Out :=
  .next (s.issueC (.twait m) fun s =>
    let u := s.cur.1
    let e := s.cur.2
    let c := s.core u
    if s.me.popDone then .seq s
    else if c.orphanBits e m ≠ 0 then .trap s cOrphan ((c.orphanBits e m).setWidth 64)
    else if c.emptyBits e m ≠ 0 then .freeze s (.tokens m)
    else .seq (s.setCore u (c.popMask e m)))

/-- The detail of a reported loss (Table 11.6). -/
def LossReport.detail : LossReport → Dword
  | .write a => a
  | .append k c => dw (k.toNat + 2 ^ 8 * c.val)

/-- Raises FACET_LOSS for the engine's declared losses, if it has any (R187, R352); they are then reported. -/
def reportLoss (s : State) (k : State → Res) : Res :=
  match s.me.lost with
  | some r => .trap (s.modEng s.cur.1 s.cur.2 fun g => { g with lost := none }) cLoss r.detail
  | none => k s

/-- FENCE (R157, R351, R352). The accesses of S and V are performed when they issue, so only message appends are waited for
there; on M and C markers order the queues. -/
def execFence (scope : BitVec 3) (q : BitVec 4) (s : State) : Out :=
  .next (s.issueC (.fence scope q) fun s =>
    let u := s.cur.1
    let go (s : State) : Res :=
      let c := s.core u
      match s.cur.2 with
      | .M => if s.mqRoom u then .seq (s.setCore u { c with mq := c.mq ++ [{ op := .fence scope, sig := 0, stamp := .zero }] })
              else .freeze s (.queueFull 0)
      | .C =>
        let cov (k : Nat) : Bool := q = 0 || q.getLsbD k
        if (!cov 0 || s.cqRoom u 0) && (!cov 1 || s.cqRoom u 1) && (!cov 2 || s.cqRoom u 2) && (!cov 3 || s.cqRoom u 3) then
          let id := c.markers
          let put (c : Core) (k : Nat) : Core := if cov k then c.enqueueC k (marker (.fence id scope) 0) else c
          .seq (s.setCore u (put (put (put (put { c with markers := id + 1 } 0) 1) 2) 3))
        else .freeze s (.queueFull 0)
      | _ => .seq s
    if s.cur.2 = .S && s.appendsOut u then .freeze s (.fence scope)
    else if 2 ≤ scope.toNat then reportLoss s go else go s)

/-- Flags that TFENCE waits for are still to come (R116, R400): results in flight on S and V, a chain on M or a load outside
one, whose FMT is set when it is performed (log 72), and a command on C. -/
def Core.flagsPending (c : Core) (e : Eng) : Bool :=
  match e with
  | .S => !c.eS.flights.isEmpty
  | .V => !c.eV.flights.isEmpty
  | .M => c.chain.state ≠ .none || c.mq.any fun m => match m.op with | .mloadb _ quiet => !quiet | _ => false
  | .C => c.cq.toList.any fun l => !l.isEmpty

/-- The flags that a TFENCE tests and finds (R116). -/
def Engine.raised (g : Engine) : FlagSet := g.sticky &&& g.trapen

/-- ARITH of a completed TFENCE (R116): EPC names the instruction that would issue next, ENPC.SEQ is 1 and CAUSE.DS is 0. -/
def State.arith (s : State) (u : UnitId) (e : Eng) : State :=
  let g := s.eng u e
  (s.takeTrap u e cArith (g.raised.setWidth 64) g.pc 1 false false).advance u e

/-- TFENCE (R116, R400). With flags still to come it has issued and holds the engine's issue; the test follows in the cycle in
which the last of them lands (`State.fenceTurn`), and the next instruction may issue in that cycle (log 21). -/
def execTfence (s : State) : Out :=
  .next (s.issueC .tfence fun s =>
    let u := s.cur.1
    let e := s.cur.2
    let g := s.me
    if (s.core u).flagsPending e then .seq (s.setEng u e { g with fencing := true })
    else if g.raised = 0 then .seq s
    else
      let n := g.loops.length
      .done (((s.setEng u e (g.stepSeq 1)).exits u e n).arith u e))

/-- The other started streams have all ended (R43). -/
def Core.othersEnded (c : Core) : Bool :=
  (!c.eV.started || c.eV.ended) && (!c.eM.started || c.eM.ended) && (!c.eC.started || c.eC.ended)

/-- The conditions of R348 that end a drain, but for S's own accesses, which are performed when they issue. Rows of a drain
stream whose fault no V instruction can report any more are not waited for (R412, R145). -/
def Core.drained (c : Core) : Bool :=
  c.eV.flights.isEmpty && c.mq.isEmpty && c.chain.state = .none &&
    (c.cq.toList.all fun l => l.isEmpty) &&
    (c.streams.toList.all fun t => match t with | some t => !t.desc.drain || t.buf.isEmpty || (t.fault.isSome && c.eV.ended) | none => true)

/-- The engine, S first, whose declared loss a drain of S reports (R187, R349). -/
def Core.lossAt (c : Core) : Option (Eng × LossReport) :=
  ([Eng.S, .V, .M, .C]).findSome? fun e => (c.eng e).lost.map fun r => (e, r)

/-- Raises FACET_LOSS at a drain of S for the losses of the job's streams. -/
def drainLoss (s : State) (k : State → Res) : Res :=
  match (s.core s.cur.1).lossAt with
  | some (e, r) => .trap (s.modEng s.cur.1 e fun g => { g with lost := none }) cLoss r.detail
  | none => k s

/-- An engine whose stream has ended (R42, R394): its results in flight still land. -/
def Engine.ends (g : Engine) : Engine :=
  { g with ended := true, loops := [], after := none, ds := false, frozen := none, popDone := false }

/-- REND (R42, R43, R394). On S it waits for the other streams, then drains; the job completes in a step of its own
(JOB_COMPLETE). Results of S that are in flight when it begins to wait land first, so that every push they promise takes place
(R42, R52; log 69). Its drain reports the losses of the job's streams (R187); M and C report at their own REND those of their AST
(R328). -/
def execRend (s : State) : Out :=
  .next (s.issueC .rend fun s =>
    let u := s.cur.1
    let e := s.cur.2
    let c := s.core u
    if s.me.hm then .done (s.abortJob u cPrivileged)
    else
      match e with
      | .S =>
        if !c.othersEnded then (if s.me.flights.isEmpty then .freeze s .rendStreams else .hold s)
        else if !c.drained || s.appendsOut u then .freeze s .rendDrain
        else drainLoss s fun s => .done ((s.modEng u .S Engine.ends).advance u .S)
      | .M =>
        if c.chain.state = .open || c.chain.state = .failed then trapFree s cProtection
        else reportLoss s fun s => .done (((s.modEng u .M Engine.ends).leaseRend u).advance u .M)
      | e => reportLoss s fun s => .done ((s.modEng u e Engine.ends).advance u e))

/-- TRAP: SOFT_TRAP with its code (R401). -/
def execTrap (code : Byte) (s : State) : Out :=
  .next (s.issueC (.trap code) fun s => .trap s cSoft (code.setWidth 64))

/-- BKPT (R338, R303): a stop of the core with a debugger attached, else BREAKPOINT. -/
def execBkpt (code : Byte) (s : State) : Out :=
  .next (s.issueC (.bkpt code) fun s =>
    let u := s.cur.1
    let e := s.cur.2
    if (s.core u).debugger.any fun d => (s.core u).job.any fun j => d.reaches j.world then
      let n := s.me.loops.length
      let s := if (s.core u).trcctl.getLsbD 2 then
          s.trace u (stopRecord s 0x03 u (BitVec.ofNat 8 (engNo e)) code s.me.scycle) else s
      let s := (s.modEng u e (·.stepSeq 1)).exits u e n
      .done (s.modCore u fun c => { c with dbg := some { at_ := some (e, s.me.scycle), stopped := true } })
    else .trap s cBreak (code.setWidth 64))

/-- ERET (R245, R350): PRIVILEGED outside the handler. -/
def execEret (s : State) : Out :=
  .next (s.issueC .eret fun s =>
    let u := s.cur.1
    let e := s.cur.2
    if !s.me.hm then .trap s cPrivileged s.me.pc else .done ((s.modEng u e Engine.eret).advance u e))

end Sys2Proof.Machine
end

