-- ==== Sys2Proof/Machine/Scalar.lean ====
section
/-! DEFINITION. Integer arithmetic of the S engine (R358, R359, Table 17.2). -/

namespace Sys2Proof.Machine

/-- Operand width of W. -/
def wOf (w32 : Bool) : Nat := if w32 then 32 else 64

/-- A result pattern as the register value (R359): a 32-bit one is sign-extended when U = 0, zero-extended when
U = 1. -/
def ModIA.widen (m : ModIA) (n : Nat) : Dword := widenRes m.w32 m.u n

/-- An S instruction that reads registers at issue and lands v with its flags and pushes (R227). -/
def flyS (h : Hdr) (lat : Nat) (d : Spec) (v : Dword) (f : FlagSet) (s : State) : Res :=
  .seq (s.fly s.cur.1 s.cur.2 lat (sdstWrite v d) f h.sig)

/-- The shared form of Table 17.2: `f` takes the operands as signed or unsigned integers and answers the pattern and
its flags. -/
def scalarOp (i : Instr) (h : Hdr) (m : ModIA) (o : R4) (lat : Nat) (f : Int → Int → Nat × FlagSet) (s : State) : Out :=
  .next (s.issue i 0 (some h) false (offSV lat h) fun s =>
    let g := s.me
    let w := wOf m.w32
    let r := f (readInt w m.u (g.scalar o.a).toNat) (readInt w m.u (g.scalar o.b).toNat)
    flyS h lat o.dst (ModIA.widen m r.1) r.2 s)

/-- IADD (R359). -/
def execIadd (h : Hdr) (m : ModIA) (o : R4) (s : State) : Out :=
  scalarOp (.iadd h m o) h m o 1 (fun a b => satInt (wOf m.w32) m.u m.sat (a + b)) s

/-- ISUB (R359). -/
def execIsub (h : Hdr) (m : ModIA) (o : R4) (s : State) : Out :=
  scalarOp (.isub h m o) h m o 1 (fun a b => satInt (wOf m.w32) m.u m.sat (a - b)) s

/-- IMUL (R359). -/
def execImul (h : Hdr) (m : ModIA) (o : R4) (s : State) : Out :=
  scalarOp (.imul h m o) h m o 3 (fun a b => satInt (wOf m.w32) m.u m.sat (a * b)) s

/-- Quotient rounded toward zero (R359); 2^w − 1 for a zero divisor. -/
def divInt (w : Nat) (a b : Int) : Nat := if b = 0 then 2 ^ w - 1 else wrapNat w (a.tdiv b)

/-- Remainder of the quotient rounded toward zero; a for a zero divisor. -/
def remInt (w : Nat) (a b : Int) : Nat := if b = 0 then wrapNat w a else wrapNat w (a - b * a.tdiv b)

/-- The divider is busy for 20 schedule cycles from an issue, guarded off or not (R230). -/
def State.claimDivider (s : State) : State :=
  s.modEng s.cur.1 s.cur.2 fun g => { g with divFree := g.scycle + 20 }

/-- IDIV and IREM: an S divider that is busy holds the instruction (R228, R230). -/
def divideOp (i : Instr) (h : Hdr) (m : ModIA) (o : R4) (f : Int → Int → Nat) (s : State) : Out :=
  .next (s.issue i 0 (some h) (decide (s.me.scycle < s.me.divFree)) (fun s => offSV 20 h s.claimDivider) fun s =>
    let g := s.me
    let w := wOf m.w32
    flyS h 20 o.dst (ModIA.widen m (f (readInt w m.u (g.scalar o.a).toNat) (readInt w m.u (g.scalar o.b).toNat))) 0
      s.claimDivider)

/-- IDIV (R359). -/
def execIdiv (h : Hdr) (m : ModIA) (o : R4) (s : State) : Out :=
  divideOp (.idiv h m o) h m o (divInt (wOf m.w32)) s

/-- IREM (R359). -/
def execIrem (h : Hdr) (m : ModIA) (o : R4) (s : State) : Out :=
  divideOp (.irem h m o) h m o (remInt (wOf m.w32)) s

/-- A bitwise operation on the w-bit patterns. -/
def bitOp (f : Nat → Nat → Nat) (w : Nat) (a b : Int) : Nat × FlagSet := (f (wrapNat w a) (wrapNat w b), 0)

/-- IAND (R359). -/
def execIand (h : Hdr) (m : ModIA) (o : R4) (s : State) : Out :=
  scalarOp (.iand h m o) h m o 1 (bitOp (· &&& ·) (wOf m.w32)) s

/-- IOR (R359). -/
def execIor (h : Hdr) (m : ModIA) (o : R4) (s : State) : Out :=
  scalarOp (.ior h m o) h m o 1 (bitOp (· ||| ·) (wOf m.w32)) s

/-- IXOR (R359). -/
def execIxor (h : Hdr) (m : ModIA) (o : R4) (s : State) : Out :=
  scalarOp (.ixor h m o) h m o 1 (bitOp (· ^^^ ·) (wOf m.w32)) s

/-- A left shift by an unsigned 64-bit count (R359); with SAT the exact product is clamped. The shift of a count of 64
or more is that of 64: every set bit has left the pattern, and the exact value is outside the range unless it is 0. -/
def shlInt (w : Nat) (u sat : Bool) (n : Nat) (a : Int) : Nat × FlagSet :=
  let v := a * 2 ^ min n 64
  if sat then satInt w u true v else (if w ≤ n then 0 else wrapNat w v, 0)

/-- A right shift by an unsigned 64-bit count, rounding down (R359). -/
def shrInt (n : Nat) (a : Int) : Int := a / 2 ^ min n 64

/-- ISHL (R359). The count is the whole register. -/
def execIshl (h : Hdr) (m : ModIA) (o : R4) (s : State) : Out :=
  .next (s.issue (.ishl h m o) 0 (some h) false (offSV 1 h) fun s =>
    let g := s.me
    let w := wOf m.w32
    let r := shlInt w m.u m.sat (g.scalar o.b).toNat (readInt w m.u (g.scalar o.a).toNat)
    flyS h 1 o.dst (ModIA.widen m r.1) r.2 s)

/-- ISHR (R359). -/
def execIshr (h : Hdr) (m : ModIA) (o : R4) (s : State) : Out :=
  .next (s.issue (.ishr h m o) 0 (some h) false (offSV 1 h) fun s =>
    let g := s.me
    let w := wOf m.w32
    flyS h 1 o.dst
      (ModIA.widen m (wrapNat w (shrInt (g.scalar o.b).toNat (readInt w m.u (g.scalar o.a).toNat)))) 0 s)

/-- IMIN (R359). -/
def execImin (h : Hdr) (m : ModIA) (o : R4) (s : State) : Out :=
  scalarOp (.imin h m o) h m o 1 (fun a b => (wrapNat (wOf m.w32) (min a b), 0)) s

/-- IMAX (R359). -/
def execImax (h : Hdr) (m : ModIA) (o : R4) (s : State) : Out :=
  scalarOp (.imax h m o) h m o 1 (fun a b => (wrapNat (wOf m.w32) (max a b), 0)) s

/-- ICLZ (R359): zero-extended, and U = 0 by R358. -/
def execIclz (h : Hdr) (m : ModIA) (o : R4) (s : State) : Out :=
  .next (s.issue (.iclz h m o) 0 (some h) false (offSV 1 h) fun s =>
    let w := wOf m.w32
    flyS h 1 o.dst (dw (clz w ((s.me.scalar o.a).toNat % 2 ^ w))) 0 s)

/-- IPOPC (R359). -/
def execIpopc (h : Hdr) (m : ModIA) (o : R4) (s : State) : Out :=
  .next (s.issue (.ipopc h m o) 0 (some h) false (offSV 1 h) fun s =>
    let w := wOf m.w32
    flyS h 1 o.dst (dw (popcount w ((s.me.scalar o.a).toNat % 2 ^ w))) 0 s)

/-- ISEL (R359): the predicate is read at issue; 32-bit results are sign-extended. -/
def execIsel (h : Hdr) (m : ModIS) (o : R4) (s : State) : Out :=
  .next (s.issue (.isel h m o) 0 (some h) false (offSV 1 h) fun s =>
    let g := s.me
    let v := if g.pred m.psel then g.scalar o.a else g.scalar o.b
    flyS h 1 o.dst (widenRes m.w32 false (v.toNat % 2 ^ wOf m.w32)) 0 s)

/-- ICMP (R359). -/
def execIcmp (h : Hdr) (m : ModIC) (p : BitVec 5) (a b c : Spec) (s : State) : Out :=
  .next (s.issue (.icmp h m p a b c) 0 (some h) false (offSV 1 h) fun s =>
    let g := s.me
    let w := wOf m.w32
    let r := condInt m.cond (readInt w m.u (g.scalar a).toNat) (readInt w m.u (g.scalar b).toNat)
    .seq (s.fly s.cur.1 s.cur.2 1 [.p p r] 0 h.sig))

end Sys2Proof.Machine
end

