-- ==== Sys2Proof/Machine/Float.lean ====
section
/-! DEFINITION. Exact values and rounding (R81, R100 to R102, R104). A finite value is a sign, a magnitude and a power of
two, so that every operation is exact until it rounds. -/

namespace Sys2Proof.Machine

/-- A value: NaN, an infinity, or (−1)^neg · m · 2^e; m = 0 is a signed zero. -/
inductive FV where
  | nan
  | inf (neg : Bool)
  | fin (neg : Bool) (m : Nat) (e : Int)
  deriving DecidableEq, Repr

/-- A floating-point format (Table 4.2); `inf` is false for E4M3, whose exponent of all ones is ordinary but for one
NaN. -/
structure FFmt where
  eb : Nat
  fb : Nat
  bias : Int
  inf : Bool
  deriving DecidableEq, Repr

def fmtF32 : FFmt := { eb := 8, fb := 23, bias := 127, inf := true }
def fmtBF16 : FFmt := { eb := 8, fb := 7, bias := 127, inf := true }
def fmtF16 : FFmt := { eb := 5, fb := 10, bias := 15, inf := true }
def fmtE5M2 : FFmt := { eb := 5, fb := 2, bias := 15, inf := true }
def fmtE4M3 : FFmt := { eb := 4, fb := 3, bias := 7, inf := false }

/-- Exponent of the least subnormal. -/
def FFmt.emin (f : FFmt) : Int := 1 - f.bias - f.fb

/-- Sign bit of a code. -/
def FFmt.signBit (f : FFmt) : Nat := 2 ^ (f.eb + f.fb)

/-- Code of an infinity or, in E4M3, of the NaN's magnitude. -/
def FFmt.infCode (f : FFmt) : Nat := (2 ^ f.eb - 1) * 2 ^ f.fb

/-- Canonical NaN (Table 4.1). -/
def FFmt.nanCode (f : FFmt) : Nat :=
  if f.inf then f.infCode + 2 ^ (f.fb - 1) else 2 ^ (f.eb + f.fb) - 1

/-- Code of the largest finite magnitude. -/
def FFmt.maxCode (f : FFmt) : Nat := if f.inf then f.infCode - 1 else 2 ^ (f.eb + f.fb) - 2

/-- The value of a code (R81). -/
def FFmt.decode (f : FFmt) (code : Nat) : FV :=
  let neg := f.signBit ≤ code % (2 * f.signBit)
  let mag := code % f.signBit
  let ex := mag / 2 ^ f.fb
  let fr := mag % 2 ^ f.fb
  if f.inf && ex = 2 ^ f.eb - 1 then (if fr = 0 then .inf neg else .nan)
  else if !f.inf && mag = f.signBit - 1 then .nan
  else if ex = 0 then .fin neg fr f.emin
  else .fin neg (2 ^ f.fb + fr) (f.emin + (ex - 1 : Int))

/-! Rounding. -/

/-- A magnitude m · 2^e rounded to a multiple of 2^q: the multiple, and whether it is inexact. -/
def roundMag (mode : Rnd) (neg : Bool) (m : Nat) (e q : Int) : Nat × Bool :=
  if q ≤ e then (m * 2 ^ (e - q).toNat, false)
  else
    let k := (q - e).toNat
    if Nat.log2 m + 1 < k then
      -- below half of the quantum
      (if m = 0 then 0 else match mode with | .rn | .rz => 0 | .ru => if neg then 0 else 1 | .rd => if neg then 1 else 0,
       m ≠ 0)
    else
      let n := m / 2 ^ k
      let r := m % 2 ^ k
      let up : Bool :=
        match mode with
        | .rn => 2 ^ k < 2 * r || (2 * r = 2 ^ k && n % 2 = 1)
        | .rz => false
        | .ru => r ≠ 0 && !neg
        | .rd => r ≠ 0 && neg
      (if up then n + 1 else n, r ≠ 0)

/-- What a rounding to a format gives: the code, whether it is inexact, tiny, and above the largest finite value. -/
structure Rounded where
  code : Nat
  inexact : Bool
  tiny : Bool
  tooBig : Bool

/-- Leading exponent of a magnitude. -/
def leadExp (m : Nat) (e : Int) : Int := (Nat.log2 m : Int) + e

/-- Leading exponent of the largest finite value, and its significand of fb + 1 bits. -/
def FFmt.maxLead (f : FFmt) : Int := (2 ^ f.eb : Nat) - (if f.inf then 2 else 1) - f.bias
def FFmt.maxSig (f : FFmt) : Nat := 2 ^ (f.fb + 1) - (if f.inf then 1 else 2)

/-- Rounds the magnitude m · 2^e, m ≠ 0, to a format (R101, R104); `code` holds no sign, and is meaningless when
`tooBig`. -/
def FFmt.roundMag (f : FFmt) (mode : Rnd) (neg : Bool) (m : Nat) (e : Int) : Rounded :=
  let q' := leadExp m e - f.fb
  let (n', _) := Machine.roundMag mode neg m e q'
  let lead := leadExp n' q'
  -- a significand that the rounding carried into the next binade is 1.0 there
  let sig := if n' = 2 ^ (f.fb + 1) then 2 ^ f.fb else n'
  let tooBig := f.maxLead < lead || (lead = f.maxLead && f.maxSig < sig)
  let tiny := lead < 1 - f.bias
  let q := max q' f.emin
  let (n, ix) := Machine.roundMag mode neg m e q
  { code := if tooBig then 0 else n + (q - f.emin).toNat * 2 ^ f.fb, inexact := ix, tiny := tiny, tooBig := tooBig }

/-- The sign bit of a code. -/
def FFmt.sign (f : FFmt) (neg : Bool) : Nat := if neg then f.signBit else 0

/-- The mode rounds toward zero for a sign. -/
def towardZero (mode : Rnd) (neg : Bool) : Bool :=
  match mode with | .rn => false | .rz => true | .ru => neg | .rd => !neg

/-- Rounds a value to a format that has infinities, as an arithmetic instruction does (R101, R102). -/
def FFmt.round (f : FFmt) (mode : Rnd) : FV → Nat × FlagSet
  | .nan => (f.nanCode, 0)
  | .inf neg => (f.sign neg + f.infCode, 0)
  | .fin neg m e =>
    if m = 0 then (f.sign neg, 0)
    else
      let r := f.roundMag mode neg m e
      if r.tooBig then (f.sign neg + (if towardZero mode neg then f.maxCode else f.infCode), fOF ||| fNX)
      else (f.sign neg + r.code, fIf r.inexact fNX ||| fIf (r.tiny && r.inexact) fUF)

/-- RoundF32. -/
def round32 (mode : Rnd) (x : FV) : Word × FlagSet :=
  let (c, f) := fmtF32.round mode x
  (BitVec.ofNat 32 c, f)

/-- The binary32 value of a word. -/
def fv32 (w : Word) : FV := fmtF32.decode w.toNat

/-! Exact operations (R101, R102). -/

/-- The signed integer m·2^(e − q) of a finite value, for q ≤ e. -/
def finInt (neg : Bool) (m : Nat) (e q : Int) : Int :=
  let v : Int := (m : Int) * 2 ^ (e - q).toNat
  if neg then -v else v

/-- A value n · 2^q; n = 0 gives the zero of the given sign. -/
def FV.ofInt (n : Int) (q : Int) (zeroNeg : Bool) : FV :=
  if n = 0 then .fin zeroNeg 0 0 else .fin (n < 0) n.natAbs q

/-- Exact sum; an exact zero is +0, −0 under .RD, unless both are the same zero. -/
def FV.add (mode : Rnd) (a b : FV) : FV × FlagSet :=
  match a, b with
  | .nan, _ => (.nan, 0)
  | _, .nan => (.nan, 0)
  | .inf s, .inf t => if s = t then (.inf s, 0) else (.nan, fNV)
  | .inf s, .fin _ _ _ => (.inf s, 0)
  | .fin _ _ _, .inf t => (.inf t, 0)
  | .fin s m e, .fin t n d =>
    if m = 0 ∧ n = 0 then (.fin (if s = t then s else mode = .rd) 0 0, 0)
    else if m = 0 then (.fin t n d, 0)
    else if n = 0 then (.fin s m e, 0)
    else
      let q := min e d
      (FV.ofInt (finInt s m e q + finInt t n d q) q (mode = .rd), 0)

/-- Exact product. -/
def FV.mul (a b : FV) : FV × FlagSet :=
  match a, b with
  | .nan, _ => (.nan, 0)
  | _, .nan => (.nan, 0)
  | .inf s, .inf t => (.inf (s != t), 0)
  | .inf s, .fin t n _ => if n = 0 then (.nan, fNV) else (.inf (s != t), 0)
  | .fin s m _, .inf t => if m = 0 then (.nan, fNV) else (.inf (s != t), 0)
  | .fin s m e, .fin t n d => (.fin (s != t) (m * n) (e + d), 0)

/-- Negation. -/
def FV.neg : FV → FV
  | .nan => .nan
  | .inf s => .inf (!s)
  | .fin s m e => .fin (!s) m e

/-- The value times 2^k, exactly. -/
def FV.scale (k : Int) : FV → FV
  | .fin s m e => .fin s m (e + k)
  | x => x

/-- Sum rounded to binary32. -/
def add32 (mode : Rnd) (a b : FV) : Word × FlagSet :=
  let (x, f) := FV.add mode a b
  let (w, g) := round32 mode x
  (w, f ||| g)

def mul32 (mode : Rnd) (a b : FV) : Word × FlagSet :=
  let (x, f) := FV.mul a b
  let (w, g) := round32 mode x
  (w, f ||| g)

/-- a × b + c, rounded once. A NaN operand sets no flag, even beside 0 × ∞. -/
def fma32 (mode : Rnd) (a b c : FV) : Word × FlagSet :=
  match a, b, c with
  | .nan, _, _ => (0x7FC00000, 0)
  | _, .nan, _ => (0x7FC00000, 0)
  | _, _, .nan => (0x7FC00000, 0)
  | a, b, c =>
    let (p, f) := FV.mul a b
    let (x, g) := FV.add mode p c
    let (w, h) := round32 mode x
    (w, f ||| g ||| h)

/-- a below b, for values that are no NaN; zeros are equal. -/
def FV.lt (a b : FV) : Bool :=
  match a, b with
  | .nan, _ => false
  | _, .nan => false
  | .inf s, .inf t => s && !t
  | .inf s, .fin _ _ _ => s
  | .fin _ _ _, .inf t => !t
  | .fin s m e, .fin t n d =>
    let q := min e d
    finInt s m e q < finInt t n d q

def FV.isNan : FV → Bool
  | .nan => true
  | _ => false

def FV.isZero : FV → Bool
  | .fin _ 0 _ => true
  | _ => false

def FV.isNeg : FV → Bool
  | .nan => false
  | .inf s => s
  | .fin s _ _ => s

/-- A comparison (Table 5.2): with a NaN only ≠ holds. -/
def condFloat (c : Cond) (a b : FV) : Bool :=
  if a.isNan || b.isNan then c = .ne
  else
    match c with
    | .eq => !a.lt b && !b.lt a
    | .ne => a.lt b || b.lt a
    | .lt => a.lt b
    | .le => !b.lt a
    | .gt => b.lt a
    | .ge => !a.lt b

/-- The lesser of two words (Table 5.2): −0 is below +0. -/
def min32 (a b : Word) : Word :=
  let x := fv32 a
  let y := fv32 b
  if x.isNan || y.isNan then 0x7FC00000
  else if x.lt y then a else if y.lt x then b else if x.isNeg then a else b

/-- The greater of two words. -/
def max32 (a b : Word) : Word :=
  let x := fv32 a
  let y := fv32 b
  if x.isNan || y.isNan then 0x7FC00000
  else if x.lt y then b else if y.lt x then a else if x.isNeg then b else a

/-- A finite value rounded to an integer, and whether it is inexact. -/
def roundInt (mode : Rnd) (neg : Bool) (m : Nat) (e : Int) : Int × Bool :=
  let (n, ix) := roundMag mode neg m e 0
  (if neg then -(n : Int) else n, ix)

/-- Largest integer not above a finite value. -/
def floorInt (neg : Bool) (m : Nat) (e : Int) : Int := (roundInt .rd neg m e).1

end Sys2Proof.Machine
end

