-- ==== Sys2Proof/Machine/Formats.lean ====
section
/-! DEFINITION. Element formats, I4X quads, blocks and panes (R80 to R97, R104). -/

namespace Sys2Proof.Machine

/-! Formats by their byte (Table 4.1). -/

/-- The floating-point format of a format byte. -/
def floatFmt (b : Byte) : Option FFmt :=
  if b = 0x40 then some fmtE4M3 else if b = 0x41 then some fmtE5M2 else if b = 0x80 then some fmtBF16
  else if b = 0x81 then some fmtF16 else if b = 0xC0 then some fmtF32 else none

/-- Width class of a format byte, and element width in bits of a class. -/
def fmtClass (b : Byte) : BitVec 2 := b.extractLsb' 6 2
def classBits (c : BitVec 2) : Nat := 4 * 2 ^ c.toNat
def fmtBits (b : Byte) : Nat := classBits (fmtClass b)

/-- The byte is an unsigned integer format. -/
def fmtUnsigned (b : Byte) : Bool := b = 0x43 || b = 0x83 || b = 0xC2

def fI4X : Byte := 0x01

/-- The format byte of a type. -/
def tyFmt : Ty → Byte
  | .f32 => 0xC0 | .bf16 => 0x80 | .f16 => 0x81 | .e4m3 => 0x40 | .e5m2 => 0x41 | .i32 => 0xC1 | .i16 => 0x82
  | .i8 => 0x42 | .i4 => 0x00 | .i4x => 0x01 | .n32 => 0xC2 | .n16 => 0x83 | .n8 => 0x43

/-- The value of an element code of a format other than I4X (R81, R82). -/
def elemValue (b : Byte) (code : Nat) : FV :=
  match floatFmt b with
  | some f => f.decode code
  | none => FV.ofInt (readInt (fmtBits b) (fmtUnsigned b) code) 0 false

/-- The factor of a scale byte applied to a value; 255 makes every element NaN (R86). -/
def scaled (s : Byte) (x : FV) : FV := if s = 0xFF then .nan else x.scale ((s.toNat : Int) - 127)

/-- The value of an element of the array (R108). -/
def Elem.value (e : Elem) : FV := scaled e.scale (elemValue e.fmt e.code.toNat)

/-! I4X (R84, R85). -/

/-- Int4Plain: the code as INT4, and whether it is a misplaced escape. -/
def int4Plain (c : Nat) : (Byte × Nat) × Bool := if c = 8 then ((0x00, 0), true) else ((0x00, c), false)

/-- Decodes quads of I4X codes into elements of INT4 and E4M3, with FMT for misplaced escapes. -/
def decodeQuads : List Nat → List (Byte × Nat) × Bool
  | a :: b :: c :: d :: cs =>
    let (vd, fd) := int4Plain d
    let (rest, fr) := decodeQuads cs
    if a = 8 then ((0x40, b * 16 + c) :: (0x00, 0) :: (0x00, 0) :: vd :: rest, fd || fr)
    else
      let (va, fa) := int4Plain a
      let (vb, fb) := int4Plain b
      let (vc, fc) := int4Plain c
      (va :: vb :: vc :: vd :: rest, fa || fb || fc || fd || fr)
  | _ => ([], false)

/-- Which elements of a run of I4X codes are misplaced escapes (R84). -/
def badQuads : List Nat → List Bool
  | a :: b :: c :: d :: cs =>
    (if a = 8 then [false, false, false, d = 8] else [false, b = 8, c = 8, d = 8]) ++ badQuads cs
  | _ => []

/-- Decodes a run of codes that begins at a quad: each element as a format byte and code, with the FMT flag. -/
def decodeRun (b : Byte) (codes : List Nat) : List (Byte × Nat) × FlagSet :=
  if b = fI4X then
    let (es, f) := decodeQuads codes
    (es, fIf f fFMT)
  else (codes.map fun c => (b, c), 0)

/-- Converts a value to a format other than I4X (Table 5.3). -/
def encodeElem (b : Byte) (mode : Rnd) (sat : Bool) (x : FV) : Nat × FlagSet :=
  match floatFmt b with
  | some f =>
    match x with
    | .nan => (f.nanCode, 0)
    | .inf neg =>
      if sat then (f.sign neg + f.maxCode, fSAT)
      else if f.inf then (f.sign neg + f.infCode, 0) else (f.nanCode, fNV)
    | .fin neg m e =>
      if m = 0 then (f.sign neg, 0)
      else
        let r := f.roundMag mode neg m e
        if r.tooBig then
          if sat then (f.sign neg + f.maxCode, fSAT ||| fNX)
          else if b = 0x40 ∨ b = 0x41 then (f.nanCode, fOF ||| fNX)
          else (f.sign neg + (if towardZero mode neg then f.maxCode else f.infCode), fOF ||| fNX)
        else (f.sign neg + r.code, fIf r.inexact fNX ||| fIf (r.tiny && r.inexact) fUF)
  | none =>
    let w := fmtBits b
    let lo := intMin w (fmtUnsigned b)
    let hi := intMax w (fmtUnsigned b)
    match x with
    | .nan => (0, fNV)
    | .inf neg => (wrapNat w (if neg then lo else hi), fSAT)
    | .fin neg m e =>
      -- beyond 2^64 only the sign matters
      let big := m ≠ 0 && 64 < leadExp m e
      let (n, ix) := if big then ((if neg then -(2 ^ 64 : Int) else 2 ^ 64), false) else roundInt mode neg m e
      if n < lo then (wrapNat w lo, fSAT)
      else if hi < n then (wrapNat w hi, fSAT)
      else (wrapNat w n, fIf ix fNX)

/-- Plain of R85. -/
def i4Plain (mode : Rnd) : FV → Nat × FlagSet
  | .nan => (0, fNV)
  | .inf neg => (wrapNat 4 (if neg then -7 else 7), fSAT)
  | .fin neg m e =>
    let big := m ≠ 0 && 64 < leadExp m e
    let (n, ix) := if big then ((if neg then -(2 ^ 64 : Int) else 2 ^ 64), false) else roundInt mode neg m e
    (wrapNat 4 (clampInt (-7) 7 n), fIf ix fNX ||| fIf (n < -7 || 7 < n) fSAT)

/-- A leader takes the outlier path: NaN, or rounded outside −7 to 7. -/
def i4Outlier (mode : Rnd) : FV → Bool
  | .nan => true
  | .inf _ => true
  | .fin neg m e =>
    if m ≠ 0 && 64 < leadExp m e then true
    else
      let n := (roundInt mode neg m e).1
      n < -7 || 7 < n

/-- The flag of a value whose place an outlier takes. -/
def i4Dropped (x : FV) : FlagSet :=
  match x with
  | .nan => fNV
  | x => if x.isZero then 0 else fNX

/-- Encodes values as I4X quads; a last partial quad is completed with +0. -/
def encodeQuads (mode : Rnd) (sat : Bool) : List FV → List Nat × FlagSet
  | [] => ([], 0)
  | [a] => quad a zero zero zero
  | [a, b] => quad a b zero zero
  | [a, b, c] => quad a b c zero
  | a :: b :: c :: d :: xs =>
    let (q, f) := quad a b c d
    let (r, g) := encodeQuads mode sat xs
    (q ++ r, f ||| g)
where
  zero : FV := .fin false 0 0
  quad (a b c d : FV) : List Nat × FlagSet :=
    let (vd, fd) := i4Plain mode d
    if i4Outlier mode a then
      let (o, fo) := encodeElem 0x40 mode sat a
      ([8, o / 16, o % 16, vd], fo ||| i4Dropped b ||| i4Dropped c ||| fd)
    else
      let (va, fa) := i4Plain mode a
      let (vb, fb) := i4Plain mode b
      let (vc, fc) := i4Plain mode c
      ([va, vb, vc, vd], fa ||| fb ||| fc ||| fd)

/-- Encodes a run of values that begins at a quad. -/
def encodeRun (b : Byte) (mode : Rnd) (sat : Bool) (xs : List FV) : List Nat × FlagSet :=
  if b = fI4X then encodeQuads mode sat xs
  else xs.foldr (fun x acc => let (c, f) := encodeElem b mode sat x; (c :: acc.1, f ||| acc.2)) ([], 0)

/-! Codes and bytes (R83). -/

/-- The codes of w bits that bytes hold. -/
def codesOf (w : Nat) (bs : List Byte) : List Nat :=
  if w = 4 then bs.flatMap fun b => [b.toNat % 16, b.toNat / 16]
  else if w = 8 then bs.map (·.toNat)
  else if w = 16 then halves bs
  else words bs
where
  halves : List Byte → List Nat
    | a :: b :: r => ofBytes [a, b] :: halves r
    | _ => []
  words : List Byte → List Nat
    | a :: b :: c :: d :: r => ofBytes [a, b, c, d] :: words r
    | _ => []

/-- The bytes that codes of w bits fill. -/
def bytesOf (w : Nat) (cs : List Nat) : List Byte :=
  if w = 4 then nibbles cs
  else cs.flatMap fun c => toBytes (w / 8) c
where
  nibbles : List Nat → List Byte
    | a :: b :: r => BitVec.ofNat 8 (a % 16 + b % 16 * 16) :: nibbles r
    | [a] => [BitVec.ofNat 8 (a % 16)]
    | [] => []

/-! Panes (R88 to R95). -/

def paneBytes : Nat := 1984

/-- Elements per block of a class. -/
def epb (wc : BitVec 2) : Nat := 128 / 2 ^ wc.toNat

/-- The check value of a pane's bytes (R91). -/
def paneCrc (p : List Byte) : Word := crc32c (p.take 60 ++ p.drop 64)

def cwSwizzle : Half := 0x0101
def cwPaneCheck : Half := 0x0102
def cwFmtReserved : Half := 0x0103
def cwFmtClass : Half := 0x0104
def cwTagFail : Half := 0x0105
def cwBound : Half := 0x0106
def cwDropped : Half := 0x0107
def cwUncorrectable : Half := 0x0161
def cwLoss : Half := 0x0171

/-- Tag bytes of block j. -/
def paneFmt (p : List Byte) (j : Nat) : Byte := p.getD (2 * j) 0
def paneScale (p : List Byte) (j : Nat) : Byte := p.getD (2 * j + 1) 0
/-- Payload line of block j. -/
def paneLine (p : List Byte) (j : Nat) : List Byte := (p.drop (64 * (j + 1))).take 64

/-- The tag checks of R93 over format bytes, in order. -/
def tagFault (wc : BitVec 2) (fmts : List Byte) : Option Half :=
  if fmts.any fun b => fmtClass b ≠ wc then some cwFmtClass
  else if fmts.any fun b => !fmtAssigned b then some cwFmtReserved
  else none

/-- Checks a pane (R93). -/
def paneFault (wc : BitVec 2) (p : List Byte) : Option Half :=
  if ofBytes ((p.drop 60).take 4) ≠ (paneCrc p).toNat then some cwPaneCheck
  else tagFault wc ((List.range 30).map (paneFmt p))

/-- A pane with its check value made new. -/
def paneSeal (p : List Byte) : List Byte :=
  let q := p.take 60 ++ [0, 0, 0, 0] ++ p.drop 64
  p.take 60 ++ toBytes 4 (paneCrc q).toNat ++ p.drop 64

/-- A pane with block j given a tag and a payload line. -/
def panePut (p : List Byte) (j : Nat) (fmt scale : Byte) (line : List Byte) : List Byte :=
  let t := p.take (2 * j) ++ [fmt, scale] ++ p.drop (2 * j + 2)
  t.take (64 * (j + 1)) ++ line ++ t.drop (64 * (j + 2))

/-- The tag and line of a padding block (R90). -/
def padFmt (wc : BitVec 2) : Byte := BitVec.ofNat 8 (wc.toNat * 64)

/-- The elements of block j as values, with the FMT flag, which a block of scale 255 does not set (R86). -/
def blockValues (p : List Byte) (j : Nat) : List FV × FlagSet :=
  let b := paneFmt p j
  let (es, f) := decodeRun b (codesOf (fmtBits b) (paneLine p j))
  (es.map fun e => scaled (paneScale p j) (elemValue e.1 e.2), if paneScale p j = 0xFF then 0 else f)

/-- The elements of block j as array elements. -/
def blockElems (p : List Byte) (j : Nat) : List Elem × FlagSet :=
  let b := paneFmt p j
  let (es, f) := decodeRun b (codesOf (fmtBits b) (paneLine p j))
  (es.map fun e => { code := BitVec.ofNat 16 e.2, fmt := e.1, scale := paneScale p j }, if paneScale p j = 0xFF then 0 else f)

end Sys2Proof.Machine
end

