-- ==== Sys2Proof/Machine/SMemory.lean ====
section
/-! DEFINITION. Loads, stores and atomics of S, and ALD and AST of every engine (R327, R328, R332 to R335, R360 to
R362). An access is performed when it issues (log 15). -/

namespace Sys2Proof.Machine

/-! One access. -/

/-- The causes an access of the executing engine meets, and the read itself: n bytes at an address, aligned to `align`.
The continuation gets the bytes, and whether the read's message is lost (R362, R327). -/
def State.sRead (s : State) (ea : Dword) (align n : Nat) (k : State → List Byte → Bool → Res) : Res :=
  let u := s.cur.1
  let e := s.cur.2
  if isSched u then
    match hubResolve ea.toNat align with
    | .error c => .trap s c ea
    | .ok o => k s (s.hubRead o n) false
  else
    match (s.core u).job with
    | none => .trap s cProtection ea
    | some j =>
      match s.resolve u j .read align ea.toNat with
      | .error c => .trap s c ea
      | .ok l =>
        match s.checkLoc l ea n with
        | .error (b, i) => .done (s.readCheck u b i)
        | .ok s =>
          match s.arriveLoc l u e n with
          | none => .freeze s .replay
          | some s =>
            let (ok, s') := s.ask (endOf u) (s.homeOf l) n
            k s' (s.readLoc j.world l n) (!ok)

/-- Applies a write whose message arrives, or loses it; a lost write is none the engine has committed (R186, R305). -/
def State.applyWrite (s : State) (u : UnitId) (e : Eng) (j : Job) (l : Loc) (ea : Dword) (bs : List Byte) (ok : Bool) :
    State :=
  if ok then ((s.windowNote u e (toBytes 8 ea.toNat ++ bs)).writeLoc j.world l bs).noteWrite (s.tieOf u) l bs.length
  else s.noteLost u e (.write ea)

/-- Performs a write of bytes at a location, in a message of its own. -/
def State.performWrite (s : State) (u : UnitId) (e : Eng) (j : Job) (l : Loc) (ea : Dword) (bs : List Byte) : State :=
  let (ok, s) := s.send (endOf u) (s.homeOf l) 0 bs.length (.stream u e (.write ea))
  s.applyWrite u e j l ea bs ok

/-- A write of the executing engine: its causes, and the write. -/
def State.sWrite (s : State) (ea : Dword) (align : Nat) (bs : List Byte) (k : State → Res) : Res :=
  let u := s.cur.1
  let e := s.cur.2
  if isSched u then
    match hubResolve ea.toNat align with
    | .error c => .trap s c ea
    | .ok o =>
      let t := if s.me.frozen = some .ring then s else s.hubStore (u.val = 49) o bs
      if t.hubBusy (u.val = 49) then .freeze t .ring else k t
  else
    match (s.core u).job with
    | none => .trap s cProtection ea
    | some j =>
      match s.resolve u j .write align ea.toNat with
      | .error c => .trap s c ea
      | .ok l =>
        match s.arriveLoc l u e bs.length with
        | none => .freeze s .replay
        | some s => k (s.performWrite u e j l ea bs)

/-- The mark of a lost read of an instruction of n words. -/
def State.lostMark (s : State) (len : Nat) (wait : BitVec 3) (va : Dword) (lost : Bool) : Option LostRead :=
  if lost then some (s.me.lostRead len wait va) else none

/-! ALD and AST. -/

/-- On M and C the access waits for every earlier command of the queue (R328). -/
def Core.queueBusy (c : Core) (e : Eng) : Bool :=
  match e with
  | .M => !c.mq.isEmpty || c.chain.state = .retiring || !c.arels.isEmpty
  | .C => !(c.cq[0]).isEmpty
  | _ => false

/-- ALD (R327, R328). -/
def execAld (d : CDst) (a : CSrc) (off : BitVec 15) (s : State) : Out :=
  let i := Instr.ald d a off
  .next (s.issueC i fun s =>
    if (s.core s.cur.1).queueBusy s.cur.2 then .freeze s .queueOrder
    else
      let ea := s.me.csrc a + off.signExtend 64
      s.sRead ea 8 8 fun s bs lost =>
        .seq (s.flyRead s.cur.1 s.cur.2 4 (cdstWrite (dw (ofBytes bs)) d) 0 0 (s.lostMark (instrWords i) 0 ea lost)))

/-- AST (R327, R328). -/
def execAst (d : CDst) (a : CSrc) (off : BitVec 15) (s : State) : Out :=
  .next (s.issueC (.ast d a off) fun s =>
    if (s.core s.cur.1).queueBusy s.cur.2 then .freeze s .queueOrder
    else s.sWrite (s.me.csrc a + off.signExtend 64) 8 (toBytes 8 (s.me.cdat d).toNat) fun s => .seq s)

/-! LD and ST. -/

/-- The effective address of P64-M (R361). -/
def effAddr (base : Dword) (disp : BitVec 8) (size : BitVec 2) : Dword := base + (disp.signExtend 64 <<< size.toNat)

/-- The register value of loaded bytes. -/
def loadValue (sx : Bool) (bs : List Byte) : Dword :=
  if sx then BitVec.ofInt 64 (signedOf (8 * bs.length) (ofBytes bs)) else dw (ofBytes bs)

/-- What a guarded-off ST does: its pushes come in the next cycle. No table gives a store a latency, nor the other S and V instructions
without a result: their pushes come at issue + 1 (DESIGN CHOICE, log 92). -/
def offSt (h : Hdr) (s : State) : Res := offSV 1 h s

/-- LD (R360 to R362). -/
def execLd (h : Hdr) (m : ModSM) (o : MemOp) (s : State) : Out :=
  let i := Instr.ld h m o
  .next (s.issue i 0 (some h) false (offSV 4 h) fun s =>
    let n := 2 ^ m.size.toNat
    let ea := effAddr (s.me.scalar o.base) o.disp m.size
    s.sRead ea n n fun s bs lost =>
      .seq (s.flyRead s.cur.1 s.cur.2 4 (sdstWrite (loadValue m.sx bs) o.d) 0 h.sig
        (s.lostMark (instrWords i) h.wait ea lost)))

/-- ST (R360 to R362); the pushes of SIG come once the write is performed, in the next cycle. -/
def execSt (h : Hdr) (m : ModSM) (o : MemOp) (s : State) : Out :=
  .next (s.issue (.st h m o) 0 (some h) false (offSt h) fun s =>
    let n := 2 ^ m.size.toNat
    let ea := effAddr (s.me.scalar o.base) o.disp m.size
    s.sWrite ea n (toBytes n (s.me.scalar o.d).toNat) fun s =>
      .seq (if h.sig = 0 then s else s.fly s.cur.1 s.cur.2 1 [] 0 h.sig))

/-! AT. -/

/-- The check of R334: the target core and the offset, or the cause. -/
def State.atResolve (s : State) (u : UnitId) (j : Job) (ea align : Nat) : Except Byte (CoreId × Nat) :=
  match windowOf ea with
  | .scratch c o =>
    let t : Nat := if c = 63 then u.val else c
    if 48 ≤ c && c ≤ 62 then .error cScratch
    else if h : t < 48 then
      let k : CoreId := ⟨t, h⟩
      if dieOf (unitOf k) ≠ dieOf u then .error cProtection
      else
        match (s.core (unitOf k)).job with
        | none => .error cProtection
        | some j' =>
          if j'.world ≠ j.world then .error cWorld
          else if j'.ctx ≠ j.ctx then .error cProtection
          else if 4096 * j'.spNeed ≤ o then .error cScratch
          else if ea % align ≠ 0 then .error cAlignment
          else .ok (k, o)
    else .error cProtection
  | _ => .error cProtection

/-- The new word of a bank-ALU operation, and its flags (R333). -/
def atNew (op : AtOp) (w : Nat) (u : Bool) (old v e : Nat) : Nat × FlagSet :=
  match op with
  | .add => ((old + v) % 2 ^ w, 0)
  | .and => (old &&& v, 0)
  | .or => (old ||| v, 0)
  | .xor => (old ^^^ v, 0)
  | .min => (if readInt w u v < readInt w u old then v else old, 0)
  | .max => (if readInt w u old < readInt w u v then v else old, 0)
  | .fadd =>
    let (r, f) := add32 .rn (fv32 (BitVec.ofNat 32 old)) (fv32 (BitVec.ofNat 32 v))
    (r.toNat, f)
  | .xchg => (v, 0)
  | .cas => (if old = e then v else old, 0)

/-- AT (R332 to R335). -/
def execAt (h : Hdr) (m : ModSA) (o : R4) (s : State) : Out :=
  .next (s.issue (.at_ h m o) 0 (some h) false (offSV 8 h) fun s =>
    let u := s.cur.1
    let e := s.cur.2
    let w := if m.w64 then 64 else 32
    let ea := s.me.scalar o.a
    match (s.core u).job with
    | none => .trap s cProtection ea
    | some j =>
      match s.atResolve u j ea.toNat (w / 8) with
      | .error c => .trap s c ea
      | .ok (k, off) =>
        let l : Loc := .scratch k off
        match s.checkLoc l ea (w / 8) with
        | .error (b, i) => .done (s.readCheck u b i)
        | .ok s =>
          match s.arriveLoc l u e (w / 8) with
          | none => .freeze s .replay
          | some s =>
            let old := ofBytes (s.readLoc j.world l (w / 8))
            let (new, f) := atNew m.op w m.u old ((s.me.scalar o.b).toNat % 2 ^ w) ((s.me.scalar o.c).toNat % 2 ^ w)
            let s := ((s.windowNote u e (toBytes (w / 8) old)).writeLoc j.world l (toBytes (w / 8) new)).noteWrite (s.tieOf u) l (w / 8)
            .seq (s.fly u e 8 (sdstWrite (dw old) o.dst) f h.sig))

end Sys2Proof.Machine
end

