-- ==== Sys2Proof/Machine/VCore.lean ====
section
/-! DEFINITION. What every V instruction shares (R409 to R413): slots, the checks at issue, the pop and the push of
stream registers (R142 to R145, R150, R454), and the landing of a result. -/

namespace Sys2Proof.Machine

/-! Slots. -/

/-- The slot is still busy (R230). -/
def State.slotBusy (s : State) (slot : BitVec 2) : Bool := s.me.scycle < s.me.slotFree[slot.toNat]

/-- An instruction occupies its slot for 4 schedule cycles. -/
def State.claimSlot (s : State) (slot : BitVec 2) : State :=
  s.modEng s.cur.1 s.cur.2 fun g => { g with slotFree := g.slotFree.set slot.toNat (g.scycle + 4) }

/-- A V instruction in a slot: held while the slot is busy; guarded off, it occupies the slot alike. -/
def issueV (i : Instr) (h : Hdr) (slot : BitVec 2) (lat : Nat) (on : State → Res) (s : State) : Out :=
  .next (s.issue i 0 (some h) (s.slotBusy slot) (fun s => offSV lat h (s.claimSlot slot)) on)

/-! Streams. -/

/-- Row positions of a pattern (R143). -/
def StreamDesc.total (d : StreamDesc) : Nat := d.counts.foldl (· * ·) 1

/-- Rows of one pop or push. -/
def StreamDesc.rowsEach (d : StreamDesc) : Nat := if d.rowMode then 1 else 16

/-- Offset of row position n: the counters of the four loops, i0 innermost. -/
def rowOffset : List Nat → List Int → Nat → Int
  | c :: cs, st :: sts, n => ((n % c : Nat) : Int) * st + rowOffset cs sts (n / c)
  | _, _, _ => 0

def StreamDesc.offset (d : StreamDesc) (n : Nat) : Int := rowOffset d.counts d.strides n

/-- The stream register may not be used in this direction by V (R142). -/
def Core.streamBad (c : Core) (drain : Bool) (q : BitVec 3) : Bool :=
  match c.streams[q.toNat] with | none => true | some t => t.desc.engM || t.desc.drain != drain

def Core.setStream (c : Core) (q : BitVec 3) (t : Stream) : Core :=
  { c with streams := c.streams.set q.toNat (some t) }

/-- Pushes to a stream that have issued and not landed. -/
def Core.pushesOut (c : Core) (q : BitVec 3) : Nat :=
  (c.eV.flights.filter fun f => f.writes.any fun w => match w with | .push n _ _ => n = q | _ => false).length

/-- The source and destination fields of an instruction that name streams, in field order, with their direction. -/
def streamFields (dst : Spec) (srcs : List Spec) : List (BitVec 3 × Bool) :=
  (match dst.stream? with | some q => [(q, true)] | none => []) ++
    (srcs.filterMap Spec.stream?).map fun q => (q, false)

/-- What stands against a pop of the read streams an instruction names (R144), first name first. -/
def popTrouble (s : State) : List (BitVec 3) → Option Res
  | [] => none
  | q :: qs =>
    let u := s.cur.1
    match (s.core u).streams[q.toNat] with
    | none => popTrouble s qs
    | some t =>
      match t.buf with
      | [] => if t.desc.total ≤ t.pos then some (trapFree s cProtection) else some (.freeze s (.streamPop q))
      | b :: _ =>
        -- the data is fetched again when the pop is retried
        let again := s.modCore u fun c => c.setStream q { t with buf := [], pos := b.pos }
        match b.item with
        | .rows _ _ _ => popTrouble s qs
        | .fault c d _ => some (.trap again c d)
        | .lost va => some (.trap again cLoss va)
        | .machineCheck i => some (.done (s.machineCheck u i))

/-- What stands against the use of a drain stream: a fault found after an earlier push, raised here once; then the rows
are written again before this instruction issues (R412). -/
def drainTrouble (s : State) (q : BitVec 3) : Option Res :=
  let u := s.cur.1
  match (s.core u).streams[q.toNat] with
  | none => none
  | some t =>
    match t.fault with
    | some f =>
      match f.info with
      | some i => some (.done (s.machineCheck u i))
      | none => some (.trap (s.modCore u fun c => c.setStream q { t with fault := none, rewrite := true }) f.cause f.detail)
    | none => if t.rewrite then some (.freeze s (.streamPush q)) else none

/-- The register of the main vector file that a field names. -/
def mainReg (rrb : BitVec 5) (x : Spec) : Option Nat :=
  match x with
  | .v n => some (physReg rrb n).toNat
  | _ => none

/-- The checks of R412 before the address faults, in order; then the instruction's own work. A fault on rows pushed to a drain stream is
raised before PROTECTION, whichever field names the register: R412 raises it before the instruction issues (DEDUCED, log 42). -/
def vChecks (s : State) (dst : Spec) (srcs : List Spec) (k : State → Res) : Res :=
  let c := s.core s.cur.1
  if c.lentNamed (dst :: srcs) then .trap s cBankLent s.me.pc
  else
    match (streamFields dst srcs).findSome? fun f => drainTrouble s f.1 with
    | some r => r
    | none =>
      match (streamFields dst srcs).find? fun f => c.streamBad f.2 f.1 with
      | some f => .trap s cProtection (dw (0x50 + f.1.toNat))
      | none =>
        match popTrouble s (srcs.filterMap Spec.stream?) with
        | some r => r
        | none =>
          match s.readFile s.cur.1 (srcs.filterMap (mainReg c.eV.rrb)) with
          | .error i => .done (s.machineCheck s.cur.1 i)
          | .ok s => k s

/-- Takes the items popped (R207). -/
def Core.popAll (c : Core) : List (BitVec 3) → Core
  | [] => c
  | q :: qs =>
    match c.streams[q.toNat] with
    | none => c.popAll qs
    | some t => (c.setStream q { t with buf := t.buf.drop 1 }).popAll qs

/-! Bounds (R149, R150). -/

/-- A value of a source register lies below, or above, its entry's bounds. -/
def BoundEntry.below (b : BoundEntry) (x : Word) : Bool :=
  match b.ty.toNat with
  | 0 => (fv32 x).isNan || (fv32 x).lt (fv32 b.low)
  | 1 => x.toInt < b.low.toInt
  | _ => x.toNat < b.low.toNat
def BoundEntry.above (b : BoundEntry) (x : Word) : Bool :=
  match b.ty.toNat with
  | 0 => !(fv32 x).isNan && (fv32 b.high).lt (fv32 x)
  | 1 => b.high.toInt < x.toInt
  | _ => b.high.toNat < x.toNat

def BoundEntry.out (b : BoundEntry) (x : Word) : Bool := b.below x || b.above x

/-- The value written for one within an entry's action. -/
def BoundEntry.apply (b : BoundEntry) (x : Word) : Word :=
  if b.action = 1 then (if b.below x then b.low else if b.above x then b.high else x) else x

/-- Entry e of the bound table of the core's context, when it may be named. -/
def State.boundEntry (s : State) (u : UnitId) (e : Nat) : Option BoundEntry :=
  match (s.core u).job with
  | none => none
  | some j =>
    match s.context j.ctx with
    | none => none
    | some x => match x.bounds[e]? with | some b => if b.valid then some b else none | none => none

/-- Detail of PANE_FAULT (Table 11.6). -/
def paneDetail (code : Half) (bound : Nat) : Dword := dw (2 ^ 16 * bound + code.toNat)

/-! Elements of a tensor and of raw rows. -/

/-- The factor of a scale byte taken out of a value: x ÷ 2^(s − 127), exactly. -/
def unscaled (s : Byte) (x : FV) : FV := x.scale (127 - (s.toNat : Int))

/-- The last value given for an index. -/
def lastOf (i : Nat) : List (Nat × FV) → Option FV
  | [] => none
  | (j, v) :: xs => match lastOf i xs with | some w => some w | none => if j = i then some v else none

/-- Codes of the elements given, under a format: for I4X each quad touched is encoded whole, its other elements taken as
+0 (R85, R454). -/
def encodeEls (fmt : Byte) (mode : Rnd) (sat : Bool) (xs : List (Nat × FV)) : List (Nat × Nat) × FlagSet :=
  if fmt = fI4X then
    ((xs.map fun x => x.1 / 4).eraseDups).foldr (fun q acc =>
      let v (i : Nat) : FV := (lastOf (4 * q + i) xs).getD (.fin false 0 0)
      let (cs, f) := encodeQuads mode sat [v 0, v 1, v 2, v 3]
      (((List.range 4).zip cs).map (fun p => (4 * q + p.1, p.2)) ++ acc.1, f ||| acc.2)) ([], 0)
  else
    xs.foldr (fun x acc =>
      let (c, f) := encodeElem fmt mode sat x.2
      ((x.1, c) :: acc.1, f ||| acc.2)) ([], 0)

/-- The 64 words of row r of a register. -/
def VReg.rowList (r : VReg) (row : Nat) : List Word := (List.range 64).map fun c => r.at_ (64 * row + c)

/-- The rows of one push that the pattern covers, from position p0: each row's offset with its words. -/
def StreamDesc.pushRows (d : StreamDesc) (p0 : Nat) (r : VReg) : List (Int × List Word) :=
  ((List.range d.rowsEach).filter fun i => p0 + i < d.total).map fun i => (d.offset (p0 + i), r.rowList i)

/-- Tensor elements are counted from 2^90 panes below the base, so that a negative position has a number too: 1,984 · 2^90
is a multiple of 2^64, and R89 gives the same address. -/
def paneBias (wc : BitVec 2) : Nat := 2 ^ 90 * (30 * (128 / 2 ^ wc.toNat))

/-- Number of the first tensor element of a row at an offset. -/
def StreamDesc.elemAt (d : StreamDesc) (off : Int) : Nat := (off + (paneBias (fmtClass d.fmt) : Int)).toNat

/-- Tensor elements of the rows of a pane push: number and value. -/
def StreamDesc.paneEls (d : StreamDesc) (rows : List (Int × List Word)) : List (Nat × Word) :=
  rows.flatMap fun p => ((List.range 64).zip p.2).map fun q => (d.elemAt p.1 + q.1, q.2)

/-- The codes a push writes and the flags of their conversion: pane elements by tensor index, or raw rows each by
itself (R143). -/
def StreamDesc.paneCodes (d : StreamDesc) (rows : List (Int × List Word)) : List (Nat × Nat) × FlagSet :=
  encodeEls d.fmt d.rnd d.sat ((d.paneEls rows).map fun e => (e.1, unscaled d.scale (fv32 e.2)))

def StreamDesc.rawCodes (d : StreamDesc) (row : List Word) : List Nat × FlagSet :=
  encodeRun d.fmt d.rnd d.sat (row.map fv32)

def StreamDesc.pushFlags (d : StreamDesc) (rows : List (Int × List Word)) : FlagSet :=
  if d.pane then (d.paneCodes rows).2
  else rows.foldl (fun f r => f ||| (d.rawCodes r.2).2) 0

/-- Address of a raw row. -/
def StreamDesc.rowAddr (d : StreamDesc) (off : Int) : Nat := wrapNat 64 ((d.base.toNat : Int) + off)

/-- A raw row position is not aligned (R143): to the element size, or to 2 bytes for I4X. -/
def StreamDesc.rawBad (d : StreamDesc) (off : Int) : Bool :=
  !d.pane && (if d.fmt = fI4X then d.rowAddr off % 2 ≠ 0 else off % (max 1 (fmtBits d.fmt / 8) : Nat) ≠ 0)

/-- The fault of a raw row's position (R132, R143). -/
def StreamDesc.rowFault (d : StreamDesc) (off : Int) : Option Byte :=
  if d.rawBad off then some ((alignFault (d.rowAddr off) 1).getD cAlignment) else none

/-- What a push finds at issue (R144, R150): what it raises, or the data to push and the flags it lands with. -/
inductive PushRes where
  | free (cause : Byte)
  | raise (cause : Byte) (detail : Dword)
  | ok (data : VReg) (flags : FlagSet)

/-- Every element of the source register is checked against the bounds, also where the pattern ends within it (R150). -/
def State.pushCheck (s : State) (q : BitVec 3) (r : VReg) : PushRes :=
  let u := s.cur.1
  match (s.core u).streams[q.toNat] with
  | none => .raise cProtection (dw (0x50 + q.toNat))
  | some t =>
    let d := t.desc
    let p0 := t.pos + d.rowsEach * (s.core u).pushesOut q
    if d.total ≤ p0 then .free cProtection
    else
      let rows := d.pushRows p0 r
      match rows.findSome? fun p => (d.rowFault p.1).map fun c => (c, d.rowAddr p.1) with
      | some (c, a) => .raise c (dw a)
      | none =>
        if d.boundEn then
          match s.boundEntry u d.bound.toNat with
          | none => .free cProtection
          | some b =>
            let out := (List.range d.rowsEach).any fun i => (r.rowList i).any b.out
            if out && b.action = 2 then .raise cPane (paneDetail cwBound d.bound.toNat)
            else
              let r' := VReg.gen fun i => b.apply (r.at_ i)
              .ok r' (fIf out fBOUND ||| d.pushFlags (d.pushRows p0 r'))
        else .ok r (d.pushFlags rows)

/-! Landing. -/

/-- Ends the issue of a V instruction with a register result (R410): pops are taken, the slot is claimed and the result
put in flight with its flags, `extra` writes and pushes. -/
def vFinish (s : State) (srcs : List Spec) (slot : BitVec 2) (lat : Nat) (h : Hdr) (dst : Spec) (r : VReg) (f : FlagSet)
    (extra : List Write) (lost : Option LostRead) : Res :=
  let u := s.cur.1
  let c := s.core u
  let f := srcs.foldl (fun f x => f ||| c.popFlags x) f
  let go (ws : List Write) (f : FlagSet) : Res :=
    let s := (s.modCore u (·.popAll (srcs.filterMap Spec.stream?))).claimSlot slot
    .seq (s.flyRead u .V lat (ws ++ extra) f h.sig lost)
  match dst with
  | .q n =>
    match s.pushCheck n r with
    | .free cause => trapFree s cause
    | .raise cause d => .trap s cause d
    | .ok r' f' => go [.push n r' (s.stampOf u), .l slot r] (f ||| f')
  | d => go (c.vdst slot r d) f

/-- Ends the issue of a V instruction without a register result: its flags and pushes come at its latency. -/
def vFinishNone (s : State) (srcs : List Spec) (slot : BitVec 2) (lat : Nat) (h : Hdr) (f : FlagSet)
    (lost : Option LostRead) : Res :=
  let u := s.cur.1
  let c := s.core u
  let f := srcs.foldl (fun f x => f ||| c.popFlags x) f
  let s := (s.modCore u (·.popAll (srcs.filterMap Spec.stream?))).claimSlot slot
  .seq (s.flyRead u .V lat [] f h.sig lost)

/-- The fields of P64-R that an instruction with n sources uses. -/
def srcsOf (o : R4) (n : Nat) : List Spec := [o.a, o.b, o.c].take n

/-- A V instruction whose result is a function of its source registers. -/
def vOp (i : Instr) (h : Hdr) (slot : BitVec 2) (lat : Nat) (dst : Spec) (srcs : List Spec)
    (f : State → Core → VReg × FlagSet) (s : State) : Out :=
  issueV i h slot lat (fun s =>
    vChecks s dst srcs fun s =>
      let (r, fl) := f s (s.core s.cur.1)
      vFinish s srcs slot lat h dst r fl [] none) s

/-! Element types (R413). -/

def tyBits (t : Ty) : Nat := fmtBits (tyFmt t)
def tyUnsigned (t : Ty) : Bool := fmtUnsigned (tyFmt t)

/-- The value of an element under an integer type. -/
def readEl (t : Ty) (x : Word) : Int := readInt (tyBits t) (tyUnsigned t) x.toNat

/-- A w-bit pattern as an element: sign- or zero-extended by its type. -/
def writeEl (t : Ty) (n : Nat) : Word := BitVec.ofInt 32 (readInt (tyBits t) (tyUnsigned t) n)

/-- Union of the flags of elements 0 to n − 1. -/
def flagsUpTo (f : Nat → FlagSet) : Nat → FlagSet
  | 0 => 0
  | n + 1 => flagsUpTo f n ||| f n

/-- Element-wise application. -/
def VReg.map3 (f : Word → Word → Word → Word × FlagSet) (a b c : VReg) : VReg × FlagSet :=
  (VReg.gen fun i => (f (a.at_ i) (b.at_ i) (c.at_ i)).1,
   flagsUpTo (fun i => (f (a.at_ i) (b.at_ i) (c.at_ i)).2) 1024)

end Sys2Proof.Machine
end

