-- ==== Sys2Proof/Machine/VArith.lean ====
section
/-! DEFINITION. Element-wise arithmetic of the V engine (R414 to R416, Tables 5.2, 19.2), comparison (R419), conversion
(R420, R421, Table 5.3) and the special functions (R105 to R107, R422). -/

namespace Sys2Proof.Machine

/-! Element-wise operations. -/

/-- The exact integer result of an operation, written under its type (R416). -/
def intEl (t : Ty) (sat : Bool) (v : Int) : Word × FlagSet :=
  let (n, f) := satInt (tyBits t) (tyUnsigned t) sat v
  (writeEl t n, f)

/-- Negation of the sign bit. -/
def flipSign (x : Word) : Word := x ^^^ 0x80000000

/-- An element-wise operation with one meaning for F32 and one for integer types. -/
def elemOp (i : Instr) (h : Hdr) (m : ModVA) (o : R4) (n lat : Nat)
    (ff : Word → Word → Word → Word × FlagSet) (fi : Word → Word → Word → Word × FlagSet) (s : State) : Out :=
  vOp i h (if m.slotB then 1 else 0) lat o.dst (srcsOf o n) (fun _ c =>
    VReg.map3 (if m.ty = .f32 then ff else fi) (c.vread m.obc o.a) (c.vread m.obc o.b) (c.vread m.obc o.c)) s

/-- VADD (R415, R416). -/
def execVadd (h : Hdr) (m : ModVA) (o : R4) (s : State) : Out :=
  elemOp (.vadd h m o) h m o 2 5 (fun a b _ => add32 m.rnd (fv32 a) (fv32 b))
    (fun a b _ => intEl m.ty m.sat (readEl m.ty a + readEl m.ty b)) s

/-- VSUB (R415, R416). -/
def execVsub (h : Hdr) (m : ModVA) (o : R4) (s : State) : Out :=
  elemOp (.vsub h m o) h m o 2 5 (fun a b _ => add32 m.rnd (fv32 a) (fv32 (flipSign b)))
    (fun a b _ => intEl m.ty m.sat (readEl m.ty a - readEl m.ty b)) s

/-- VMUL (R415, R416). -/
def execVmul (h : Hdr) (m : ModVA) (o : R4) (s : State) : Out :=
  elemOp (.vmul h m o) h m o 2 6 (fun a b _ => mul32 m.rnd (fv32 a) (fv32 b))
    (fun a b _ => intEl m.ty m.sat (readEl m.ty a * readEl m.ty b)) s

/-- VFMA (R101, R415, R416). -/
def execVfma (h : Hdr) (m : ModVA) (o : R4) (s : State) : Out :=
  elemOp (.vfma h m o) h m o 3 6 (fun a b c => fma32 m.rnd (fv32 a) (fv32 b) (fv32 c))
    (fun a b c => intEl m.ty m.sat (readEl m.ty a * readEl m.ty b + readEl m.ty c)) s

/-- The lesser and the greater of two elements of an integer type. -/
def minEl (t : Ty) (a b : Word) : Word := (intEl t false (min (readEl t a) (readEl t b))).1
def maxEl (t : Ty) (a b : Word) : Word := (intEl t false (max (readEl t a) (readEl t b))).1

/-- VMIN (R415, R416). -/
def execVmin (h : Hdr) (m : ModVA) (o : R4) (s : State) : Out :=
  elemOp (.vmin h m o) h m o 2 5 (fun a b _ => (min32 a b, 0)) (fun a b _ => (minEl m.ty a b, 0)) s

/-- VMAX (R415, R416). -/
def execVmax (h : Hdr) (m : ModVA) (o : R4) (s : State) : Out :=
  elemOp (.vmax h m o) h m o 2 5 (fun a b _ => (max32 a b, 0)) (fun a b _ => (maxEl m.ty a b, 0)) s

/-- VABS: the sign bit cleared, NaN included (R415, R416). -/
def execVabs (h : Hdr) (m : ModVA) (o : R4) (s : State) : Out :=
  elemOp (.vabs h m o) h m o 1 5 (fun a _ _ => (a &&& 0x7FFFFFFF, 0))
    (fun a _ _ => intEl m.ty m.sat (Int.natAbs (readEl m.ty a))) s

/-- VNEG (R415, R416). -/
def execVneg (h : Hdr) (m : ModVA) (o : R4) (s : State) : Out :=
  elemOp (.vneg h m o) h m o 1 5 (fun a _ _ => (flipSign a, 0)) (fun a _ _ => intEl m.ty m.sat (-readEl m.ty a)) s

/-- VCLAMP: VMIN(VMAX(a, b), c) (R415). -/
def execVclamp (h : Hdr) (m : ModVA) (o : R4) (s : State) : Out :=
  elemOp (.vclamp h m o) h m o 3 5 (fun a b c => (min32 (max32 a b) c, 0))
    (fun a b c => (minEl m.ty (maxEl m.ty a b) c, 0)) s

/-- A raw operation: the same for its three types. -/
def rawOp (i : Instr) (h : Hdr) (m : ModVA) (o : R4) (n : Nat) (f : Word → Word → Word → Word) (s : State) : Out :=
  elemOp i h m o n 5 (fun a b c => (f a b c, 0)) (fun a b c => (f a b c, 0)) s

/-- VAND (Table 19.2). -/
def execVand (h : Hdr) (m : ModVA) (o : R4) (s : State) : Out := rawOp (.vand h m o) h m o 2 (fun a b _ => a &&& b) s

/-- VOR (Table 19.2). -/
def execVor (h : Hdr) (m : ModVA) (o : R4) (s : State) : Out := rawOp (.vor h m o) h m o 2 (fun a b _ => a ||| b) s

/-- VXOR (Table 19.2). -/
def execVxor (h : Hdr) (m : ModVA) (o : R4) (s : State) : Out := rawOp (.vxor h m o) h m o 2 (fun a b _ => a ^^^ b) s

/-- VSHL by the B element as an unsigned 32-bit count (R416). -/
def execVshl (h : Hdr) (m : ModVA) (o : R4) (s : State) : Out :=
  let f (a b _ : Word) : Word × FlagSet :=
    let (n, f) := shlInt (tyBits m.ty) (tyUnsigned m.ty) m.sat b.toNat (readEl m.ty a)
    (writeEl m.ty n, f)
  elemOp (.vshl h m o) h m o 2 5 f f s

/-- VSHR, rounding toward −∞ (R416). -/
def execVshr (h : Hdr) (m : ModVA) (o : R4) (s : State) : Out :=
  let f (a b _ : Word) : Word × FlagSet := intEl m.ty false (shrInt b.toNat (readEl m.ty a))
  elemOp (.vshr h m o) h m o 2 5 f f s

/-- VSEL: a where all 32 bits of c are not zero, else b (Table 19.2). -/
def execVsel (h : Hdr) (m : ModVA) (o : R4) (s : State) : Out :=
  rawOp (.vsel h m o) h m o 3 (fun a b c => if c = 0 then b else a) s

/-- VMOVS (Table 19.2). -/
def execVmovs (h : Hdr) (m : ModVA) (o : R4) (s : State) : Out := rawOp (.vmovs h m o) h m o 1 (fun a _ _ => a) s

/-! Comparison. -/

/-- A COND B for elements of a type (R419, R389). -/
def cmpEl (t : Ty) (c : Cond) (a b : Word) : Bool :=
  if t = .f32 then condFloat c (fv32 a) (fv32 b) else condInt c (readEl t a) (readEl t b)

/-- VCMP (R419). -/
def execVcmp (h : Hdr) (m : ModVC) (o : R4) (s : State) : Out :=
  vOp (.vcmp h m o) h (if m.slotB then 1 else 0) 5 o.dst (srcsOf o 2) (fun _ c =>
    VReg.map3 (fun a b _ => (if cmpEl m.ty m.cond a b then 0xFFFFFFFF else 0, 0))
      (c.vread m.obc o.a) (c.vread m.obc o.b) VReg.zero) s

/-! Conversion. -/

/-- A code of a format held in an element (R421): a float as its binary32 value, an integer extended. -/
def holdCode (t : Ty) (code : Nat) : Word :=
  match floatFmt (tyFmt t) with
  | some f => (round32 .rn (f.decode code)).1
  | none => writeEl t code

/-- Converts an element (R420, R421, Table 5.3). -/
def cvtEl (m : ModVV) (sat : Bool) (x : Word) : Word × FlagSet :=
  if m.sty ≠ .f32 ∧ (floatFmt (tyFmt m.tty)).isNone then intEl m.tty sat (readEl m.sty x)
  else
    let v := if m.sty = .f32 then fv32 x else FV.ofInt (readEl m.sty x) 0 false
    let (code, f) := encodeElem (tyFmt m.tty) m.rnd sat v
    (holdCode m.tty code, f)

def cvtOp (i : Instr) (h : Hdr) (m : ModVV) (sat : Bool) (o : R4) (s : State) : Out :=
  vOp i h 2 5 o.dst (srcsOf o 1) (fun _ c =>
    VReg.map3 (fun a _ _ => cvtEl m sat a) (c.vread false o.a) VReg.zero VReg.zero) s

/-- VCVT (R420, R421). -/
def execVcvt (h : Hdr) (m : ModVV) (o : R4) (s : State) : Out := cvtOp (.vcvt h m o) h m false o s

/-- VCVT with .SAT (R420, R421). -/
def execVcvtSat (h : Hdr) (m : ModVV) (o : R4) (s : State) : Out := cvtOp (.vcvtSat h m o) h m true o s

/-! Special functions: the tables and constants of R106, each the binary32 nearest to the value of its formula. -/

/-- TE[i] = 2^(i/32). -/
def tabTE : List Word :=
  [0x3F800000, 0x3F82CD87, 0x3F85AAC3, 0x3F88980F, 0x3F8B95C2, 0x3F8EA43A, 0x3F91C3D3, 0x3F94F4F0] ++
  [0x3F9837F0, 0x3F9B8D3A, 0x3F9EF532, 0x3FA27043, 0x3FA5FED7, 0x3FA9A15B, 0x3FAD583F, 0x3FB123F6] ++
  [0x3FB504F3, 0x3FB8FBAF, 0x3FBD08A4, 0x3FC12C4D, 0x3FC5672A, 0x3FC9B9BE, 0x3FCE248C, 0x3FD2A81E] ++
  [0x3FD744FD, 0x3FDBFBB8, 0x3FE0CCDF, 0x3FE5B907, 0x3FEAC0C7, 0x3FEFE4BA, 0x3FF5257D, 0x3FFA83B3]

/-- TL[i] = log2(1 + i/32). -/
def tabTL : List Word :=
  [0x00000000, 0x3D35D69C, 0x3DB31FB8, 0x3E0462C4, 0x3E2E00D2, 0x3E567AF1, 0x3E7DE0B6, 0x3E92203D] ++
  [0x3EA4D3C2, 0x3EB7110E, 0x3EC8DDD4, 0x3EDA3F60, 0x3EEB3A9F, 0x3EFBD42B, 0x3F060828, 0x3F0DF989] ++
  [0x3F15C01A, 0x3F1D5DA0, 0x3F24D3C2, 0x3F2C2411, 0x3F335004, 0x3F3A58FF, 0x3F41404F, 0x3F480731] ++
  [0x3F4EAED0, 0x3F553848, 0x3F5BA4A4, 0x3F61F4E5, 0x3F6829FB, 0x3F6E44CD, 0x3F744636, 0x3F7A2F04]

/-- TR[i] = 1/(1 + i/32). -/
def tabTR : List Word :=
  [0x3F800000, 0x3F783E10, 0x3F70F0F1, 0x3F6A0EA1, 0x3F638E39, 0x3F5D67C9, 0x3F579436, 0x3F520D21] ++
  [0x3F4CCCCD, 0x3F47CE0C, 0x3F430C31, 0x3F3E82FA, 0x3F3A2E8C, 0x3F360B61, 0x3F321643, 0x3F2E4C41] ++
  [0x3F2AAAAB, 0x3F272F05, 0x3F23D70A, 0x3F20A0A1, 0x3F1D89D9, 0x3F1A90E8, 0x3F17B426, 0x3F14F209] ++
  [0x3F124925, 0x3F0FB824, 0x3F0D3DCB, 0x3F0AD8F3, 0x3F088889, 0x3F064B8A, 0x3F042108, 0x3F020821]

/-- TC[i] = 1/(1 + (2i+1)/64). -/
def tabTC : List Word :=
  [0x3F7C0FC1, 0x3F74898D, 0x3F6D7304, 0x3F66C2B4, 0x3F607038, 0x3F5A740E, 0x3F54C77B, 0x3F4F6475] ++
  [0x3F4A4588, 0x3F4565C8, 0x3F40C0C1, 0x3F3C5264, 0x3F381703, 0x3F340B41, 0x3F302C0B, 0x3F2C7692] ++
  [0x3F28E83F, 0x3F257EB5, 0x3F2237C3, 0x3F1F1166, 0x3F1C09C1, 0x3F191F1A, 0x3F164FDA, 0x3F139A86] ++
  [0x3F10FDBC, 0x3F0E7835, 0x3F0C08C1, 0x3F09AE41, 0x3F0767AB, 0x3F053408, 0x3F03126F, 0x3F010204]

/-- TQ[i] = 1/sqrt(1 + (2i+1)/32) for i < 16, 1/sqrt(2 + (2(i-16)+1)/16) from there. -/
def tabTQ : List Word :=
  [0x3F7C1764, 0x3F74C867, 0x3F6E133E, 0x3F67E3ED, 0x3F6229ED, 0x3F5CD76E, 0x3F57E0CF, 0x3F533C2E] ++
  [0x3F4EE116, 0x3F4AC83F, 0x3F46EB5A, 0x3F4344E6, 0x3F3FD012, 0x3F3C889F, 0x3F396ACE, 0x3F36734A] ++
  [0x3F32416A, 0x3F2D166C, 0x3F285835, 0x3F23F8A2, 0x3F1FEC04, 0x3F1C2896, 0x3F18A61F, 0x3F155DA2] ++
  [0x3F124925, 0x3F0F6381, 0x3F0CA83F, 0x3F0A137D, 0x3F07A1D2, 0x3F05503E, 0x3F031C1A, 0x3F01030A]

def conE1 : Word := 0x3F317218
def conE2 : Word := 0x3E75FDF0
def conE3 : Word := 0x3D635847
def conG1 : Word := 0x3FB8AA3B
def conG2 : Word := 0xBF38AA3B
def conG3 : Word := 0x3EF6384F
def conG4 : Word := 0xBEB8AA3B
def conK1 : Word := 0x3F000000
def conK2 : Word := 0x3EC00000
def conK3 : Word := 0x3EA00000
def conK4 : Word := 0x3E8C0000

def tabAt (t : List Word) (i : Nat) : FV := fv32 (t.getD i 0)

/-- One rounding step of R106 on values: the rounded value and its flags. -/
def stepFma (a b c : FV) : FV × FlagSet :=
  let (w, f) := fma32 .rn a b c
  (fv32 w, f)
def stepMul (a b : FV) : FV × FlagSet :=
  let (w, f) := mul32 .rn a b
  (fv32 w, f)
def stepAdd (a b : FV) : FV × FlagSet :=
  let (w, f) := add32 .rn a b
  (fv32 w, f)

def fvInt (n : Int) : FV := FV.ofInt n 0 false

/-- A chain of Fma steps: Fma(t, … Fma(t, c0, c1) …, cn), with the union of their flags. -/
def horner (t : FV) : FV × FlagSet → List Word → FV × FlagSet
  | acc, [] => acc
  | acc, c :: cs =>
    let (v, f) := stepFma t acc.1 (fv32 c)
    horner t (v, acc.2 ||| f) cs

/-- What a special function reports of its steps (R107): NX of every step; OF and UF of the last. -/
def specFlags (steps last : FlagSet) : FlagSet := (steps &&& fNX) ||| last

/-- 2^x for a finite x (R106). -/
def expFin (neg : Bool) (m : Nat) (e : Int) : Word × FlagSet :=
  let n := floorInt neg m e
  let f := (FV.add .rn (.fin neg m e) (fvInt (-n))).1
  let i : Nat := match f with | .fin _ fm fe => (floorInt false fm (fe + 5)).toNat | _ => 0
  let t := (FV.add .rn f (.fin (i ≠ 0) i (-5))).1
  let (q, f1) := horner t (fv32 conE3, 0) [conE2, conE1]
  let (p, f2) := stepMul t q
  let (y, f3) := stepFma (tabAt tabTE i) p (tabAt tabTE i)
  let (w, f4) := round32 .rn (y.scale n)
  (w, specFlags (f1 ||| f2 ||| f3) f4)

/-- The significand of a magnitude in [1, 2), and its exponent. -/
def normOf (m : Nat) (e : Int) : FV × Int := (.fin false m (-(Nat.log2 m : Int)), leadExp m e)

/-- floor(c · (m − 1)) for a significand. -/
def segOf (c : Nat) (m : FV) (base : Int) : Nat :=
  match (FV.add .rn m (fvInt (-base))).1 with
  | .fin false n e => (floorInt false (n * c) e).toNat
  | _ => 0

/-- log2 x for a finite x > 0 (R106). -/
def logFin (m : Nat) (e : Int) : Word × FlagSet :=
  let (sig, ex) := normOf m e
  let i := segOf 32 sig 1
  let (u, f1) := stepFma sig (tabAt tabTR i) (fvInt (-1))
  let (q, f2) := horner u (fv32 conG4, 0) [conG3, conG2, conG1]
  let (p, f3) := stepMul u q
  let (r, f4) := stepAdd (tabAt tabTL i) p
  let (w, f5) := add32 .rn (fvInt ex) r
  (w, specFlags (f1 ||| f2 ||| f3 ||| f4) f5)

/-- 1/x for a finite x ≠ 0 (R106). -/
def rcpFin (neg : Bool) (m : Nat) (e : Int) : Word × FlagSet :=
  let (sig, ex) := normOf m e
  let i := segOf 32 sig 1
  let c := tabAt tabTC i
  let (d, f1) := stepFma sig.neg c (fvInt 1)
  let (w0, f2) := stepAdd d (fvInt 1)
  let (w1, f3) := stepFma d w0 (fvInt 1)
  let (w2, f4) := stepFma d w1 (fvInt 1)
  let (dw, f5) := stepMul d w2
  let (y, f6) := stepFma c dw c
  let y := y.scale (-ex)
  let (w, f7) := round32 .rn (if neg then y.neg else y)
  (w, specFlags (f1 ||| f2 ||| f3 ||| f4 ||| f5 ||| f6) f7)

/-- 1/√x for a finite x > 0 (R106). -/
def rsqFin (m : Nat) (e : Int) : Word × FlagSet :=
  let (sig, ex) := normOf m e
  -- e even: an odd exponent moves one power of two into the significand
  let odd := ex % 2 ≠ 0
  let sig := if odd then sig.scale 1 else sig
  let ex := if odd then ex - 1 else ex
  let i := if odd then 16 + segOf 8 sig 2 else segOf 16 sig 1
  let t := tabAt tabTQ i
  let (tt, f0) := stepMul t t
  let (d, f1) := stepFma sig.neg tt (fvInt 1)
  let (q, f2) := horner d (fv32 conK4, 0) [conK3, conK2, conK1]
  let (p, f3) := stepMul d q
  let (y, f4) := stepFma t p t
  let (w, f5) := round32 .rn (y.scale (-(ex / 2)))
  (w, specFlags (f0 ||| f1 ||| f2 ||| f3 ||| f4) f5)

/-- VEXP of an element (Table 5.4, R106). -/
def expEl (x : Word) : Word × FlagSet :=
  match fv32 x with
  | .nan => (0x7FC00000, 0)
  | .inf neg => (if neg then 0 else 0x7F800000, 0)
  | .fin neg m e => expFin neg m e

/-- VLOG of an element. -/
def logEl (x : Word) : Word × FlagSet :=
  match fv32 x with
  | .nan => (0x7FC00000, 0)
  | .inf neg => if neg then (0x7FC00000, fNV) else (0x7F800000, 0)
  | .fin neg m e => if m = 0 then (0xFF800000, fDZ) else if neg then (0x7FC00000, fNV) else logFin m e

/-- VRCP of an element. -/
def rcpEl (x : Word) : Word × FlagSet :=
  match fv32 x with
  | .nan => (0x7FC00000, 0)
  | .inf neg => (if neg then 0x80000000 else 0, 0)
  | .fin neg m e => if m = 0 then (if neg then 0xFF800000 else 0x7F800000, fDZ) else rcpFin neg m e

/-- VRSQ of an element. -/
def rsqEl (x : Word) : Word × FlagSet :=
  match fv32 x with
  | .nan => (0x7FC00000, 0)
  | .inf neg => if neg then (0x7FC00000, fNV) else (0, 0)
  | .fin neg m e =>
    if m = 0 then (if neg then 0xFF800000 else 0x7F800000, fDZ) else if neg then (0x7FC00000, fNV) else rsqFin m e

def specOp (i : Instr) (h : Hdr) (m : ModVF) (o : R4) (f : Word → Word × FlagSet) (s : State) : Out :=
  vOp i h 2 12 o.dst (srcsOf o 1) (fun _ c =>
    VReg.map3 (fun a _ _ => f a) (c.vread m.obc o.a) VReg.zero VReg.zero) s

/-- VEXP (R422); RND is ignored (R105). -/
def execVexp (h : Hdr) (m : ModVF) (o : R4) (s : State) : Out := specOp (.vexp h m o) h m o expEl s

/-- VLOG (R422). -/
def execVlog (h : Hdr) (m : ModVF) (o : R4) (s : State) : Out := specOp (.vlog h m o) h m o logEl s

/-- VRCP (R422). -/
def execVrcp (h : Hdr) (m : ModVF) (o : R4) (s : State) : Out := specOp (.vrcp h m o) h m o rcpEl s

/-- VRSQ (R422). -/
def execVrsq (h : Hdr) (m : ModVF) (o : R4) (s : State) : Out := specOp (.vrsq h m o) h m o rsqEl s

end Sys2Proof.Machine
end

