-- ==== Sys2Proof/Machine/VAxis.lean ====
section
/-! DEFINITION. V instructions that move elements along the axes of a register: rotations, broadcasts, VEXT, VTRN
(Table 19.3, R433), reductions and scans (R418), and PART (R388 to R390). They issue into slot X. -/

namespace Sys2Proof.Machine

/-- A raw axis operation: element (row, col) of the result from the source register and the scalar amount. -/
def axisOp (i : Instr) (h : Hdr) (m : ModVX) (o : R4) (lat : Nat) (f : Nat → VReg → Nat → Nat → Word) (s : State) :
    Out :=
  vOp i h 3 lat o.dst (srcsOf o 1) (fun s c =>
    let n := (s.me.vscalar o.b).toNat
    let a := c.vread m.obc o.a
    (VReg.gen fun k => f n a (k / 64) (k % 64), 0)) s

/-- VROTR (Table 19.3). -/
def execVrotr (h : Hdr) (m : ModVX) (o : R4) (s : State) : Out :=
  axisOp (.vrotr h m o) h m o 5 (fun n a row col => a.at_ (64 * row + (col + 64 - n % 64) % 64)) s

/-- VROTC (Table 19.3). -/
def execVrotc (h : Hdr) (m : ModVX) (o : R4) (s : State) : Out :=
  axisOp (.vrotc h m o) h m o 7 (fun n a row col => a.at_ (64 * ((row + 16 - n % 16) % 16) + col)) s

/-- VBCR (Table 19.3). -/
def execVbcr (h : Hdr) (m : ModVX) (o : R4) (s : State) : Out :=
  axisOp (.vbcr h m o) h m o 5 (fun n a row _ => a.at_ (64 * row + n % 64)) s

/-- VBCC (Table 19.3). -/
def execVbcc (h : Hdr) (m : ModVX) (o : R4) (s : State) : Out :=
  axisOp (.vbcc h m o) h m o 7 (fun n a _ col => a.at_ (64 * (n % 16) + col)) s

/-- VEXT: the row of A continued by that of B, from column n mod 64 on (Table 19.3). -/
def execVext (h : Hdr) (m : ModVX) (o : R4) (s : State) : Out :=
  vOp (.vext h m o) h 3 5 o.dst (srcsOf o 2) (fun s c =>
    let n := (s.me.vscalar o.c).toNat % 64
    let a := c.vread m.obc o.a
    let b := c.vread m.obc o.b
    (VReg.gen fun k =>
      let row := k / 64
      let j := k % 64 + n
      if j < 64 then a.at_ (64 * row + j) else b.at_ (64 * row + (j - 64)), 0)) s

/-- VTRN: each 16 × 16 block transposed (R433). -/
def execVtrn (h : Hdr) (m : ModVX) (o : R4) (s : State) : Out :=
  vOp (.vtrn h m o) h 3 9 o.dst (srcsOf o 1) (fun _ c =>
    let a := c.vread m.obc o.a
    (VReg.gen fun k =>
      let i := k / 64
      let b := k % 64 / 16
      let j := k % 16
      a.at_ (64 * j + 16 * b + i), 0)) s

/-! Reductions and scans. -/

/-- One step of a reduction (R418). -/
def redStep (m : ModVX) (x y : Word) : Word × FlagSet :=
  match m.op with
  | .add => if m.ty = .f32 then add32 m.rnd (fv32 x) (fv32 y) else intEl m.ty false (readEl m.ty x + readEl m.ty y)
  | .min => (if m.ty = .f32 then min32 x y else minEl m.ty x y, 0)
  | .max => (if m.ty = .f32 then max32 x y else maxEl m.ty x y, 0)
  | .and => (x &&& y, 0)
  | .or => (x ||| y, 0)
  | .xor => (x ^^^ y, 0)

/-- Combines the first half of a list with the second, element by element. -/
def foldHalf (m : ModVX) : List Word → List Word → List Word × FlagSet
  | x :: xs, y :: ys =>
    let (v, f) := redStep m x y
    let (vs, g) := foldHalf m xs ys
    (v :: vs, f ||| g)
  | _, _ => ([], 0)

/-- The halving reduction of 2^d elements. -/
def reduceList (m : ModVX) : Nat → List Word → Word × FlagSet
  | 0, xs => (xs.getD 0 0, 0)
  | d + 1, xs =>
    let (ys, f) := foldHalf m (xs.take (2 ^ d)) (xs.drop (2 ^ d))
    let (v, g) := reduceList m d ys
    (v, f ||| g)

/-- The inclusive scan of a list after a first value. -/
def scanList (m : ModVX) (acc : Word) : List Word → List Word × FlagSet
  | [] => ([], 0)
  | x :: xs =>
    let (v, f) := redStep m acc x
    let (vs, g) := scanList m v xs
    (v :: vs, f ||| g)

/-- An element as a reduction of one leaves it: under an integer ADD, MIN or MAX the w-bit value, extended (R418). -/
def redOnly (m : ModVX) (x : Word) : Word :=
  match m.op with
  | .add | .min | .max => if m.ty = .f32 then x else (intEl m.ty false (readEl m.ty x)).1
  | _ => x

/-- Column c of a register. -/
def VReg.colList (r : VReg) (c : Nat) : List Word := (List.range 16).map fun j => r.at_ (64 * j + c)

/-- VREDR (R418). -/
def execVredr (h : Hdr) (m : ModVX) (o : R4) (s : State) : Out :=
  vOp (.vredr h m o) h 3 8 o.dst (srcsOf o 1) (fun _ c =>
    let a := c.vread m.obc o.a
    let rs := (List.range 16).map fun r => reduceList m 6 (a.rowList r)
    (VReg.gen fun k => (rs.getD (k / 64) (0, 0)).1, rs.foldl (fun f r => f ||| r.2) 0)) s

/-- VREDC (R418). -/
def execVredc (h : Hdr) (m : ModVX) (o : R4) (s : State) : Out :=
  vOp (.vredc h m o) h 3 10 o.dst (srcsOf o 1) (fun _ c =>
    let a := c.vread m.obc o.a
    let rs := (List.range 64).map fun j => reduceList m 4 (a.colList j)
    (VReg.gen fun k => (rs.getD (k % 64) (0, 0)).1, rs.foldl (fun f r => f ||| r.2) 0)) s

/-- VSCANR (R418). -/
def execVscanr (h : Hdr) (m : ModVX) (o : R4) (s : State) : Out :=
  vOp (.vscanr h m o) h 3 8 o.dst (srcsOf o 1) (fun _ c =>
    let a := c.vread m.obc o.a
    let rs := (List.range 16).map fun r =>
      match a.rowList r with
      | [] => ([], 0)
      | x :: xs =>
        let (vs, f) := scanList m (redOnly m x) xs
        (redOnly m x :: vs, f)
    (VReg.gen fun k => (rs.getD (k / 64) ([], 0)).1.getD (k % 64) 0, rs.foldl (fun f r => f ||| r.2) 0)) s

/-! PART. -/

/-- The outcome of element e (R389). -/
def partOut (m : ModVP) (a b c : VReg) (e : Nat) : Nat :=
  (if cmpEl m.ty m.cond (a.at_ e) (b.at_ e) then 1 else 0) +
    (if m.way4 && cmpEl m.ty m.cond (a.at_ e) (c.at_ e) then 2 else 0)

/-- Element numbers with outcome t, ascending. -/
def partList (f : Nat → Nat) (t : Nat) : List Nat := (List.range 1024).filter fun e => f e = t

/-- PART (R388 to R390): the lists, and their lengths in a12 to a15. -/
def execPart (h : Hdr) (m : ModVP) (o : R4) (s : State) : Out :=
  let srcs := srcsOf o (if m.way4 then 3 else 2)
  issueV (.part h m o) h 3 12 (fun s =>
    vChecks s o.dst srcs fun s =>
      let c := s.core s.cur.1
      let f := partOut m (c.vread false o.a) (c.vread false o.b) (c.vread false o.c)
      let ls := [0, 1, 2, 3].map (partList f)
      let len (t : Nat) : Dword := dw (ls.getD t []).length
      let all := ls.foldl (· ++ ·) []
      let extra := [.a 12 (len 0), .a 13 (len 1)] ++ (if m.way4 then [.a 14 (len 2), .a 15 (len 3)] else [])
      vFinish s srcs 3 12 h o.dst (VReg.gen fun k => BitVec.ofNat 32 (all.getD k 0)) 0 extra none) s

end Sys2Proof.Machine
end

