-- ==== Sys2Proof/Machine/VMemory.lean ====
section
/-! DEFINITION. Memory instructions of the V engine: VLD, VST (R426, R427), VLDP, VSTP (R428 to R431), VGATH, VSCAT
(R423 to R425), and the lending of banks (R124, R432). Accesses are performed when they issue (log 15). -/

namespace Sys2Proof.Machine

/-! Addresses and lines. -/

/-- An address modulo 2^64. -/
def wrapAddr (a : Int) : Nat := wrapNat 64 a

/-- The locations of accesses of `size` bytes, each aligned to `align`, at addresses in order; the first failure wins
(R425, R427). -/
def State.vLocs (s : State) (j : Job) (acc : Acc) (align : Nat) : List Nat → Except (Byte × Nat) (List (Nat × Loc))
  | [] => .ok []
  | a :: as =>
    match s.resolve s.cur.1 j acc align a with
    | .error c => .error (c, a)
    | .ok l =>
      match s.vLocs j acc align as with
      | .error e => .error e
      | .ok ls => .ok ((a, l) :: ls)

/-- Addresses of n lines of 64 bytes. -/
def lineAddrs (ea : Nat) (n : Nat) : List Nat := (List.range n).map fun i => (ea + 64 * i) % 2 ^ 64

/-- What reading a list of places gives: the bytes of each and the first lost read; a machine check; or a wait for the
replayed order. -/
inductive VRead where
  | ok (s : State) (bs : List (List Byte)) (lost : Option Dword)
  | mc (s : State) (b : BadWord) (i : McInfo)
  | wait

/-- The message that the last access of an instruction went in (R452): the address after it, its endpoint, and whether it
arrives. -/
abbrev OpenMsg := Option (Nat × Endpoint × Bool)

/-- The endpoint that the one message of a run or a pane goes to: the first that holds a part of it and is not the issuing one's own.
A pane travels whole in one message (R452), also where its lines lie on two dies (DESIGN CHOICE, log 89). -/
def State.runHome (s : State) (u : UnitId) (ls : List Loc) : Endpoint :=
  ((ls.map s.homeOf).find? (· ≠ endOf u)).getD (endOf u)

/-- How an instruction's accesses share messages (R452): lines in runs that begin at a 4 KiB boundary, or the panes of a tensor, each
whole in one message. -/
inductive Share where
  | lines
  | panes (base : Nat)

/-- A message begins at an address. -/
def Share.begins : Share → Nat → Bool
  | .lines, a => a % 4096 = 0
  | .panes base, a => (2 ^ 64 + a - base) % 2 ^ 64 % paneBytes = 0

/-- Bytes that the accesses from address e on, n bytes each, add to a message of lines to an endpoint. -/
def State.runBytes (s : State) (home : Endpoint) (n e : Nat) : List (Nat × Loc) → Nat
  | [] => 0
  | (a, l) :: ls => if e = a && !Share.begins .lines a && s.homeOf l = home then n + s.runBytes home n (a + n) ls else 0

/-- An access of n bytes at address a goes in the open message when it carries on its run or its pane; else one begins that carries
the run from it on, or the pane. Answers whether the message arrives, and its endpoint. -/
def State.carry (s : State) (go : State → Endpoint → Nat → Bool × State) (w : Share) (m : OpenMsg) (n a : Nat)
    (l : Loc) (rest : List (Nat × Loc)) : Bool × Endpoint × State :=
  let fresh : Bool × Endpoint × State :=
    let (home, len) := match w with
      | .lines => (s.homeOf l, n + s.runBytes (s.homeOf l) n (a + n) rest)
      | .panes _ => (s.runHome s.cur.1 (l :: (rest.take 30).map (·.2)), paneBytes)
    let (ok, s) := go s home len
    (ok, home, s)
  match m with
  | some (e, h, ok) =>
    if e = a && !w.begins a && (match w with | .lines => h = s.homeOf l | .panes _ => true) then (ok, h, s) else fresh
  | none => fresh

/-- Reads n bytes at each place. -/
def State.vReads (s : State) (j : Job) (n : Nat) (w : Share) (m : OpenMsg) : List (Nat × Loc) → VRead
  | [] => .ok s [] none
  | (a, l) :: ls =>
    match s.checkLoc l (dw a) n with
    | .error (b, i) => .mc s b i
    | .ok s =>
      match s.arriveLoc l s.cur.1 .V n with
      | none => .wait
      | some s =>
        let bs := s.readLoc j.world l n
        let (ok, home, s) := s.carry (fun s d n => s.ask (endOf s.cur.1) d n) w m n a l ls
        match s.vReads j n w (some (a + n, home, ok)) ls with
        | .ok s rest lost => .ok s (bs :: rest) (if ok then lost else some (dw a))
        | r => r

/-- Reads places and goes on with their bytes; a wait leaves the state as it was. -/
def vReadAll (s : State) (j : Job) (n : Nat) (w : Share) (ls : List (Nat × Loc))
    (k : State → List (List Byte) → Option Dword → Res) : Res :=
  match s.vReads j n w none ls with
  | .wait => .freeze s .replay
  | .mc s b i => .done (s.readCheck s.cur.1 b i)
  | .ok s bs lost => k s bs lost

/-- The message of a V write that begins at an address. -/
def State.vSend (s : State) (a : Nat) (dst : Endpoint) (n : Nat) : Bool × State :=
  s.send (endOf s.cur.1) dst 0 n (.stream s.cur.1 .V (.write (dw a)))

/-- Performs writes at places in order; none while one must wait. -/
def State.vWrites (s : State) (j : Job) (w : Share) (m : OpenMsg) : List ((Nat × Loc) × List Byte) → Option State
  | [] => some s
  | ((a, l), bs) :: ws =>
    match s.arriveLoc l s.cur.1 .V bs.length with
    | none => none
    | some s =>
      let (ok, home, s) := s.carry (fun s d n => s.vSend a d n) w m bs.length a l (ws.map (·.1))
      (s.applyWrite s.cur.1 .V j l (dw a) bs ok).vWrites j w (some (a + bs.length, home, ok)) ws

/-- The mark of a lost V read. -/
def vLost (s : State) (i : Instr) (h : Hdr) (lost : Option Dword) : Option LostRead :=
  lost.map fun va => s.me.lostRead (instrWords i) h.wait va

/-! Conversion (Table 19.4). -/

/-- A memory code as an element. -/
def loadEl (t : Ty) (code : Nat) : Word := if t = .f32 then BitVec.ofNat 32 code else holdCode t code

/-- The elements of a raw run, with FMT for misplaced escapes. -/
def loadRun (t : Ty) (codes : List Nat) : List Word × FlagSet :=
  if t = .i4x then
    let (es, f) := decodeRun fI4X codes
    (es.map fun e => (round32 .rn (elemValue e.1 e.2)).1, f)
  else (codes.map (loadEl t), 0)

/-- An element as a memory code. -/
def storeEl (t : Ty) (mode : Rnd) (sat : Bool) (x : Word) : Nat × FlagSet :=
  match floatFmt (tyFmt t) with
  | some _ => encodeElem (tyFmt t) mode sat (fv32 x)
  | none => satInt (tyBits t) (tyUnsigned t) sat (if tyUnsigned t then (x.toNat : Int) else x.toInt)

/-- The codes of a raw run. -/
def storeRun (t : Ty) (mode : Rnd) (sat : Bool) (xs : List Word) : List Nat × FlagSet :=
  if t = .i4x then encodeQuads mode sat (xs.map fv32)
  else xs.foldr (fun x acc => let (c, f) := storeEl t mode sat x; (c :: acc.1, f ||| acc.2)) ([], 0)

/-- A list as a register. -/
def VReg.ofList (l : List Word) : VReg :=
  let v := l.toArray
  VReg.gen fun i => v.getD i 0

/-- The elements of a register. -/
def VReg.all (r : VReg) : List Word := (List.range 1024).map r.at_

/-! VLD and VST. -/

/-- Lines a raw access of a type spans. -/
def tyLines (t : Ty) : Nat := 2 * tyBits t

/-- The span of a VLD or VST (R426). -/
def vSpan (s : State) (o : MemOp) (t : Ty) : List Nat :=
  lineAddrs (wrapAddr ((s.me.vscalar o.base).toNat + 64 * o.disp.toInt)) (tyLines t)

/-- VLD (R426, R427). -/
def execVld (h : Hdr) (m : ModVM) (o : MemOp) (s : State) : Out :=
  let i := Instr.vld h m o
  issueV i h 3 14 (fun s =>
    vChecks s o.d [] fun s =>
      match (s.core s.cur.1).job with
      | none => trapFree s cProtection
      | some j =>
        match s.vLocs j .read 64 (vSpan s o m.ty) with
        | .error (c, a) => .trap s c (dw a)
        | .ok ls =>
          vReadAll s j 64 .lines ls fun s bs lost =>
            let (xs, f) := loadRun m.ty (codesOf (tyBits m.ty) bs.flatten)
            vFinish s [] 3 14 h o.d (VReg.ofList xs) f [] (vLost s i h lost)) s

/-- Bytes cut into pieces of n. -/
def chunks (n : Nat) : Nat → List Byte → List (List Byte)
  | 0, _ => []
  | k + 1, bs => bs.take n :: chunks n k (bs.drop n)

/-- VST (R426, R427). -/
def execVst (h : Hdr) (m : ModVM) (o : MemOp) (s : State) : Out :=
  issueV (.vst h m o) h 3 14 (fun s =>
    vChecks s .none [o.d] fun s =>
      match (s.core s.cur.1).job with
      | none => trapFree s cProtection
      | some j =>
        match s.vLocs j .write 64 (vSpan s o m.ty) with
        | .error (c, a) => .trap s c (dw a)
        | .ok ls =>
          let (codes, f) := storeRun m.ty m.rnd m.sat ((s.core s.cur.1).vread false o.d).all
          match s.vWrites j .lines none (ls.zip (chunks 64 (tyLines m.ty) (bytesOf (tyBits m.ty) codes))) with
          | none => .freeze s .replay
          | some s => vFinishNone s [o.d] 3 14 h f none) s

/-! VGATH and VSCAT. -/

/-- The places of an index register's elements (R423): byte address and nibble of each, none for 0x8000_0000. -/
def scatterPlaces (base : Dword) (disp : BitVec 8) (w : Nat) (idx : VReg) : List (Option (Nat × Nat)) :=
  idx.all.map fun x =>
    if x = 0x80000000 then none
    else
      let bit : Int := 8 * (base.toNat : Int) + (x.toInt + disp.toInt) * w
      some (wrapAddr (bit / 8), (bit % 8 / 4).toNat)

/-- Bytes of one element. -/
def elBytes (w : Nat) : Nat := max 1 (w / 8)

/-- The memory code at a place. -/
def placeCode (w nib : Nat) (bs : List Byte) : Nat := if w = 4 then ofBytes bs / 16 ^ nib % 16 else ofBytes bs

/-- Gathered elements: each place takes the next bytes read; an index that names no element gives +0. -/
def gathered (t : Ty) : List (Option (Nat × Nat)) → List (List Byte) → List Word
  | [], _ => []
  | none :: ps, bs => 0 :: gathered t ps bs
  | some p :: ps, bs => loadEl t (placeCode (tyBits t) p.2 (bs.headD [])) :: gathered t ps bs.tail

/-- VGATH (R423 to R425). -/
def execVgath (h : Hdr) (m : ModVM) (o : MemOp) (s : State) : Out :=
  let i := Instr.vgath h m o
  issueV i h 3 20 (fun s =>
    vChecks s o.d [o.aux] fun s =>
      match (s.core s.cur.1).job with
      | none => trapFree s cProtection
      | some j =>
        let w := tyBits m.ty
        let ps := scatterPlaces (s.me.vscalar o.base) o.disp w ((s.core s.cur.1).vread false o.aux)
        match s.vLocs j .read (elBytes w) (ps.filterMap fun p => p.map (·.1)) with
        | .error (c, a) => .trap s c (dw a)
        | .ok ls =>
          vReadAll s j (elBytes w) .lines ls fun s bs lost =>
            vFinish s [o.aux] 3 20 h o.d (VReg.ofList (gathered m.ty ps bs)) 0 [] (vLost s i h lost)) s

/-- Performs scattered writes in ascending position: a 4-bit element is a read-modify-write of its byte (R424). -/
def State.scatter (s : State) (j : Job) (w : Nat) (m : OpenMsg) : List ((Nat × Loc) × Nat × Nat) → Option State
  | [] => some s
  | ((a, l), nib, code) :: ws =>
    let bs : List Byte :=
      if w = 4 then
        let old := (s.locByte j.world l).toNat
        [BitVec.ofNat 8 (if nib = 0 then old / 16 * 16 + code else code * 16 + old % 16)]
      else toBytes (w / 8) code
    match s.arriveLoc l s.cur.1 .V bs.length with
    | none => none
    | some s =>
      let (ok, home, s) := s.carry (fun s d n => s.vSend a d n) .lines m bs.length a l (ws.map (·.1))
      (s.applyWrite s.cur.1 .V j l (dw a) bs ok).scatter j w (some (a + bs.length, home, ok)) ws

/-- The positions a scatter converts: nibble, code and flags of each whose index names an element. -/
def scatterCodes (t : Ty) (mode : Rnd) (sat : Bool) (ps : List (Option (Nat × Nat))) (xs : List Word) :
    List (Nat × Nat × Nat) × FlagSet :=
  (ps.zip xs).foldr (fun p acc =>
    match p.1 with
    | none => acc
    | some (a, nib) =>
      let (c, f) := storeEl t mode sat p.2
      ((a, nib, c) :: acc.1, f ||| acc.2)) ([], 0)

/-- VSCAT (R423 to R425). -/
def execVscat (h : Hdr) (m : ModVM) (o : MemOp) (s : State) : Out :=
  issueV (.vscat h m o) h 3 20 (fun s =>
    vChecks s .none [o.d, o.aux] fun s =>
      match (s.core s.cur.1).job with
      | none => trapFree s cProtection
      | some j =>
        let c := s.core s.cur.1
        let w := tyBits m.ty
        let ps := scatterPlaces (s.me.vscalar o.base) o.disp w (c.vread false o.aux)
        let (cs, f) := scatterCodes m.ty m.rnd m.sat ps (c.vread false o.d).all
        match s.vLocs j .write (elBytes w) (cs.map (·.1)) with
        | .error (e, a) => .trap s e (dw a)
        | .ok ls =>
          match s.scatter j w none (ls.zip (cs.map (·.2))) with
          | none => .freeze s .replay
          | some s => vFinishNone s [o.d, o.aux] 3 20 h f none) s

/-! Panes. -/

/-- Address of pane p of a tensor (R89). -/
def paneAddr (base : Nat) (p : Nat) : Nat := (base + paneBytes * p) % 2 ^ 64

/-- Panes that n elements from `first` touch, ascending. -/
def panesOf (wc : BitVec 2) (first n : Nat) : List Nat :=
  let lo := first / epb wc / 30
  let hi := (first + n - 1) / epb wc / 30
  (List.range (hi - lo + 1)).map (lo + ·)

/-- The lines of panes. -/
def paneLines (base : Nat) (ps : List Nat) : List Nat := ps.flatMap fun p => lineAddrs (paneAddr base p) 31

/-- Groups of 31 lines joined into panes. -/
def joinPanes : Nat → List (List Byte) → List (List Byte)
  | 0, _ => []
  | n + 1, ls => (ls.take 31).flatten :: joinPanes n (ls.drop 31)

/-- The first failing check of panes in ascending order (R93). -/
def firstFault (wc : BitVec 2) (ps : List (List Byte)) : Option Half := ps.findSome? (paneFault wc)

/-- The value of tensor element e, and whether its code is a misplaced escape, from the panes that begin with `p0`. -/
def paneElement (wc : BitVec 2) (p0 : Nat) (panes : Array (List FV × List Bool)) (e : Nat) : FV × Bool :=
  let b := e / epb wc
  let blk := panes.getD ((b / 30 - p0) * 30 + b % 30) ([], [])
  (blk.1.getD (e % epb wc) .nan, blk.2.getD (e % epb wc) false)

/-- The values of a block with its misplaced escapes; a block of scale 255 sets no flag (R86). -/
def blockData (p : List Byte) (j : Nat) : List FV × List Bool :=
  let codes := codesOf (fmtBits (paneFmt p j)) (paneLine p j)
  ((blockValues p j).1,
   if paneFmt p j = fI4X ∧ paneScale p j ≠ 0xFF then badQuads codes else [])

/-- n elements from `first`, widened to binary32 with their flags (R429); a NaN becomes the canonical NaN, one of binary32 too (DEDUCED,
log 38). -/
def paneElements (wc : BitVec 2) (p0 : Nat) (panes : List (List Byte)) (first n : Nat) : List Word × FlagSet :=
  let blocks := (panes.flatMap fun p => (List.range 30).map (blockData p)).toArray
  (List.range n).foldr (fun i acc =>
    let (x, bad) := paneElement wc p0 blocks (first + i)
    let (w, f) := round32 .rn x
    (w :: acc.1, f ||| fIf bad fFMT ||| acc.2)) ([], 0)

/-- VLDP (R428, R429, R431). -/
def execVldp (h : Hdr) (m : ModVQ) (o : MemOp) (s : State) : Out :=
  let i := Instr.vldp h m o
  issueV i h 3 14 (fun s =>
    vChecks s o.d [] fun s =>
      let base := s.me.vscalar o.base
      let first := (s.me.vscalar o.aux).toNat
      match (s.core s.cur.1).job with
      | none => trapFree s cProtection
      | some j =>
        match alignFault base.toNat 64 with
        | some c => .trap s c base
        | none =>
          let ps := panesOf m.wc first 1024
          match s.vLocs j .read 64 (paneLines base.toNat ps) with
          | .error (c, a) => .trap s c (dw a)
          | .ok ls =>
            vReadAll s j 64 (.panes base.toNat) ls fun s bs lost =>
              let panes := joinPanes ps.length bs
              match firstFault m.wc panes with
              | some code => if lost.isSome then vFinish s [] 3 14 h o.d VReg.zero 0 [] (vLost s i h lost)
                             else .trap s cPane (paneDetail code 0)
              | none =>
                let (xs, f) := paneElements m.wc (ps.headD 0) panes first 1024
                vFinish s [] 3 14 h o.d (VReg.ofList xs) f [] (vLost s i h lost)) s

/-- A pane with the codes of elements merged: `els` gives element index within the pane and code; every block that holds
one takes the tag (R94, R454). A writer knows no tensor's end: the padding of R90 is what the elements it is given, and the blocks it leaves,
hold (DEDUCED, log 70). -/
def mergePane (wc : BitVec 2) (fmt scale : Byte) (els : List (Nat × Nat)) (p : List Byte) : List Byte :=
  let w := classBits wc
  paneSeal ((List.range 30).foldl (fun p j =>
    let mine := els.filter fun e => e.1 / epb wc = j
    if mine.isEmpty then p
    else panePut p j fmt scale
      (bytesOf w (mine.foldl (fun cs e => setAt cs (e.1 % epb wc) e.2) (codesOf w (paneLine p j))))) p)

/-- Elements of pane p, by index within the pane. -/
def elsOfPane (wc : BitVec 2) (p : Nat) (els : List (Nat × Nat)) : List (Nat × Nat) :=
  els.filterMap fun e => if e.1 / (epb wc * 30) = p then some (e.1 % (epb wc * 30), e.2) else none

/-- An empty pane, for a writer that replaces every block. -/
def paneZero : List Byte := List.replicate paneBytes 0

/-- VSTP (R428, R430, R431, R150). -/
def execVstp (h : Hdr) (m : ModVQ) (d base aux : Spec) (ben : Bool) (bidx : BitVec 6) (scale fmt : Byte) (s : State) :
    Out :=
  let i := Instr.vstp h m d base aux ben bidx scale fmt
  issueV i h 3 14 (fun s =>
    vChecks s .none [d] fun s =>
      let b := s.me.vscalar base
      let first := s.me.vscalar aux
      let u := s.cur.1
      match (s.core u).job with
      | none => trapFree s cProtection
      | some j =>
        match alignFault b.toNat 64 with
        | some c => .trap s c b
        | none =>
          if first.toNat % epb m.wc ≠ 0 then .trap s cAlignment first
          else
          let ps := panesOf m.wc first.toNat 1024
          match s.vLocs j .both 64 (paneLines b.toNat ps) with
          | .error (c, a) => .trap s c (dw a)
          | .ok ls =>
            let entry := s.boundEntry u bidx.toNat
            if ben && entry.isNone then trapFree s cProtection
            else
              let xs := ((s.core u).vread false d).all
              let out := ben && xs.any fun x => match entry with | some b => b.out x | none => false
              if out && (match entry with | some b => b.action = 2 | none => false) then
                .trap s cPane (paneDetail cwBound bidx.toNat)
              else
                vReadAll s j 64 (.panes b.toNat) ls fun s bs lost =>
                  let panes := joinPanes ps.length bs
                  if lost.isSome then vFinishNone s [d] 3 14 h 0 (vLost s i h lost)
                  else
                    match firstFault m.wc panes with
                    | some code => .trap s cPane (paneDetail code 0)
                    | none =>
                      let ys := xs.map fun x => match entry with | some b => if ben then b.apply x else x | none => x
                      let (els, f) := encodeEls fmt m.rnd m.sat
                        (((List.range 1024).zip ys).map fun y => (first.toNat + y.1, unscaled scale (fv32 y.2)))
                      let new := (ps.zip panes).map fun p => mergePane m.wc fmt scale (elsOfPane m.wc p.1 els) p.2
                      match s.vWrites j (.panes b.toNat) none (ls.zip (new.flatMap (chunks 64 31))) with
                      | none => .freeze s .replay
                      | some s => vFinishNone s [d] 3 14 h (f ||| fIf out fBOUND) none) s

/-! Bank lending. -/

/-- A result in flight lands in a bank. -/
def Core.bankPending (c : Core) (bank : BitVec 2) : Bool :=
  c.eV.flights.any fun f => f.writes.any fun w => match w with | .v n _ => bankOf n = bank.toNat | _ => false

/-- An open chain, or an issued MRET, has its group in a bank (R124). -/
def Core.chainIn (c : Core) (bank : BitVec 2) : Bool := c.chain.state ≠ .none && bankOf c.chain.vbase = bank.toNat

/-- The ownership of the banks after a VLEND at a time: M still sees the old one in that ec (R124). -/
def Core.setLent (c : Core) (time : Nat) (l : BitVec 4) : Core :=
  { c with lent := l, lentPrev := if c.lentAt = time then c.lentPrev else c.lent, lentAt := time }

/-- VLEND (R124, R432). -/
def execVlend (h : Hdr) (ret : Bool) (bank : BitVec 2) (s : State) : Out :=
  .next (s.issue (.vlend h ret bank) 0 (some h) false (offSV 1 h) fun s =>
    let u := s.cur.1
    let c := s.core u
    let bit : BitVec 4 := 1#4 <<< bank.toNat
    let lent := c.lent.getLsbD bank.toNat
    let go (s : State) : Res := .seq (if h.sig = 0 then s else s.fly u .V 1 [] 0 h.sig)
    if ret then
      if !lent then go s
      else if c.chainIn bank then .trap s cLendHazard s.me.pc
      else go (s.setCore u (c.setLent s.time (c.lent &&& ~~~bit)))
    else if lent then go s
    else if c.bankPending bank then .trap s cLendHazard s.me.pc
    else go (s.setCore u (c.setLent s.time (c.lent ||| bit))))

end Sys2Proof.Machine
end

