-- ==== Sys2Proof/Machine/CMem.lean ====
section
/-! DEFINITION. Accesses of C commands and streams (R320 to R323, R148, R187, R452): runs of bytes, panes, and the messages
that carry them. -/

namespace Sys2Proof.Machine

/-! Messages of one access. -/

/-- Splits the locations of an access at address va into the runs that one message carries (R452): those within one
4 KiB-aligned range. -/
def splitRuns (size : Nat) : Nat → Nat → List Loc → List (List Loc)
  | 0, _, _ => []
  | _ + 1, _, [] => []
  | n + 1, va, ls =>
    let k := size - va % size
    ls.take k :: splitRuns size n (va + k) (ls.drop k)

def runsOf (va : Nat) (ls : List Loc) : List (List Loc) := splitRuns 4096 (ls.length / 4096 + 2) va ls

/-- The part of an access in each 64-byte line (Table 7.1). -/
def linesOf (va : Nat) (ls : List Loc) : List (List Loc) := splitRuns 64 (ls.length / 64 + 2) va ls

/-- What became of the messages of a run: whether the arrays that hold it were reached, and whether the access is whole. -/
structure Crossed where
  served : Bool
  whole : Bool

/-- Sends one message for each run, or asks for it. -/
def State.crossRuns (s : State) (u : UnitId) (rd : Bool) : List (List Loc) → List Crossed × State
  | [] => ([], s)
  | r :: rs =>
    let home := s.runHome u r
    let served := s.arrives (endOf u) home 0
    let (ok, s) := if rd then s.ask (endOf u) home r.length else s.send (endOf u) home 0 r.length .other
    let (cs, s) := s.crossRuns u rd rs
    ({ served := served, whole := ok } :: cs, s)

/-- Arrivals of the lines of an access at scratchpads (R305); none while one must wait for the replayed order. -/
def State.arriveLines (s : State) (u : UnitId) (e : Eng) : List (List Loc) → Option State
  | [] => some s
  | [] :: ls => s.arriveLines u e ls
  | (l :: r) :: ls =>
    match s.arriveLoc l u e (r.length + 1) with
    | none => none
    | some s => s.arriveLines u e ls

/-- Arrivals of the runs of an access at address va whose messages reached the arrays (R305): a bank logs what it serves. -/
def State.arriveRuns (s : State) (u : UnitId) (e : Eng) (va : Nat) : List (List Loc) → List Crossed → Option State
  | r :: rs, c :: cs =>
    match if c.served then s.arriveLines u e (linesOf va r) else some s with
    | none => none
    | some s => s.arriveRuns u e (va + r.length) rs cs
  | _, _ => some s

/-- A code for an address fault (R321). -/
def faultCode (cause : Byte) : Half := 0x0200 + cause.setWidth 16

def cwRange : Half := 0x0202

/-! Reads and writes. -/

/-- How an access of a command ends. Bytes that a lost message would have carried are none. -/
inductive CAcc (α : Type) where
  | ok (s : State) (v : α) (lost : Bool)
  | bad (s : State) (code : Half)
  | wait

/-- Pairs each run's bytes with whether its message arrived. -/
def readRuns (s : State) (w : World) : List (List Loc) → List Crossed → List (Option Byte)
  | r :: rs, c :: cs => (r.map fun l => if c.whole then some (s.locByte w l) else none) ++ readRuns s w rs cs
  | _, _ => []

/-- Reads the bytes at locations that stand at address va, in runs. Data that cannot be corrected is a machine check of the
core or the die whose array holds it, and ends the command (R262). -/
def State.readAt (s : State) (u : UnitId) (e : Eng) (j : Job) (va : Nat) (runs : List (List Loc)) :
    CAcc (List (Option Byte)) :=
  match s.checkLocs runs.flatten with
  | .error (b, i) => .bad (s.arrayCheck b i) cwUncorrectable
  | .ok s =>
    let (cs, s) := s.crossRuns u true runs
    match s.arriveRuns u e va runs cs with
    | none => .wait
    | some s => .ok s (readRuns s j.world runs cs) (cs.any fun c => !c.whole)

/-- Reads n bytes at a virtual address. -/
def State.cRead (s : State) (u : UnitId) (e : Eng) (j : Job) (ea n : Nat) : CAcc (List (Option Byte)) :=
  match s.cmdLocs u j .read ea n with
  | .error c => .bad s (faultCode c)
  | .ok ls => s.readAt u e j ea (runsOf ea ls)

/-- Writes the bytes that are known at a run's locations, but where a write later in tie order stands (R160); `note` when other queued
writes may race with them. -/
def State.writeSome (s : State) (t : Tie) (note : Bool) (w : World) : List Loc → List (Option Byte) → State
  | l :: ls, some b :: bs =>
    let put := s.putLoc w b l
    (if s.mayWrite t l then (if note then put.noteByte t l else put) else s).writeSome t note w ls bs
  | _ :: ls, none :: bs => s.writeSome t note w ls bs
  | _, _ => s

/-- Applies the runs whose messages arrive. -/
def State.writeRuns (s : State) (t : Tie) (note : Bool) (w : World) : List (List Loc) → List Crossed → List (Option Byte) → State
  | r :: rs, c :: cs, bs =>
    (if c.whole then s.writeSome t note w r (bs.take r.length) else s).writeRuns t note w rs cs (bs.drop r.length)
  | _, _, _ => { s with writes := if note then s.writes + 1 else s.writes }

/-- Writes bytes at locations that stand at address va, as a write of these keys. -/
def State.writeAt (s : State) (u : UnitId) (e : Eng) (j : Job) (t : Tie) (va : Nat) (runs : List (List Loc))
    (bs : List (Option Byte)) : CAcc Unit :=
  let (cs, s) := s.crossRuns u false runs
  match s.arriveRuns u e va runs cs with
  | none => .wait
  | some s => .ok (s.writeRuns t (s.racing t) j.world runs cs bs) () (cs.any fun c => !c.whole)

/-- Bytes of a read that lost nothing. -/
def knownBytes (bs : List (Option Byte)) : List Byte := bs.map (·.getD 0)

/-- Reads n bytes whole: a lost message ends the command (R187). -/
def State.cReadWhole (s : State) (u : UnitId) (e : Eng) (j : Job) (ea n : Nat) : CAcc (List Byte) :=
  match s.cRead u e j ea n with
  | .ok s bs lost => if lost then .bad s cwLoss else .ok s (knownBytes bs) false
  | .bad s c => .bad s c
  | .wait => .wait

/-- Reads a command's 64-byte descriptor (R320). -/
def State.cDesc (s : State) (u : UnitId) (j : Job) (ea : Nat) : CAcc (List Byte) :=
  match alignFault ea 64 with
  | some c => .bad s (faultCode c)
  | none => s.cReadWhole u .C j ea 64

/-! Panes: each travels whole in one message (R452). -/

/-- Reads a pane, indivisibly. -/
def State.cReadPane (s : State) (u : UnitId) (e : Eng) (j : Job) (ea : Nat) : CAcc (List Byte) :=
  match s.cmdLocs u j .read ea paneBytes with
  | .error c => .bad s (faultCode c)
  | .ok ls =>
    match s.readAt u e j ea [ls] with
    | .ok s bs lost => if lost then .bad s cwLoss else .ok s (knownBytes bs) false
    | .bad s c => .bad s c
    | .wait => .wait

/-- Writes a pane at its locations, indivisibly; a lost message leaves the pane unchanged (R94, R186, R346). -/
def State.cWritePane (s : State) (u : UnitId) (e : Eng) (j : Job) (t : Tie) (ea : Nat) (ls : List Loc) (p : List Byte) : CAcc Unit :=
  match s.writeAt u e j t ea [ls] (p.map some) with
  | .ok s _ lost => if lost then .bad s cwLoss else .ok s () false
  | .bad s c => .bad s c
  | .wait => .wait

/-- A write that has just read what it writes over: every write so far may be causally before it (R94, R154). -/
def State.merging (s : State) (t : Tie) : Tie := { t with since := s.writes }

/-- One of n bytes from an address names host memory (R323). -/
def State.namesHost (s : State) (u : UnitId) (j : Job) (ea n : Nat) : Bool :=
  (List.range n).any fun i =>
    match s.cmdLoc u j .named (ea + i) with
    | .ok (.host _) => true
    | _ => false

/-- A field of a descriptor's bytes: n bytes from offset o. -/
def field (d : List Byte) (o n : Nat) : Nat := ofBytes ((d.drop o).take n)

end Sys2Proof.Machine
end

