-- ==== Sys2Proof/Machine/Copy.lean ====
section
/-! DEFINITION. Copies, ciphers, barrier writes and slot fills: what the C engine's commands do once they reach the head of
their queue (R339 to R347, R404 to R406), and their issue. -/

namespace Sys2Proof.Machine

/-- How a command's turn ends: it must wait, it has begun, or it is performed with the code and PROGRESS of its completion
word. -/
inductive CDone where
  | wait
  | begun (s : State)
  | done (s : State) (code : Half) (progress : Nat)

/-- Reads the descriptor of a command, or ends it. -/
def withDesc (s : State) (u : UnitId) (j : Job) (ea : Dword) (k : State → List Byte → CDone) : CDone :=
  match s.cDesc u j ea.toNat with
  | .ok s d _ => k s d
  | .bad s c => .done s c 0
  | .wait => .wait

/-! CPY. -/

/-- An affine copy (Table 16.4): source and destination, COUNT0 to COUNT3, strides of dimensions 1 to 3. -/
structure CpyDesc where
  dst : Nat
  src : Nat
  counts : List Nat
  dstr : List Int
  sstr : List Int

def cpyDesc (d : List Byte) : CpyDesc :=
  { dst := field d 0 8, src := field d 8 8, counts := [field d 16 2, field d 18 2, field d 20 2, field d 22 2],
    sstr := [signedOf 32 (field d 24 4), signedOf 32 (field d 32 4), signedOf 32 (field d 40 4)],
    dstr := [signedOf 32 (field d 28 4), signedOf 32 (field d 36 4), signedOf 32 (field d 44 4)] }

/-- Rows, and the byte offset of row n by its strides. -/
def CpyDesc.rows (d : CpyDesc) : Nat := (d.counts.drop 1).foldl (· * ·) 1
def CpyDesc.bad (d : CpyDesc) (bs : List Byte) : Bool := d.counts.any (· = 0) || (bs.drop 48).any (· ≠ 0)

/-- Offset of row n under strides: dimension 1 innermost. -/
def stridesAt : List Nat → List Int → Nat → Int
  | c :: cs, st :: sts, n => ((n % c : Nat) : Int) * st + stridesAt cs sts (n / c)
  | _, _, _ => 0

/-- Addresses of row n at the source and at the destination. -/
def CpyDesc.srcAt (d : CpyDesc) (n : Nat) : Nat := wrapAddr ((d.src : Int) + stridesAt (d.counts.drop 1) d.sstr n)
def CpyDesc.dstAt (d : CpyDesc) (n : Nat) : Nat := wrapAddr ((d.dst : Int) + stridesAt (d.counts.drop 1) d.dstr n)

/-- Bytes of a row. -/
def CpyDesc.rowLen (d : CpyDesc) : Nat := d.counts.getD 0 0

/-- PROGRESS of a copy whose first n rows are written. -/
def CpyDesc.progress (d : CpyDesc) (n : Nat) : Nat := n * d.rowLen / 64

/-- Copies rows n, n + 1, …; `lost` is the lowest row with a byte of a lost message (R343, R344). -/
def copyRows (u : UnitId) (j : Job) (t : Tie) (d : CpyDesc) (s : State) (lost : Option Nat) (n : Nat) : Nat → CDone
  | 0 =>
    match lost with
    | some r => .done s cwLoss (d.progress r)
    | none => .done s 0 (d.progress n)
  | k + 1 =>
    let stop (s : State) (code : Half) : CDone :=
      match lost with
      | some r => .done s cwLoss (d.progress r)
      | none => .done s code (d.progress n)
    let so := d.srcAt n
    let do_ := d.dstAt n
    match s.cmdLocs u j .read so d.rowLen, s.cmdLocs u j .write do_ d.rowLen with
    | .error c, _ => stop s (faultCode c)
    | _, .error c => stop s (faultCode c)
    | .ok sl, .ok dl =>
      match s.readAt u .C j so (runsOf so sl) with
      | .wait => .wait
      | .bad s c => stop s c
      | .ok s bs lr =>
        match s.writeAt u .C j t do_ (runsOf do_ dl) bs with
        | .wait => .wait
        | .bad s c => stop s c
        | .ok s _ lw => copyRows u j t d s (if (lr || lw) && lost.isNone then some n else lost) (n + 1) k

/-- A copy names host addresses at both ends (R323): a byte of some row at each. -/
def CpyDesc.bothHost (d : CpyDesc) (s : State) (u : UnitId) (j : Job) : Bool :=
  ((List.range d.rows).any fun n => s.namesHost u j (d.srcAt n) d.rowLen) &&
    (List.range d.rows).any fun n => s.namesHost u j (d.dstAt n) d.rowLen

/-- CPY at the head of its queue. -/
def runCpy (s : State) (u : UnitId) (j : Job) (t : Tie) (ea : Dword) : CDone :=
  withDesc s u j ea fun s bs =>
    let d := cpyDesc bs
    if d.bad bs then .done s cwRange 0
    else if d.bothHost s u j then .done s cwRange 0
    else copyRows u j t d s none 0 d.rows

/-! CPYP and CPYR. -/

/-- A pane copy (Table 16.5). -/
structure PcpyDesc where
  dst : Nat
  src : Nat
  wcd : Nat
  n : Nat
  dstr : Nat
  sstr : Nat

def pcpyDesc (d : List Byte) : PcpyDesc :=
  { dst := field d 0 8, src := field d 8 8, wcd := field d 19 1 % 4, n := field d 16 3, dstr := field d 28 4,
    sstr := field d 24 4 }

/-- A field is reserved and not zero, or outside its range. -/
def PcpyDesc.bad (d : PcpyDesc) (bs : List Byte) : Bool :=
  field bs 16 8 / 2 ^ 26 ≠ 0 || (bs.drop 32).any (· ≠ 0) || d.n = 0 || d.dstr = 0 || 2 ^ 31 ≤ d.dstr || d.sstr = 0 ||
    2 ^ 31 ≤ d.sstr

/-- The pane to write for one that was read, or the code of its failing check: an internal or exit copy checks the value,
an entry copy only under VAE, and a resealing copy never (Table 16.6, R347). -/
def copyPane (wc : BitVec 2) (check fresh : Bool) (p : List Byte) : Except Half (List Byte) :=
  match if check then paneFault wc p else tagFault wc ((List.range 30).map (paneFmt p)) with
  | some c => .error c
  | none => .ok (if fresh then paneSeal p else p)

/-- Addresses of pane i at the source and at the destination. -/
def PcpyDesc.srcAt (d : PcpyDesc) (i : Nat) : Nat := (d.src + paneBytes * d.sstr * i) % 2 ^ 64
def PcpyDesc.dstAt (d : PcpyDesc) (i : Nat) : Nat := (d.dst + paneBytes * d.dstr * i) % 2 ^ 64

/-- The source of a pane copy names a host address, and its destination does (R323). -/
def PcpyDesc.srcHost (d : PcpyDesc) (s : State) (u : UnitId) (j : Job) : Bool :=
  (List.range d.n).any fun i => s.namesHost u j (d.srcAt i) paneBytes
def PcpyDesc.dstHost (d : PcpyDesc) (s : State) (u : UnitId) (j : Job) : Bool :=
  (List.range d.n).any fun i => s.namesHost u j (d.dstAt i) paneBytes

/-- Copies panes i, i + 1, … (R345, R346). `reseal` is CPYR. -/
def copyPanes (u : UnitId) (j : Job) (t : Tie) (d : PcpyDesc) (wc : BitVec 2) (vae reseal : Bool) (s : State) (i : Nat) :
    Nat → CDone
  | 0 => .done s 0 i
  | k + 1 =>
    let so := d.srcAt i
    let do_ := d.dstAt i
    match s.cmdLocs u j .read so paneBytes, s.cmdLocs u j .write do_ paneBytes with
    | .error c, _ => .done s (faultCode c) i
    | _, .error c => .done s (faultCode c) i
    | .ok sl, .ok dl =>
      let hs := anyHost sl
      let hd := anyHost dl
      match s.cReadPane u .C j so with
      | .wait => .wait
      | .bad s c => .done s c i
      | .ok s p _ =>
        match copyPane wc (!reseal && (!hs || vae)) (reseal || (!hd && !(hs && vae))) p with
        | .error c => .done s c i
        | .ok p =>
          match s.cWritePane u .C j t do_ dl p with
          | .wait => .wait
          | .bad s c => .done s c i
          | .ok s _ _ => copyPanes u j t d wc vae reseal s (i + 1) k

/-- The misalignment of a pane base (R321). -/
def basesFault (as : List Nat) : Option Half := (as.findSome? fun a => alignFault a 64).map faultCode

/-- CPYP at the head of its queue. -/
def runCpyp (s : State) (u : UnitId) (j : Job) (t : Tie) (m : ModCP) (ea : Dword) : CDone :=
  withDesc s u j ea fun s bs =>
    let d := pcpyDesc bs
    if d.bad bs || d.wcd ≠ 0 then .done s cwRange 0
    else
      match basesFault [d.src, d.dst] with
      | some c => .done s c 0
      | none =>
        if d.srcHost s u j && d.dstHost s u j then .done s cwRange 0
        else copyPanes u j t d m.wc m.vae false s 0 d.n

/-- CPYR at the head of its queue: a host address at either end performs nothing. -/
def runCpyr (s : State) (u : UnitId) (j : Job) (t : Tie) (ea : Dword) : CDone :=
  withDesc s u j ea fun s bs =>
    let d := pcpyDesc bs
    if d.bad bs then .done s cwRange 0
    else
      match basesFault [d.src, d.dst] with
      | some c => .done s c 0
      | none =>
        if d.srcHost s u j || d.dstHost s u j then .done s cwRange 0
        else copyPanes u j t d (BitVec.ofNat 2 d.wcd) false true s 0 d.n

/-! The lines of a tile in a tensor (R340, R405, Table 6.5). -/

/-- Position in memory of line l of tile row i. -/
def swizzle (swz lines l i : Nat) : Nat :=
  if swz = 1 then l ^^^ (i % lines) else if swz = 2 then l ^^^ (i / 2 % lines) else l

/-- The tensor block of each line of a tile, rows ascending and within each row lines ascending. -/
def tileBlocks (edge lines swz first stride : Nat) : List Nat :=
  (List.range edge).flatMap fun i => (List.range lines).map fun l => first + i * stride + swizzle swz lines l i

/-- Puts a number in its place in a strictly rising list. -/
def insertUp (n : Nat) : List Nat → List Nat
  | [] => [n]
  | m :: ms => if n < m then n :: m :: ms else if n = m then m :: ms else m :: insertUp n ms

/-- The panes that blocks lie in, ascending. -/
def panesOfBlocks (bs : List Nat) : List Nat := bs.foldr (fun b l => insertUp (b / 30) l) []

/-- What reading and checking panes in order gives. -/
inductive PaneRead where
  | ok (s : State) (panes : List (Nat × List Byte))
  | fail (s : State) (code : Half) (passed : Nat)
  | wait

/-- Reads and checks panes of a tensor (R93); `n` have passed. -/
def readPanes (u : UnitId) (j : Job) (wc : BitVec 2) (base : Nat) (s : State) (n : Nat) : List Nat → PaneRead
  | [] => .ok s []
  | p :: ps =>
    match s.cReadPane u .C j (paneAddr base p) with
    | .wait => .wait
    | .bad s c => .fail s c n
    | .ok s b _ =>
      match paneFault wc b with
      | some c => .fail s c n
      | none =>
        match readPanes u j wc base s (n + 1) ps with
        | .ok s rest => .ok s ((p, b) :: rest)
        | r => r

/-- The tag and payload of a tensor block among panes read. -/
def blockOf (panes : List (Nat × List Byte)) (b : Nat) : Byte × Byte × List Byte :=
  match panes.find? fun p => p.1 = b / 30 with
  | some (_, p) => (paneFmt p (b % 30), paneScale p (b % 30), paneLine p (b % 30))
  | none => (0, 0, [])

/-! TSFILL. -/

/-- A fill descriptor (Table 18.2). -/
structure FillDesc where
  base : Nat
  tensor : BitVec 24
  tile : BitVec 24
  decr : Bool
  wc : BitVec 2
  first : Nat
  stride : Nat

def fillDesc (d : List Byte) : FillDesc :=
  let h := field d 8 8
  { base := field d 0 8, tensor := BitVec.ofNat 24 (h / 2 ^ 40), tile := BitVec.ofNat 24 (h / 2 ^ 16),
    decr := h / 8 % 2 = 1, wc := BitVec.ofNat 2 h, first := field d 16 8, stride := field d 24 4 }

def FillDesc.bad (d : FillDesc) (bs : List Byte) (lines : Nat) : Bool :=
  field bs 8 8 / 16 % 2 ^ 12 ≠ 0 || field bs 8 8 / 4 % 2 ≠ 0 || field bs 28 4 ≠ 0 || (bs.drop 32).any (· ≠ 0) || d.wc = 3 ||
    d.stride < lines

/-- The lines of a slot from those of a tile, in order. -/
def slotContents : Nat → List (Byte × Byte × List Byte) → CMap TileLine
  | _, [] => []
  | i, (f, sc, l) :: ls => (i, { data := BitVec.ofNat 512 (ofBytes l), fmt := f, scale := sc }) :: slotContents (i + 1) ls

/-- A fill ends with an error: the slot is FAULTED, its payload undefined (R406). A job that a machine check has ended has no
slot any more. -/
def State.failFill (s : State) (u : UnitId) (n : BitVec 7) (code : Half) : State :=
  let t := s.tile u n
  if (s.core u).job.isNone then s
  else s.setTile u n
    { t with hdr := { t.hdr with fill := .faulted, err := code, enc := false }, lines := [], done := t.done + 1, dropped := false }

/-- A fill that has passed: the header's fields and the lines. -/
def State.endFill (s : State) (u : UnitId) (n : BitVec 7) (swz : Nat) (d : FillDesc)
    (ls : List (Byte × Byte × List Byte)) : State :=
  let t := s.tile u n
  (s.mendSlot u n).setTile u n
    { t with
      hdr := { t.hdr with fill := .full, swz := BitVec.ofNat 4 swz, wc := d.wc, tensor := d.tensor, tile := d.tile,
                          enc := d.decr, err := 0 },
      lines := slotContents 0 ls, done := t.done + 1, dropped := false }

def swzNo : Swz → Nat
  | .s0 => 0 | .s1 => 1 | .s2 => 2

/-- TSFILL at the head of its queue (R405, R406). -/
def runTsfill (s : State) (u : UnitId) (j : Job) (n : BitVec 7) (swz : Swz) (ea : Dword) : CDone :=
  match s.cDesc u j ea.toNat with
  | .wait => .wait
  | .bad s c => .done (s.failFill u n c) c 0
  | .ok s bs _ =>
    let d := fillDesc bs
    let lines := if isCCore u then 8 else 2
    if d.bad bs lines then .done (s.failFill u n cwRange) cwRange 0
    else
      match basesFault [d.base] with
      | some c => .done (s.failFill u n c) c 0
      | none =>
        let blocks := tileBlocks (if isCCore u then 256 else 64) lines (swzNo swz) d.first d.stride
        let ps := panesOfBlocks blocks
        match readPanes u j d.wc d.base s 0 ps with
        | .wait => .wait
        | .fail s c k => .done (s.failFill u n c) c k
        | .ok s panes => .done (s.endFill u n (swzNo swz) d (blocks.map (blockOf panes))) 0 ps.length

/-! CDEC and CENC. -/

/-- A cipher descriptor (Table 16.3). -/
structure CipherDesc where
  dst : Nat
  src : Nat
  tensor : BitVec 24
  tile : BitVec 24
  big : Bool
  swz : Nat
  wc : BitVec 2
  tag : Nat
  first : Nat
  stride : Nat

def cipherDesc (d : List Byte) : CipherDesc :=
  let h := field d 16 8
  { dst := field d 0 8, src := field d 8 8, tensor := BitVec.ofNat 24 (h / 2 ^ 40), tile := BitVec.ofNat 24 (h / 2 ^ 16),
    big := h / 256 % 2 = 1, swz := h / 16 % 16, wc := BitVec.ofNat 2 h, tag := field d 24 8, first := field d 32 8,
    stride := field d 40 4 }

def CipherDesc.lines (d : CipherDesc) : Nat := if d.big then 8 else 2
def CipherDesc.edge (d : CipherDesc) : Nat := if d.big then 256 else 64

def CipherDesc.bad (d : CipherDesc) (bs : List Byte) : Bool :=
  field bs 16 8 / 2 ^ 9 % 2 ^ 7 ≠ 0 || field bs 16 8 / 4 % 4 ≠ 0 || field bs 44 4 ≠ 0 || (bs.drop 48).any (· ≠ 0) ||
    d.wc = 3 || 2 < d.swz || d.stride < d.lines

/-- Writes lines into the blocks of the tensor at DST, pane by pane in ascending order (R341): none when a pane fails. -/
def writeLines (u : UnitId) (j : Job) (t : Tie) (d : CipherDesc) (ls : List (Nat × Byte × Byte × List Byte)) (s : State) :
    List Nat → Except (State × Half) State ⊕ Unit
  | [] => .inl (.ok s)
  | p :: ps =>
    let ea := paneAddr d.dst p
    match s.cmdLocs u j .both ea paneBytes with
    | .error c => .inl (.error (s, faultCode c))
    | .ok dl =>
      match s.cReadPane u .C j ea with
      | .wait => .inr ()
      | .bad s c => .inl (.error (s, c))
      | .ok s b _ =>
        match paneFault d.wc b with
        | some c => .inl (.error (s, c))
        | none =>
          let b' := (ls.filter fun x => x.1 / 30 = p).foldl
            (fun b x => panePut b (x.1 % 30) x.2.1 x.2.2.1 x.2.2.2) b
          match s.cWritePane u .C j (s.merging t) ea dl (paneSeal b') with
          | .wait => .inr ()
          | .bad s c => .inl (.error (s, c))
          | .ok s _ _ => writeLines u j t d ls s ps

/-- Lines of a tile with new payloads. -/
def newLines (blocks : List Nat) (old : List (Byte × Byte × List Byte)) (data : List Byte) :
    List (Nat × Byte × Byte × List Byte) :=
  (blocks.zip (old.zip (cutBytes 64 old.length data))).map fun x => (x.1, x.2.1.1, x.2.1.2.1, x.2.2)

/-- The panes of the tensor at a base that hold a line of the tile, ascending. -/
def CipherDesc.panes (d : CipherDesc) : List Nat := panesOfBlocks (tileBlocks d.edge d.lines d.swz d.first d.stride)

/-- A host address at SRC, DST or TAGADDR (R340). -/
def CipherDesc.host (d : CipherDesc) (s : State) (u : UnitId) (j : Job) (vonly : Bool) : Bool :=
  let pane (base : Nat) : Bool := d.panes.any fun p => s.namesHost u j (paneAddr base p) paneBytes
  pane d.src || s.namesHost u j d.tag 16 || (!vonly && pane d.dst)

/-- The checks both ciphers make on a descriptor (R340): the key, or the code that ends the command. -/
def State.cipherKey (s : State) (u : UnitId) (j : Job) (d : CipherDesc) (bs : List Byte) (vonly : Bool) :
    Except Half (List (List Byte)) :=
  match (s.context j.ctx).bind (·.key) with
  | none => .error cwRange
  | some k =>
    if d.bad bs || d.host s u j vonly then .error cwRange
    else
      match basesFault (if vonly then [d.src] else [d.src, d.dst]) with
      | some c => .error c
      | none =>
        match alignFault d.tag 16 with
        | some c => .error (faultCode c)
        | none => .ok (roundKeys (toBytes 32 k.toNat))

/-- The AAD of lines: their tags in order. -/
def aadOf (ls : List (Byte × Byte × List Byte)) : List Byte := ls.flatMap fun l => [l.1, l.2.1]

/-- CENC at the head of its queue (R341). -/
def runCenc (s : State) (u : UnitId) (j : Job) (t : Tie) (ea : Dword) : CDone :=
  withDesc s u j ea fun s bs =>
    let d := cipherDesc bs
    match s.cipherKey u j d bs false with
    | .error c => .done s c 0
    | .ok keys =>
      let blocks := tileBlocks d.edge d.lines d.swz d.first d.stride
      let ps := d.panes
      match readPanes u j d.wc d.src s 0 ps with
      | .wait => .wait
      | .fail s c n => .done s c n
      | .ok s panes =>
        let ls := blocks.map (blockOf panes)
        let plain := ls.flatMap (·.2.2)
        let iv := tileIv d.tensor d.tile
        let cipher := gcmStream keys iv 0 (cutBytes 16 (plain.length / 16) plain)
        match writeLines u j t d (newLines blocks ls cipher) s ps with
        | .inr _ => .wait
        | .inl (.error (s, c)) => .done s c ps.length
        | .inl (.ok s) =>
          match s.cmdLocs u j .write d.tag 16 with
          | .error c => .done s (faultCode c) ps.length
          | .ok tl =>
            match s.writeAt u .C j t d.tag (runsOf d.tag tl) ((gcmTag keys iv (aadOf ls) cipher).map some) with
            | .wait => .wait
            | .bad s c => .done s c ps.length
            | .ok s _ lost => .done s (if lost then cwLoss else 0) ps.length

/-- CDEC at the head of its queue (R342). -/
def runCdec (s : State) (u : UnitId) (j : Job) (t : Tie) (vonly : Bool) (ea : Dword) : CDone :=
  withDesc s u j ea fun s bs =>
    let d := cipherDesc bs
    match s.cipherKey u j d bs vonly with
    | .error c => .done s c 0
    | .ok keys =>
      match s.cReadWhole u .C j d.tag 16 with
      | .wait => .wait
      | .bad s c => .done s c 0
      | .ok s tag _ =>
        let blocks := tileBlocks d.edge d.lines d.swz d.first d.stride
        let ps := d.panes
        match readPanes u j d.wc d.src s 0 ps with
        | .wait => .wait
        | .fail s c n => .done s c n
        | .ok s panes =>
          let ls := blocks.map (blockOf panes)
          let cipher := ls.flatMap (·.2.2)
          let iv := tileIv d.tensor d.tile
          if gcmTag keys iv (aadOf ls) cipher ≠ tag then .done s cwTagFail ps.length
          else if vonly then .done s 0 ps.length
          else
            let plain := gcmStream keys iv 0 (cutBytes 16 (cipher.length / 16) cipher)
            match writeLines u j t d (newLines blocks ls plain) s ps with
            | .inr _ => .wait
            | .inl (.error (s, c)) => .done s c ps.length
            | .inl (.ok s) => .done s 0 ps.length

/-! CBW. -/

/-- CBW at the head of its queue (R339). -/
def runCbw (s : State) (u : UnitId) (j : Job) (t : Tie) (adr v : Dword) : CDone :=
  match alignFault adr.toNat 8 with
  | some c => .done s (faultCode c) 0
  | none =>
    match s.cmdLocs u j .write adr.toNat 8 with
    | .error c => .done s (faultCode c) 0
    | .ok ls =>
      match s.writeAt u .C j t adr.toNat [ls] ((toBytes 8 v.toNat).map some) with
      | .wait => .wait
      | .bad s c => .done s c 0
      | .ok s _ lost => .done s (if lost then cwLoss else 0) (if lost then 0 else 1)

/-! Issue. -/

/-- Appends a command to a C queue, or freezes while it is full (R320). -/
def putC (q : BitVec 2) (op : COp) (adr aux : Dword) (cwi : Half) (sig : BitVec 3) (s : State) : Res :=
  let u := s.cur.1
  let c := s.core u
  if s.cqRoom u q.toNat then
    .seq (s.setCore u (c.enqueueC q.toNat
      { op := op, adr := adr, aux := aux, cwi := cwi, sig := sig, stamp := s.stampOf u, permit := none }))
  else .freeze s (.queueFull q)

/-- Issues a C instruction; guarded off, it takes its place in its queue (R320). -/
def issueCq (i : Instr) (h : Hdr) (q : BitVec 2) (on : State → Res) (s : State) : Out :=
  .next (s.issue i 0 (some h) false (putC q .off 0 0 0 h.sig) on)

/-- Issues a command whose operands are its addresses. -/
def issueCmd (i : Instr) (h : Hdr) (q : BitVec 2) (o : K3) (op : COp) (s : State) : Out :=
  issueCq i h q (fun s => putC q op (s.me.scalar o.adr) (s.me.scalar o.aux) o.cwi h.sig s) s

/-- CPY (R343). -/
def execCpy (h : Hdr) (q : BitVec 2) (o : K3) (s : State) : Out := issueCmd (.cpy h q o) h q o .cpy s

/-- CPYP (R345). -/
def execCpyp (h : Hdr) (m : ModCP) (o : K3) (s : State) : Out := issueCmd (.cpyp h m o) h m.queue o (.cpyp m) s

/-- CPYR (R347). -/
def execCpyr (h : Hdr) (q : BitVec 2) (o : K3) (s : State) : Out := issueCmd (.cpyr h q o) h q o .cpyr s

/-- CDEC (R342). -/
def execCdec (h : Hdr) (q : BitVec 2) (vonly : Bool) (o : K3) (s : State) : Out :=
  issueCmd (.cdec h q vonly o) h q o (.cdec vonly) s

/-- CENC (R341). -/
def execCenc (h : Hdr) (q : BitVec 2) (o : K3) (s : State) : Out := issueCmd (.cenc h q o) h q o .cenc s

/-- CBW (R339). -/
def execCbw (h : Hdr) (q : BitVec 2) (o : K3) (s : State) : Out := issueCmd (.cbw h q o) h q o .cbw s

/-- TSFILL (R404): the slot enters FILLING for what issues in a later ec. -/
def execTsfill (h : Hdr) (q : BitVec 2) (swz : Swz) (o : K3) (s : State) : Out :=
  issueCq (.tsfill h q swz o) h q (fun s =>
    let u := s.cur.1
    let v := (s.me.scalar o.aux).toNat
    let n : BitVec 7 := BitVec.ofNat 7 v
    if slotCount (isCCore u) ≤ v then trapFree s cProtection
    else if !s.claims u n then .trap s cUnclaimed s.me.pc
    else if s.cqRoom u q.toNat then
      let t := s.tile u n
      putC q (.tsfill n swz (t.issued + 1)) (s.me.scalar o.adr) 0 o.cwi h.sig
        (s.setTile u n { t with issued := t.issued + 1, issuedAt := s.time, dropped := false })
    else .freeze s (.queueFull q)) s

end Sys2Proof.Machine
end

