-- ==== Sys2Proof/Machine/MatMath.lean ====
section
/-! DEFINITION. The arithmetic of the array (R108 to R112), the views of a tile slot (R128, R131, R367) and the matrix
operands they give. -/

namespace Sys2Proof.Machine

/-! Accumulation. -/

/-- Exact products of one chunk. -/
def chunkProducts (as bs : List FV) : List (FV × FlagSet) := as.zipWith FV.mul bs

/-- A finite value truncated to a multiple of 2^q, signed, and whether that changed it. -/
def truncTo (q : Int) : FV → Int × Bool
  | .fin neg m e =>
    let (n, ix) := roundMag .rz neg m e q
    (if neg then -(n : Int) else n, ix)
  | _ => (0, false)

/-- Leading exponent of a finite nonzero value. -/
def FV.lead? : FV → Option Int
  | .fin _ m e => if m = 0 then none else some (leadExp m e)
  | _ => none

/-- The exact sum of finite values. -/
def exactSum (vs : List FV) : FV :=
  vs.foldl (fun a b => (FV.add .rn a b).1) (.fin false 0 0)

/-- Two finite values are equal as numbers. -/
def FV.same (a b : FV) : Bool :=
  match a, b with
  | .fin s m e, .fin t n d => finInt s m e (min e d) = finInt t n d (min e d)
  | _, _ => false

def FV.isInf : FV → Bool
  | .inf _ => true
  | _ => false

/-- One chunk with binary32 accumulation (R109). -/
def chunkF32 (c : Word) (ts : List (FV × FlagSet)) : Word × FlagSet :=
  let t := ts.map (·.1)
  let cv := fv32 c
  if ts.any fun p => p.2 ≠ 0 then (0x7FC00000, fNV)
  else if t.all FV.isZero then (c, 0)
  else if cv.isNan || t.any FV.isNan then (0x7FC00000, 0)
  else
    let vs := cv :: t
    let infs := vs.filter FV.isInf
    match infs with
    | i :: _ =>
      if infs.any (· ≠ i) then (0x7FC00000, fNV) else (if i.isNeg then 0xFF800000 else 0x7F800000, 0)
    | [] =>
      let emax := (vs.filterMap FV.lead?).foldl max (-100000)
      let q := emax - 64
      let parts := vs.map (truncTo q)
      let (r, f) := round32 .rn (FV.ofInt (parts.map (·.1)).sum q false)
      (r, (f &&& ~~~fNX) ||| fIf (truncTo q cv).2 fACC ||| fIf (!(fv32 r).same (exactSum vs)) fNX)

/-- A product as an integer (R110). -/
def intProduct : FV → Int × FlagSet
  | .fin neg m e =>
    let (n, ix) := roundInt .rz neg m e
    (n, fIf ix fNX)
  | _ => (0, fNV)

/-- One chunk with INT32 accumulation (R110). -/
def chunkI32 (c : Word) (ts : List (FV × FlagSet)) : Word × FlagSet :=
  let ps := ts.map fun p => intProduct p.1
  let s := c.toInt + (ps.map (·.1)).sum
  let r := clampInt (-2147483648) 2147483647 s
  (BitVec.ofInt 32 r, ps.foldl (fun f p => f ||| p.2) (fIf (r ≠ s) fSAT))

/-- The chunks of one output element, in ascending k (R109, R111). -/
def accumulate (iacc : Bool) : Word → List FV → List FV → Nat → Word × FlagSet
  | c, _, _, 0 => (c, 0)
  | c, as, bs, n + 1 =>
    let ts := chunkProducts (as.take 16) (bs.take 16)
    let (r, f) := if iacc then chunkI32 c ts else chunkF32 c ts
    let (r', f') := accumulate iacc r (as.drop 16) (bs.drop 16) n
    (r', f ||| f')

/-! Views of a tile slot. -/

/-- Lines per row of a slot (Table 6.5). -/
def slotLines (cCore : Bool) : Nat := if cCore then 8 else 2

/-- The element that an empty place reads as: code zero under the first format of a class, scale 127 (R131). -/
def Elem.zero (wc : BitVec 2) : Elem := { code := 0, fmt := padFmt wc, scale := 127 }

/-- Elements per row of the stored tile, L = 16E ÷ w (R367). -/
def slotRow (e : Nat) (wc : BitVec 2) : Nat := 16 * e / classBits wc

/-- A line's elements, each with whether it is a misplaced escape. -/
def lineElems (l : TileLine) : List (Elem × Bool) :=
  let bs := toBytes 64 l.data.toNat
  let codes := codesOf (fmtBits l.fmt) bs
  let es := (decodeRun l.fmt codes).1
  let bad := if l.fmt = fI4X ∧ l.scale ≠ 0xFF then badQuads codes else []
  ((List.range es.length).zip es).map fun x =>
    ({ code := BitVec.ofNat 16 x.2.2, fmt := x.2.1, scale := l.scale }, bad.getD x.1 false)

/-- A line of a slot that holds nothing. -/
def TileLine.zero (wc : BitVec 2) : TileLine := { data := 0, fmt := padFmt wc, scale := 127 }

/-- The line of a slot at place i, as its ports deliver it; `keys` decrypts it at the load port (R292). -/
def TileSlot.line (t : TileSlot) (i : Nat) (keys : Option (List (List Byte))) : TileLine :=
  let l := CMap.get (TileLine.zero t.hdr.wc) t.lines i
  match keys with
  | none => l
  | some ks =>
    let bs := gcmStream ks (tileIv t.hdr.tensor t.hdr.tile) (4 * i) (cutBytes 16 4 (toBytes 64 l.data.toNat))
    { l with data := BitVec.ofNat 512 (ofBytes bs) }

/-- The stored rows of a slot (R127, R131). -/
def TileSlot.rows (t : TileSlot) (cCore : Bool) (keys : Option (List (List Byte))) : List (List (Elem × Bool)) :=
  let n := slotLines cCore
  if t.hdr.fill = .full then
    (List.range (edge cCore)).map fun i => (List.range n).flatMap fun l => lineElems (t.line (i * n + l) keys)
  else List.replicate (edge cCore) (List.replicate (slotRow (edge cCore) t.hdr.wc) (Elem.zero t.hdr.wc, false))

/-- Rows as columns. -/
def transposeRows (n : Nat) (rows : List (List (Elem × Bool))) (d : Elem × Bool) : List (List (Elem × Bool)) :=
  let table := (rows.map List.toArray).toArray
  (List.range n).map fun c => (List.range rows.length).map fun r => (table.getD r #[]).getD c d

/-- The view through the row port, or with `trans` through the column port (R128, R367). -/
def TileSlot.view (t : TileSlot) (cCore : Bool) (trans : Bool) (keys : Option (List (List Byte))) :
    List (List (Elem × Bool)) :=
  let rows := t.rows cCore keys
  if trans then transposeRows (slotRow (edge cCore) t.hdr.wc) rows (Elem.zero t.hdr.wc, false) else rows

/-! Stream operands. -/

/-- Splits popped pieces of 64 elements into rows of n pieces: the pops supply rows in order, 64 elements of k at a time
(R376). -/
def pieceRows : Nat → Nat → List (List Elem) → List (List Elem)
  | 0, _, _ => []
  | r + 1, n, ps => (ps.take n).flatten :: pieceRows r n (ps.drop n)

/-! The working values of a group (R126, R379). -/

/-- Depth of a stationary row j from `base` on, K elements. -/
def Stationary.column (st : Stationary) (j base k : Nat) : List FV :=
  let row := st.rows.getD j []
  ((row ++ List.replicate (base + k - row.length) (Elem.zero 0)).drop base |>.take k).map Elem.value

/-- What an MMA multiplies: rows of A, columns of B, the first group row and the number of chunks. -/
structure MmaOps where
  iacc : Bool
  first : Nat
  a : List (List FV)
  b : List (List FV)
  chunks : Nat

/-- Register r of a group after the command: the elements it covers are accumulated, every other keeps its value (R112). -/
def MmaOps.reg (m : MmaOps) (perRow : Nat) (r : Nat) (w : VReg) : VReg × FlagSet :=
  let a := m.a.toArray
  let b := m.b.toArray
  let out := (List.range 1024).map fun x =>
    let i := 16 * (r / perRow) + x / 64
    let j := 64 * (r % perRow) + x % 64
    if m.first ≤ i ∧ i < m.first + a.size ∧ j < b.size then
      accumulate m.iacc (w.at_ x) (a.getD (i - m.first) []) (b.getD j []) m.chunks
    else (w.at_ x, (0 : FlagSet))
  (VReg.ofList (out.map (·.1)), out.foldl (fun f p => f ||| p.2) 0)

/-- The registers of a group after the command, from register r on. -/
def MmaOps.run (m : MmaOps) (perRow : Nat) : Nat → List VReg → List VReg × FlagSet
  | _, [] => ([], 0)
  | r, w :: ws =>
    let (v, f) := m.reg perRow r w
    let (vs, g) := m.run perRow (r + 1) ws
    (v :: vs, f ||| g)

end Sys2Proof.Machine
end

