-- ==== Sys2Proof/Machine/Stop.lean ====
section
/-! DEFINITION. The stop of a core for a pre-emption (R77, R78, Table 3.7), at the request and at the retirement of the chain
that was open when it came. -/

namespace Sys2Proof.Machine

/-- The MD withdraws a pre-emption (R77, R78). -/
def State.withdraw (s : State) (k : CoreId) : State :=
  let s := s.modCore (unitOf k) fun c => { c with preempt := none }
  { s with md := { s.md with reserved := s.md.reserved.filter fun r => r.1 ≠ k } }

/-- S has begun the drain inside REND, or its job has no more than its end to come (R78). -/
def Core.inRendDrain (c : Core) : Bool := c.eS.ended || c.eS.frozen = some .rendDrain

/-- The debugger has stopped the core (R301). -/
def Core.dbgStopped (c : Core) : Bool := match c.dbg with | some d => d.stopped | none => false

/-- Every engine stops on one edge (R77, Table 3.7): the lease ends, and a request for it is withdrawn. -/
def State.stopAll (s : State) (u : UnitId) (p : Preempt) : State :=
  let s := s.modCore u fun c => { c with preempt := some { p with asked := true, stopped := true, saveBegun := s.time } }
  let s := if isCCore u && s.holdsLease u then s.endLease u else s
  s.dropLease u

/-- The request reaches the core, or a chain that was open has retired: the core stops when nothing stands against it. A core
that the debugger has stopped answers after it resumes (R303). -/
def State.tryStop (s : State) (k : CoreId) : State :=
  let u := unitOf k
  let c := s.core u
  match c.preempt with
  | some p =>
    if p.stopped || c.dbgStopped then s
    else if c.inRendDrain then s.withdraw k
    else if c.chain.state ≠ .none then s.modCore u fun c => { c with preempt := some { p with asked := true } }
    else s.stopAll u p
  | none => s

/-- The boundary after a chain's retirement or abandonment: a core that has been asked to stop stops there (R77). -/
def State.chainBoundary (s : State) (k : CoreId) : State :=
  match (s.core (unitOf k)).preempt with
  | some p => if p.asked then s.tryStop k else s
  | none => s

end Sys2Proof.Machine
end

