-- ==== Sys2Proof/Machine/Matrix.lean ====
section
/-! DEFINITION. The M engine (R365 to R372, R376 to R379, R383, R402, R403): issue of its commands, their performance in
queue order, and the retirement of a chain. -/

namespace Sys2Proof.Machine

/-! Issue. -/

/-- Appends a command to the M queue, or freezes while it is full (R365). -/
def putM (op : MOp) (sig : BitVec 3) (s : State) : Res :=
  let u := s.cur.1
  let c := s.core u
  if s.mqRoom u then .seq (s.setCore u { c with mq := c.mq ++ [{ op := op, sig := sig, stamp := s.stampOf u }] })
  else .freeze s (.queueFull 0)

/-- Issues an M instruction: guarded off, it takes its place in the queue (R204). One that has begun its pops goes on with
them. -/
def issueM (i : Instr) (h : Hdr) (on : State → Res) (s : State) : Out :=
  .next (s.issue i 0 (some h) false (if (s.core s.cur.1).mpop.isEmpty then putM .off h.sig else on) on)

/-- Performed in its issue ec: the tokens are pushed at once. -/
def doneM (h : Hdr) (s : State) : Res := .seq (s.push s.cur.1 .M h.sig)

/-- Goes on under the lease, or asks for it and freezes (R370). -/
def underLease (s : State) (spent : Bool) (k : State → Res) : Res :=
  let u := s.cur.1
  if s.holdsLease u && !spent then k s else .freeze (s.requestLease u) .lease

/-- ALEASE (R329). -/
def execAlease (h : Hdr) (s : State) : Out :=
  issueM (.alease h) h (fun s =>
    let u := s.cur.1
    if s.holdsLease u then doneM h s else .freeze (s.askLease u) .lease) s

/-- AREL (R330). -/
def execArel (h : Hdr) (s : State) : Out := issueM (.arel h) h (putM .arel h.sig) s

/-- Detail of a slot fault: the slot number (R402). -/
def slotDetail (n : BitVec 7) : Dword := n.setWidth 64

/-- TSCLAIM (R402, R40). -/
def execTsclaim (h : Hdr) (n : BitVec 7) (s : State) : Out :=
  issueM (.tsclaim h n) h (fun s =>
    let u := s.cur.1
    let t := s.tile u n
    match (s.core u).job with
    | none => .trap s cProtection (slotDetail n)
    | some j =>
      if t.hdr.fill = .free then
        if j.tsNeed ≤ s.claimCount u then .trap s cProtection (slotDetail n)
        else doneM h (s.setTile u n
          { TileSlot.reset with hdr := { TileHdr.reset with fill := .empty, owner := localOf u, world := j.world } })
      else if s.claims u n then doneM h s
      else .trap s cProtection (slotDetail n)) s

/-- A command reads or names a slot. -/
def MOp.names (n : BitVec 7) : MOp → Bool
  | .mloadb (.slot m _) _ => m = n
  | .mma _ _ _ (.slot m _) => m = n
  | _ => false

/-- TSREL (R403). -/
def execTsrel (h : Hdr) (n : BitVec 7) (s : State) : Out :=
  issueM (.tsrel h n) h (fun s =>
    let u := s.cur.1
    let t := s.tile u n
    if !s.claims u n then .trap s cUnclaimed s.me.pc
    else if (s.core u).mq.any (fun c => c.op.names n) || t.done < t.issued then .freeze s (.release n)
    else doneM h (s.setTile u n TileSlot.reset)) s

/-- The range of an MCFG item (Table 17.4). -/
def mcfgOk (e : Nat) (item : McfgItem) (v : Nat) : Bool :=
  match item with
  | .ncol => 1 ≤ v && v ≤ e
  | .arowbase | .kbase => v ≤ 4 * e - 16 && v % 16 = 0
  | .atrans | .btrans => v ≤ 1
  | .swz => v ≤ 2

/-- MCFG (R372). -/
def execMcfg (h : Hdr) (item : McfgItem) (v : Spec) (s : State) : Out :=
  issueM (.mcfg h item v) h (fun s =>
    let x := s.me.scalar v
    if mcfgOk (edge (isCCore s.cur.1)) item x.toNat then putM (.mcfg item x.toNat) h.sig s
    else .trap s cProtection x) s

/-- The chain is open to MMA and MRET (R366). -/
def Chain.isOpen (c : Chain) : Bool := c.state = .open || c.state = .failed

/-- The bank of a register is lent to M, as M sees it at a time. -/
def Core.isLent (c : Core) (time : Nat) (acc : BitVec 6) : Bool := (c.lentSeen time).getLsbD (bankOf acc)

/-- MBEGIN (R366, R370, R371). -/
def execMbegin (h : Hdr) (iacc : Bool) (acc : BitVec 6) (rows : BitVec 2) (s : State) : Out :=
  issueM (.mbegin h iacc acc rows) h (fun s =>
    let u := s.cur.1
    let c := s.core u
    if c.chain.isOpen then trapFree s cProtection
    else if c.chain.state = .retiring then .freeze s .retirement
    else if !c.isLent s.time acc then .trap s cBankLent s.me.pc
    else
      underLease s (s.leaseSpent u) fun s =>
        if s.mqRoom u then
          putM .mbegin h.sig (s.modCore u fun c =>
            { c with chain := { Chain.none with state := .open, vbase := acc, rows := rowCount rows, iacc := iacc } })
        else .freeze s (.queueFull 0)) s

/-- Pops of a stream that M reads (R365): one register per schedule cycle, issue held until the last. -/
def popM (q : BitVec 3) (n : Nat) (k : State → List StreamItem → Res) (s : State) : Res :=
  let u := s.cur.1
  let c := s.core u
  match c.streams[q.toNat] with
  | none => trapFree s cProtection
  | some t =>
    match t.buf with
    | [] => if t.desc.total ≤ t.pos then trapFree s cProtection else .freeze s (.streamPop q)
    | b :: rest =>
      match b.item with
      | .fault e d _ => .trap (s.setCore u (c.setStream q { t with buf := [], pos := b.pos })) e d
      | _ =>
        let c' := { c.setStream q { t with buf := rest } with mpop := c.mpop ++ [(q, b)] }
        if n ≤ c'.mpop.length then k (s.setCore u { c' with mpop := [] }) (c'.mpop.map (·.2.item))
        else .hold (s.setCore u c')

/-- The code of popped data of which some cannot be used: an uncorrectable word before a lost one (R369). -/
def worseBad (code : Half) : Option Half → Half
  | some c => if c = cwUncorrectable then c else code
  | none => code

/-- What popped items give the array. -/
def streamSource (cls : BitVec 2) : List StreamItem → MSrc
  | [] => .stream [] cls 0 none
  | i :: is =>
    match streamSource cls is with
    | .stream rows _ f bad =>
      match i with
      | .rows _ codes g => .stream (codes ++ rows) cls (g ||| f) bad
      | .lost _ => .stream rows cls f (some (worseBad cwLoss bad))
      | .machineCheck _ => .stream rows cls f (some (worseBad cwUncorrectable bad))
      | .fault _ _ code => .stream rows cls f (some (worseBad code bad))
    | m => m

/-- A stream that M may pop (R142). -/
def Core.mStream (c : Core) (q : BitVec 3) : Option StreamDesc :=
  match c.streams[q.toNat] with
  | some t => if t.desc.engM && !t.desc.drain then some t.desc else none
  | none => none

/-- Registers that so many pieces of 64 elements take. -/
def StreamDesc.popsFor (d : StreamDesc) (pieces : Nat) : Nat := if d.rowMode then pieces else pieces / 16

/-- The issue of a command that reads a source of the array: its claim is checked, the lease asked for, and a stream
popped (R369, R370, R376). `pieces` is how many pieces of 64 elements it reads of a stream of a width class. -/
def issueArray (src : TSrc) (encOk : Bool) (pieces : BitVec 2 → Nat) (mk : MSrc → MOp) (h : Hdr) (note : Core → Core)
    (s : State) : Res :=
  let u := s.cur.1
  let c := s.core u
  let go (m : MSrc) (s : State) : Res := putM (mk m) h.sig ((s.countLease u).modCore u note)
  match src with
  | .slot n =>
    let t := (s.tile u n).seen s.time
    if !s.claims u n then .trap s cUnclaimed s.me.pc
    else if !encOk && t.hdr.enc && !t.filling then trapFree s cProtection
    else underLease s (s.leaseSpent u) fun s =>
      if s.mqRoom u then go (.slot n t.fillsSeen) s else .freeze s (.queueFull 0)
  | .stream q =>
    match c.mStream q with
    | none => trapFree s cProtection
    | some d =>
      underLease s (s.leaseSpent u) fun s =>
        if s.mqRoom u then
          popM q (d.popsFor (pieces (fmtClass d.fmt))) (fun s is => go (streamSource (fmtClass d.fmt) is) s) s
        else .freeze s (.queueFull 0)

/-- MLOADB (R376, R377). -/
def execMloadb (h : Hdr) (src : TSrc) (s : State) : Out :=
  issueM (.mloadb h src) h (fun s =>
    let e := edge (isCCore s.cur.1)
    issueArray src true (fun cls => e * (slotRow e cls / 64)) (.mloadb · false) h id s) s

/-- The first group row of an MMA, when its ACC lies in the group (R378). -/
def groupRow (cCore : Bool) (vbase acc : BitVec 6) : Option Nat :=
  let n := edge cCore / 64
  let d := acc.toNat - vbase.toNat
  if vbase.toNat ≤ acc.toNat ∧ d % n = 0 then some (16 * (d / n)) else none

/-- Commands of an abandoned chain that are still queued (R75): MBEGIN and MMA are performed without effect, and a load of
the chain, one behind its MBEGIN, sets no flag (R111). `inside` when the MBEGIN has been performed. -/
def quietChain : Bool → List MCmd → List MCmd
  | _, [] => []
  | inside, m :: ms =>
    match m.op with
    | .mbegin => { m with op := .off } :: quietChain true ms
    | .mma _ _ _ _ | .loadFailed _ => { m with op := .off } :: quietChain inside ms
    | .loaded f => { m with op := .loaded (if inside then 0 else f) } :: quietChain inside ms
    | .mloadb src q => { m with op := .mloadb src (q || inside) } :: quietChain inside ms
    | _ => m :: quietChain inside ms

/-- A chain is abandoned (R75). -/
def Core.abandon (c : Core) : Core := { c with chain := Chain.none, mq := quietChain c.chain.running c.mq }

/-- A chain ends, and the lease with it when its count is used up or AREL commands wait for it, whose tokens are pushed (R71, R330);
loads that stay in the queue then ask for the array again. -/
def State.chainEnds (s : State) (u : UnitId) : State :=
  let ends := isCCore u && s.holdsLease u && (!(s.core u).arels.isEmpty || s.leaseMax u ≤ (s.die (dieOf u)).lease.count)
  let s := if ends then (s.endLease u).askQueued u else s.leaseCheck u
  s.takeArels u fun s m => s.push u .M m

/-- MMA (R378). -/
def execMma (h : Hdr) (acc : BitVec 6) (src : TSrc) (rows : BitVec 2) (kch : BitVec 6) (s : State) : Out :=
  issueM (.mma h acc src rows kch) h (fun s =>
    let u := s.cur.1
    let c := s.core u
    let limit := s.readSr u .M 0x021
    if !c.chain.isOpen then trapFree s cProtection
    else
      match groupRow (isCCore u) c.chain.vbase acc with
      | none => trapFree s cProtection
      | some g =>
        if c.chain.rows < g + rowCount rows then trapFree s cProtection
        else if !c.isLent s.time acc then .trap s cBankLent s.me.pc
        else if limit.toNat ≤ c.chain.count then .trap ((s.modCore u Core.abandon).chainEnds u) cChain limit
        else
          let k := 16 * (kch.toNat + 1)
          issueArray src false (fun _ => rowCount rows * ((k + 63) / 64)) (.mma g (rowCount rows) k) h
            (fun c => { c with chain := { c.chain with count := c.chain.count + 1 } }) s) s

/-- MRET (R383, R366). -/
def execMret (h : Hdr) (acc : BitVec 6) (s : State) : Out :=
  issueM (.mret h acc) h (fun s =>
    let u := s.cur.1
    let c := s.core u
    if !c.chain.isOpen || c.chain.vbase ≠ acc then trapFree s cProtection
    else if s.mqRoom u then
      putM .mret h.sig (s.modCore u fun c => { c with chain := { c.chain with state := .retiring } })
    else .freeze s (.queueFull 0)) s

/-! Performance. -/

/-- The command to perform now, with those ahead of it and behind it: the head, else a load ahead of its place (R365, R376). MRET
retires in a step of its own. -/
def State.mNext (s : State) (u : UnitId) : List MCmd → List MCmd → Option (List MCmd × MCmd × List MCmd)
  | _, [] => none
  | ahead, m :: ms =>
    if m.op ≠ .mret && s.mBegins u ahead m.op then some (ahead, m, ms) else s.mNext u (ahead ++ [m]) ms

/-- A command behind these stands in a chain. -/
def insideChain : Bool → List MCmd → Bool
  | b, [] => b
  | b, m :: ms => insideChain (match m.op with | .mbegin => true | .mret => false | _ => b) ms

/-- A failure that a slot's state gives (R369, R131). -/
def TileSlot.failure (t : TileSlot) (swz : Nat) : Option Half :=
  match t.hdr.fill with
  | .faulted => some t.hdr.err
  | .full => if t.hdr.swz.toNat ≠ swz then some cwSwizzle else if t.hdr.wc = 3 then some cwFmtClass else none
  | _ => none

/-- The weight key of the core's context as round keys; a context without one gives a free value (R291, R292). -/
def State.weightKeys (s : State) (u : UnitId) : List (List Byte) × State :=
  match (s.core u).job.bind fun j => (s.context j.ctx).bind (·.key) with
  | some k => (roundKeys (toBytes 32 k.toNat), s)
  | none => (roundKeys (toBytes 32 (Config.freeKey s.freeCount).toNat), { s with freeCount := s.freeCount + 1 })

/-- The items after an MCFG (Table 17.4). -/
def Mcfg.put (m : Mcfg) (item : McfgItem) (v : Nat) : Mcfg :=
  match item with
  | .ncol => { m with ncol := v }
  | .arowbase => { m with arowbase := v }
  | .kbase => { m with kbase := v }
  | .atrans => { m with atrans := v = 1 }
  | .btrans => { m with btrans := v = 1 }
  | .swz => { m with swz := v }

/-- The items in force behind these commands (R372). -/
def Mcfg.after (m : Mcfg) : List MCmd → Mcfg
  | [] => m
  | c :: cs => (match c.op with | .mcfg item v => m.put item v | _ => m).after cs

/-- The rows that an MLOADB loads under the items in force, with their depth and flags, or its failure (R376, R369). -/
def State.loadRows (s : State) (u : UnitId) (cfg : Mcfg) : MSrc → Except Half (Nat × List (List Elem) × FlagSet) × State
  | .slot n _ =>
    let t := s.tile u n
    match t.failure cfg.swz with
    | some c => (.error c, s)
    | none =>
      let (keys, s) := if t.hdr.enc then let (k, s) := s.weightKeys u; (some k, s) else (none, s)
      let e := edge (isCCore u)
      let rows := (t.view (isCCore u) cfg.btrans keys).take e
      (.ok (if cfg.btrans then e else slotRow e t.hdr.wc, rows.map fun r => r.map (·.1),
            fIf (rows.any fun r => r.any (·.2)) fFMT), s)
  | .stream rows cls f bad =>
    let e := edge (isCCore u)
    if cls = 3 then (.error cwFmtClass, s)
    else
      match bad with
      | some c => (.error c, s)
      | none => (.ok (slotRow e cls, pieceRows e (slotRow e cls / 64) rows, f), s)

def Chain.fails (c : Chain) (code : Half) : Chain :=
  { c with fail := some (code, c.done), state := if c.state = .open then .failed else c.state }

/-- Performs an MLOADB that stands behind these commands (R376, R377), and gives what its chain takes at its place. The
specification gives no moment at which a load outside a chain sets FMT; the model sets it in STICKY when the load is performed (DESIGN
CHOICE, log 72). -/
def State.performLoad (s : State) (u : UnitId) (ahead : List MCmd) (stamp : Stamp) (m : MSrc) (quiet : Bool) : State × MOp :=
  let ch := (s.core u).chain
  let inside := insideChain ch.running ahead
  if inside && ch.running && ch.fail.isSome then (s, .loaded 0)
  else
    match s.loadRows u ((s.core u).mcfg.after ahead) m with
    | (.error code, s) =>
      if inside then (s, .loadFailed code)
      else
        let s := s.modCore u fun c =>
          { c with statOld := c.stat, stat := { Stationary.reset (edge (isCCore u)) with poison := some code } }
        (match (s.core u).job, quiet with
          | some j, false => s.writeCw u j .M stamp.tie 0xFFFF (cword 4 0 code)
          | _, _ => s, .loaded 0)
    | (.ok (d, rows, f), s) =>
      let s := s.modCore u fun c => { c with statOld := c.stat, stat := { depth := d, rows := rows, poison := none } }
      if inside then (s, .loaded f)
      else if quiet then (s, .loaded 0)
      else (s.modEng u .M fun g => { g with sticky := g.sticky ||| f }, .loaded 0)

/-- Rows and row length of a slot's view (R367). -/
def TileSlot.viewSize (t : TileSlot) (cCore trans : Bool) : Nat × Nat :=
  let e := edge cCore
  if trans then (slotRow e t.hdr.wc, e) else (e, slotRow e t.hdr.wc)

/-- The buffer that an MMA at the head uses: that of the latest load ahead of it, which is not the newest when a load behind it has been
performed (R376). -/
def Core.statFor (c : Core) : Stationary := if c.mq.any (·.op.isLoaded) then c.statOld else c.stat

/-- The rows of A that an MMA reads, with their flags, or its failure, in the order of R369. -/
def State.mmaRows (s : State) (u : UnitId) (r k : Nat) (m : MSrc) : Except Half (List (List Elem) × FlagSet) :=
  let c := s.core u
  let cfg := c.mcfg
  let wide := c.statFor.depth < cfg.kbase + k || edge (isCCore u) < cfg.ncol
  match m with
  | .slot n _ =>
    let t := s.tile u n
    match t.failure cfg.swz with
    | some code => .error code
    | none =>
      let size := t.viewSize (isCCore u) cfg.atrans
      if size.1 < cfg.arowbase + r || size.2 < cfg.kbase + k || wide || t.hdr.enc then .error 0x0202
      else
        match c.statFor.poison with
        | some code => .error code
        | none =>
          let rows := (((t.view (isCCore u) cfg.atrans none).drop cfg.arowbase).take r).map fun x =>
            (x.drop cfg.kbase).take k
          .ok (rows.map fun x => x.map (·.1), fIf (rows.any fun x => x.any (·.2)) fFMT)
  | .stream rows cls f bad =>
    if cls = 3 then .error cwFmtClass
    else if wide then .error 0x0202
    else
      match c.statFor.poison, bad with
      | some code, _ => .error code
      | none, some code => .error code
      | none, none => .ok ((pieceRows r ((k + 63) / 64) rows).map (·.take k), f)

/-- Performs an MMA (R379). -/
def State.performMma (s : State) (u : UnitId) (g r k : Nat) (m : MSrc) : State :=
  let c := s.core u
  if !c.chain.running || c.chain.fail.isSome then s
  else
    match s.mmaRows u r k m with
    | .error code => s.setCore u { c with chain := c.chain.fails code }
    | .ok (rows, f) =>
      let ops : MmaOps :=
        { iacc := c.chain.iacc, first := g, a := rows.map fun x => x.map Elem.value,
          b := (List.range c.mcfg.ncol).map fun j => c.statFor.column j c.mcfg.kbase k, chunks := k / 16 }
      let (work, f') := ops.run (edge (isCCore u) / 64) 0 c.chain.work
      s.setCore u { c with chain := { c.chain with work := work, done := c.chain.done + 1,
                                                   flags := c.chain.flags ||| f ||| f' } }

/-- Registers of a chain's group (R126). -/
def Chain.groupRegs (c : Chain) (cCore : Bool) : List (Fin 64) :=
  (List.range (c.rows / 16 * (edge cCore / 64))).map fun i => ⟨(c.vbase.toNat + i) % 64, Nat.mod_lt _ (by decide)⟩

/-- A chain takes what a load leaves at its place: its flags, or its failure, unless the chain has failed before. -/
def Chain.takeLoad (c : Chain) : MOp → Chain
  | .loaded f => { c with flags := c.flags ||| f }
  | .loadFailed code => if c.fail.isSome then c else c.fails code
  | _ => c

/-- Performs the effect of a command at the head of the queue; its tokens follow. -/
def State.performOp (s : State) (u : UnitId) (stamp : Stamp) : MOp → State
  | .mbegin =>
    s.modCore u fun c =>
      { c with chain := { c.chain with work := (c.chain.groupRegs (isCCore u)).map fun n => c.vmain[n] } }
  | .mloadb m quiet =>
    let (s, left) := s.performLoad u [] stamp m quiet
    s.modCore u fun c => { c with chain := c.chain.takeLoad left }
  | .loaded f => s.modCore u fun c => { c with chain := c.chain.takeLoad (.loaded f) }
  | .loadFailed code => s.modCore u fun c => { c with chain := c.chain.takeLoad (.loadFailed code) }
  | .mma g r k m => s.performMma u g r k m
  | .mcfg item v => s.modCore u fun c => { c with mcfg := c.mcfg.put item v }
  | .arel => if isCCore u && s.holdsLease u then s.endLease u else s
  | .mret | .token | .fence _ | .off => s

/-- An AREL that finds its core's chain open waits for the chain's end (R330), and with it the pushes of a TSIG or a guarded-off
command behind it (R407, R204). -/
def State.arelWaits (s : State) (u : UnitId) (op : MOp) : Bool :=
  match op with
  | .arel => isCCore u && s.holdsLease u && (s.core u).chain.state ≠ .none
  | .token | .off => !(s.core u).arels.isEmpty
  | _ => false

/-- An MLOADB outside a chain fails, and its completion word must wait for its place in a replayed order (R307). -/
def State.loadWaits (s : State) (u : UnitId) (ahead : List MCmd) (op : MOp) : Bool :=
  match op, (s.core u).job with
  | .mloadb m false, some j =>
    !insideChain (s.core u).chain.running ahead &&
      (match s.loadRows u ((s.core u).mcfg.after ahead) m with
       | (.error code, t) => (t.tryCw u j .M (s.tieOf u) 0xFFFF (cword 4 0 code)).isNone
       | _ => false)
  | _, _ => false

/-- Performs a command of the M queue at its head. -/
def State.performHead (s : State) (u : UnitId) (cmd : MCmd) (rest : List MCmd) : State :=
  let s := s.modCore u fun c => { c with mq := rest }
  if s.arelWaits u cmd.op then s.modCore u fun c => { c with arels := c.arels ++ [cmd.sig] }
  else ((s.performOp u cmd.stamp cmd.op).push u .M cmd.sig).leaseCheck u

/-- Performs a load ahead of its place, where it leaves what its chain takes (R376). -/
def State.performAhead (s : State) (u : UnitId) (ahead : List MCmd) (cmd : MCmd) (rest : List MCmd) : State :=
  match cmd.op with
  | .mloadb m quiet =>
    let (s, left) := s.performLoad u ahead cmd.stamp m quiet
    ((s.modCore u fun c => { c with mq := ahead ++ { cmd with op := left, sig := 0 } :: rest }).push u .M cmd.sig).leaseCheck u
  | _ => s

/-- What a command's read that cannot be corrected does: a machine check of the core, and of the die whose operand memory it is (R253,
R262; log 36). -/
def State.arrayMachineCheck (s : State) (u : UnitId) (op : MOp) (i : McInfo) : State :=
  match op with
  | .mbegin => s.machineCheck u i
  | _ => s.readCheck u (.array (operandOf u)) i

/-- What a command reads of the vector file and of operand memory (R261): a chain's group, or its slot. -/
def State.readFor (s : State) (u : UnitId) : MOp → Except McInfo State
  | .mbegin => s.readFile u (((s.core u).chain.groupRegs (isCCore u)).map (·.val))
  | .mloadb (.slot n _) _ => s.readSlot u n
  | .mma _ _ _ (.slot n _) => s.readSlot u n
  | _ => .ok s

/-- M_COMMAND_PERFORMED (R365): the head of the queue, or, while it waits, a load behind it that need not wait (R376). Which of
several that may be performed comes first is the schedule's (log 1). -/
def execMCommandPerformed (k : CoreId) (s : State) : Out :=
  let u := unitOf k
  .next (match s.mNext u [] (s.core u).mq with
    | none => s
    | some (ahead, cmd, rest) =>
      if (s.core u).halted || s.loadWaits u ahead cmd.op then s
      else
        match s.readFor u cmd.op with
        | .error i => s.arrayMachineCheck u cmd.op i
        | .ok s => ((if ahead.isEmpty then s.performHead u cmd rest else s.performAhead u ahead cmd rest)).abortAgain u .M)

/-- The check bits of a group's registers, which a chain writes. -/
def State.mendGroup (s : State) (u : UnitId) : List (Fin 64) → State
  | [] => s
  | n :: ns => (s.mendVector u n.val).mendGroup u ns

/-- Writes a group's registers with its working values. -/
def Core.writeGroup (c : Core) : List (Fin 64) → List VReg → Core
  | n :: ns, w :: ws => ({ c with vmain := c.vmain.set n w } : Core).writeGroup ns ws
  | _, _ => c

/-- MRET_RETIRE (R383): group and flags, completion word, in its place in a replayed order (R307), tokens; a core asked to stop stops at
this boundary (R77). -/
def execMretRetire (k : CoreId) (s : State) : Out :=
  let u := unitOf k
  let c := s.core u
  .next (match c.mq, c.job with
    | cmd :: rest, some j =>
      if cmd.op = .mret && !c.halted then
        let ch := c.chain
        let t :=
          match ch.fail with
          | some _ => s
          | none =>
            let c' := c.writeGroup (ch.groupRegs (isCCore u)) ch.work
            (s.mendGroup u (ch.groupRegs (isCCore u))).setCore u { c' with eM := { c'.eM with sticky := c'.eM.sticky ||| ch.flags } }
        let word := match ch.fail with
          | some (code, n) => cword 4 n code
          | none => cword 4 ch.count 0
        if (t.tryCw u j .M cmd.stamp.tie 0xFFFF word).isNone then s
        else
          let t := t.writeCw u j .M cmd.stamp.tie 0xFFFF word
          let t := ((t.modCore u fun c => { c with mq := rest, chain := Chain.none }).push u .M cmd.sig).chainEnds u
          (t.chainBoundary k).abortAgain u .M
      else s
    | _, _ => s)

end Sys2Proof.Machine
end

