-- ==== Sys2Proof/Machine/Streams.lean ====
section
/-! DEFINITION. Stream registers (R142 to R145, R169, R397 to R399, R412, R454): binding and unbinding, the fetching of read
streams and the writing of drain streams. -/

namespace Sys2Proof.Machine

/-! Binding. -/

/-- A stream descriptor (Table 6.10). -/
def streamDesc (d : List Byte) : StreamDesc :=
  let h := dw (field d 8 8)
  { base := dw (field d 0 8), engM := h.getLsbD 29, bound := h.extractLsb' 23 6, boundEn := h.getLsbD 22,
    drain := h.getLsbD 21, pane := h.getLsbD 20, rowMode := h.getLsbD 19, sat := h.getLsbD 18,
    rnd := Rnd.ofCode (h.extractLsb' 16 2), scale := h.extractLsb' 8 8, fmt := h.extractLsb' 0 8,
    counts := [field d 16 2, field d 18 2, field d 20 2, field d 22 2],
    strides := [signedOf 64 (field d 32 8), signedOf 64 (field d 40 8), signedOf 64 (field d 48 8),
                signedOf 64 (field d 56 8)] }

/-- The fourth row of R397's table. -/
def StreamDesc.illegal (d : StreamDesc) (bs : List Byte) : Bool :=
  field bs 8 8 / 2 ^ 30 ≠ 0 || field bs 24 8 ≠ 0 || d.counts.any (· = 0) || !fmtAssigned d.fmt ||
    (fmtClass d.fmt = 3 && d.engM) || (d.drain && d.engM) || (!d.drain && d.boundEn) || (d.drain && d.scale = 0xFF)

/-- The bindings of a descriptor that has been read (R397, rows 2 to 5 of its table): the first failure, or the stream. -/
inductive BindRes where
  | trap (cause : Byte) (detail : Dword)
  | free (cause : Byte)
  | ok (t : Stream)

def State.bindCheck (s : State) (u : UnitId) (j : Job) (first : Word) (bs : List Byte) : BindRes :=
  let d := streamDesc bs
  if d.pane && (alignFault d.base.toNat 64).isSome then .trap ((alignFault d.base.toNat 64).getD cAlignment) d.base
  else
    match s.cmdLoc u j (if d.drain then .write else .read) d.base.toNat with
    | .error c => .trap c d.base
    | .ok (.host _) => .trap cProtection d.base
    | .ok _ =>
      if d.illegal bs then .trap cIllegal (first.setWidth 64)
      else if d.boundEn && (s.boundEntry u d.bound.toNat).isNone then .free cProtection
      else .ok { desc := d, pos := 0, buf := [], err := none, fault := none, rewrite := false, written := 0 }

/-- SBIND once its queue is empty: the descriptor's reading, the checks, and the binding with its completion word. -/
def bindStream (first : Word) (q : BitVec 2) (n : BitVec 3) (adr : Dword) (cwi : Half) (sig : BitVec 3) (j : Job)
    (s : State) : Res :=
  let u := s.cur.1
  let s0 := s
  let end_ (s : State) (code : Half) : Res :=
    match s.tryCw u j .C (s.tieOf u) cwi (cword q.toNat 0 code) with
    | none => .freeze s0 .replay
    | some s =>
      if (match (s.eng u .C).deferred with | some d => d.again | none => false) then .done (s.abortAgain u .C)
      else .seq (s.push u .C sig)
  if ((s.core u).streams[n.toNat]).isSome then trapFree s cProtection
  else
    match alignFault adr.toNat 64, s.cmdLocs u j .read adr.toNat 64 with
    | some c, _ => .trap s c adr
    | none, .error c => .trap s c adr
    | none, .ok ls =>
      match s.readAt u .C j adr.toNat (runsOf adr.toNat ls) with
      | .wait => .freeze s .replay
      | .bad s code => if (s.core u).job.isNone then .done s else end_ s code
      | .ok s bs lost =>
        if lost then .trap s cLoss adr
        else
          match s.bindCheck u j first (knownBytes bs) with
          | .trap c d => .trap s c d
          | .free c => trapFree s c
          | .ok t => end_ (s.modCore u fun c => c.setStream n t) 0

/-- The stream register a command names. -/
def K3.stream (o : K3) : BitVec 3 := match o.aux with | .q n => n | _ => 0

/-- SBIND (R397, R142). -/
def execSbind (h : Hdr) (q : BitVec 2) (o : K3) (s : State) : Out :=
  let i := Instr.sbind h q o
  issueCq i h q (fun s =>
    match (s.core s.cur.1).job with
    | none => trapFree s cProtection
    | some j =>
      if !((s.core s.cur.1).cq[q.toNat]).isEmpty then .freeze s .queueOrder
      else bindStream (wordAt (encode i) 0) q (K3.stream o) (s.me.scalar o.adr) o.cwi h.sig j s) s

/-- A V instruction that names the stream as its destination and issued before a cycle of V has not landed its push (R399). -/
def Core.pushesBefore (c : Core) (q : BitVec 3) (cycle : Nat) : Bool :=
  c.eV.flights.any fun f => f.issuedAt < cycle && f.writes.any fun w => match w with | .push n _ _ => n = q | _ => false

/-- Pushes of V instructions issued after SUNBIND, while it waited for earlier ones, find the register unbound as they land: they are
discarded (DESIGN CHOICE, log 42). -/
def Core.dropPushes (c : Core) (q : BitVec 3) : Core :=
  { c with eV := { c.eV with flights := c.eV.flights.map fun f =>
      { f with writes := f.writes.filter fun w => match w with | .push n _ _ => n ≠ q | _ => true } } }

def Core.clearStream (c : Core) (q : BitVec 3) : Core := { c with streams := c.streams.set q.toNat none }

/-- SUNBIND (R399): for a drain stream it waits for the pushes issued in its own issue cycle or earlier; V has had its turn in that
cycle before C. -/
def execSunbind (h : Hdr) (q : BitVec 2) (o : K3) (s : State) : Out :=
  issueCq (.sunbind h q o) h q (fun s =>
    let u := s.cur.1
    let c := s.core u
    let n := K3.stream o
    match c.streams[n.toNat] with
    | none => trapFree s cProtection
    | some t =>
      if !s.cqRoom u q.toNat then .freeze s (.queueFull q)
      else
        let since : Nat := match s.me.frozen with | some (.unbind _ t) => t | _ => c.eV.scycle
        if t.desc.drain && c.pushesBefore n since then .freeze s (.unbind n since)
        else putC q (.sunbind (if t.desc.drain then some t else none)) 0 0 o.cwi h.sig
          (s.modCore u fun c => (c.dropPushes n).clearStream n)) s

/-! Fetching a read stream. -/

/-- What reading for a stream gives: the bytes, the item that the pop will raise, or a wait for the replayed order. -/
inductive SRead (α : Type) where
  | ok (s : State) (v : α)
  | item (s : State) (i : StreamItem)
  | wait

/-- The first byte of an access that cannot be reached. -/
def State.faultAddr (s : State) (u : UnitId) (j : Job) (acc : Acc) (ea : Nat) : Nat → Nat
  | 0 => ea
  | n + 1 => match s.cmdLoc u j acc ea with | .error _ => ea | .ok _ => s.faultAddr u j acc (ea + 1) n

/-- Reads n bytes for a stream; a pane travels whole (R144, R452). -/
def State.streamRead (s : State) (u : UnitId) (j : Job) (pane : Bool) (ea n : Nat) : SRead (List Byte) :=
  match s.cmdLocs u j .read ea n with
  | .error c => .item s (.fault c (dw (s.faultAddr u j .read ea n)) (faultCode c))
  | .ok ls =>
    if anyHost ls then .item s (.fault cProtection (dw ea) (faultCode cProtection))
    else
      match s.checkLocs ls with
      | .error (b, i) => .item (s.arrayCheck b i) (.machineCheck { i with va := dw ea })
      | .ok s =>
        let runs := if pane then [ls] else runsOf ea ls
        let (cs, s) := s.crossRuns u true runs
        match s.arriveRuns u .C ea runs cs with
        | none => .wait
        | some s => if cs.any fun c => !c.whole then .item s (.lost (dw ea)) else .ok s (s.readLocs j.world ls)

/-- A row as a pop delivers it: its words, its array elements and the flags of its decoding. -/
structure RowData where
  words : List Word
  codes : List Elem
  flags : FlagSet

/-- A row past the pattern's end reads zero (R144). -/
def StreamDesc.noRow (d : StreamDesc) : RowData :=
  { words := List.replicate 64 0, codes := List.replicate 64 (Elem.zero (fmtClass d.fmt)), flags := 0 }

/-- A raw row of 64 elements from its bytes; the factor is 1 (R87). A NaN of any format, binary32 among them, becomes the canonical NaN as
the row is widened (R80; DEDUCED, log 38). -/
def StreamDesc.rawRow (d : StreamDesc) (bs : List Byte) : RowData :=
  let (es, f) := decodeRun d.fmt (codesOf (fmtBits d.fmt) bs)
  let ws := es.map fun e => round32 .rn (elemValue e.1 e.2)
  { words := ws.map (·.1), codes := es.map fun e => { code := BitVec.ofNat 16 e.2, fmt := e.1, scale := 127 },
    flags := if d.engM then f else ws.foldl (fun f w => f ||| w.2) f }

/-- Reads and checks the panes of a row, ascending. -/
def fetchPanes (u : UnitId) (j : Job) (d : StreamDesc) (s : State) : List Nat → SRead (List (List Byte))
  | [] => .ok s []
  | p :: ps =>
    match s.streamRead u j true (paneAddr d.base.toNat p) paneBytes with
    | .wait => .wait
    | .item s i => .item s i
    | .ok s b =>
      match paneFault (fmtClass d.fmt) b with
      | some code => .item s (.fault cPane (paneDetail code 0) code)
      | none =>
        match fetchPanes u j d s ps with
        | .ok s bs => .ok s (b :: bs)
        | r => r

/-- The array elements of 64 tensor elements from e on. -/
def paneCodesAt (wc : BitVec 2) (p0 : Nat) (panes : List (List Byte)) (e : Nat) : List Elem :=
  let blocks := (panes.flatMap fun p => (List.range 30).map fun j => (blockElems p j).1).toArray
  (List.range 64).map fun i =>
    let b := (e + i) / epb wc
    (blocks.getD ((b / 30 - p0) * 30 + b % 30) []).getD ((e + i) % epb wc) (Elem.zero wc)

/-- Row position n of a read stream. -/
def fetchRow (u : UnitId) (j : Job) (d : StreamDesc) (s : State) (n : Nat) : SRead RowData :=
  let off := d.offset n
  if d.pane then
    let cls := fmtClass d.fmt
    let e := d.elemAt off
    let ps := panesOf cls e 64
    match fetchPanes u j d s ps with
    | .wait => .wait
    | .item s i => .item s i
    | .ok s panes =>
      let (ws, f) := paneElements cls (ps.headD 0) panes e 64
      .ok s { words := ws, codes := if d.engM then paneCodesAt cls (ps.headD 0) panes e else [],
              flags := if d.engM then f &&& fFMT else f }
  else
    match d.rowFault off with
    | some c => .item s (.fault c (dw (d.rowAddr off)) (faultCode c))
    | none =>
    match s.streamRead u j false (d.rowAddr off) (8 * fmtBits d.fmt) with
    | .wait => .wait
    | .item s i => .item s i
    | .ok s bs => .ok s (d.rawRow bs)

/-- The rows of one pop from position n on. -/
def fetchRows (u : UnitId) (j : Job) (d : StreamDesc) (s : State) (n : Nat) : Nat → SRead (List RowData)
  | 0 => .ok s []
  | k + 1 =>
    match if n < d.total then fetchRow u j d s n else .ok s d.noRow with
    | .wait => .wait
    | .item s i => .item s i
    | .ok s r =>
      match fetchRows u j d s (n + 1) k with
      | .ok s rs => .ok s (r :: rs)
      | r => r

/-- A buffered item that a pop delivers. -/
def StreamItem.isRows : StreamItem → Bool
  | .rows _ _ _ => true
  | _ => false

/-- Fetches the next pop's rows of a read stream into its buffer (R143, R144). -/
def State.fetchStream (s : State) (u : UnitId) (j : Job) (q : BitVec 3) (t : Stream) : State :=
  let put (s : State) (i : StreamItem) : State :=
    s.modCore u fun c => c.setStream q
      { t with buf := t.buf ++ [{ pos := t.pos, item := i, stamp := .zero }], pos := t.pos + t.desc.rowsEach }
  if 4 ≤ t.buf.length || t.desc.total ≤ t.pos || !t.buf.all (·.item.isRows) then s
  else
    match fetchRows u j t.desc s t.pos t.desc.rowsEach with
    | .wait => s
    | .item s i => put s i
    | .ok s rs =>
      put s (.rows (if t.desc.engM then VReg.zero else VReg.ofList (rs.flatMap (·.words)))
        (if t.desc.engM then rs.map (·.codes) else []) (rs.foldl (fun f r => f ||| r.flags) 0))

/-! Writing a drain stream. -/

/-- How the writing of pushed rows ends: all are written, with the panes or bytes of them and the first loss; a fault stops
them; or they wait for the replayed order. -/
inductive Drained where
  | ok (s : State) (n : Nat) (err : Option Half)
  | fault (s : State) (n : Nat) (f : DrainFault)
  | wait

/-- A push covers every element of a pane. -/
def coversAll (wc : BitVec 2) (els : List (Nat × Nat)) : Bool :=
  (List.range (30 * epb wc)).all fun i => els.any fun e => e.1 = i

/-- An earlier loss or fault within the same push: its code comes first. -/
def Drained.after (code : Half) : Drained → Drained
  | .ok s n _ => .ok s n (some code)
  | .fault s n f => .fault s n { f with code := code }
  | .wait => .wait

/-- Goes on after a fault: with `last`, at SUNBIND, the rest of the rows is written, but after a failed pane check (R95, R145); else
the rows are kept and raise it (R412). -/
def DrainFault.go (f : DrainFault) (last : Bool) (s : State) (n : Nat) (rest : State → Drained) : Drained :=
  if last && f.cause ≠ cPane then (rest s).after f.code else .fault s n f

/-- The pane that a push is merged into (R94): a pane covered whole is neither read nor checked. -/
def drainOld (u : UnitId) (j : Job) (cls : BitVec 2) (ea : Nat) (whole : Bool) (s : State) : SRead (List Byte) :=
  if whole then .ok s paneZero
  else
    match s.streamRead u j true ea paneBytes with
    | .ok s b => match paneFault cls b with | some code => .item s (.fault cPane (paneDetail code 0) code) | none => .ok s b
    | r => r

/-- What an item that the reading of a pane gave raises for the rows to be merged (R144, R412). -/
def StreamItem.drainFault : StreamItem → DrainFault
  | .fault c d code => { cause := c, detail := d, code := code, info := none }
  | .lost va => { cause := cLoss, detail := va, code := cwLoss, info := none }
  | .machineCheck i => { cause := cMachine, detail := i.va, code := cwUncorrectable, info := some i }
  | .rows _ _ _ => { cause := cProtection, detail := 0, code := cwRange, info := none }

/-- The fault of an address that rows are written at. -/
def addrFault (c : Byte) (a : Nat) : DrainFault := { cause := c, detail := dw a, code := faultCode c, info := none }

/-- Merges elements into panes, ascending (R94, R454). -/
def drainPanes (u : UnitId) (j : Job) (t : Tie) (d : StreamDesc) (els : List (Nat × Nat)) (last : Bool) (s : State) (n : Nat) :
    List Nat → Drained
  | [] => .ok s n none
  | p :: ps =>
    let cls := fmtClass d.fmt
    let ea := paneAddr d.base.toNat p
    let mine := elsOfPane cls p els
    let whole := coversAll cls mine
    let acc : Acc := if whole then .write else .both
    let rest (s : State) : Drained := drainPanes u j t d els last s n ps
    match s.cmdLocs u j acc ea paneBytes with
    | .error c => (addrFault c (s.faultAddr u j acc ea paneBytes)).go last s n rest
    | .ok ls =>
      if anyHost ls then (addrFault cProtection ea).go last s n rest
      else
        match drainOld u j cls ea whole s with
        | .wait => .wait
        | .item s i => i.drainFault.go last s n rest
        | .ok s b =>
          match s.cWritePane u .C j (if whole then t else s.merging t) ea ls (mergePane cls d.fmt d.scale mine b) with
          | .wait => .wait
          | .bad s code => (rest s).after code
          | .ok s _ _ => drainPanes u j t d els last s (n + 1) ps

/-- Writes raw rows. -/
def drainRaw (u : UnitId) (j : Job) (t : Tie) (d : StreamDesc) (last : Bool) (s : State) (n : Nat) : List (Int × List Word) → Drained
  | [] => .ok s n none
  | (off, ws) :: rs =>
    let ea := d.rowAddr off
    let bs := bytesOf (fmtBits d.fmt) (d.rawCodes ws).1
    let rest (s : State) : Drained := drainRaw u j t d last s n rs
    match s.cmdLocs u j .write ea bs.length with
    | .error c => (addrFault c (s.faultAddr u j .write ea bs.length)).go last s n rest
    | .ok ls =>
      if anyHost ls then (addrFault cProtection ea).go last s n rest
      else
        match s.writeAt u .C j t ea (runsOf ea ls) (bs.map some) with
        | .wait => .wait
        | .bad s code => (rest s).after code
        | .ok s _ lost => if lost then (rest s).after cwLoss else drainRaw u j t d last s (n + bs.length) rs

/-- Writes the rows of one push. -/
def drainPush (u : UnitId) (j : Job) (d : StreamDesc) (last : Bool) (s : State) (b : StreamBuf) : Drained :=
  match b.item with
  | .rows r _ _ =>
    let rows := d.pushRows b.pos r
    if d.pane then
      let els := (d.paneCodes rows).1
      drainPanes u j b.stamp.tie d els last s 0 ((els.map (·.1)).foldr (fun e l => insertUp (e / (epb (fmtClass d.fmt) * 30)) l) [])
    else drainRaw u j b.stamp.tie d last s 0 rows
  | _ => .ok s 0 none

/-- Writes the oldest push of a drain stream (R144, R412). -/
def State.drainStream (s : State) (u : UnitId) (j : Job) (q : BitVec 3) (t : Stream) : State :=
  let put (s : State) (t : Stream) : State :=
    if (s.core u).job.isNone then s else s.modCore u fun c => c.setStream q t
  match t.buf, t.fault with
  | b :: rest, none =>
    match drainPush u j t.desc false s b with
    | .wait => s
    | .ok s n err => put s { t with buf := rest, rewrite := false, written := t.written + n, err := t.err <|> err }
    | .fault s _ f => put s { t with fault := some f, rewrite := false }
  | _, _ => s

/-- A trap has reported a fault of the stream and its handler still runs on V: the rows wait for its ERET (R412). -/
def Core.rewriteWaits (c : Core) (t : Stream) : Bool := t.rewrite && c.eV.hm

/-- STREAM_ROW_TRANSFER (R144, R169, R412): the next rows of a read stream are fetched, or the oldest push written; neither
while the debugger has stopped the core (R301). -/
def execStreamRowTransfer (k : CoreId) (q : BitVec 3) (s : State) : Out :=
  let u := unitOf k
  let c := s.core u
  .next (match c.job, c.streams[q.toNat] with
    | some j, some t =>
      if c.health ≠ .live || c.ending.isSome || c.dbgStopped then s
      else if t.desc.drain then (if c.rewriteWaits t then s else s.drainStream u j q t)
      else if c.halted then s
      else s.fetchStream u j q t
    | _, _ => s)

/-! SUNBIND at the head of its queue. -/

/-- Writes every push left: what is written and the first error. -/
inductive AllDrained where
  | done (s : State) (n : Nat) (err : Option Half)
  | wait

/-- A failed pane check leaves every later pane unchanged (R95); after any other error the rest is written (R145). -/
def drainAll (u : UnitId) (j : Job) (d : StreamDesc) (s : State) (n : Nat) (err : Option Half) : List StreamBuf → AllDrained
  | [] => .done s n err
  | b :: bs =>
    match drainPush u j d true s b with
    | .wait => .wait
    | .ok s m e => drainAll u j d s (n + m) (err <|> e) bs
    | .fault s m f => .done s (n + m) (err <|> some f.code)

/-- SUNBIND at the head of its queue (R145, R399): PROGRESS counts panes, or 64-byte lines of raw data. The rows of a push that raised
a fault are tried once more with the rest. -/
def runSunbind (s : State) (u : UnitId) (j : Job) (w : Tie) : Option Stream → CDone
  | none => .done s 0 0
  | some t =>
    let units (n : Nat) : Nat := if t.desc.pane then n else n / 64
    let err := t.err <|> t.fault.map (·.code)
    let buf := t.buf.map fun b => { b with stamp := { b.stamp with since := max b.stamp.since w.since } }
    match drainAll u j t.desc s t.written err (if t.fault.any (·.cause = cPane) then [] else buf) with
    | .wait => .wait
    | .done s n err => .done s (err.getD 0) (units n)

end Sys2Proof.Machine
end

