-- ==== Sys2Proof/Machine/Exchange.lean ====
section
/-! DEFINITION. Exchange channels (R189 to R194, R434 to R438): XSEND, XRECV and XFREE, and the arrival of permits. -/

namespace Sys2Proof.Machine

/-! Issue. -/

/-- The other die of a pair (R26). -/
def partnerOf (vd : Vd) : Vd := ⟨(vd.val + 4) % 8, by omega⟩

/-- The receiving core of an entry. -/
def recvCore (i : Nat) (e : XchEntry) : CoreId :=
  let vd : Vd := ⟨(i / 16 % 4) + (if i % 2 = 0 then 4 else 0), by split <;> omega⟩
  coreAt vd ⟨e.rcore % 6, Nat.mod_lt _ (by decide)⟩

/-- The entry a command names, when the executing die may use it (R434): `recv` for the commands of the receiving die. -/
def State.xchEntry (s : State) (u : UnitId) (j : Job) (ch : BitVec 3) (dir recv : Bool) : Option XchEntry :=
  let vd := dieOf u
  match s.context j.ctx with
  | none => none
  | some x =>
    match x.xch[exchIndex u ch dir]? with
    | some e =>
      -- direction 0 runs M to C, so its sender is an M-die and its receiver a C-die
      if (s.dieListOf j.dev).contains (partnerOf vd) && e.valid && isMDie vd = (dir = recv) then some e else none
    | none => none

/-- Buffers of a direction that a core's job holds. -/
def XDir.held (d : XDir) (k : CoreId) : Nat :=
  if d.attached = some k then (if d.ping = .held then 1 else 0) + (if d.pong = .held then 1 else 0) else 0

/-- XRECV commands of a direction that have issued and not been performed. -/
def Core.recvsOut (c : Core) (ch : BitVec 3) (dir : Bool) : Nat :=
  (c.cq.toList.flatten.filter fun k => k.op = .xrecv ch dir).length

/-- Issues an exchange command: the checks every one of them makes, then its own, then its place in its queue. -/
def issueX (i : Instr) (h : Hdr) (m : ModCX) (o : K3) (recv : Bool) (op : COp)
    (own : State → Job → CoreId → XchEntry → Res → Res) (s : State) : Out :=
  issueCq i h m.queue (fun s =>
    match (s.core s.cur.1).job, coreOf s.cur.1 with
    | some j, some k =>
      match s.xchEntry s.cur.1 j m.ch m.dir recv with
      | none => .trap s cProtection 0
      | some e => own s j k e (putC m.queue op (s.me.scalar o.adr) (s.me.scalar o.aux) o.cwi h.sig s)
    | _, _ => .trap s cProtection 0) s

/-- XSEND (R434). -/
def execXsend (h : Hdr) (m : ModCX) (o : K3) (s : State) : Out :=
  issueX (.xsend h m o) h m o false (.xsend m.ch m.dir) (fun s _ _ e put =>
    let n := (s.me.scalar o.aux).toNat
    if n = 0 || n % 64 ≠ 0 || 4096 * e.size < n then .trap s cProtection (dw n) else put) s

/-- A buffer of an entry lies beyond the job's scratchpad range: its address (R190). -/
def XchEntry.outside (e : XchEntry) (k : CoreId) (j : Job) : Option Dword :=
  let bad (o : Nat) : Bool := 4096 * j.spNeed < o + 4096 * e.size
  let at_ (o : Nat) : Dword := dw (scratchBase + 2 ^ 24 * k.val + o)
  if bad e.ping then some (at_ e.ping) else if bad e.pong then some (at_ e.pong) else none

/-- XRECV (R434, R190). -/
def execXrecv (h : Hdr) (m : ModCX) (o : K3) (s : State) : Out :=
  issueX (.xrecv h m o) h m o true (.xrecv m.ch m.dir) (fun s j k e put =>
    let i := exchIndex s.cur.1 m.ch m.dir
    let d := s.xdir j.ctx i
    if recvCore i e ≠ k then .trap s cProtection 0
    else
      match if d.attached = some k then none else e.outside k j with
      | some a => .trap s cScratch a
      | none =>
        if 2 ≤ d.held k + (s.core s.cur.1).recvsOut m.ch m.dir then trapFree s cProtection else put) s

/-- XFREE (R434, R192). -/
def execXfree (h : Hdr) (m : ModCX) (o : K3) (s : State) : Out :=
  issueX (.xfree h m o) h m o true (.xfree m.ch m.dir) (fun s j k _ put =>
    let d := s.xdir j.ctx (exchIndex s.cur.1 m.ch m.dir)
    if d.held k = 0 && (s.core s.cur.1).recvsOut m.ch m.dir = 0 then trapFree s cProtection else put) s

/-! At the head of a queue. -/

/-- A direction just attached (R190): both buffers FREE, two permits on their way. -/
def XDir.attach (k : CoreId) : XDir := { XDir.detached with attached := some k }

/-- Free buffers whose permits have not reached the sending die, and whether some permit is on its way. -/
def XDir.newPermit (d : XDir) : Bool :=
  d.attached.isSome && d.permits < (if d.ping = .free then 1 else 0) + (if d.pong = .free then 1 else 0)

/-- A permit is on its way to the sending die. -/
def XDir.permitDue (d : XDir) : Bool := d.newPermit || d.buf d.nextFree = .returning || d.buf (!d.nextFree) = .returning

/-- A permit reaches the sending die (R191): one of attachment, or that of the buffer returned first. -/
def XDir.permitArrives (d : XDir) : XDir :=
  if d.newPermit then { d with permits := d.permits + 1 }
  else if d.buf d.nextFree = .returning then { d.setBuf d.nextFree .free with permits := d.permits + 1 }
  else if d.buf (!d.nextFree) = .returning then { d.setBuf (!d.nextFree) .free with permits := d.permits + 1 }
  else d

/-- PERMIT_ARRIVAL (R191): a lost permit message is sent again (R185), so a permit arrives while a path is up. -/
def execPermitArrival (c : CtxId) (entry : Fin 64) (s : State) : Out :=
  let i := entry.val
  let d := s.xdir c i
  .next (match d.attached with
    | none => s
    | some k =>
      let vd := dieOf (unitOf k)
      if s.anyPath (endOfVd vd) (endOfVd (partnerOf vd)) && d.permitDue then
        (s.ctl (endOfVd vd) (endOfVd (partnerOf vd))).setXdir c i d.permitArrives
      else s)

/-- What has become of an XSEND's data: the lines applied, and which of R435's codes apply. -/
structure XSent where
  lines : Nat
  refused : Bool
  uncorrectable : Bool
  lost : Bool

def XSent.code (t : XSent) : Half :=
  if t.refused then cwRange else if t.uncorrectable then cwUncorrectable else if t.lost then cwLoss else 0

/-- Counts a write that has been noted. -/
def State.noted (s : State) (note : Bool) : State := if note then { s with writes := s.writes + 1 } else s

/-- Sends the data from offset `at_` of the source on, in messages of 4,096 bytes (R435). -/
def sendData (u : UnitId) (j : Job) (w : Tie) (src : Nat) (k : CoreId) (base : Nat) (s : State) (t : XSent) (at_ left : Nat) :
    Nat → Option (State × XSent)
  | 0 => some (s, t)
  | fuel + 1 =>
    if left = 0 then some (s, t)
    else
      let n := min 4096 left
      let ea := (src + at_) % 2 ^ 64
      match s.cRead u .C j ea n with
      | .wait => none
      | .bad s code =>
        some (s, if code = cwUncorrectable then { t with uncorrectable := true } else { t with lost := true })
      | .ok s bs lost =>
        if lost then some (s, { t with lost := true })
        else
          let locs := (List.range n).map fun i => Loc.scratch k (base + at_ + i)
          let (ok, s) := s.send (endOf u) (endOf (unitOf k)) 2 n .other
          if ok then
            match s.arriveLines u .C (linesOf (base + at_) locs) with
            | none => none
            | some s =>
              sendData u j w src k base ((s.writeSome (s.merging w) (s.racing w) j.world locs bs).noted (s.racing w)) { t with lines := t.lines + n / 64 } (at_ + n) (left - n)
                fuel
          else sendData u j w src k base s { t with lost := true } (at_ + n) (left - n) fuel

/-- XSEND at the head of its queue (R435): its source range is checked, then it takes a permit, and in a turn of its own it
sends. -/
def runXsend (s : State) (u : UnitId) (j : Job) (q : BitVec 2) (c : CCmd) (ch : BitVec 3) (dir : Bool) : CDone :=
  let i := exchIndex u ch dir
  let d := s.xdir j.ctx i
  match c.permit with
  | none =>
    match s.cmdLocs u j .read c.adr.toNat c.aux.toNat with
    | .error e => .done s (faultCode e) 0
    | .ok ls =>
      if anyHost ls then .done s cwRange 0
      else if d.attached.isNone || d.permits = 0 then .wait
      else
        let b := d.nextFill
        let d' : XDir := { d.setBuf b .filling with permits := d.permits - 1, nextFill := !b }
        .begun ((s.setXdir j.ctx i d').modCore u fun k =>
          { k with cq := k.cq.set q.toNat ({ c with permit := some b } :: (k.cq[q.toNat]).drop 1) })
  | some b =>
    match d.attached, (s.context j.ctx).bind fun x => x.xch[i]? with
    | some k, some e =>
      if d.buf b ≠ .filling then .done s cwRange 0
      else
        match sendData u j { c.stamp.tie with queued := false } c.adr.toNat k (if b then e.pong else e.ping) s
            { lines := 0, refused := false, uncorrectable := false, lost := false } 0 c.aux.toNat (c.aux.toNat / 4096 + 2) with
        | none => .wait
        | some (s, t) =>
          let d := s.xdir j.ctx i
          let marked := t.lost || t.uncorrectable
          let s := if d.buf b = .filling then s.setXdir j.ctx i (d.setBuf b (.full (c.aux.toNat / 64) marked)) else s
          .done s t.code t.lines
    | _, _ => .done s cwRange 0

/-- XRECV at the head of its queue (R436): PROGRESS carries BUF and LINES (Table 19.6). -/
def runXrecv (s : State) (u : UnitId) (j : Job) (ch : BitVec 3) (dir : Bool) : CDone :=
  let i := exchIndex u ch dir
  let d := s.xdir j.ctx i
  match coreOf u with
  | none => .done s cwRange 0
  | some k =>
    if d.attached ≠ some k then .begun (s.setXdir j.ctx i (XDir.attach k))
    else
      match d.buf d.nextRecv with
      | .full lines marked =>
        .done (s.setXdir j.ctx i { d.setBuf d.nextRecv .held with nextRecv := !d.nextRecv })
          (if marked then cwLoss else 0) ((if d.nextRecv then 2 ^ 23 else 0) + lines)
      | _ => .wait

/-- XFREE at the head of its queue (R437). -/
def runXfree (s : State) (u : UnitId) (j : Job) (ch : BitVec 3) (dir : Bool) : CDone :=
  let i := exchIndex u ch dir
  let d := s.xdir j.ctx i
  if d.buf d.nextFree = .held && d.attached = coreOf u then
    .done (s.setXdir j.ctx i { d.setBuf d.nextFree .returning with nextFree := !d.nextFree }) 0 0
  else .wait

/-! C commands at the heads of their queues. -/

/-- Runs the command of a queue's head that is no marker. -/
def runCommand (s : State) (u : UnitId) (j : Job) (q : BitVec 2) (c : CCmd) : CDone :=
  match c.op with
  | .cpy => runCpy s u j c.stamp.tie c.adr
  | .cpyp m => runCpyp s u j c.stamp.tie m c.adr
  | .cpyr => runCpyr s u j c.stamp.tie c.adr
  | .cdec vonly => runCdec s u j c.stamp.tie vonly c.adr
  | .cenc => runCenc s u j c.stamp.tie c.adr
  | .sunbind t => runSunbind s u j c.stamp.tie t
  | .tsfill n swz fillNo => if s.fillReady u n fillNo then runTsfill s u j n swz c.adr else .wait
  | .cbw => runCbw s u j c.stamp.tie c.adr c.aux
  | .xsend ch dir => runXsend s u j q c ch dir
  | .xrecv ch dir => runXrecv s u j ch dir
  | .xfree ch dir => runXfree s u j ch dir
  | .token _ | .fence _ _ | .off => .done s 0 0

/-- Takes the head off a queue. -/
def Core.popC (c : Core) (q : BitVec 2) : Core := { c with cq := c.cq.set q.toNat ((c.cq[q.toNat]).drop 1) }

/-- What a queue's performed command has seen is causally before the commands behind it (R156, R154). -/
def seenBy (n : Nat) (l : List CCmd) : List CCmd := l.map fun c => { c with stamp := { c.stamp with since := max c.stamp.since n } }

/-- Takes a command that has made its accesses off its queue; `n` writes are performed. -/
def Core.retireC (c : Core) (q : BitVec 2) (n : Nat) : Core := { c with cq := c.cq.set q.toNat (seenBy n ((c.cq[q.toNat]).drop 1)) }

/-- A queue holds a copy of a marker. -/
def hasMarker (op : COp) (l : List CCmd) : Bool := l.any fun c => c.op = op

/-- Gives a marker's SIG mask to its copy in a queue. -/
def giveSig (op : COp) (sig : BitVec 3) (l : List CCmd) : List CCmd :=
  l.map fun c => if c.op = op then { c with sig := c.sig ||| sig } else c

/-- A TSIG marker at a head (R407): the last copy to leave pushes the tokens. -/
def Core.takeToken (c : Core) (q : BitVec 2) (cmd : CCmd) : Core :=
  let c := c.popC q
  match ([0, 1, 2, 3] : List (Fin 4)).find? fun k => hasMarker cmd.op c.cq[k] with
  | some k => { c with cq := c.cq.set k (giveSig cmd.op cmd.sig c.cq[k]) }
  | none => c.push .C cmd.sig

/-- A FENCE marker is performed once it stands at the head of every queue it covers (R157). -/
def Core.takeFence (c : Core) (op : COp) (n : Nat) : Core :=
  let lead (l : List CCmd) : Bool := match l with | k :: _ => k.op = op | [] => false
  if ([0, 1, 2, 3] : List (Fin 4)).all fun k => lead c.cq[k] || !hasMarker op c.cq[k] then
    List.foldl (fun (c : Core) (k : Fin 4) => if lead c.cq[k] then { c with cq := c.cq.set k (seenBy n (c.cq[k].drop 1)) } else c) c [0, 1, 2, 3]
  else c

/-- An abort that waited for a C command in progress goes on (R245). -/
def State.endAbort (s : State) (u : UnitId) : State :=
  match (s.core u).ending with
  | some (code, cause, cancel) => if (s.core u).sending then s else s.endJob u code cause cancel
  | none => s

/-- C_COMMAND_PERFORMED (R320, R407, R157, R247, R248): the command at the head of a queue begins, waits or is performed,
its completion word written and its tokens pushed; one whose word must wait for its place in a replayed order is performed later
(R307). While an abort waits, only a command in progress goes on (R245). -/
def execCCommandPerformed (k : CoreId) (q : BitVec 2) (s : State) : Out :=
  let u := unitOf k
  let c := s.core u
  .next (match c.cq[q.toNat], c.job with
    | cmd :: _, some j =>
      if c.ending.isSome && cmd.permit.isNone then s
      else if c.halted && c.ending.isNone && (cmd.permit.isNone || c.health ≠ .live) then s
      else
        match cmd.op with
        | .off => s.setCore u ((c.popC q).push .C cmd.sig)
        | .token _ => s.setCore u (c.takeToken q cmd)
        | .fence _ _ => s.setCore u (c.takeFence cmd.op s.writes)
        | _ =>
          match runCommand s u j q cmd with
          | .wait => s
          | .begun s => s
          | .done t code n =>
            if (t.core u).job.isNone then t
            else if (t.tryCw u j .C cmd.stamp.tie cmd.cwi (cword q.toNat n code)).isNone then s
            else
              let t := t.writeCw u j .C cmd.stamp.tie cmd.cwi (cword q.toNat n code)
              ((t.modCore u fun c => (c.retireC q t.writes).push .C cmd.sig).endAbort u).abortAgain u .C
    | _, _ => s)

/-- Lets a C command in progress on a core complete (R245, R456). -/
def State.finishSends (s : State) (k : CoreId) : State :=
  List.foldl (fun (s : State) (q : Fin 4) =>
    match (s.core (unitOf k)).cq[q] with
    | cmd :: _ =>
      if cmd.permit.isNone then s
      else match execCCommandPerformed k (BitVec.ofNat 2 q.val) s with | .next s => s | _ => s
    | [] => s) s [0, 1, 2, 3]

end Sys2Proof.Machine
end

