-- ==== Sys2Proof/Machine/Life.lean ====
section
/-! DEFINITION. Steps of an engine outside the issue of an instruction: landing (R227, R453), the resumption of a token pop
(R205), the end of a job (R43, R46), and the rows that write registers (R115, R137, R245, R271, R300, R373). -/

namespace Sys2Proof.Machine

/-! Landing. -/

/-- The first result due, in issue order. -/
def Engine.firstDue (g : Engine) : Option Flight := g.flights.find? fun f => f.landAt ≤ g.scycle

/-- FACET_LOSS of a lost read (R453): EPC names the read, ENPC what would have issued in this cycle; the tokens the read popped are back,
and its loop-end action is not repeated. The stream of an engine that has executed REND runs again. Where the instruction of ENPC
stands in the delay slot of a taken branch, ENPC alone is kept, as R453 has it, and nothing returns to the branch's target (DESIGN
CHOICE, log 90). -/
def State.loseRead (s : State) (u : UnitId) (e : Eng) (f : Flight) (r : LostRead) : State :=
  let g := s.eng u e
  let s := (s.setEng u e { g with flights := g.flights.erase f, ended := false }).modCore u (·.unpopMask e r.wait)
  let s := s.takeTrap u e cLoss r.va r.epc g.pc r.ds false
  (s.modEng u e fun g => { g with epcDone := g.hm && r.ended }).advance u e

/-- RESULT_LAND (R227, R229, R453). -/
def execResultLand (u : UnitId) (e : Eng) (s : State) : Out :=
  let s := s.land u e
  .next (match (s.eng u e).firstDue with
    | some f => match f.lost with | some r => s.loseRead u e f r | none => s
    | none => s)

/-- TOKEN_POP_RESUME (R205): the engine's instruction issues in its next turn, its pops made. -/
def execTokenPopResume (k : CoreId) (e : Eng) (s : State) : Out :=
  let u := unitOf k
  let c := s.core u
  .next (match (c.eng e).frozen with
    | some (.tokens m) =>
      if !c.halted && (c.eng e).started && !(c.eng e).due && !(c.eng e).popDone && c.emptyBits e m = 0 then
        (s.setCore u (c.popMask e m)).modEng u e fun g => { g with frozen := none, popDone := true }
      else s
    | _ => s)

/-! The end of a job. -/

/-- The drain inside REND has ended on S, the last stream (R43). -/
def Core.jobEnded (c : Core) : Bool := c.job.isSome && c.eS.started && c.eS.ended && c.othersEnded && !c.halted

/-- JOB_COMPLETE (R43, R46). -/
def execJobComplete (k : CoreId) (s : State) : Out :=
  .next (if (s.core (unitOf k)).jobEnded then s.completeJob (unitOf k) else s)

/-! Rows that write registers. -/

/-- MQCFG_WRITE (R137): a write that MTS refuses has no effect. -/
def execMqcfgWrite (k : CoreId) (q : BitVec 2) (v : Dword) (s : State) : Out :=
  .next (if s.mqcfgOutside (unitOf k) q v then s else s.writeMqcfg (unitOf k) q v)

/-- MQPTR_HEAD_WRITE (R137). -/
def execMqptrHeadWrite (k : CoreId) (q : BitVec 2) (v : Dword) (s : State) : Out :=
  .next (s.writeMqptr (unitOf k) q v)

/-- STICKY_WRITE (R115). -/
def execStickyWrite (u : UnitId) (e : Eng) (v : Dword) (s : State) : Out := .next (s.writeSticky u e v)

/-- TSTAT_ABANDON (R243, R245): only a handler may write it. -/
def execTstatAbandon (u : UnitId) (e : Eng) (s : State) : Out :=
  .next (if (s.eng u e).hm then s.abortJob u ((s.eng u e).cause.extractLsb' 0 8) else s)

/-- TRCCTL_WRITE (R300). -/
def execTrcctlWrite (k : CoreId) (v : Dword) (s : State) : Out := .next (s.writeTrcctl (unitOf k) v)

/-- CKPT_REQ_WRITE (R271). -/
def execCkptReqWrite (k : CoreId) (v : Dword) (s : State) : Out := .next (s.writeCkpt (unitOf k) v)

/-- REGISTER_WRITE (R373, R7): a special register assigned on the engine, written as MTS may, or bytes of an MD register. -/
def execRegisterWrite (t : RegTarget) (v : Dword) (s : State) : Out :=
  .next (match t with
    | .special u e n =>
      let outside := match mqcfgOf n with | some k => s.mqcfgOutside u k v | none => false
      if !srAssigned (envOf u e) n || (!(s.eng u e).hm && privilegedWrite n v) || outside then s else s.writeSr u e n v
    | .md sc1 off n => s.mdWrite sc1 off.toNat (toBytes (min n.toNat (8 - off.toNat % 8)) v.toNat))

end Sys2Proof.Machine
end

