-- ==== Sys2Proof/Machine/SSystem.lean ====
section
/-! DEFINITION. S instructions that reach other cores and the MD: messages and the spill ring (R137 to R139, R380 to R382),
node submission (R385 to R387), phases (R163 to R166, R391, R392), groups (R48 to R50, R353 to R356), time (R357) and
DRAIN (R348, R349, R53); with the events that end their waits. -/

namespace Sys2Proof.Machine

/-- An S instruction of P64-Q: its latency matters only to the pushes of a guarded-off one. -/
def issueQ (i : Instr) (h : Hdr) (lat : Nat) (on : State → Res) (s : State) : Out :=
  .next (s.issue i 0 (some h) false (offSV lat h) on)

/-! Messages. -/

/-- A 64-byte line of the executing core's own scratchpad (R380, R381), or the cause of the fault. -/
def State.ownLine (s : State) (j : Job) (acc : Acc) (ea : Dword) : Except Byte Loc :=
  match windowOf ea.toNat with
  | .scratch _ _ => s.resolve s.cur.1 j acc 64 ea.toNat
  | _ => .error cProtection

/-- Entries of a context spilled for a queue of a core. -/
def Context.spilledFor (x : Context) (k : CoreId) (q : BitVec 2) : Bool :=
  x.spilled.any fun p => p.target = k && p.queue = q

/-- Free entries of a queue. -/
def MsgQueue.free (q : MsgQueue) : Nat := if q.en then 2 ^ q.log2n - (q.tail - q.head).toNat else 0

def creditKey (k : CoreId) (q : BitVec 2) : Nat := 4 * k.val + q.toNat

/-- Where an append of context c goes by its sender's count: `spill` when it has no credit, or when entries are spilled
for the queue (R380). -/
def State.sendSpills (s : State) (x : Context) (vd : Vd) (k : CoreId) (q : BitVec 2) : Bool :=
  CMap.get 0 (s.die vd).credits (creditKey k q) = 0 || x.spilledFor k q ||
    s.fab.appends.any fun a => a.target = k && a.queue = q && a.spill

/-- Bytes the spill ring of a context holds, entries on their way to it included. -/
def State.spillBytes (s : State) (c : CtxId) (x : Context) : Nat :=
  64 * (x.spilled.length + (s.fab.appends.filter fun a => a.ctx = c && a.spill).length)

/-- The target core that value(A) names, or the cause (R380). -/
def State.sendTarget (s : State) (u : UnitId) (j : Job) (v : Dword) : Except Byte CoreId :=
  let n := if v = 63 then u.val else v.toNat
  if h : n < 48 then
    let k : CoreId := ⟨n, h⟩
    if !(s.dieListOf j.dev).contains (dieOf (unitOf k)) then .error cProtection
    else
      match (s.core (unitOf k)).job with
      | some j' => if j'.world = j.world then .ok k else .error cWorld
      | none => .ok k
  else .error cProtection

/-- The endpoint an append travels to: the target's die, or the home of the spill ring. -/
def State.appendHome (s : State) (x : Context) (k : CoreId) (spill : Bool) : Endpoint :=
  if spill then s.homeOf (.dram x.dev x.spillBase.toNat) else endOf (unitOf k)

/-- Sends an entry: a credit is spent when it goes to the queue, and DST gets the credits left, or 0 (R380). -/
def State.sendEntry (s : State) (u : UnitId) (from_ : CoreId) (j : Job) (x : Context) (k : CoreId) (q : BitVec 2)
    (data : List Byte) (spill : Bool) : Dword × State :=
  let vd := dieOf u
  let d := s.die vd
  let left := CMap.get 0 d.credits (creditKey k q) - 1
  let home := s.appendHome x k spill
  let cls : BitVec 3 := if spill then 0 else 1
  let a : Append :=
    { from_ := from_, member := j.standIn, seq := s.me.seqCount, ctx := j.ctx, slot := j.slot, stamp := s.stampOf u, target := k, queue := q,
      data := BitVec.ofNat 512 (ofBytes data), spill := spill,
      msgSeq := if home = endOf u then none else some (s.flow (endOf u) home cls).nextSeq,
      facets := if home = endOf u then [] else s.formFacets (endOf u) home cls data }
  let (ok, s) := s.send (endOf u) home cls 64 (.stream u .S (.append q k))
  let s := if spill then s else s.setDie vd { s.die vd with credits := CMap.set 0 (s.die vd).credits (creditKey k q) left }
  let s := s.modEng u .S fun g => { g with seqCount := g.seqCount + 1 }
  let s : State := if ok then { s with fab := { s.fab with appends := s.fab.appends ++ [a] } }
    else s.noteLost u .S (.append q k)
  (if spill then 0 else dw left, s)

/-- MSEND (R380, R382). -/
def execMsend (h : Hdr) (o : Q3) (q : BitVec 2) (s : State) : Out :=
  issueQ (.msend h o q) h 2 (fun s =>
    let u := s.cur.1
    let ea := s.me.scalar o.b
    match (s.core u).job, coreOf u with
    | some j, some me =>
      match s.context j.ctx with
      | none => trapFree s cProtection
      | some x =>
        match s.ownLine j .read ea with
        | .error c => .trap s c ea
        | .ok l =>
          match s.sendTarget u j (s.me.scalar o.a) with
          | .error c => trapFree s c
          | .ok k =>
            let spill := s.sendSpills x (dieOf u) k q
            if spill && x.spillQuota < s.spillBytes j.ctx x + 64 then
              .freeze s (match s.me.frozen with | some (.quota t) => .quota t | _ => .quota s.time)
            else
              match s.checkLoc l ea 64 with
              | .error (b, i) => .done (s.readCheck u b i)
              | .ok s =>
                match s.arriveLoc l u .S 64 with
                | none => .freeze s .replay
                | some s =>
                  let (v, s) := s.sendEntry u me j x k q (s.readLoc j.world l 64) spill
                  .seq (s.fly u .S 2 (sdstWrite v o.dst) 0 h.sig)
    | _, _ => trapFree s cProtection) s

/-- The place of the next entry of a queue. -/
def MsgQueue.place (m : MsgQueue) : Nat := m.base + 64 * (m.tail.toNat % 2 ^ m.log2n)

/-- Writes an entry whole at TAIL, then advances TAIL (R138). -/
def State.enterQueue (s : State) (k : CoreId) (q : BitVec 2) (data : BitVec 512) : State :=
  let m := (s.core (unitOf k)).mqs[q.toNat]
  let s := s.writeLoc 0 (.scratch k m.place) (toBytes 64 data.toNat)
  s.modCore (unitOf k) fun c =>
    { c with mqs := c.mqs.set q.toNat { c.mqs[q.toNat] with tail := c.mqs[q.toNat].tail + 1 } }

/-- The queue of the core takes entries of context c now (R138). -/
def State.queueTakes (s : State) (c : CtxId) (k : CoreId) (q : BitVec 2) : Bool :=
  let m := (s.core (unitOf k)).mqs[q.toNat]
  (match (s.core (unitOf k)).job with | some j => j.ctx = c | none => false) && m.en &&
    (m.tail - m.head).toNat < 2 ^ m.log2n

/-- The appends on their way to a queue that are the oldest of their senders: one sender's arrive in its order, those of different
senders in any (R138, R155). -/
def State.nextAppends (s : State) (k : CoreId) (q : BitVec 2) : List Append :=
  (s.fab.appends.filter fun a => a.target = k && a.queue = q).foldl
    (fun l a => if l.any fun b => b.from_ = a.from_ then l else l ++ [a]) []

/-- Takes an append out of the fabric. -/
def State.dropAppend (s : State) (a : Append) : State := { s with fab := { s.fab with appends := s.fab.appends.erase a } }

/-- Where an append goes: its queue's die, or the home of the spill ring. -/
def State.appendEnd (s : State) (x : Context) (a : Append) : Endpoint := s.appendHome x a.target a.spill

/-- The entry an append carries: one that crosses the fabric is decoded from the first k of the facets that no path has dropped, and
with fewer there is none (R174, R180, R183). -/
def Append.entry (a : Append) : Option (BitVec 512) :=
  match a.msgSeq, a.facets with
  | none, _ => some a.data
  | some _, [] => none
  | some _, f :: _ =>
    if a.facets.length < f.2.k then none
    else some (BitVec.ofNat 512 (ofBytes (decodeFacets f.2.len.toNat f.2.k
      ((a.facets.take f.2.k).map fun g => (g.2.index.toNat, g.2.payload)))))

/-- An append is lost on its way: its destination counts it, and its source reports it (R183, R185, R187). -/
def State.loseAppend (s : State) (a : Append) (home : Endpoint) : State :=
  let src := endOf (unitOf a.from_)
  let cls : BitVec 3 := if a.spill then 0 else 1
  let s := ((s.dropAppend a).countFab home cls 48 1).healthNote home
  match (s.flow src home cls).outstanding.find? fun o => some o.seq = a.msgSeq with
  | some o => s.declareLost src home cls o
  | none => ((s.noteLost (unitOf a.from_) .S (.append a.queue a.target)).countLoss src).healthNote src

/-- One append arrives: its entry goes into its queue, or to its context's spill ring; none while the replayed order makes it
wait (R307). -/
def State.takeAppend (s : State) (a : Append) : Option State :=
  let k := a.target
  let q := a.queue
  match s.context a.ctx with
  | none => some (s.dropAppend a)
  | some x =>
    match a.entry with
    | none => some (s.loseAppend a (s.appendEnd x a))
    | some data =>
      if !a.spill && s.queueTakes a.ctx k q && !x.spilledFor k q then
        let off := ((s.core (unitOf k)).mqs[q.toNat]).place
        (s.arriveWords a.ctx k (unitOf a.from_) (s.eng (unitOf a.from_) .S).scycle 0 a.seq off 8).map fun s =>
          ((s.dropAppend a).enterQueue k q data).noteWrite { a.stamp.tie with queued := false } (.scratch k off) 64
      else
        some (((s.dropAppend a).setContext a.ctx
          (some { x with spilled := x.spilled ++ [{ target := k, queue := q, data := data }] })).spillPut (s.appendEnd x a) x data)

/-- MSG_APPEND_ARRIVAL (R138): the first append on its way to the queue that may arrive does. One that has lost too many facets on its
way does not (R174): the loss is the sender's to report (R187). -/
def execMsgAppendArrival (k : CoreId) (q : BitVec 2) (s : State) : Out :=
  .next (((s.nextAppends k q).findSome? s.takeAppend).getD s)

/-- The first spilled entry of a queue, and the rest. -/
def takeSpilled (k : CoreId) (q : BitVec 2) : List Spilled → Option (Spilled × List Spilled)
  | [] => none
  | p :: ps =>
    if p.target = k ∧ p.queue = q then some (p, ps)
    else match takeSpilled k q ps with | some (r, rs) => some (r, p :: rs) | none => none

/-- Moves at most n spilled entries into a queue, in order. -/
def State.moveIn (s : State) (c : CtxId) (k : CoreId) (q : BitVec 2) : Nat → State
  | 0 => s
  | n + 1 =>
    if s.queueTakes c k q then
      match s.context c with
      | none => s
      | some x =>
        match takeSpilled k q x.spilled with
        | none => s
        | some (p, rest) =>
          let u := unitOf k
          let off := ((s.core u).mqs[q.toNat]).place
          match s.arriveWords c k u (s.eng u .S).scycle 5 (s.core u).spillSeq off 8 with
          | none => s
          | some s =>
            match s.context c with
            | none => s
            | some x =>
              let s := s.setContext c (some { x with spilled := rest })
              let s := s.modCore u fun c => { c with spillSeq := c.spillSeq + 1 }
              (s.enterQueue k q p.data).moveIn c k q n
    else s

/-- SPILL_MOVE_IN (R138). -/
def execSpillMoveIn (k : CoreId) (q : BitVec 2) (s : State) : Out :=
  .next (match (s.core (unitOf k)).job with
    | none => s
    | some j => s.moveIn j.ctx k q 65536)

/-- The dies of a list take a core's report of its free entries. -/
def State.setCredits (s : State) (key free : Nat) : List Vd → State
  | [] => s
  | vd :: l => (s.setDie vd { s.die vd with credits := CMap.set 0 (s.die vd).credits key free }).setCredits key free l

/-- MSG_CREDIT_REPORT (R380): the free count reaches the dies of the core's device, in class CTL; one that no path reaches hears it
later (log 51). -/
def execMsgCreditReport (k : CoreId) (q : BitVec 2) (s : State) : Out :=
  let m := (s.core (unitOf k)).mqs[q.toNat]
  .next (if m.report then
      let vd := dieOf (unitOf k)
      let dies := s.dieListOf (devOfDie s.md.mode vd)
      let near := dies.filter fun d => s.ctlUp (endOfVd vd) (endOfVd d)
      if near = dies then
        let s := s.modCore (unitOf k) fun c => { c with mqs := c.mqs.set q.toNat { m with report := false } }
        (s.ctlAll (endOfVd vd) ((dies.filter (· ≠ vd)).map endOfVd)).setCredits (creditKey k q) m.free dies
      else if s.time % 1000 = 0 then
        (s.ctlAll (endOfVd vd) ((dies.filter (· ≠ vd)).map endOfVd)).setCredits (creditKey k q) m.free near
      else s
    else s)

/-- MRECV (R381, R382). -/
def execMrecv (h : Hdr) (o : Q3) (q : BitVec 2) (s : State) : Out :=
  issueQ (.mrecv h o q) h 4 (fun s =>
    let u := s.cur.1
    let ea := s.me.scalar o.a
    let m := (s.core u).mqs[q.toNat]
    match (s.core u).job, coreOf u with
    | some j, some k =>
      if !m.en then trapFree s cProtection
      else
        match s.ownLine j .write ea with
        | .error c => .trap s c ea
        | .ok l =>
          if m.tail = m.head then .freeze s (.message q)
          else
            let src : Loc := .scratch k (m.base + 64 * (m.head.toNat % 2 ^ m.log2n))
            match s.checkLoc src ea 64 with
            | .error (b, i) => .done (s.readCheck u b i)
            | .ok s =>
              match s.arriveLoc src u .S 64 with
              | none => .freeze s .replay
              | some s1 =>
                match s1.arriveLoc l u .S 64 with
                | none => .freeze s .replay
                | some s =>
                  let bs := s.readLoc j.world src 64
                  let s := s.applyWrite u .S j l ea bs true
                  let s := s.modCore u fun c =>
                    { c with mqs := c.mqs.set q.toNat { c.mqs[q.toNat] with head := m.head + 1, report := true } }
                  .seq (s.fly u .S 4 (sdstWrite (dw (m.tail - m.head - 1).toNat) o.dst) 0 h.sig)
    | _, _ => trapFree s cProtection) s

/-- The instruction at an engine's pc, its length and its WAIT mask, as a trap from outside its own turn needs them. -/
def State.atPc (s : State) (u : UnitId) (e : Eng) : Option (Instr × Nat) :=
  match s.fetch u e (s.eng u e).pc.toNat with
  | .ok i n => some (i, n)
  | _ => none

/-- QUOTA_STALL (R139): an MSEND that has waited longer than QUOTAWAIT raises it, unperformed; on a core that does not issue it waits
(R301). -/
def execQuotaStall (k : CoreId) (s : State) : Out :=
  let u := unitOf k
  let s : State := { s with cur := (u, .S) }
  .next (match s.me.frozen, (s.core u).job, s.atPc u .S with
    | some (.quota t), some j, some (.msend h o q, n) =>
      match s.context j.ctx, s.sendTarget u j (s.me.scalar o.a) with
      | some x, .ok dst =>
        if t + 1000 * x.quotaWait.toNat < s.time && !(s.core u).halted then
          (Res.trap s cQuota (dw (q.toNat + 2 ^ 8 * dst.val))).settle u .S n (if s.me.popDone then h.wait else 0)
        else s
      | _, _ => s
    | _, _, _ => s)

/-! NSUB. -/

/-- NSUB (R385 to R387). -/
def execNsub (h : Hdr) (o : Q3) (s : State) : Out :=
  issueQ (.nsub h o) h 1 (fun s =>
    let u := s.cur.1
    if s.appendsOut u then .freeze s (.fence 4)
    else
      match (s.core u).job with
      | none => trapFree s cProtection
      | some j =>
        match s.submit j.ctx j.world (s.me.scalar o.a).toNat none 0 none with
        | .fault c a => .trap s c (dw a)
        | .answer id st s =>
          .seq (s.fly u .S 1 (sdstWrite (dw (2 ^ 32 * id.toNat + st.toNat)) o.dst) 0 h.sig)) s

/-! Phases. -/

/-- PHADV (R164, R391): successive values for several in one ec; writes of the ec still carry the earlier one. -/
def execPhadv (h : Hdr) (o : Q3) (s : State) : Out :=
  issueQ (.phadv h o) h 1 (fun s =>
    let u := s.cur.1
    match (s.core u).job with
    | none => .seq s
    | some j =>
      let n := (s.die (dieOf u)).cur j.slot
      let d := (s.die (dieOf u)).setCur j.slot (n + 1)
      let s := s.setDie (dieOf u) { d with advances := j.slot :: d.advances }
      .seq (s.fly u .S 1 (sdstWrite (n.setWidth 64) o.dst) 0 h.sig)) s

/-- a is later than b in the modular order of R165. -/
def laterThan (a b : Word) : Bool := a ≠ b && (a - b).toNat < 2 ^ 31

/-- A write of phase n of a slot on a die is still to be performed by a core: a queued command, a push, or a result that
pushes. -/
def Core.stampPending (c : Core) (vd : Vd) (k : SlotId) (n : Word) : Bool :=
  (match c.job with | some j => j.slot = k | none => false) &&
    (c.cq.toList.any (fun l => l.any fun x => (match x.op with
      | .off | .token _ | .fence _ _ => false
      | .sunbind (some t) => x.stamp.is vd n || t.buf.any fun b => b.stamp.is vd n
      | _ => x.stamp.is vd n)) ||
     c.mq.any (fun x => x.stamp.is vd n && (match x.op with | .mret | .mloadb _ _ => true | _ => false)) ||
     c.streams.toList.any (fun t => match t with
       | some t => t.desc.drain && t.buf.any fun b => b.stamp.is vd n
       | none => false) ||
     c.eV.flights.any fun f => f.writes.any fun w => match w with | .push _ _ st => st.is vd n | _ => false)

/-- Every write of slot k on die vd stamped n is performed. The commands of a job that was saved there, and of one restored on
another die, still carry that die's stamps. -/
def State.stampDone (s : State) (vd : Vd) (k : SlotId) (n : Word) : Bool :=
  (List.finRange 48).all (fun u => !(s.core (unitOf u)).stampPending vd k n) &&
    s.md.nodes.all (fun m => match m.image with | some im => !im.core.stampPending vd k n | none => true) &&
    !s.fab.appends.any fun a => a.slot = k && a.stamp.is vd n

/-- PHASE_DONE_ADVANCE (R164): DONE becomes n + 1 once phase n is closed and its writes are performed; the other dies of the device
hear of it (R176). -/
def execPhaseDoneAdvance (vd : Vd) (k : SlotId) (s : State) : Out :=
  let d := s.die vd
  let n := d.done k
  .next (if d.curNow k ≠ n && s.stampDone vd k n then
      let others := (s.dieListOf (devOfDie s.md.mode vd)).filter (· ≠ vd)
      (s.setDie vd (d.setDone k (n + 1))).ctlAll (endOfVd vd) (others.map endOfVd)
    else s)

/-- A die has not heard that another's counter reached a value: no path carries its CTL message (R176, R186; log 51). -/
def State.unheard (s : State) (vd here : Vd) (k : SlotId) (v : Word) : Bool :=
  !s.ctlUp (endOfVd vd) (endOfVd here) && laterThan v ((s.die here).vec k vd)

/-- PHWAIT (R165, R392). -/
def execPhwait (h : Hdr) (o : Q3) (s : State) : Out :=
  issueQ (.phwait h o) h 1 (fun s =>
    let u := s.cur.1
    match (s.core u).job with
    | none => trapFree s cProtection
    | some j =>
      let a := s.me.scalar o.a
      let (n, v) : Nat × Word := match s.me.frozen with
        | some (.phase vd v) => (vd.val, v)
        | _ => (a.toNat, (s.me.scalar o.b).setWidth 32)
      if hn : n < 8 then
        let vd : Vd := ⟨n, hn⟩
        let gone := match (s.die vd).state with | .umbra | .lost => true | _ => false
        if !(fullList s.md.mode j.dev).contains vd || (!gone && !(s.dieListOf j.dev).contains vd) then
          trapFree s cProtection
        else if gone || 2 ^ 31 ≤ ((s.die vd).done j.slot - v).toNat || s.unheard vd (dieOf u) j.slot v then .freeze s (.phase vd v)
        else
          let d := s.die (dieOf u)
          let s := if vd ≠ dieOf u && laterThan v (d.vec j.slot vd) then s.setDie (dieOf u) (d.setVec j.slot vd v) else s
          .seq (if h.sig = 0 then s else s.fly u .S 1 [] 0 h.sig)
      else trapFree s cProtection) s

/-! Groups. -/

/-- The table entry a group slot binds (R48, R49). -/
def Job.groupEntry (j : Job) (g : BitVec 2) : Option Byte :=
  if j.gvalid.getLsbD g.toNat then some (j.gidx.extractLsb' (8 * g.toNat) 8) else none

def arrivalKey (k : CoreId) (entry : Byte) : Nat := 256 * k.val + entry.toNat

/-- Counts an arrival (R49, R354): its number, and the state. -/
def State.arriveGroup (s : State) (j : Job) (entry : Byte) (sel : Option SelG) (v : Dword) : Nat × State :=
  match s.context j.ctx with
  | none => (0, s)
  | some x =>
    let n := CMap.get 0 x.arrivals (arrivalKey j.standIn entry) + 1
    let s := s.setContext j.ctx (some { x with arrivals := CMap.set 0 x.arrivals (arrivalKey j.standIn entry) n })
    let a : Arrival := { ctx := j.ctx, entry := entry, core := j.standIn, episode := n, sel := sel, operand := v }
    (n, { s with md := { s.md with arrivals := s.md.arrivals ++ [a] } })

/-- GBAR and GRED: the arrival is counted once, and the engine is frozen until the episode completes (R354). While no path leads to H
the arrival waits for one (R186; log 51). -/
def groupOp (h : Hdr) (g : BitVec 2) (sel : Option SelG) (d : Spec) (a : Spec) (s : State) : Res :=
  let u := s.cur.1
  match s.me.frozen with
  | some (.groupDone v f) =>
    .seq (match sel with
      | none => if h.sig = 0 then s else s.fly u .S 1 [] 0 h.sig
      | some _ => s.fly u .S 1 (sdstWrite v d) f h.sig)
  | some (.group e n) => .freeze s (.group e n)
  | _ =>
    match (s.core u).job with
    | none => trapFree s cProtection
    | some j =>
      match j.groupEntry g with
      | none => trapFree s cProtection
      | some e =>
        if !s.ctlUp (endOf u) 8 then .freeze (s.ctlDown (endOf u) 8) .link
        else
          let (n, s) := s.arriveGroup j e sel (s.me.scalar a)
          .freeze (s.ctl (endOf u) 8) (.group e n)

/-- GBAR (R353, R354). -/
def execGbar (h : Hdr) (o : Q3) (g : BitVec 2) (s : State) : Out :=
  issueQ (.gbar h o g) h 1 (groupOp h g none o.dst o.a) s

/-- GRED (R353 to R356). -/
def execGred (h : Hdr) (o : Q3) (m : SelG) (s : State) : Out :=
  issueQ (.gred h o m) h 1 (groupOp h m.gslot (some m) o.dst o.a) s

/-- One node of the reduction tree (R355). -/
def gredNode (m : SelG) (a b : Nat) : Nat × FlagSet :=
  let w := if m.w32 then 32 else 64
  match m.op with
  | .add => ((a + b) % 2 ^ w, 0)
  | .min => (if readInt w m.u b < readInt w m.u a then b else a, 0)
  | .max => (if readInt w m.u a < readInt w m.u b then b else a, 0)
  | .and => (a &&& b, 0)
  | .or => (a ||| b, 0)
  | .xor => (a ^^^ b, 0)
  | .fadd =>
    let (r, f) := add32 .rn (fv32 (BitVec.ofNat 32 a)) (fv32 (BitVec.ofNat 32 b))
    (r.toNat, f)

/-- The tree of R50 over operands in ascending core order: the first ceil(n ÷ 2) are the left subtree. `d` bounds the
depth. -/
def gredTree (m : SelG) : Nat → List Nat → Nat × FlagSet
  | _, [] => (0, 0)
  | _, [a] => (a, 0)
  | 0, a :: _ => (a, 0)
  | d + 1, as =>
    let k := (as.length + 1) / 2
    let (l, f) := gredTree m d (as.take k)
    let (r, g) := gredTree m d (as.drop k)
    let (v, h) := gredNode m l r
    (v, f ||| g ||| h)

/-- Instruction and SEL[6:2] of an arrival (R356). -/
def Arrival.what (a : Arrival) : Option (GredOp × Bool × Bool) :=
  match a.sel with | none => none | some m => some (m.op, m.w32, m.u)

/-- The result every GRED of an episode receives, with its flags (R355, R356). Arrivals stand in ascending core
order. -/
def episodeResult (as : List Arrival) : Dword × FlagSet :=
  match as with
  | [] => (0, 0)
  | a :: rest =>
    if rest.any fun b => b.what ≠ a.what then (BitVec.allOnes 64, fNV)
    else
      match a.sel with
      | none => (0, 0)
      | some m =>
        let w := if m.w32 then 32 else 64
        let (v, f) := gredTree m 6 (as.map fun b => b.operand.toNat % 2 ^ w)
        (widenRes m.w32 (m.u || m.op = .fadd) v, f)

/-- An S engine that waits in an episode goes on with its result. -/
def Engine.endEpisode (g : Engine) (entry : Byte) (n : Nat) (v : Dword) (f : FlagSet) : Engine :=
  if g.frozen = some (.group entry n) then { g with frozen := some (.groupDone v f) } else g

/-- A core whose job of context c stands for a member goes on. -/
def Core.endEpisode (c : Core) (ctx : CtxId) (mem : BitVec 48) (entry : Byte) (n : Nat) (v : Dword) (f : FlagSet) :
    Core :=
  match c.job with
  | some j => if j.ctx = ctx && mem.getLsbD j.standIn.val then { c with eS := c.eS.endEpisode entry n v f } else c
  | none => c

/-- Every member of an entry has made arrival n. -/
def State.episodeFull (s : State) (c : CtxId) (entry : Byte) (mem : BitVec 48) (n : Nat) : Bool :=
  (List.finRange 48).all fun k =>
    !mem.getLsbD k.val || s.md.arrivals.any fun a => a.ctx = c && a.entry = entry && a.core = k && a.episode = n

/-- Applies a function to the compute cores from 0 up. -/
def State.mapCores (s : State) (f : Core → Core) : List CoreId → State
  | [] => s
  | k :: ks => (s.modCore (unitOf k) f).mapCores f ks

/-- The lowest episode with an arrival at an entry. -/
def State.firstEpisode (s : State) (c : CtxId) (entry : Byte) : Option Nat :=
  ((s.md.arrivals.filter fun a => a.ctx = c && a.entry = entry).map (·.episode)).min?

/-- GROUP_EPISODE_COMPLETE (R354): every member has arrived and its appends have been performed. A member whose job has
been saved goes on when it is restored (R78). It waits for a path from H to every member's die (R186; log 51). -/
def execGroupEpisodeComplete (c : CtxId) (entry : Byte) (s : State) : Out :=
  .next (match s.context c, s.firstEpisode c entry with
    | some x, some n =>
      match x.group entry.toNat with
      | none => s
      | some mem =>
        if s.episodeFull c entry mem n && !(s.fab.appends.any fun a => mem.getLsbD a.member.val && a.ctx = c) &&
            (List.finRange 48).all (fun k => !mem.getLsbD k.val || s.ctlUp 8 (endOf (unitOf k))) then
          let here (a : Arrival) : Bool := a.ctx = c && a.entry = entry && a.episode = n
          let as := (List.finRange 48).filterMap fun k => s.md.arrivals.find? fun a => here a && a.core = k
          let (v, f) := episodeResult as
          let dies := (List.finRange 8).filter fun vd => as.any fun a => dieOf (unitOf a.core) = vd
          let s := (s.ctlAll 8 (dies.map endOfVd)).mapCores (·.endEpisode c mem entry n v f) (List.finRange 48)
          let nodes := s.md.nodes.map fun m =>
            match m.image with
            | some im => { m with image := some { im with core := im.core.endEpisode c mem entry n v f } }
            | none => m
          { s with md := { s.md with arrivals := s.md.arrivals.filter fun a => !here a, nodes := nodes } }
        else s
    | _, _ => s)

/-! Time and DRAIN. -/

/-- GTIME (R357). -/
def execGtime (h : Hdr) (o : Q3) (s : State) : Out :=
  issueQ (.gtime h o) h 2 (fun s => .seq (s.fly s.cur.1 .S 2 (sdstWrite (dw s.time) o.dst) 0 h.sig)) s

/-- DRAIN (R348, R349). On SC0 and SC1 every access is performed when it issues. -/
def execDrain (h : Hdr) (o : Q3) (s : State) : Out :=
  issueQ (.drain h o) h 1 (fun s =>
    let u := s.cur.1
    let done (s : State) : Res := .seq (if h.sig = 0 then s else s.fly u .S 1 [] 0 h.sig)
    if isSched u then done s
    else if !(s.core u).drained || s.appendsOut u then .freeze s .drain
    else drainLoss s done) s

end Sys2Proof.Machine
end

