-- ==== Sys2Proof/Machine/Image.lean ====
section
/-! DEFINITION. The save image and the stop image (R254, R255, R302, Table 11.16): what each block holds, its bytes, and what is read
back from bytes. The table gives the blocks, their places and what they hold; the layout inside a block that is neither a register file
nor the scratchpad is not specified, so its bytes are opaque functions of what it holds (log 30). -/

namespace Sys2Proof.Machine

/-! What the blocks hold. -/

/-- The header: flags, context, node, class, ENG, SCYCLE of each engine, count of in-flight entries. -/
structure ImageHeader where
  persist : Bool
  incomplete : Bool
  hm : Eng → Bool
  ctx : Option CtxId
  node : Word
  cls : BitVec 2
  eng : BitVec 4
  scycle : Eng → Nat
  entries : Nat

/-- An engine's block. The program counter, with a branch's target that awaits its delay slot, is among the trap registers (log 30);
x is the S engine's, and of the core's registers the message queues stand with S, VBANKS with V and the MCFG items with M. -/
structure EngineBlock where
  a : Vector Dword 16
  lc : Vector Dword 4
  p : BitVec 32
  x : Vector Dword 32
  loops : List LoopEntry
  pc : Dword
  after : Option Dword
  ds : Bool
  cause : Dword
  epc : Dword
  enpc : Dword
  tdetail : Dword
  tvec : Dword
  tscr0 : Dword
  tscr1 : Dword
  rrb : BitVec 5
  sticky : FlagSet
  trapen : FlagSet
  tokceil : BitVec 24
  cwa : Dword
  mqs : Vector MsgQueue 4
  lent : BitVec 4
  mcfg : Mcfg
  deriving DecidableEq, Repr

/-- A bound stream register: its descriptor and its position. -/
abbrev StreamMark := Option (StreamDesc × Nat)

/-- The unstarted commands, by queue of C, and of M. -/
structure CommandBlock where
  cq : List (List CCmd)
  mq : List MCmd
  deriving DecidableEq, Repr

/-- The header of an in-flight entry: engine, remaining latency, destinations (as writes of zeros), landing flags, promised pushes. -/
structure EntryHead where
  eng : Eng
  left : Nat
  dests : List Write
  flags : FlagSet
  sig : BitVec 3
  deriving DecidableEq, Repr

end Sys2Proof.Machine

/-! The layouts that the specification does not give (log 30): the byte at an offset of a block, and what bytes are read as. -/

namespace Sys2Proof.Config
open Sys2Proof.Machine

opaque headerByte : ImageHeader → Nat → Byte
opaque headerOf : List Byte → Option ImageHeader
opaque engineByte : Eng → EngineBlock → Nat → Byte
opaque engineOf : Eng → List Byte → Option EngineBlock
opaque streamsByte : List StreamMark → Nat → Byte
opaque streamsOf : List Byte → Option (List StreamMark)
opaque slotsByte : List (BitVec 7 × TileHdr) → Nat → Byte
opaque slotsOf : List Byte → Option (List (BitVec 7 × TileHdr))
opaque countsByte : CountBlock → Nat → Byte
opaque countsOf : List Byte → Option CountBlock
opaque commandsByte : CommandBlock → Nat → Byte
opaque commandsOf : List Byte → Option CommandBlock
opaque entryByte : EntryHead → Nat → Byte
opaque entryOf : List Byte → Option EntryHead
opaque payloadByte : List Write → Nat → Byte
opaque payloadOf : List Byte → Option (List Write)

end Sys2Proof.Config

namespace Sys2Proof.Machine

/-! Blocks as bytes, and back. -/

/-- A block of n bytes. -/
def block {α : Type} (n : Nat) (byte : α → Nat → Byte) (x : α) : List Byte := (List.range n).map (byte x)

/-- What the n bytes at an offset of an image hold: what was there, while they are still its bytes; else what they are read as, and
nothing new where they are not read. -/
def readBlock {α : Type} (n : Nat) (byte : α → Nat → Byte) (read : List Byte → Option α) (old : α) (bs : List Byte) (off : Nat) : α :=
  let b := (bs.drop off).take n
  if b = block n byte old then old else (read b).getD old

def wordBytes (ws : List Word) : List Byte := ws.flatMap fun w => toBytes 4 w.toNat

/-- The words at an offset of an image. -/
def imageWord (bs : List Byte) (off i : Nat) : Word := BitVec.ofNat 32 (ofBytes ((bs.drop (off + 4 * i)).take 4))
def vregOf (bs : List Byte) (off : Nat) : VReg := ⟨((List.range 1024).map (imageWord bs off)).toArray, by simp⟩
def vrowOf (bs : List Byte) (off : Nat) : VRow := ⟨((List.range 64).map (imageWord bs off)).toArray, by simp⟩

/-- The destination of a write: the write of a zero. -/
def Write.dest : Write → Write
  | .a n _ => .a n 0
  | .lc n _ => .lc n 0
  | .x n _ => .x n 0
  | .p n _ => .p n false
  | .sr n _ => .sr n 0
  | .v n _ => .v n VReg.zero
  | .o n _ => .o n VRow.zero
  | .l n _ => .l n VReg.zero
  | .push q _ t => .push q VReg.zero t

/-- A payload that is one whole vector register stands in its entry as it stands in a file. -/
def wholeReg : List Write → Option VReg
  | [.v _ r] | [.l _ r] | [.push _ r _] => some r
  | _ => none

/-- The same destination with another vector register. -/
def Write.withReg (w : Write) (r : VReg) : Write :=
  match w with
  | .v n _ => .v n r
  | .l n _ => .l n r
  | .push q _ t => .push q r t
  | w => w

def payloadBytes (ws : List Write) : List Byte :=
  match wholeReg ws with
  | some r => wordBytes r.toList
  | none => block 4096 Config.payloadByte ws

/-- The payload at an offset of an image, for destinations that the header gives. -/
def readPayload (dests old : List Write) (bs : List Byte) (off : Nat) : List Write :=
  match wholeReg dests with
  | some _ => dests.map (·.withReg (vregOf bs off))
  | none => if dests = old.map (·.dest) then readBlock 4096 Config.payloadByte Config.payloadOf old bs off else dests

/-! What a core puts into its blocks. -/

def engines : List Eng := [.S, .V, .M, .C]

def Core.engineBlock (c : Core) (e : Eng) : EngineBlock :=
  let g := c.eng e
  { a := g.a, lc := g.lc, p := g.p, x := g.x, loops := g.loops, pc := g.pc, after := g.after, ds := g.ds, cause := g.cause, epc := g.epc,
    enpc := g.enpc, tdetail := g.tdetail, tvec := g.tvec, tscr0 := g.tscr0, tscr1 := g.tscr1, rrb := g.rrb, sticky := g.sticky,
    trapen := g.trapen, tokceil := g.tokceil, cwa := g.cwa, mqs := c.mqs, lent := c.lent, mcfg := c.mcfg }

/-- The results in flight, by engine. -/
def Core.inFlight (c : Core) : List (Eng × Flight) := engines.flatMap fun e => (c.eng e).flights.map (e, ·)

def Core.imageHeader (c : Core) (u : UnitId) (incomplete : Bool) : ImageHeader :=
  { persist := c.job.any (·.persist), incomplete := incomplete, hm := fun e => (c.eng e).hm,
    ctx := match c.job with | some j => some j.ctx | none => c.lastCtx, node := match c.job with | some j => j.node | none => 0,
    cls := if isCCore u then 2 else 1, eng := match c.job with | some j => j.eng | none => 0,
    scycle := fun e => (c.eng e).scycle, entries := c.inFlight.length }

def Core.streamMarks (c : Core) : List StreamMark := c.streams.toList.map fun t => t.map fun t => (t.desc, t.pos)

def Core.commandBlock (c : Core) : CommandBlock := { cq := c.cq.toList, mq := c.mq }

def Core.entryHead (c : Core) (p : Eng × Flight) : EntryHead :=
  { eng := p.1, left := p.2.landAt - (c.eng p.1).scycle, dests := p.2.writes.map (·.dest), flags := p.2.flags, sig := p.2.sig }

/-- Group entries bound by a job. -/
def Job.bound (j : Job) : List Byte := (boundEntries j.gvalid j.gidx).map (BitVec.ofNat 8)

/-- The counts of a core's block: its tokens, and the arrivals its job has made at the entries it is bound to. -/
def State.countBlock (s : State) (c : Core) : CountBlock :=
  { tokens := c.tokens.toList,
    arrivals := match c.job with
      | none => []
      | some j =>
        match s.context j.ctx with
        | none => []
        | some x => j.bound.map fun g => CMap.get 0 x.arrivals (arrivalKey j.standIn g) }

/-- Bytes of an image that hold nothing. -/
def State.gap (s : State) (off n : Nat) : List Byte := (List.range n).map fun i => Config.freeByte (s.freeCount + off + i)

/-- The image of a core, up to its scratchpad (Table 11.16). -/
def State.imageBytes (s : State) (u : UnitId) (c : Core) (tiles : List (BitVec 7 × TileHdr)) (incomplete : Bool) : List Byte :=
  let es := c.inFlight.take 32
  block 256 Config.headerByte (c.imageHeader u incomplete) ++
    engines.flatMap (fun e => block 1024 (Config.engineByte e) (c.engineBlock e)) ++
    block 1024 Config.streamsByte c.streamMarks ++ block 2048 Config.slotsByte tiles ++ block 256 Config.countsByte (s.countBlock c) ++
    block 4608 Config.commandsByte c.commandBlock ++
    wordBytes (c.vop.toList.flatMap (·.toList)) ++ s.gap 0x3800 0x800 ++ wordBytes (c.vlast.toList.flatMap (·.toList)) ++
    wordBytes (c.vmain.toList.flatMap (·.toList)) ++
    es.flatMap (fun p => block 64 Config.entryByte (c.entryHead p) ++ payloadBytes p.2.writes) ++
    s.gap (0x48000 + 4160 * es.length) (0x69000 - (0x48000 + 4160 * es.length))

/-- Draws the free values of an image. -/
def State.drewImage (s : State) : State := { s with freeCount := s.freeCount + 0x69000 }

/-! What a core takes from an image. -/

def EngineBlock.into (b : EngineBlock) (e : Eng) (c : Core) : Core :=
  let c := c.setEng e { c.eng e with
    a := b.a, lc := b.lc, p := b.p, loops := b.loops, pc := b.pc, after := b.after, ds := b.ds, cause := b.cause, epc := b.epc,
    enpc := b.enpc, tdetail := b.tdetail, tvec := b.tvec, tscr0 := b.tscr0, tscr1 := b.tscr1, rrb := b.rrb, sticky := b.sticky,
    trapen := b.trapen, tokceil := b.tokceil, cwa := b.cwa }
  match e with
  | .S => { c with eS := { c.eS with x := b.x }, mqs := b.mqs }
  | .V => { c with lent := b.lent }
  | .M => { c with mcfg := b.mcfg }
  | .C => c

/-- The engine blocks of an image. -/
def Core.takeEngines (c : Core) (bs : List Byte) : Core :=
  engines.foldl (fun t e => (readBlock 1024 (Config.engineByte e) (Config.engineOf e) (c.engineBlock e) bs
    (0x100 + 0x400 * engNo e)).into e t) c

/-- A stream register bound as a mark says; one that is bound so keeps what it holds. -/
def StreamMark.into (m : StreamMark) (old : Option Stream) : Option Stream :=
  if (old.map fun t => (t.desc, t.pos)) = m then old
  else m.map fun p =>
    { desc := p.1, pos := p.2, buf := [], err := none, fault := none, rewrite := false, written := (old.map (·.written)).getD 0 }

def Core.takeStreams (c : Core) (bs : List Byte) : Core :=
  let ms := readBlock 1024 Config.streamsByte Config.streamsOf c.streamMarks bs 0x1100
  { c with streams := Vector.ofFn fun q => StreamMark.into (ms.getD q.val none) c.streams[q] }

def Core.takeCommands (c : Core) (bs : List Byte) : Core :=
  let b := readBlock 4608 Config.commandsByte Config.commandsOf c.commandBlock bs 0x1E00
  { c with cq := Vector.ofFn fun q => b.cq.getD q.val [], mq := b.mq }

def Core.takeFiles (c : Core) (bs : List Byte) : Core :=
  { c with vop := Vector.ofFn fun i => vrowOf bs (0x3000 + 256 * i.val), vlast := Vector.ofFn fun i => vregOf bs (0x4000 + 4096 * i.val),
           vmain := Vector.ofFn fun i => vregOf bs (0x8000 + 4096 * i.val) }

/-- The result in flight of entry i. It lands when its engine's SCYCLE reaches the saved count plus the remaining latency. -/
def Core.entryAt (c : Core) (es : List (Eng × Flight)) (bs : List Byte) (i : Nat) : Eng × Flight :=
  let off := 0x48000 + 4160 * i
  let old : Eng × Flight := es.getD i (.S, { landAt := 0, writes := [], flags := 0, sig := 0, lost := none })
  let h := readBlock 64 Config.entryByte Config.entryOf (c.entryHead old) bs off
  let ws := readPayload h.dests old.2.writes bs (off + 64)
  (h.eng, { old.2 with landAt := (c.eng h.eng).scycle + h.left, writes := ws, flags := h.flags, sig := h.sig })

def Core.takeFlights (c : Core) (n : Nat) (bs : List Byte) : Core :=
  let es := (List.range (min n 32)).map (c.entryAt c.inFlight bs)
  engines.foldl (fun t e => t.setEng e { t.eng e with flights := (es.filter fun p => p.1 = e).map (·.2) }) c

/-- What the header of an image is read as. -/
def Core.headerIn (c : Core) (u : UnitId) (incomplete : Bool) (bs : List Byte) : ImageHeader :=
  readBlock 256 Config.headerByte Config.headerOf (c.imageHeader u incomplete) bs 0

def Core.takeHm (c : Core) (h : ImageHeader) : Core :=
  engines.foldl (fun t e => t.setEng e { t.eng e with hm := h.hm e }) c

/-- SCYCLE of each engine, from the header. -/
def Core.takeCycles (c : Core) (h : ImageHeader) : Core :=
  engines.foldl (fun t e => t.setEng e { t.eng e with scycle := h.scycle e }) c

/-- A core with everything that an image holds of it but SCYCLE, under the header that was read. -/
def Core.takeImage (c : Core) (h : ImageHeader) (bs : List Byte) : Core :=
  ((((((c.takeEngines bs).takeStreams bs).takeCommands bs).takeFiles bs).takeFlights h.entries bs).takeHm h)

/-- Tile-slot headers from an image. -/
def slotsIn (tiles : List (BitVec 7 × TileHdr)) (bs : List Byte) : List (BitVec 7 × TileHdr) :=
  readBlock 2048 Config.slotsByte Config.slotsOf tiles bs 0x1500

/-- Token and arrival counts of an image that have been changed there go into a core and the context of its job. -/
def State.takeCounts (s : State) (u : UnitId) (old : CountBlock) (bs : List Byte) : State :=
  let b := readBlock 256 Config.countsByte Config.countsOf old bs 0x1D00
  if b = old then s
  else
    let s := s.modCore u fun c => { c with tokens := Vector.ofFn fun i => b.tokens.getD i.val 0 }
    match (s.core u).job with
    | none => s
    | some j =>
      match s.context j.ctx with
      | none => s
      | some x =>
        let counts := (j.bound.zip b.arrivals).foldl (fun m p => CMap.set 0 m (arrivalKey j.standIn p.1) p.2) x.arrivals
        s.setContext j.ctx (some { x with arrivals := counts })

end Sys2Proof.Machine
end

