-- ==== Sys2Proof/Machine/Preempt.lean ====
section
/-! DEFINITION. Pre-emption and the context switch (R76 to R79, R254 to R256, R395): the request and its stop, the save of a
job, its restore on another core, and the save watchdog. -/

namespace Sys2Proof.Machine

/-! The stop. -/

/-- A frozen instruction is issued again after a restore (R78, R382): what it waited for is asked for anew. -/
def Engine.refreeze (g : Engine) : Engine :=
  match g.frozen with
  | some (.group _ _) => g
  | some (.groupDone _ _) => g
  | _ => { g with frozen := none }

/-- PREEMPT_REQUEST (R77). -/
def execPreemptRequest (k : CoreId) (s : State) : Out :=
  .next (match (s.core (unitOf k)).preempt with
    | some p => if p.asked then s else s.tryStop k
    | none => s)

/-- PREEMPT_STOP (R77). -/
def execPreemptStop (k : CoreId) (s : State) : Out :=
  .next (s.chainBoundary k)

/-- PREEMPT_TIMEOUT (R77): 1 ms after the request the chain has not retired. The stop of a core that the debugger holds waits
for its resumption (R303). -/
def execPreemptTimeout (k : CoreId) (s : State) : Out :=
  .next (match (s.core (unitOf k)).preempt with
    | some p => 
      let c := s.core (unitOf k)
      if !p.stopped && p.since + 1000000 ≤ s.time && c.chain.state ≠ .none && !c.dbgStopped then s.withdraw k else s
    | none => s)

/-! The save. -/

/-- A read stream drops its buffer and starts again from the saved position (R254). -/
def Stream.saved (t : Stream) : Stream :=
  match t.desc.drain, t.buf with
  | false, b :: _ => { t with buf := [], pos := b.pos }
  | _, _ => t

/-- A drain stream has completed the pushes it can (R254): rows whose fault awaits a trap are saved with it. -/
def Stream.settled (t : Stream) : Bool := !t.desc.drain || t.buf.isEmpty || t.fault.isSome || t.rewrite

/-- The core as it is saved. -/
def Core.image (c : Core) : Core :=
  let c := c.undoPops
  { c with
    eS := c.eS.refreeze, eV := c.eV.refreeze, eM := c.eM.refreeze, eC := c.eC.refreeze,
    streams := ⟨(c.streams.toList.map fun t => t.map Stream.saved).toArray, by simp⟩ }

/-- What a core leaves behind when its job has been saved: as at a job's end (R46), but no message spills. -/
def State.vacate (s : State) (u : UnitId) (k : CoreId) (j : Job) : State :=
  let s := ((s.flushExits u).releaseTiles u).detach j.ctx k
  s.modCore u fun c =>
    { c with
      eS := c.eS.stopped, eV := c.eV.stopped, eM := c.eM.stopped, eC := c.eC.stopped,
      exits := [], job := none, lastWorld := j.world, lastCtx := some j.ctx, tokens := Vector.replicate 16 0, lent := 0, lentPrev := 0, mq := [], chain := Chain.none,
      mpop := [], arels := [], cq := Vector.replicate 4 [], streams := Vector.replicate 8 none,
      mqs := Vector.replicate 4 MsgQueue.reset, arrtestRaw := false, ckptReq := false, preempt := none, ending := none }

/-- Headers of the tile slots that a core claims. -/
def State.claimed (s : State) (u : UnitId) : List (BitVec 7 × TileSlot) := ((slotNums u).filter (s.claims u)).map fun n => (n, s.tile u n)

/-- What becomes the save image of a job (R254): the core as it stops, in the blocks of Table 11.16. -/
def State.imageOf (s : State) (k : CoreId) (incomplete : Bool) (addr : Nat) : SaveImage :=
  let c := (s.core (unitOf k)).image
  { core := c, from_ := k, counts := s.countBlock c, tiles := s.claimed (unitOf k), addr := addr, incomplete := incomplete }

/-- Headers of an image's tile slots. -/
def SaveImage.headers (im : SaveImage) : List (BitVec 7 × TileHdr) := im.tiles.map fun p => (p.1, p.2.hdr)

/-- Bytes of a job's image: the stop image, and the scratchpad when PERSIST = 1. -/
def imageSize (persist : Bool) (spNeed : Nat) : Nat := 0x69000 + if persist then 4096 * spNeed else 0

/-- The save image in memory (R254). The MD takes its place from the context's save pool, and which place is a free value (log 30). -/
def State.writeImage (s : State) (k : CoreId) (j : Job) (x : Context) (im : SaveImage) : State :=
  let bs := s.imageBytes (unitOf k) im.core im.headers im.incomplete ++
    (if j.persist then s.readLoc j.world (.scratch k 0) (4096 * j.spNeed) else [])
  s.drewImage.devWrite (endOf (unitOf k)) x im.addr bs

/-- Ends a save: the node is READY again with its image (R35, R57). -/
def State.saveJob (s : State) (k : CoreId) (incomplete : Bool) : State :=
  let u := unitOf k
  match (s.core u).job with
  | none => s
  | some j =>
    let place (x : Context) : Nat :=
      x.savePool.toNat + (Config.freeDword s.freeCount).toNat % (x.saveSize - imageSize j.persist j.spNeed + 1)
    let im := s.imageOf k incomplete (match s.context j.ctx with | some x => place x | none => 0)
    let s := match s.context j.ctx with
      | some x => ({ s with freeCount := s.freeCount + 1 } : State).writeImage k j x im
      | none => s
    let s := s.vacate u k j
    match s.node j.ctx j.node with
    | none => s
    | some n => s.makeReady { n with image := some im, lastDie := some (dieOf u), core := none }

/-- The stopped core's own part of a save may begin: commands in progress have completed and drain streams are written (Table 3.7,
R254). -/
def Core.mayBeSaved (c : Core) : Bool :=
  (match c.preempt with | some p => p.stopped | none => false) && !c.sending &&
    c.streams.toList.all fun t => match t with | some t => t.settled | none => true

/-- The reset of the world of a core's job runs: a save of it stops (Table 13.4). -/
def State.saveBarred (s : State) (k : CoreId) : Bool :=
  match (s.core (unitOf k)).job with | some j => s.intakeShut j.world | none => false

/-- What a save reads of the core's arrays: its vector file, and its scratchpad when PERSIST = 1 (R261). -/
def State.readSaved (s : State) (k : CoreId) : Except McInfo State :=
  match s.readFile (unitOf k) (List.range 64), (s.core (unitOf k)).job with
  | .ok s, some j =>
    if j.persist && !s.flips.isEmpty then s.checkWords (.scratch k) 0 0 (512 * j.spNeed) else .ok s
  | r, _ => r

/-- CONTEXT_SAVE (R254). What it reads is checked. The message appends of S are performed first, so that they stay before the later
accesses of the job wherever
it is restored (R155). -/
def execContextSave (k : CoreId) (s : State) : Out :=
  .next (if (s.core (unitOf k)).mayBeSaved && !s.appendsOut (unitOf k) && !s.saveBarred k then
      match s.readSaved k with
      | .ok s => s.saveJob k false
      | .error i => s.machineCheck (unitOf k) i
    else s)

/-- An engine after a reset of its die: only recalibration resets its replay counts (R251). -/
def Engine.dieReset (g : Engine) : Engine := { Engine.reset with replays := g.replays, escal := g.escal }

/-- A core after a reset of its die: what belongs to the chip itself stays, its calibration and counts, its repairs and whether it is in
umbra. -/
def Core.dieReset (c : Core) (e : Nat) : Core :=
  { Core.reset e with eS := c.eS.dieReset, eV := c.eV.dieReset, eM := c.eM.dieReset, eC := c.eC.dieReset,
                      health := c.health, cal := c.cal, step := c.step, repair := c.repair, lastWorld := c.lastWorld,
                      lastCtx := c.lastCtx, debugger := c.debugger }

/-- What a reset of a die leaves of the die itself: its state, its temperature, its repairs and counts, and the phase counters, which
belong to the slots and are cleared only as one opens (R163). -/
def Die.dieReset (d : Die) : Die :=
  { d with lease := Lease.reset, tiles := Vector.replicate 128 TileSlot.reset, credits := [] }

/-- The CFM resets a die (R256): its jobs end as AbortJob ends them, with a machine check's cause, its cores and the die take their
reset values, and its TLB is empty. Which of a die's state the reset spares is not specified (log 86). -/
def State.resetDie (s : State) (vd : Vd) : State :=
  let s := (List.finRange 6).foldl (fun s l =>
    let u := unitOf (coreAt vd l)
    (s.endJob u cwAborted cMachine false).modCore u fun c => c.dieReset (edge (isCCore u))) s
  let s := s.setDie vd (s.die vd).dieReset
  { s with tlb := s.tlb.filter fun t => t.vd ≠ vd }

/-- SAVE_WATCHDOG_EXPIRY (R256). -/
def execSaveWatchdogExpiry (k : CoreId) (s : State) : Out :=
  .next (match (s.core (unitOf k)).preempt with
    | some p =>
      if !p.stopped || s.time < p.saveBegun + 400000 * (p.expiries + 1) then s
      else if p.expiries = 0 then
        (s.logMc (.saveWatchdog k)).modCore (unitOf k) fun c => { c with preempt := some { p with expiries := 1 } }
      else (s.saveJob k true).resetDie (dieOf (unitOf k))
    | none => s)

/-! The restore. -/

/-- A slot of a restored job (R255): FULL or FILLING returns FAULTED with SLOT_DROPPED; fills still queued run again. -/
def TileSlot.restored (t : TileSlot) (u : UnitId) : TileSlot :=
  let drop : Bool := t.filling || t.hdr.fill = .full
  let hdr : TileHdr := { t.hdr with owner := localOf u }
  { t with hdr := if drop then { hdr with fill := .faulted, err := cwDropped, enc := false } else hdr, lines := [],
           dropped := t.filling || t.dropped }

/-- The registers that belong to the core, not to the job, stay the core's own (R250, R251). -/
def Engine.onCore (g old : Engine) : Engine := { g with replays := old.replays, escal := old.escal }

def Core.onCore (im old : Core) : Core :=
  { im with
    eS := im.eS.onCore old.eS, eV := im.eV.onCore old.eV, eM := im.eM.onCore old.eM, eC := im.eC.onCore old.eC,
    health := old.health, lastWorld := old.lastWorld, lastCtx := old.lastCtx, mtlb := old.mtlb, stat := old.stat, statOld := old.statOld, tiles := old.tiles,
    cal := old.cal, step := old.step, repair := old.repair, arrtestRaw := false, debugger := old.debugger, dbg := none,
    preempt := none, ending := none }

/-- A slot the image claims is claimed by another core of the die now. -/
def State.slotsTaken (s : State) (u : UnitId) (im : SaveImage) : Bool :=
  im.tiles.any fun p => (s.tile u p.1).hdr.fill ≠ .free

/-- The bytes of an image, as they stand in memory when they are read. -/
def State.imageIn (s : State) (x : Context) (n : Node) (im : SaveImage) : List Byte :=
  s.devRead x im.addr (imageSize n.persist n.spNeed)

/-- What an image of bytes makes of a tile slot's header. -/
def SaveImage.slotOf (im : SaveImage) (p : BitVec 7 × TileHdr) : TileSlot :=
  { ((im.tiles.find? fun q => q.1 = p.1).map (·.2)).getD TileSlot.reset with hdr := p.2 }

/-- The scratchpad range of a job takes bytes, or zeros. -/
def State.fillScratch (s : State) (k : CoreId) (size : Nat) (bs : List Byte) : State :=
  let lo := keyScratch k 0
  let hi := keyScratch k size
  let s : State := { s with mem := CMap.clear s.mem lo hi, flips := CMap.clear s.flips lo hi, vflips := CMap.clear s.vflips lo hi }
  s.putBytes lo bs

/-- Loads an image into a core, from its bytes (R255): files, registers, bank lending, loops, streams, tile slots, commands, SCYCLE and
results in flight, and the scratchpad. -/
def State.loadImage (s : State) (k : CoreId) (n : Node) (x : Context) (im : SaveImage) : State :=
  let u := unitOf k
  let bs := s.imageIn x n im
  let h := im.core.headerIn u im.incomplete bs
  let s := s.askOwn (endOf u) x.dev (bs.length / 4096 + 2) im.addr bs.length
  let s := if (s.core u).lastWorld = x.world then s else s.worldClear u
  let s := (s.mendFile k).modCore u fun old => ((im.core.takeCycles h).takeImage h bs).onCore old
  let s := (slotsIn im.headers bs).foldl (fun s p => s.setTile u p.1 ((im.slotOf p).restored u)) s
  let s := s.takeCounts u im.counts bs
  let s := s.fillScratch k (4096 * n.spNeed) (bs.drop 0x69000)
  let s := s.setNode { n with image := none }
  s.askQueued u

/-- The cause with which an image that is refused fails its node: one of Table 11.1 (R239), which one is a free value (log 50). -/
def State.refusalCause (s : State) : Byte :=
  causeCodes.getD ((Config.freeByte s.freeCount).toNat % causeCodes.length) cMachine

/-- A dispatch of a node with an image reaches its core (R255, R62): an image that is incomplete or of another class is refused and its
node FAILED; a core that
cannot give the job its slots refuses the dispatch. -/
def State.restoreJob (s : State) (k : CoreId) : State :=
  match s.md.dispatching.find? fun d => d.core = k with
  | none => s
  | some d =>
    match s.node d.ctx d.id, s.context d.ctx with
    | some n, some x =>
      match n.image with
      | none => s
      | some im =>
        let cause := s.refusalCause
        let h := im.core.headerIn (unitOf im.from_) im.incomplete (s.imageIn x n im)
        let s := s.dropDispatch k
        if n.state ≠ .running then s
        else if h.incomplete || h.cls ≠ (if isCCore (unitOf k) then 2 else 1) then
          let n' : Node := { n with state := .failed, cause := cause, core := none, image := none }
          let s : State := { s.setNode n' with freeCount := s.freeCount + 1 }
          { s with md := { s.md with waiting := s.md.waiting ++ [(k, n'.report 2 cause)] } }
        else if !s.takesDispatch n k || s.slotsTaken (unitOf k) im then s.refuseDispatch n
        else s.loadImage k n x im
    | _, _ => s

/-- CONTEXT_RESTORE (R255, R62). -/
def execContextRestore (k : CoreId) (s : State) : Out := .next (s.restoreJob k)

end Sys2Proof.Machine
end

