-- ==== Sys2Proof/Machine/Cfm.lean ====
section
/-! DEFINITION. The configuration manager: die states (R258, R259), reconfiguration (R274 to R277), self-test rotation (R278,
R279), the peer package and takeover (R280, R281), and package failure (R282). -/

namespace Sys2Proof.Machine

/-! Die states. -/

def DieState.code : DieState → Nat
  | .healthy => 0 | .selftest => 1 | .umbra => 2 | .lost => 3

/-- A die becomes LOST: nothing on it runs. -/
def State.loseDie (s : State) (vd : Vd) : State :=
  if (s.die vd).state = .lost then s else (s.setDieState vd .lost).haltDie vd

/-- Every path from H to the die is DOWN. -/
def State.cutOff (s : State) (vd : Vd) : Bool := !s.anyPath 8 (endOfVd vd)

/-- What a die-health event makes of a die (Table 12.1, R187). -/
def State.healthEvent (s : State) (vd : Vd) : HealthCause → State
  | .sharedSram i => s.sharedCheck vd i
  | .channelFault => if (s.die vd).state = .healthy then s.setDieState vd .umbra else s
  | .coreUmbra =>
    if (s.die vd).state = .healthy && (coresOf vd).all fun k => (s.core (unitOf k)).health = .umbra
    then s.setDieState vd .umbra else s.logMc (.dieHealth (BitVec.ofNat 8 vd.val))
  | .pathDown => if s.cutOff vd then s.loseDie vd else s.logMc (.dieHealth (BitVec.ofNat 8 vd.val))
  | .messageLost => s.logMc (.dieHealth (BitVec.ofNat 8 vd.val))

/-- The CFM hears of the paths that went down, for each die at their ends (R174). -/
def State.pathEvents (s : State) (keys : List PathKey) : State :=
  (List.finRange 8).foldl (fun s vd =>
    if keys.any fun k => k.1 = endOfVd vd || k.2.1 = endOfVd vd then s.healthEvent vd .pathDown else s) s

/-- Paths go DOWN, and the CFM hears of those that were UP (R174). -/
def State.cutPaths (s : State) (bad : Route → Bool) : State :=
  let s' := s.markDown bad
  s'.pathEvents (s'.fab.down.filter fun k => !s.fab.down.contains k)

/-- A position loses its rail: every path through it is DOWN, and the die there is LOST (R172, R258). -/
def State.railOff (s : State) (vd : Vd) : State :=
  ((s.setDie vd { s.die vd with railOn := false }).cutPaths fun r => r.meets (s.posOf vd)).loseDie vd

/-- DIE_HEARTBEAT (R258): a CTL message, and the CFM has heard the die when it arrives. -/
def execDieHeartbeat (vd : Vd) (s : State) : Out :=
  .next (if (s.die vd).state = .lost then s
    else
      let (ok, s) := s.send (endOfVd vd) 8 3 64 .other
      if ok then s.setDie vd { s.die vd with lastBeat := s.time } else s)

/-- DIE_HEARTBEAT_TIMEOUT (R258): 150 µs without a heartbeat. -/
def execDieHeartbeatTimeout (vd : Vd) (s : State) : Out :=
  .next (if (s.die vd).lastBeat + 150000 ≤ s.time then s.loseDie vd else s)

/-- DIE_RAIL_FAULT (R258, R172): the position forwards nothing any more. -/
def execDieRailFault (vd : Vd) (s : State) : Out :=
  .next (s.railOff vd)

/-- DIE_HEALTH_EVENT (R258, R253, R187). -/
def execDieHealthEvent (vd : Vd) (why : HealthCause) (s : State) : Out := .next (s.healthEvent vd why)

/-! Reconfiguration. -/

/-- A device's open slots, ascending. -/
def State.openSlots (s : State) (d : DevId) : List SlotId :=
  (List.finRange 48).filter fun k => s.slotDev k = d && (s.slot k).open_

/-- The device holds a die that has left HEALTHY for good (R274). -/
def State.mustReconfigure (s : State) (d : DevId) : Bool :=
  (s.dieListOf d).any fun vd => (s.die vd).state = .umbra || (s.die vd).state = .lost

/-- Applies a function to some slots. -/
def State.mapSlots (s : State) (ks : List SlotId) (f : Slot → Slot) : State := ks.foldl (fun s k => s.modSlot k f) s

/-- The rotation ends with its die HEALTHY unless its test has failed (R279). -/
def State.endRotation (s : State) : State :=
  match s.cfm.rotDie with
  | none => s
  | some vd =>
    let d := s.die vd
    let s := s.setDie vd { d with stopDispatch := false, state := if d.state = .selftest then .healthy else d.state }
    let s := { s with cfm := { s.cfm with rotDie := none } }
    s.mapSlots (s.openSlots (devOfDie s.md.mode vd)) fun x => { x with state := if x.state = .rotation then .normal else x.state }

/-- Ends a job on a die that runs nothing any more: its commands write no completion word. -/
def State.dropJob (s : State) (u : UnitId) : State :=
  match (s.core u).job, coreOf u with
  | some j, some k =>
    let s := (s.cutSends u j).cleanup u j
    match s.node j.ctx j.node with
    | none => s
    | some n =>
      let n := { n with state := .failed, cause := cMachine, core := none, lastDie := some (dieOf u) }
      let s := s.setNode n
      { s with md := { s.md with waiting := s.md.waiting ++ [(k, n.report 2 cMachine)] } }
  | _, _ => s

/-- AbortJob(MACHINE_CHECK) for a RUNNING node (R275); a dispatch still on its way is taken back. -/
def State.abortNode (s : State) (n : Node) : State :=
  match n.core with
  | none => s
  | some k =>
    let u := unitOf k
    let here := match (s.core u).job with | some j => j.ctx = n.ctx && j.node = n.id | none => false
    if here then (if (s.die (dieOf u)).state = .lost then s.dropJob u else s.killJob u cwAborted cMachine false)
    else
      let s := s.dropDispatch k
      let n := { n with state := .failed, cause := cMachine, core := none, image := none }
      let s := s.setNode n
      { s with md := { s.md with waiting := s.md.waiting ++ [(k, n.report 2 cMachine)] } }

/-- RUNNING nodes of some slots. -/
def State.runningIn (s : State) (ks : List SlotId) : List Node :=
  s.md.nodes.filter fun n => ks.contains n.slot && n.state = .running

/-- The drain of a device's slots: a slot in NOFIT stays there (R269; DEDUCED, log 105), and a checkpoint asked for by a completion that is
discarded is not taken (R272). -/
def State.drainSlots (s : State) (d : DevId) : State :=
  let s := match s.cfm.rotDie with | some vd => if (s.dieListOf d).contains vd then s.endRotation else s | none => s
  let ks := s.openSlots d
  let s := s.mapSlots ks fun x => { x with state := if x.state = .nofit then .nofit else .draining, ckptPending := [] }
  let keep (h : HeldReport) : Bool := !ks.contains h.slot
  let s : State :=
    { s with md := { s.md with held := s.md.held.filter keep, waiting := s.md.waiting.filter fun p => keep p.2,
                               releasing := if (s.md.held.head?.map keep).getD false then s.md.releasing else none,
                               hqStores := if s.md.releasing.isSome && !(s.md.held.head?.map keep).getD false then s.md.hqStores.drop 1
                                 else s.md.hqStores } }
  let s := (s.runningIn ks).foldl State.abortNode s
  let s := ks.foldl State.cancelSlot s
  { s with cfm := { s.cfm with phase := s.cfm.phase.set d .drain } }

/-- RECONFIGURATION (R275, R277): a further fault while slots are restored returns to the drain; one during the drain is merged into
it. -/
def execReconfiguration (d : DevId) (s : State) : Out :=
  .next (if s.mustReconfigure d && s.cfm.phase[d] ≠ .drain then s.drainSlots d else s)

/-- Every aborted job of the device's slots has ended, so its writes are settled. -/
def State.settled (s : State) (d : DevId) : Bool :=
  (List.finRange 48).all fun k =>
    match (s.core (unitOf k)).job with
    | some j => s.slotDev j.slot ≠ d || !(s.slot j.slot).open_
    | none => true

/-- The contents of a die's DRAM become undefined (R276). -/
def State.forgetDram (s : State) (vd : Vd) : State := s.setDie vd { s.die vd with epoch := (s.die vd).epoch + 1 }

/-- Drops the cached translations of a device, in the micro-TLBs too (R147). -/
def State.flushTlb (s : State) (d : DevId) : State :=
  let keep (t : TlbEntry) : Bool := match s.context t.ctx with | some x => x.dev ≠ d | none => false
  s.keepTlb keep

/-- Keepers that are lost take their images with them; a new keeper's store starts empty (R270). -/
def State.rekeep (s : State) (d : DevId) (k : SlotId) : State :=
  let keep := s.keepers d
  s.modSlot k fun x =>
    { x with images := x.images.filter (fun p => keep.contains p.1), peerImages := x.peerImages.filter fun p => keep.contains p.1 }

/-- One slot's part of a reconfiguration: its level, its ranges, its restart node. LAST names the image restored, and none when no
image has survived (R271). A slot in NOFIT stays there (R269). -/
def State.restartSlot (s : State) (k : SlotId) : State :=
  let s := if (s.slot k).state = .nofit then s else s.chooseLevel k
  if (s.slot k).state = .nofit then s.modSlot k fun x => { x with gen := x.gen + 1 }
  else
    let im := s.restoreImage k
    let s := s.restoreRanges k
    let s := s.modSlot k fun x => { x with last := match im with | some i => BitVec.ofNat 24 i.seq | none => 0 }
    (s.submitRestart k).modSlot k fun x => { x with state := .normal, gen := x.gen + 1 }

/-- The restoring begins, once the writes of every aborted job are settled (R275, R276): the die list and the translations. -/
def State.beginRestore (s : State) (d : DevId) : State :=
  let old := s.dieListOf d
  let list := (fullList s.md.mode d).filter fun vd => (s.die vd).state = .healthy
  let s : State := { s with md := { s.md with dieList := s.md.dieList.set d list } }
  let s := (old ++ list).eraseDups.foldl State.forgetDram s
  let s := (s.flushTlb d).mapSlots (s.openSlots d) fun x => { x with state := if x.state = .nofit then .nofit else .restoring }
  { s with cfm := { s.cfm with phase := s.cfm.phase.set d .restore } }

/-- The slots are restored and restarted, in ascending slot number, and the reconfiguration ends. A keeper's loss empties the stores of
shadow slots too (R270). -/
def State.endRestore (s : State) (d : DevId) : State :=
  let s := ((List.finRange 48).filter fun k => s.slotDev k = d).foldl (fun s k => s.rekeep d k) s
  let s := (s.openSlots d).foldl (fun s k => s.restartSlot k) s
  { s with cfm := { s.cfm with phase := s.cfm.phase.set d .idle } }

/-- The next part of the sequence of R275 after the drain. -/
def State.reconfigRestore (s : State) (d : DevId) : State :=
  match s.cfm.phase[d] with
  | .drain => if s.settled d then s.beginRestore d else s
  | .restore => s.endRestore d
  | .idle => s

/-- RECONFIG_RESTORE (R275): STATE := RESTORING, or the end of the sequence. -/
def execReconfigRestore (d : DevId) (s : State) : Out := .next (s.reconfigRestore d)

/-! Rotation. -/

/-- Every open slot of the device has a rotation level that fits without this die (R278). -/
def State.rotationFits (s : State) (d : DevId) (vd : Vd) : Bool :=
  let rest := (s.healthyDies d).filter (· ≠ vd)
  (s.openSlots d).all fun k =>
    match (s.slot k).table with
    | none => false
    | some t => match t.entries.find? fun e => e.valid && e.rot with | some e => e.fits rest | none => false

/-- A job is on the die, or on its way there. -/
def State.dieBusy (s : State) (vd : Vd) : Bool :=
  (coresOf vd).any fun k => (s.core (unitOf k)).job.isSome || s.md.dispatching.any fun d => d.core = k

/-- Asks a job of a PREEMPT slot to leave a core (R278). -/
def State.evict (s : State) (k : CoreId) : State :=
  match (s.core (unitOf k)).job with
  | none => s
  | some j =>
    if (s.slot j.slot).preempt && (s.core (unitOf k)).preempt.isNone then
      (s.journal 6 (some j.slot) (some k) j.node (ctxWord j.ctx) 0).modCore (unitOf k) fun c =>
        { c with preempt := some { since := s.time, asked := false, stopped := false, saveBegun := 0, expiries := 0 } }
    else s

/-- The die has not been visited within the period. -/
def State.visitDue (s : State) (vd : Vd) : Bool :=
  let last := CMap.get 0 s.cfm.rotVisits vd.val
  last = 0 || last - 1 + 1000000000 * s.cfm.rotPeriod ≤ s.time

/-- The test of the die in hand begins (R278). STATE becomes ROTATION in the slots that are NORMAL: a slot in NOFIT or TAKEN stays there
(DESIGN CHOICE, log 84). -/
def State.beginTest (s : State) (vd : Vd) : State :=
  (s.setDie vd { s.die vd with state := .selftest, full := false }).mapSlots (s.openSlots (devOfDie s.md.mode vd)) fun x =>
    { x with state := if x.state = .normal then .rotation else x.state }

/-- ROTATION_VISIT (R278): the die is chosen and its jobs asked to leave; once none is left, its test begins. Table 12.1 has selection take
the die to SELFTEST, R278 has its test begin when its jobs have left: it stays HEALTHY until then (DESIGN CHOICE, log 96). -/
def execRotationVisit (vd : Vd) (s : State) : Out :=
  let d := devOfDie s.md.mode vd
  .next (match s.cfm.rotDie with
    | some v => if v = vd && (s.die vd).state = .healthy && !s.dieBusy vd then s.beginTest vd else s
    | none =>
      if s.cfm.rotPeriod = 0 || s.cfm.phase[d] ≠ .idle || s.mustReconfigure d || (s.die vd).state ≠ .healthy ||
          !(s.dieListOf d).contains vd || !s.visitDue vd || !s.rotationFits d vd then s
      else
        let s := s.setDie vd { s.die vd with stopDispatch := true }
        let s : State := { s with cfm := { s.cfm with rotDie := some vd, rotSince := s.time,
                                                      rotVisits := CMap.set 0 s.cfm.rotVisits vd.val (s.time + 1) } }
        (coresOf vd).foldl State.evict s)

/-- ROTATION_SKIP (R278): 10 ms after dispatch stopped a job still runs. -/
def execRotationSkip (vd : Vd) (s : State) : Out :=
  .next (if s.cfm.rotDie = some vd && (s.die vd).state = .healthy && s.cfm.rotSince + 10000000 ≤ s.time && s.dieBusy vd
    then s.endRotation.logMc (.rotationSkip vd) else s)

/-- Recalibration resets MARGIN.STEP and GLINTCNT and sets CAL, whose code the MC finds (R251, log 84). -/
def Engine.recalibrated (g : Engine) : Engine := { g with replays := 0, escal := 0 }
def Core.recalibrated (cal : Byte) (c : Core) : Core :=
  { c with eS := c.eS.recalibrated, eV := c.eV.recalibrated, eM := c.eM.recalibrated, eC := c.eC.recalibrated, step := 0, cal := cal,
           health := .live, arrtestRaw := false }

/-- The march test has run on a die's cores, from the first up (R278, Table 21.3): scratchpads are zero. -/
def State.marchCores (s : State) : List CoreId → State
  | [] => s
  | k :: ks => ((s.zeroScratch k).modCore (unitOf k) Core.marched).marchCores ks

/-- The cores of a die that has passed serve again. -/
def State.serveCores (s : State) : List CoreId → State
  | [] => s
  | k :: ks =>
    let n := s.freeCount
    (({ s with freeCount := n + 1 } : State).modCore (unitOf k) (Core.recalibrated (Config.freeByte n))).serveCores ks

/-- SELFTEST_END (R278, R258, R264): a die that has passed, with no repair left without a spare, serves with every core live. -/
def execSelftestEnd (vd : Vd) (passed : Bool) (s : State) : Out :=
  let d := s.die vd
  .next (if d.state = .selftest || (d.state = .umbra && d.testing) then
      let ok := passed && !d.full
      let s := if s.cfm.rotDie = some vd then s.endRotation else s
      let s := (s.setDieState vd (if ok then .healthy else .umbra)).marchCores (coresOf vd)
      if ok then s.serveCores (coresOf vd) else s
    else s)

/-! The peer package. -/

/-- A heartbeat can reach the package. -/
def State.peerReach (s : State) : Bool := !(s.fab.portDown.1 && s.fab.portDown.2)

/-- PEER_HEARTBEAT_SEND (R280, R282): a message of class PCTL. -/
def execPeerHeartbeatSend (s : State) : Out :=
  .next (if s.cfm.pkgFailed then s
    else ({ s with cfm := { s.cfm with beatsSent := s.cfm.beatsSent + 1 } } : State).sendPeer 5 .other |>.2)

/-- PEER_HEARTBEAT (R280). -/
def execPeerHeartbeat (s : State) : Out :=
  .next (if !s.peerReach then s
    else { s with cfm := { s.cfm with lastPeerBeat := s.time,
                                      peer := if s.cfm.peer = .lost then .lost else .up } })

/-- PEER_HEARTBEAT_MISS (R280): three periods of 1 ms without a heartbeat on either port. The MC logs that the peer becomes
SUSPECT, as it does for PARTITIONED (DESIGN CHOICE, log 106). -/
def execPeerHeartbeatMiss (s : State) : Out :=
  .next (if s.cfm.peer = .up && s.cfm.lastPeerBeat + 3000000 ≤ s.time then
      ({ s with cfm := { s.cfm with peer := .suspect, peerSince := s.time } } : State).logMc .peer
    else s)

/-- A shadow slot with a peer image that a HEALTHY keeper holds whole is taken over (R281, R273); the images stay with their keepers. -/
def State.takeSlot (s : State) (k : SlotId) : State :=
  let x := s.slot k
  match x.table, (s.soundImages k x.peerImages).head? with
  | some t, some im =>
    if !x.shadow || x.open_ then s
    else
      let s := s.restoreFrom k im t.ranges
      let s := s.modSlot k fun x =>
        { x with open_ := true, shadow := false, gen := 0, last := BitVec.ofNat 24 im.seq, images := x.peerImages, peerImages := [],
                 incoming := none }
      let s := (s.resetPhases k).chooseLevel k
      if (s.slot k).state = .nofit then s else (s.submitRestart k).modSlot k fun x => { x with state := .taken }
  | _, _ => s

/-- The peer is LOST. -/
def State.losePeer (s : State) : State :=
  (List.finRange 48).foldl State.takeSlot ({ s with cfm := { s.cfm with peer := .lost } } : State)

/-- PEER_QUERY_ANSWER (R280): on ALIVE the host receives a peer event. -/
def execPeerQueryAnswer (alive : Bool) (s : State) : Out :=
  .next (if s.cfm.peer = .suspect then
      if alive then
        ({ s with cfm := { s.cfm with peer := .partitioned, peerEvents := s.cfm.peerEvents ++ [s.time] } } : State).logMc .peer
      else s.losePeer
    else s)

/-- PEER_QUERY_TIMEOUT (R280). -/
def execPeerQueryTimeout (s : State) : Out :=
  .next (if s.cfm.peer = .suspect && s.cfm.peerSince + 2000000 ≤ s.time then s.losePeer else s)

/-- PEER_MC_QUERY (R282): the MC answers ALIVE, or FAILED in package failure. -/
def execPeerMcQuery (s : State) : Out := .next { s with mc := { s.mc with answer := some (!s.cfm.pkgFailed) } }

/-- PEER_PORT_DOWN and PEER_PORT_UP (R196); port false is port 0. -/
def State.setPort (s : State) (port down : Bool) : State :=
  { s with fab := { s.fab with portDown := if port then (s.fab.portDown.1, down) else (down, s.fab.portDown.2) } }

def execPeerPortDown (port : Bool) (s : State) : Out := .next (s.setPort port true)
def execPeerPortUp (port : Bool) (s : State) : Out := .next (s.setPort port false)

/-! Package failure. -/

/-- Both scheduler cores have failed, or no open slot has a fitting entry on any device (R282). A package with no open slot at all has
not failed: the rule does not say so of it (DESIGN CHOICE, log 97). -/
def State.packageFails (s : State) : Bool :=
  let opens := (devsOf s.md.mode).flatMap s.openSlots
  (s.md.role0 = .failed && s.md.role1 = .failed) ||
    (!opens.isEmpty && opens.all fun k => (s.slot k).state = .nofit)

/-- PACKAGE_FAILURE (R282): every job stops as AbortJob stops it, no dispatch starts a job, and the MC answers FAILED to the host, over the
side-band (DESIGN CHOICE, log 98). -/
def execPackageFailure (s : State) : Out :=
  .next (if s.packageFails && !s.cfm.pkgFailed then
      let s := ({ s with cfm := { s.cfm with pkgFailed := true } } : State).logMc .packageFailed
      let s : State := { s with mc := { s.mc with sideBand := s.mc.sideBand ++ Config.failedAnswer } }
      (List.finRange 48).foldl (fun s k => s.killJob (unitOf k) cwAborted cMachine false) s
    else s)

end Sys2Proof.Machine
end

