-- ==== Sys2Proof/Machine/Fabric.lean ====
section
/-! DEFINITION. The die fabric at the level of facets (R173 to R186, R196): decoding with the code of R180, release in order,
acknowledgements, loss notices and timers, and the paths. -/

namespace Sys2Proof.Machine

/-! Facets. -/

end Sys2Proof.Machine

namespace Sys2Proof

/-- The checks of R181 on a facet by itself. -/
def Facet.bad (f : Facet) (dst : Endpoint) : Bool :=
  let rate := (f.k, f.m)
  Machine.crc32c (f.header ++ f.payload) ≠ f.crc || 6 ≤ f.cls.toNat || f.dstNo ≠ dst.val || 9 ≤ f.srcNo ||
    (if f.cls.toNat < 3 then rate ∉ [(1, 1), (2, 1), (4, 2), (2, 0)] else rate ≠ (1, 1)) ||
    (4 ≤ f.cls.toNat && (f.srcNo ≠ 8 || f.dstNo ≠ 8)) || f.k + f.m ≤ f.index.toNat || f.len.toNat = 0 ||
    4096 < f.len.toNat || f.payload.length ≠ Machine.facetLen f.len.toNat f.k

end Sys2Proof

namespace Sys2Proof.Machine

def State.endPt (s : State) (e : Endpoint) : EndPt := s.fab.ends[e]
def State.setEndPt (s : State) (e : Endpoint) (p : EndPt) : State :=
  { s with fab := { s.fab with ends := s.fab.ends.set e p } }

def DecodeBuf.is (b : DecodeBuf) (src : Endpoint) (cls : BitVec 3) (seq : Word) : Bool :=
  b.src = src && b.cls = cls && b.seq = seq

def Message.is (m : Message) (src : Endpoint) (cls : BitVec 3) (seq : Word) : Bool :=
  m.src = src && m.cls = cls && m.seq = seq

/-- A SEQ that is decoded, released or lost (R184). -/
def State.facetLate (s : State) (dst src : Endpoint) (cls : BitVec 3) (seq : Word) : Bool :=
  let f := s.flow src dst cls
  2 ^ 31 ≤ (seq - f.release).toNat || f.lostAhead.contains seq || (s.endPt dst).decoded.any (·.is src cls seq)

/-- Decode buffers of a class in use: they free on release or on loss (R182). -/
def EndPt.used (e : EndPt) (cls : BitVec 3) : Nat :=
  (e.bufs.filter fun b => b.cls = cls).length + (e.decoded.filter fun m => m.cls = cls).length

/-- Passes lost SEQs that follow N (R184); at most n of them. -/
def passLost : Nat → Word → List Word → Word × List Word
  | 0, n, l => (n, l)
  | k + 1, n, l => if l.contains n then passLost k (n + 1) (l.filter (· ≠ n)) else (n, l)

def Flow.settle (f : Flow) : Flow :=
  let (n, l) := passLost f.lostAhead.length f.release f.lostAhead
  { f with release := n, lostAhead := l }

/-- The range of a table that an address lies in: its place, and its start. -/
def rangeOf (a : Nat) : List (Dword × Nat) → Option Nat
  | [] => none
  | r :: rs => if r.1.toNat ≤ a && a < r.1.toNat + r.2 then some r.1.toNat else rangeOf a rs

/-- Adds bytes at an address to an image that is being received. -/
def CkptImage.add (im : CkptImage) (start a : Nat) (bs : List Byte) : CkptImage :=
  let put (m : CMap Byte) : CMap Byte :=
    (bs.zip (List.range bs.length)).foldl (fun m p => CMap.set 0 m (a - start + p.2) p.1) m
  { im with data := im.data.map fun p => if p.1 = start then (p.1, put p.2) else p }

/-- A piece of a checkpoint that the peer mirrors to a shadow slot (R270, R272): the image goes to every keeper of this package once
its last piece is here. -/
def State.takePiece (s : State) (k : SlotId) (seq a : Nat) (bs : List Byte) (last : Bool) : State :=
  let x := s.slot k
  match x.table with
  | some t =>
    if !x.shadow || x.open_ then s
    else
      let fresh : CkptImage := { seq := seq, bad := false, data := t.ranges.map fun r => (r.1.toNat, []) }
      let im := match x.incoming with | some i => if i.seq = seq then i else fresh | none => fresh
      let im := match rangeOf a t.ranges with | some r => im.add r a bs | none => im
      s.modSlot k fun x =>
        if last then { x with incoming := none, peerImages := keepImage (s.keepers (s.slotDev k)) im x.peerImages }
        else { x with incoming := some im }
  | none => s

/-- The images mirrored to a shadow slot are invalid: the peer resets the world that made them (R290). -/
def State.spoilPeer (s : State) (k : SlotId) : State :=
  s.modSlot k fun x =>
    { x with incoming := none, peerImages := x.peerImages.map fun p => (p.1, p.2.map fun i => { i with bad := true }) }

/-- What a message of the peer classes does when it is released (R63, R197, R272, R290). -/
def State.takePeer (s : State) (m : Message) : State :=
  if m.cls = 4 then
    match Config.peerPiece m.bytes with
    | some (k, seq, a, bs, last) => if h : k < 48 then s.takePiece ⟨k, h⟩ seq a bs last else s
    | none => s
  else if m.cls = 5 then
    let s := match Config.peerNotice m.bytes with
      | some k => if h : k < 48 then s.spoilPeer ⟨k, h⟩ else s
      | none => s
    match Config.peerKick m.bytes with
    | some v => s.kickset (v.extractLsb' 0 48)
    | none => s
  else s

/-- Releases decoded messages of a flow in order, at most n of them (R184): each is delivered to its endpoint's units. -/
def State.releaseFlow (s : State) (src dst : Endpoint) (cls : BitVec 3) : Nat → State
  | 0 => s
  | n + 1 =>
    let f := s.flow src dst cls
    let e := s.endPt dst
    match e.decoded.find? (·.is src cls f.release) with
    | none => s
    | some m =>
      let s := s.setEndPt dst
        { e with decoded := e.decoded.erase m, delivered := e.delivered ++ [m],
                 timers := e.timers.filter fun t => !(t.1 = src && t.2.1 = cls && t.2.2.1 = f.release) }
      ((s.setFlow ({ f with release := f.release + 1 } : Flow).settle).takePeer m).releaseFlow src dst cls n

/-- A message is decoded (R183): the timers of earlier SEQs of its flow that have no buffer start. -/
def State.decodeBuf (s : State) (dst : Endpoint) (b : DecodeBuf) : State :=
  let e := s.endPt dst
  let fs := b.facets.take b.k
  let data := decodeFacets b.len b.k fs
  let absent := (List.range b.k).any fun i => !fs.any fun f => f.1 = i
  let m : Message := { src := b.src, cls := b.cls, seq := b.seq, msgid := b.msgid, bytes := data }
  let s := s.setEndPt dst
    { e with bufs := e.bufs.filter (fun c => !c.is b.src b.cls b.seq), decoded := e.decoded ++ [m],
             timers := e.timers ++ [(b.src, b.cls, b.seq, s.time)] }
  let s := if absent then s.countFab dst b.cls 0 1 else s
  s.releaseFlow b.src dst b.cls ((s.endPt dst).decoded.length)

/-- Stores a good facet that arrived at a time in its buffer, or in a new one, or leaves it at the ingress (R182). A second facet
with an index its buffer holds is dropped and counted nowhere (DESIGN CHOICE, log 75). -/
def State.storeFacet (s : State) (dst src : Endpoint) (at_ : Module) (t : Nat) (f : Facet) : State :=
  let e := s.endPt dst
  match e.bufs.find? (·.is src f.cls f.seq) with
  | some b =>
    if b.len ≠ f.len.toNat || b.k ≠ f.k || b.m ≠ f.m then s.countFab dst f.cls 16 1
    else if b.facets.any fun g => g.1 = f.index.toNat then s
    else
      let b' : DecodeBuf := { b with facets := b.facets ++ [(f.index.toNat, f.payload)], since := min b.since t }
      let s := s.setEndPt dst { e with bufs := e.bufs.map fun c => if c.is src f.cls f.seq then b' else c }
      if b'.k ≤ b'.facets.length then s.decodeBuf dst b' else s
  | none =>
    if e.used f.cls < 64 then
      let b : DecodeBuf :=
        { src := src, cls := f.cls, seq := f.seq, msgid := f.msgid, k := f.k, m := f.m, len := f.len.toNat,
          facets := [(f.index.toNat, f.payload)], since := t }
      let s := s.setEndPt dst { e with bufs := e.bufs ++ [b] }
      if b.k ≤ 1 then s.decodeBuf dst b else s
    else s.setEndPt dst { e with ingress := e.ingress ++ [(at_, t, f)] }

/-- A facet at a module of a destination (R181, R182, R184): it waits behind the traffic of its class that waits at the module. One
of a message already decoded, released or lost counts under LATE, whatever its LEN, k and m (DESIGN CHOICE, log 75). -/
def State.takeFacet (s : State) (dst : Endpoint) (at_ : Module) (t : Nat) (f : Facet) : State :=
  if h : f.srcNo < 9 then
    let src : Endpoint := ⟨f.srcNo, h⟩
    if f.bad dst then s.countFab dst f.cls 16 1
    else if (s.endPt dst).ingress.any fun w => w.1 = at_ && w.2.2.cls = f.cls then
      s.setEndPt dst { s.endPt dst with ingress := (s.endPt dst).ingress ++ [(at_, t, f)] }
    else if s.facetLate dst src f.cls f.seq then s.countFab dst f.cls 32 1
    else s.storeFacet dst src at_ t f
  else s.countFab dst f.cls 16 1

/-- Takes the facets that wait at the ingress again, in order, as long as one of at most n tries takes one. -/
def State.retryIngress (s : State) (dst : Endpoint) : Nat → State
  | 0 => s
  | n + 1 =>
    let e := s.endPt dst
    let s' := e.ingress.foldl (fun s w => s.takeFacet dst w.1 w.2.1 w.2.2) (s.setEndPt dst { e with ingress := [] })
    if (s'.endPt dst).ingress.length < e.ingress.length then s'.retryIngress dst n else s'

/-- Buffers may have freed: the ingress goes on. -/
def State.flowOn (s : State) (dst : Endpoint) : State := s.retryIngress dst (s.endPt dst).ingress.length

/-- FACET_ARRIVAL (R181 to R184). -/
def execFacetArrival (dst : Endpoint) (f : FacetIn) (s : State) : Out :=
  .next ((s.takeFacet dst f.way s.time f.facet).flowOn dst)

/-! Losses and acknowledgements. -/

/-- Steps that follow once this one ends, before the turns of the schedule. -/
def State.follow (s : State) (is : List Instr) : State := { s with schedule := is.map Turn.event ++ s.schedule }

/-- Factor of the peer ports' timers (R196). -/
def timerScale (cls : BitVec 3) : Nat := if 4 ≤ cls.toNat then 10 else 1

/-- When the timer of a message that is not decoded began (R183): the arrivals of its facets, and the decodings of later SEQs of its
flow. -/
def EndPt.begun (e : EndPt) (src : Endpoint) (cls : BitVec 3) (seq : Word) : List Nat :=
  List.flatten [(e.bufs.filter (·.is src cls seq)).map (·.since),
    (e.ingress.filter fun w => w.2.2.srcNo = src.val && w.2.2.cls = cls && w.2.2.seq = seq).map (·.2.1),
    (e.timers.filter fun t => t.1 = src && t.2.1 = cls && t.2.2.1 ≠ seq && (t.2.2.1 - seq).toNat < 2 ^ 31).map (·.2.2.2)]

/-- DECODE_TIMEOUT (R183): the message is lost at the destination, its source is told, and a die-health event is sent. The notice of a
message of the peer goes to the peer's H (R196); one that no path carries does not arrive, and the source learns of the loss by its
timer (R185). -/
def execDecodeTimeout (dst src : Endpoint) (cls : BitVec 3) (seq : Word) (s : State) : Out :=
  let e := s.endPt dst
  .next (if s.facetLate dst src cls seq || !(e.begun src cls seq).any fun t => t + 2000 * timerScale cls ≤ s.time then s
    else
      let s := s.setEndPt dst { e with bufs := e.bufs.filter fun b => !b.is src cls seq }
      let s := s.countFab dst cls 48 1
      let f := s.flow src dst cls
      let s := s.setFlow ({ f with lostAhead := f.lostAhead ++ [seq] } : Flow).settle
      let s := (s.releaseFlow src dst cls (s.endPt dst).decoded.length).healthNote dst
      let s := s.flowOn dst
      if 4 ≤ cls.toNat then (s.sendPeer 5 .other).2
      else if s.ctlUp dst src then (s.ctl dst src).follow [.lossNotice src dst cls seq]
      else (s.send dst src 3 64 .other).2)

/-- Sends an acknowledgement of N for each flow; those that arrive are taken in steps of their own. -/
def State.sendAcks (s : State) : List Flow → State
  | [] => s
  | f :: fs =>
    let (ok, s) := s.send f.dst f.src 3 64 .ack
    let s := s.sendAcks fs
    if ok then s.follow [.flowAck f.src f.dst f.cls f.release] else s

/-- Acknowledges the messages of the peer's flows that have been released since the last acknowledgement, in class PCTL (R185, R196). -/
def State.ackPeer (s : State) : List Flow → State
  | [] => s
  | f :: fs =>
    let (ok, s) := s.sendPeer 5 .ack
    (if ok then s.setFlow { s.flow 8 8 f.cls with acked := f.release } else s).ackPeer fs

/-- FLOW_ACK_SEND (R185): an acknowledgement of N for every flow between the two that has messages outstanding; of the peer's flows to
H, for those released since the last one. -/
def execFlowAckSend (dst src : Endpoint) (s : State) : Out :=
  .next (if src = dst then (if src = 8 then s.ackPeer (s.fab.flows.filter fun f => f.src = 8 && f.dst = 8 && f.acked ≠ f.release) else s)
    else s.sendAcks (s.fab.flows.filter fun f => f.src = src && f.dst = dst && !f.outstanding.isEmpty))

/-- FLOW_ACK (R185): frees the record of every message before `upto`. -/
def execFlowAck (src dst : Endpoint) (cls : BitVec 3) (upto : Word) (s : State) : Out :=
  let f := s.flow src dst cls
  .next (if f.outstanding.isEmpty then s
    else s.setFlow { f with outstanding := f.outstanding.filter fun o =>
      !(upto ≠ o.seq && (upto - o.seq).toNat < 2 ^ 31) })

/-- LOSS_NOTICE (R185, R187). -/
def execLossNotice (src dst : Endpoint) (cls : BitVec 3) (seq : Word) (s : State) : Out :=
  .next (match (s.flow src dst cls).outstanding.find? fun o => o.seq = seq with
    | some o => s.declareLost src dst cls o
    | none => s)

/-- SOURCE_ACK_TIMEOUT (R185): 6 µs without an acknowledgement, 60 µs on the peer ports. -/
def execSourceAckTimeout (src dst : Endpoint) (cls : BitVec 3) (seq : Word) (s : State) : Out :=
  .next (match (s.flow src dst cls).outstanding.find? fun o => o.seq = seq && o.at_ + 6000 * timerScale cls ≤ s.time with
    | some o => s.declareLost src dst cls o
    | none => s)

/-! Paths. -/

/-- PATH_DOWN (R174): a module of a path is link-down or has exhausted its retries, and every path over it is DOWN. -/
def execPathDown (a b : Endpoint) (x : PathPart) (s : State) : Out :=
  .next (match (s.route a b x.path).modules[x.hop]? with
    | none => s
    | some m =>
      s.cutPaths fun r => r.modules.contains m)

/-- PATH_UP (R174): the CFM marks a path UP again, unless it goes through a position whose rail is off (R172). -/
def execPathUp (a b : Endpoint) (p : Fin 3) (s : State) : Out :=
  let off := (List.finRange 8).any fun vd => !(s.die vd).railOn && (s.route a b p).meets (s.posOf vd)
  .next (if off then s
    else { s with fab := { s.fab with down := s.fab.down.filter (· ≠ s.pathKey a b p) } })

/-- LANE_DEGRADE (R259): only the rate changes, of a position's module to the next position or to H; a dark position's module to H is
held in reset (R12). -/
def execLaneDegrade (hub : Bool) (p : Fin 10) (s : State) : Out :=
  let m : Module := if hub then .hub p else .ring p
  .next (if (hub && s.md.dark.getLsbD p.val) || s.fab.degraded.contains m then s
    else { s with fab := { s.fab with degraded := m :: s.fab.degraded } })

end Sys2Proof.Machine
end

