-- ==== Sys2Proof/Machine/Mailbox.lean ====
section
/-! DEFINITION. The mailbox of a host function (R310 to R313, Tables 15.1 to 15.6): the answer to a command, and the commands
that set modes, contexts, slots, rings, levels, ownership and keys. -/

namespace Sys2Proof.Machine

/-! Commands and answers. -/

/-- How a command ends: OK with its results (bytes 8 on), REFUSED with ERROFF, or NOT_PERMITTED. -/
inductive Reply where
  | ok (s : State) (results : List Byte)
  | refused (s : State) (off : Word)
  | denied (s : State)

/-- ERROFF of a refusal that concerns no single operand (R313). -/
def noOff : Word := 0xFFFFFFFF

/-- The 64 bytes of a response (R313). -/
def responseBytes (code status : Byte) (tag : Half) (off : Word) (results : List Byte) : List Byte :=
  [code, status] ++ toBytes 2 tag.toNat ++ toBytes 4 off.toNat ++ (results ++ List.replicate 56 0).take 56

/-- The mailbox of a function; before its first command every field of MBSTAT is 0 (Table 15.1). -/
def State.box (s : State) (f : HostFn) : Mailbox :=
  (s.port.boxes.find? fun x => x.fn = f).getD
    { fn := f, tag := 0, status := 0, busy := false, response := List.replicate 64 0 }

/-- Bytes the MC sends over the side-band. -/
def State.sendBand (s : State) (bs : List Byte) : State := { s with mc := { s.mc with sideBand := s.mc.sideBand ++ bs } }

/-- Writes a response, and TAG and STATUS of MBSTAT with BUSY = 0 (Table 15.1); over the side-band the MC sends it. -/
def State.respond (s : State) (h : MbHdr) (code status : Byte) (off : Word) (results : List Byte) : State :=
  let bs := responseBytes code status h.tag off results
  if h.path = .mctp then s.sendBand bs
  else
    let b : Mailbox := { fn := h.fn, tag := h.tag, status := status, busy := false, response := bs }
    { s with port := { s.port with boxes := b :: s.port.boxes.filter fun x => x.fn ≠ h.fn } }

/-- Bytes a command moves to its buffer in host memory; a command over the side-band has none, and the MC sends them (R283, R309). -/
def State.toBuffer (s : State) (h : MbHdr) (buffer : Dword) (bs : List Byte) : State :=
  if h.path = .mctp then s.sendBand bs else s.hostWrite buffer.toNat bs

/-- The function exists (R310), and the host link is up (Table 15.4). -/
def State.fnExists (s : State) (f : HostFn) : Bool :=
  !s.mc.held &&
    match f with
    | .pf d => (devsOf s.md.mode).contains d
    | .vf w => w ≠ 0 && s.port.tdis[w.toNat].isSome

/-- The device of a function (R310). -/
def State.fnDev (s : State) : HostFn → DevId
  | .pf d => d
  | .vf w => match s.port.tdis[w.toNat] with | some t => t.dev | none => 0

/-- A command reaches the package (R310, R311): through the mailbox of a function that exists and whose last command has ended, there
over the IDE stream of its TDI where that has one, or over the side-band, which takes RESYNC and the debug commands in the name of a
physical function (R283, R309). -/
def State.takes (s : State) (h : MbHdr) (code : Byte) : Bool :=
  s.fnExists h.fn &&
    match h.path, h.fn with
    | .plain, f => !(s.box f).busy
    | .ide, .vf w => !(s.box h.fn).busy && (match s.port.tdis[w.toNat] with | some t => t.ide | none => false)
    | .ide, .pf _ => false
    | .mctp, .pf _ => code = 0x01 || code = 0x50
    | .mctp, .vf _ => false

/-- The world in which a function's commands act (R312). -/
def fnWorld : HostFn → World
  | .pf _ => 0
  | .vf w => w

/-- The first byte of a command that must be zero and is not: a reserved one, or one of CTX in a command that names no
context (R313). -/
def strayByte (h : MbHdr) (names : Bool) : Option Nat :=
  let inCtx := if names then none else
    (([4, 5, 6, 7] : List Nat).find? fun i => (h.ctx.toNat / 256 ^ (i - 4)) % 256 ≠ 0)
  match h.stray, inCtx with
  | some a, some b => some (min a.val b)
  | some a, none => some a.val
  | none, b => b

/-- Who may issue a command (R312): physical function 0 alone, physical functions, or every function. -/
inductive Issuers where
  | pf0 | pfs | all
  deriving DecidableEq

def Issuers.allows : Issuers → HostFn → Bool
  | .pf0, f => f = .pf 0
  | .pfs, .pf _ => true
  | .pfs, .vf _ => false
  | .all, _ => true

/-- Runs a command: who may issue it, the bytes that must be zero, then its own checks and effect. -/
def State.mailbox (s : State) (h : MbHdr) (code : Byte) (who : Issuers) (names : Bool) (run : State → Reply) : Out :=
  .next (if !s.takes h code then s
    else if !who.allows h.fn then s.respond h code 3 noOff []
    else
      match strayByte h names with
      | some i => s.respond h code 1 (BitVec.ofNat 32 i) []
      | none =>
        match run s with
        | .ok s r => s.respond h code 0 noOff r
        | .refused s off => s.respond h code 1 off []
        | .denied s => s.respond h code 3 noOff [])

/-- The context a command names (R313). -/
def State.named (s : State) (h : MbHdr) (run : CtxId → Context → Reply) : Reply :=
  if hc : h.ctx.toNat < 64 then
    match s.context ⟨h.ctx.toNat, hc⟩ with
    | none => .refused s 4
    | some x => if x.fn ≠ h.fn then .denied s else run ⟨h.ctx.toNat, hc⟩ x
  else .refused s 4

/-- The slot a command names: one of the function's device, and of a virtual function's own world (R312). -/
def State.slotNamed (s : State) (h : MbHdr) (slot : Byte) (run : SlotId → Reply) : Reply :=
  if hs : slot.toNat < 48 then
    let k : SlotId := ⟨slot.toNat, hs⟩
    if fnWorld h.fn ≠ 0 && (s.slot k).world ≠ fnWorld h.fn then .denied s
    else if s.slotDev k ≠ s.fnDev h.fn then .refused s 8
    else run k
  else .refused s 8

def State.anyContext (s : State) : Bool := (List.finRange 64).any fun c => (s.context c).isSome

/-- A context of the device exists. -/
def State.devContext (s : State) (d : DevId) : Bool :=
  (List.finRange 64).any fun c => match s.context c with | some x => x.dev = d | none => false

/-- The codes of Table 15.2. -/
def mbCodes : List Byte :=
  [0x01, 0x02, 0x10, 0x11, 0x12, 0x13, 0x14, 0x15, 0x20, 0x21, 0x22, 0x30, 0x31, 0x32, 0x33, 0x34, 0x40, 0x41, 0x50, 0x60,
   0x61, 0x62, 0x70, 0x71]

/-- BAD_CODE (R312). -/
def execBadCode (h : MbHdr) (code : Byte) (s : State) : Out :=
  .next (if !s.takes h code || mbCodes.contains code then s else s.respond h code 2 noOff [])

/-! 0x01 and 0x02. -/

def Mode.code : Mode → Nat
  | .m1 => 1 | .m2 => 2 | .m8 => 8

def CfmPhase.code : CfmPhase → Nat
  | .idle => 0 | .drain => 1 | .restore => 2

def PeerState.code : PeerState → Nat
  | .up => 0 | .suspect => 1 | .partitioned => 2 | .lost => 3

/-- A die's dword of the summary (Table 12.9). -/
def State.dieSummary (s : State) (vd : Vd) : Nat :=
  let d := s.die vd
  let umbra := ((List.finRange 6).map fun l =>
    if (s.core (unitOf (coreAt vd l))).health = .umbra then 2 ^ l.val else 0).sum
  packFields [(0, d.state.code), (8, umbra), (16, min 0xFFFF d.rebuilds), (32, min 0xFFFF d.escalations),
    (48, min 0xFFFF d.lost)]

/-- A slot's word of the summary. -/
def State.slotSummary (s : State) (k : SlotId) : Nat :=
  let x := s.slot k
  packFields [(0, x.sv.toNat % 2 ^ 16), (16, x.prio.toNat), (19, if x.open_ then 1 else 0), (20, x.world.toNat)]

/-- The 512-byte summary of R283; the phase is that of the asking function's device. -/
def State.summary (s : State) (d : DevId) : List Byte :=
  toBytes 8 s.diemap.toNat ++ toBytes 8 s.md.jhead.toNat ++ toBytes 8 s.time ++
    toBytes 8 (packFields [(0, PeerState.code s.cfm.peer), (4, CfmPhase.code s.cfm.phase[d]), (8, Mode.code s.md.mode)]) ++
    (List.finRange 8).flatMap (fun vd => toBytes 8 (s.dieSummary vd)) ++
    (List.finRange 48).flatMap (fun k => toBytes 4 (s.slotSummary k)) ++
    toBytes 8 s.cfm.records.length ++ List.replicate 24 0 ++
    (List.range 6).flatMap fun i => s.cfm.records.getD i (List.replicate 32 0)

/-- RESYNC (R283). -/
def execResync (h : MbHdr) (buffer : Dword) (s : State) : Out :=
  s.mailbox h 0x01 .all false fun s =>
    if buffer.toNat % 64 ≠ 0 then .refused s 8
    else .ok (s.toBuffer h buffer (s.summary (s.fnDev h.fn))) (toBytes 8 s.md.jhead.toNat)

/-- ACK_ERROR_RECORDS (R283): oldest first. -/
def execAckErrorRecords (h : MbHdr) (n : Word) (s : State) : Out :=
  s.mailbox h 0x02 .all false fun s =>
    if s.cfm.records.length < n.toNat then .refused s 8
    else
      let left := s.cfm.records.drop n.toNat
      .ok { s with cfm := { s.cfm with records := left } } (toBytes 4 left.length)

/-! 0x10 to 0x13: modes and parameters. -/

/-- A change of mode (R22, R23, R285): the devices of the new mode with their dies that serve, and an ownership table of
zeros. -/
def State.setMode (s : State) (m : Mode) : State :=
  if s.md.mode = m then s
  else
    let serving (vd : Vd) : Bool := (s.die vd).state = .healthy || (s.die vd).state = .selftest
    let lists : List (List Vd) := (List.finRange 8).map fun d => (fullList m d).filter serving
    { s with owner := [], tlb := [], md := { s.md with mode := m, dieList := ⟨lists.toArray, by simp [lists]⟩ } }

/-- SET_LEASE_PARAMS (R74). -/
def execSetLeaseParams (h : MbHdr) (count limit : Half) (s : State) : Out :=
  s.mailbox h 0x11 .pfs false fun s =>
    let d := s.fnDev h.fn
    if s.devContext d then .refused s noOff
    else if count.toNat = 0 || 4095 < count.toNat then .refused s 8
    else if limit.toNat = 0 || 256 < limit.toNat then .refused s 10
    else .ok { s with md := { s.md with leaseMax := s.md.leaseMax.set d (count.setWidth 12),
                                        maxChain := s.md.maxChain.set d (limit.setWidth 9) } } []

/-- A value R177 refuses. -/
def State.badRate (s : State) (rate : Half) : Bool :=
  let code (c : Nat) : Nat := rate.toNat / 16 ^ c % 16
  code 3 ≠ 0 || ([0, 1, 2] : List Nat).any fun c => 3 < code c || (code c = 3 && !s.port.testMode)

/-- SET_FABRATE (R177). -/
def execSetFabrate (h : MbHdr) (rate : Half) (s : State) : Out :=
  s.mailbox h 0x12 .pf0 false fun s =>
    if s.badRate rate then .refused s 8 else .ok { s with fab := { s.fab with rate := rate } } []

/-- TEST_MODE (Table 15.2). -/
def execTestMode (h : MbHdr) (on : Byte) (s : State) : Out :=
  s.mailbox h 0x13 .pf0 false fun s =>
    if s.anyContext then .refused s noOff
    else if 1 < on.toNat then .refused s 8
    else .ok { s with port := { s.port with testMode := on = 1 } } []

/-! 0x20 to 0x22: contexts. -/

/-- The dword at an offset of a block in host memory. -/
def State.hostField (s : State) (block : Dword) (off : Nat) : Nat := s.hostDword (block.toNat + off)

/-- Entry i of the group table (R47); its reserved bits [62:48] are not looked at, since no check of them is stated (DESIGN CHOICE,
log 95). -/
def State.hostGroup (s : State) (table i : Nat) : Option (BitVec 48) :=
  let e := s.hostDword (table + 8 * i)
  if 2 ^ 63 ≤ e then some (BitVec.ofNat 48 e) else none

/-- Entry i of the bound table (Table 6.13), and whether it has a fault (R149). -/
def State.hostBound (s : State) (table i : Nat) : BoundEntry × Bool :=
  let lo := s.hostDword (table + 16 * i)
  let hi := s.hostDword (table + 16 * i + 8)
  let b : BoundEntry :=
    { high := BitVec.ofNat 32 (lo / 2 ^ 32), low := BitVec.ofNat 32 lo, valid := 2 ^ 63 ≤ hi,
      action := BitVec.ofNat 2 (hi / 4), ty := BitVec.ofNat 2 hi }
  let nan : Bool := b.ty = 0 && ((fv32 b.high).isNan || (fv32 b.low).isNan)
  let upside : Bool :=
    match b.ty.toNat with
    | 0 => (fv32 b.high).lt (fv32 b.low)
    | 1 => b.high.toInt < b.low.toInt
    | _ => b.high.toNat < b.low.toNat
  (b, b.valid && (hi % 2 ^ 63 / 16 ≠ 0 || b.action = 3 || b.ty = 3 || nan || upside))

/-- Entry i of the exchange table (Table 8.9), and whether it has a fault (R189). -/
def State.hostXch (s : State) (d : DevId) (table i : Nat) : XchEntry × Bool :=
  let lo := s.hostDword (table + 16 * i)
  let hi := s.hostDword (table + 16 * i + 8)
  let e : XchEntry :=
    { valid := 2 ^ 63 ≤ lo, rcore := lo / 2 ^ 48 % 8, size := lo / 2 ^ 32 % 1024, pong := hi / 2 ^ 32, ping := hi % 2 ^ 32 }
  let reserved := lo / 2 ^ 51 % 2 ^ 12 ≠ 0 || lo / 2 ^ 42 % 64 ≠ 0 || lo % 2 ^ 32 ≠ 0
  let n := 4096 * e.size
  let room := scratchSize (unitOf (recvCore i e))
  let list := s.dieListOf d
  let m : Vd := ⟨i / 16 % 4, by omega⟩
  (e, e.valid && (reserved || e.size = 0 || 512 < e.size || 5 < e.rcore || e.ping % 4096 ≠ 0 || e.pong % 4096 ≠ 0 ||
    (e.ping < e.pong + n && e.pong < e.ping + n) || room < e.ping + n || room < e.pong + n ||
    !(list.contains m && list.contains (partnerOf m))))

/-- The k-th M-die of a device (R140, Table 15.3). -/
def State.paneDie (s : State) (d : DevId) (k : Nat) : Option Vd := (mDies (fullList s.md.mode d))[k]?

/-- A run of units of the k-th M-die ends beyond unit 440 or overlaps another context's. -/
def State.badRun (s : State) (d : DevId) (k start len : Nat) : Bool :=
  match s.paneDie d k with
  | none => false
  | some vd => len ≠ 0 && (440 < start + len || (List.range len).any fun i => (s.paneOwner vd (start + i)).isSome)

/-- A context from its create block, or none where the block is refused (R47, R149, R189, Table 15.2, Table 15.3). A trace ring
exists when its log2 size is one of 16 to 30. -/
def State.blockContext (s : State) (fn : HostFn) (d : DevId) (block : Dword) : Option Context :=
  let f (off : Nat) : Nat := s.hostField block off
  let groups := (List.range 256).map (s.hostGroup (f 0x08))
  let outside (g : Option (BitVec 48)) : Bool :=
    match g with
    | none => false
    | some m => m = 0 || (List.finRange 48).any fun k => m.getLsbD k.val && !(s.dieListOf d).contains (dieOf (unitOf k))
  let bounds := (List.range 64).map (s.hostBound (f 0x10))
  let xch := (List.range 64).map (s.hostXch d (f 0x18))
  let part (off k : Nat) : Nat := f off / 2 ^ (16 * k) % 2 ^ 16
  let runs := [0, 1, 2, 3].map fun k => (part 0x68 k, part 0x70 k)
  let mode := f 0x30 / 2 ^ 16 % 4
  let log2 := f 0x50 % 32
  if groups.any outside || bounds.any (·.2) || xch.any (·.2) || mode = 3 || f 0x40 < 0x69000 ||
      ([0, 1, 2, 3].any fun k => s.badRun d k (part 0x68 k) (part 0x70 k)) then none
  else some
    { fn := fn, dev := d, world := fnWorld fn, root := dw (f 0), groups := groups, bounds := bounds.map (·.1),
      xch := xch.map (·.1), xdirs := List.replicate 64 XDir.detached, spillBase := dw (f 0x20), spillQuota := f 0x28,
      spilled := [], quotaWait := BitVec.ofNat 16 (f 0x30),
      recMode := if mode = 1 then .record else if mode = 2 then .replay else .off,
      recState := if mode = 2 then 2 else 0, recUsed := 0, savePool := dw (f 0x38), saveSize := f 0x40,
      traceBase := dw (f 0x48), traceLog2 := log2, traceOn := 16 ≤ log2 && log2 ≤ 30,
      logBase := dw (f 0x58), logSize := f 0x60, paneStart := runs.map (·.1), paneLen := runs.map (·.2), key := none,
      nextId := 1, arrivals := [], producers := [] }

/-- The log's header as recording or replay begins (R306). A log is full when USED reaches its size; a replay takes no more of USED
than that. -/
def State.beginLog (s : State) (c : CtxId) : State :=
  match s.context c with
  | none => s
  | some x =>
    match x.recMode with
    | .off => s
    | .record =>
      let s := s.devWrite 8 x x.logBase.toNat (toBytes 8 0 ++ List.replicate 8 0 ++ toBytes 8 s.time)
      let full : Bool := x.logSize = 0
      if full then (s.devWrite 8 x (x.logBase.toNat + 8) [1]).setContext c (some { x with recState := 1 }) else s
    | .replay =>
      let used := min (ofBytes (s.devRead x x.logBase.toNat 8)) x.logSize
      (s.devWrite 8 x (x.logBase.toNat + 8) [2]).setContext c (some { x with recUsed := used / 16 * 16 })

/-- CREATE_CONTEXT (R312). -/
def execCreateContext (h : MbHdr) (block : Dword) (s : State) : Out :=
  s.mailbox h 0x20 .all false fun s =>
    let unlocked : Bool :=
      match h.fn with
      | .pf _ => true
      | .vf w => match s.port.tdis[w.toNat] with | some t => t.state = .unlocked | none => false
    if !unlocked then .refused s noOff
    else if block.toNat % 8 ≠ 0 then .refused s 8
    else
      match (List.finRange 64).find? (fun c => (s.context c).isNone), s.blockContext h.fn (s.fnDev h.fn) block with
      | some c, some x => .ok ((s.setContext c (some x)).beginLog c) (toBytes 2 c.val)
      | _, _ => .refused s noOff

/-- Stops every job that satisfies P as AbortJob stops it, its node CANCELLED (R456); a dispatch on its way reaches its core
first, and its job starts or is restored (R62, R290). -/
def State.stopJobs (s : State) (P : CtxId → Bool) : State :=
  let s := (s.md.dispatching.filter fun d => P d.ctx).foldl (fun s d => ((s.arriveDispatch d.core).restoreJob d.core).dropDispatch d.core) s
  (List.finRange 48).foldl (fun s k =>
    match (s.core (unitOf k)).job with
    | some j => if P j.ctx then (s.finishSends k).endJob (unitOf k) cwAborted 0 true else s
    | none => s) s

/-- The nodes of a context that are still WAITING, READY or RUNNING become CANCELLED. -/
def State.cancelContext (s : State) (c : CtxId) : State :=
  ((s.md.nodes.filter fun n => n.ctx = c && n.alive).map (·.id)).foldl (fun s id =>
    match s.node c id with | some n => s.cancelNode n | none => s) s

/-- A context is gone: its nodes, translations, messages and arrivals with it, and the slots that name it closed (R455). -/
def State.removeContext (s : State) (c : CtxId) : State :=
  let s := (List.finRange 48).foldl (fun s k =>
    if (s.slot k).ctx = some c then
      (if (s.slot k).open_ then s.closeSlot k else s).modSlot k fun x => { x with ctx := none }
    else s) s
  let s : State :=
    { s with
      md := { s.md with nodes := s.md.nodes.filter fun n => n.ctx ≠ c, pool := s.md.pool.filter fun p => p.1 ≠ c,
                        overflow := s.md.overflow.filter fun p => p.1 ≠ c,
                        arrivals := s.md.arrivals.filter fun a => a.ctx ≠ c,
                        reserved := s.md.reserved.filter fun r => r.2.1 ≠ c },
      fab := { s.fab with appends := s.fab.appends.filter fun a => a.ctx ≠ c } }
  (s.keepTlb fun t => t.ctx ≠ c).setContext c none

/-- FAILED reports that wait out their 10 µs go their way before their nodes are gone (R253). -/
def State.sendFails (s : State) (c : CtxId) : State :=
  let mine := s.cfm.pendingFails.filter fun p => p.2.2.1 = c
  let reports := mine.filterMap fun p => (s.node c p.2.2.2).map fun n => (p.1, n.report 2 n.cause)
  { s with md := { s.md with waiting := s.md.waiting ++ reports },
           cfm := { s.cfm with pendingFails := s.cfm.pendingFails.filter fun p => p.2.2.1 ≠ c } }

/-- What is left of a context whose jobs have stopped goes (R35). -/
def State.endContext (s : State) (c : CtxId) : State := ((s.cancelContext c).sendFails c).removeContext c

/-- Destroys a context (R35, R456). -/
def State.destroyContext (s : State) (c : CtxId) : State := (s.stopJobs (· = c)).endContext c

/-- INVALIDATE_TRANSLATIONS (R147): every TLB of the device drops the range. -/
def execInvalidateTranslations (h : MbHdr) (all : Byte) (base length : Dword) (s : State) : Out :=
  s.mailbox h 0x22 .all true fun s => s.named h fun c _ =>
    if 1 < all.toNat then .refused s 8
    else if all = 0 && base.toNat % 0x10000 ≠ 0 then .refused s 16
    else if all = 0 && (length = 0 || length.toNat % 0x10000 ≠ 0) then .refused s 24
    else
      let hit (t : TlbEntry) : Bool :=
        t.ctx = c && (all = 1 || (t.base < base.toNat + length.toNat && base.toNat < t.base + t.size))
      .ok (s.keepTlb fun t => !hit t) []

/-- A die's TLB takes an entry; the oldest of 8,192 gives way (R147). -/
def State.fillTlb (s : State) (t : TlbEntry) : State :=
  let mine := (s.tlb.filter fun o => o.vd = t.vd).take 8191
  { s with tlb := t :: mine ++ s.tlb.filter fun o => o.vd ≠ t.vd }

/-- A core's micro-TLB takes an entry; the oldest of 256 gives way (R147). -/
def State.fillMicro (s : State) (t : TlbEntry) : Option (Fin 6) → State
  | none => s
  | some l => s.modCore (unitOf (coreAt t.vd l)) fun c => { c with mtlb := t :: c.mtlb.take 255 }

/-- The reads of a walk from a level's table on, made by a die (R147, R176). -/
def State.walkAsked (s : State) (src : Endpoint) (x : Context) (va table : Nat) : Nat → State
  | 0 => s.askSure src (s.dramEnd x.dev (table + 8 * (va / 2 ^ 16 % 32))) 8
  | k + 1 =>
    let a := table + 8 * (va / 2 ^ levelShift (k + 1) % 512)
    let e := s.tableEntry x a
    let s := s.askSure src (s.dramEnd x.dev a) 8
    if !e.getLsbD 0 || e.getLsbD 6 then s else s.walkAsked src x va (entryAddr e) k

/-- TRANSLATION_WALK (R146, R147): a translation that a die asked for, for a core or not, ends in its TLBs: from the die's entry where
it has one, else from a walk. -/
def execTranslationWalk (who : TlbUser) (c : CtxId) (va : Dword) (s : State) : Out :=
  .next (match s.context c with
    | none => s
    | some x =>
      if 2 ^ 57 ≤ va.toNat then s
      else
        match s.tlb.find? fun t => t.vd = who.vd && t.maps c va.toNat with
        | some t => s.fillMicro t who.core
        | none =>
          let asked := s.walkAsked (endOfVd who.vd) x va.toNat x.root.toNat 4
          match s.walkFrom x va.toNat x.root.toNat 4 with
          | none => asked
          | some (leaf, size) =>
            let s := asked
            let t : TlbEntry := { vd := who.vd, ctx := c, base := va.toNat / size * size, size := size, leaf := leaf }
            (s.fillTlb t).fillMicro t who.core)

/-! 0x30: slot items. -/

/-- The results of command 0x30: the item's value at bytes 16 to 31. -/
def itemValue (a b : Nat) : List Byte := List.replicate 8 0 ++ toBytes 8 a ++ toBytes 8 b

/-- SET_SLOT_CTL (R55, R313): nothing is applied where the register would ignore a part. -/
def execSetSlotCtl (h : MbHdr) (slot : Byte) (v : Dword) (s : State) : Out :=
  s.mailbox h 0x30 .all false fun s => s.slotNamed h slot fun k =>
    let w : World := v.extractLsb' 8 4
    let opens := v.getLsbD 15 && !(s.slot k).open_
    if v &&& ~~~0xCF07 ≠ 0 || s.worldFixed k w then .refused s 16
    else if opens && !(s.modSlot k fun x => { x with world := w }).mayOpen k w then .refused (s.logMc (.openRefused k)) 16
    else
      let s := s.writeSlotctl k v
      .ok s (itemValue (s.slot k).ctl.toNat 0)

/-- SET_SLOT_DEADLINE (R55). -/
def execSetSlotDeadline (h : MbHdr) (slot : Byte) (v : Dword) (s : State) : Out :=
  s.mailbox h 0x30 .all false fun s => s.slotNamed h slot fun k =>
    let s := s.writeSlotdl k v
    .ok s (itemValue (s.slot k).deadline.toNat 0)

/-- SET_SLOT_LEVEL_TABLE (R268, R270): a table with TAKE = 1 makes the slot a shadow slot, if it passes R267. -/
def execSetSlotLevelTable (h : MbHdr) (slot : Byte) (v : Dword) (s : State) : Out :=
  s.mailbox h 0x30 .all false fun s => s.slotNamed h slot fun k =>
    if (s.slot k).open_ then .refused s 16
    else
      let s' := s.writeSlotsvt k v
      let t := s'.readLevels k
      if !t.take then
        .ok (s'.modSlot k fun x => { x with shadow := false, reserved := 0, table := none, peerImages := [] })
          (itemValue v.toNat 0)
      else if !s'.levelsOk k then .refused (s.logMc (.openRefused k)) 16
      else
        .ok (s'.modSlot k fun x =>
          { x with shadow := true, table := some t, reserved := 2 * rangeTotal t, peerImages := [] }) (itemValue v.toNat 0)

/-- A ring operand: a 64-byte aligned address, and n from 4 to `most`; the offset of the operand refused. -/
def ringFault (addr : Dword) (n : Byte) (most : Nat) : Option Word :=
  if addr.toNat % 64 ≠ 0 then some 16 else if n.toNat < 4 || most < n.toNat then some 24 else none

/-- Sets one of a slot's rings while it is closed. The device's count goes on from the one in the ring's header. -/
def State.setRing (s : State) (h : MbHdr) (slot : Byte) (addr : Dword) (n : Byte) (most consAt : Nat)
    (put : Slot → Ring → Slot) : Reply :=
  s.slotNamed h slot fun k =>
    if (s.slot k).open_ then .refused s 16
    else
      match ringFault addr n most with
      | some off => .refused s off
      | none =>
        let r : Ring := { addr := addr, n := n.toNat, count := s.hostDword (addr.toNat + consAt) }
        .ok (s.modSlot k fun x => put x r) (itemValue addr.toNat n.toNat)

/-- SET_SUBMISSION_RING (R314). -/
def execSetSubmissionRing (h : MbHdr) (slot : Byte) (addr : Dword) (n : Byte) (s : State) : Out :=
  s.mailbox h 0x30 .all false fun s => s.setRing h slot addr n 12 8 fun x r => { x with sub := some r }

/-- SET_COMPLETION_RING (R315). -/
def execSetCompletionRing (h : MbHdr) (slot : Byte) (addr : Dword) (n : Byte) (s : State) : Out :=
  s.mailbox h 0x30 .all false fun s => s.setRing h slot addr n 16 0 fun x r => { x with comp := some r }

/-- SET_SENSOR_RECORD_RING (R317). -/
def execSetSensorRecordRing (h : MbHdr) (slot : Byte) (addr : Dword) (n : Byte) (s : State) : Out :=
  s.mailbox h 0x30 .all false fun s => s.setRing h slot addr n 16 0 fun x r => { x with senRing := some r }

/-- SET_SENSOR_REGION (R317). -/
def execSetSensorRegion (h : MbHdr) (slot : Byte) (addr size : Dword) (s : State) : Out :=
  s.mailbox h 0x30 .all false fun s => s.slotNamed h slot fun k =>
    if (s.slot k).open_ || addr.toNat % 4096 ≠ 0 then .refused s 16
    else if 2 ^ 24 - 4096 < size.toNat then .refused s 24
    else .ok (s.modSlot k fun x => { x with senBase := addr, senSize := size.toNat }) (itemValue addr.toNat size.toNat)

/-- SET_SLOT_CONTEXT (R455, Table 15.6). -/
def execSetSlotContext (h : MbHdr) (slot : Byte) (v : Word) (s : State) : Out :=
  s.mailbox h 0x30 .all false fun s => s.slotNamed h slot fun k =>
    if (s.slot k).open_ then .refused s 16
    else if v = 0xFFFFFFFF then .ok (s.modSlot k fun x => { x with ctx := none }) (itemValue v.toNat 0)
    else if hc : v.toNat < 64 then
      match s.context ⟨v.toNat, hc⟩ with
      | none => .refused s 16
      | some x =>
        if x.fn ≠ h.fn then .denied s
        else if x.world ≠ (s.slot k).world || x.dev ≠ s.slotDev k then .refused s 16
        else .ok (s.modSlot k fun y => { y with ctx := some ⟨v.toNat, hc⟩ }) (itemValue v.toNat 0)
    else .refused s 16

/-! 0x31 to 0x34: levels, dies and the peer. -/

/-- Completes every C command in progress of a device's cores. -/
def State.finishDevice (s : State) (d : DevId) : State :=
  (List.finRange 48).foldl (fun s k => if (s.dieListOf d).contains (dieOf (unitOf k)) then s.finishSends k else s) s

/-- The host's level raise (R269, R275, R277): a sequence under way ends first, then one runs with no die lost. -/
def State.raiseLevels (s : State) (d : DevId) : State :=
  let finish (s : State) : State := ((s.finishDevice d).reconfigRestore d).reconfigRestore d
  let s := finish s
  if s.cfm.phase[d] = .idle then finish (s.drainSlots d) else s

/-- RAISE_LEVEL (R269). -/
def execRaiseLevel (h : MbHdr) (slot : Byte) (s : State) : Out :=
  s.mailbox h 0x31 .pfs false fun s => s.slotNamed h slot fun k =>
    let s := s.raiseLevels (s.slotDev k)
    .ok s [(s.slot k).level.setWidth 8]

/-- RELEASE_DIE (R258): the die's test begins. -/
def execReleaseDie (h : MbHdr) (vd : Byte) (s : State) : Out :=
  s.mailbox h 0x32 .pfs false fun s =>
    if hv : vd.toNat < 8 then
      let v : Vd := ⟨vd.toNat, hv⟩
      if (s.die v).state = .umbra then .ok (s.setDie v { s.die v with testing := true, full := false }) [] else .refused s 8
    else .refused s 8

/-- ROTATION_PERIOD (R278). -/
def execRotationPeriod (h : MbHdr) (seconds : Word) (s : State) : Out :=
  s.mailbox h 0x33 .pfs false fun s =>
    if 3600 < seconds.toNat then .refused s 8
    else .ok { s with cfm := { s.cfm with rotPeriod := seconds.toNat } } []

/-- PEER_LOST_TO_UP (R280). -/
def execPeerLostToUp (h : MbHdr) (s : State) : Out :=
  s.mailbox h 0x34 .pfs false fun s =>
    if s.cfm.peer = .lost then .ok { s with cfm := { s.cfm with peer := .up } } [] else .refused s noOff

/-! 0x40 and 0x41: ownership and weight keys. -/

/-- Entries of the ownership table (R285). -/
def ownerEntries : Nat := 196608

/-- The host may change entries of a world (R285). -/
def State.ownable (s : State) (w : World) : Bool :=
  w = 0 || match s.port.tdis[w.toNat] with | some t => t.state = .unlocked | none => false

/-- An entry as it stands may be written by the host: not locked, its world changeable (R285, Table 13.1). -/
def State.entryFree (s : State) (i : Nat) : Bool :=
  let o := CMap.get 0 s.owner i
  !o.getLsbD 2 && s.ownable (o.extractLsb' 4 4)

/-- WRITE_OWNERSHIP (R285, Table 13.1). -/
def execWriteOwnership (h : MbHdr) (first count : Word) (entry : Byte) (s : State) : Out :=
  s.mailbox h 0x40 .pfs false fun s =>
    let w : World := entry.extractLsb' 4 4
    if ownerEntries ≤ first.toNat then .refused s 8
    else if ownerEntries < first.toNat + count.toNat then .refused s 12
    else if entry.extractLsb' 0 2 ≠ 0 || entry.getLsbD 2 || (entry.getLsbD 3 && w ≠ 0) || !s.ownable w then .refused s 16
    else if (List.range count.toNat).any fun i => !s.entryFree (first.toNat + i) then .refused s 8
    else
      .ok { s with owner := (List.range count.toNat).foldl (fun o i => CMap.set 0 o (first.toNat + i) entry) s.owner } []

/-- The key of a finished SPDM session that a function's requester holds (R297). -/
def State.sessionKey (s : State) (fn : HostFn) (id : Word) : Option (BitVec 256) :=
  match s.port.spdm.find? fun p => p.port = .doe fn with
  | none => none
  | some p => (p.sessions.find? fun q => q.1 = id && q.2.1).map fun q => q.2.2

/-- INSTALL_WEIGHT_KEY (R291): the key itself only over the IDE stream of the context's world. -/
def execInstallWeightKey (h : MbHdr) (fromSession : Byte) (session : Word) (key : BitVec 256) (s : State) : Out :=
  s.mailbox h 0x41 .all true fun s => s.named h fun c x =>
    match fromSession.toNat with
    | 0 => if h.path ≠ .ide then .refused s 8 else .ok (s.setContext c (some { x with key := some key })) []
    | 1 =>
      match s.sessionKey h.fn session with
      | some k => .ok (s.setContext c (some { x with key := some k })) []
      | none => .refused s 12
    | _ => .refused s 8

/-! 0x60 and 0x70. -/

/-- SELECT_TIME_SOURCE (R316). -/
def execSelectTimeSource (h : MbHdr) (source : Byte) (s : State) : Out :=
  s.mailbox h 0x60 .pfs false fun s =>
    match source.toNat with
    | 0 => .ok { s with mc := { s.mc with source := .freeRunning } } []
    | 1 => .ok { s with mc := { s.mc with source := .ieee1588 } } []
    | 2 => .ok { s with mc := { s.mc with source := .ptm } } []
    | _ => .refused s 8

/-- CLEAR_FABRIC_COUNTERS (R188). -/
def execClearFabricCounters (h : MbHdr) (s : State) : Out :=
  s.mailbox h 0x70 .pfs false fun s =>
    .ok { s with fab := { s.fab with ends := s.fab.ends.map fun e => { e with cnt := [0, 0, 0, 0] } } } []

end Sys2Proof.Machine
end

