-- ==== Sys2Proof/Machine/Trust.lean ====
section
/-! DEFINITION. TDIs and their reset (R288 to R290, Tables 13.2 to 13.4), and the SPDM responder (R297). -/

namespace Sys2Proof.Machine

/-! TDIs. -/

def State.tdi (s : State) (w : World) : Option Tdi := s.port.tdis[w.toNat]

def State.setTdi (s : State) (w : World) (t : Option Tdi) : State :=
  { s with port := { s.port with tdis := s.port.tdis.set w.toNat t } }

/-- A new generation of a world's DRAM key: nothing stored before it reads as it was (R294). -/
def State.newKey (s : State) (w : World) : State :=
  let n := s.port.lastKey + 1
  { s with port := { s.port with keyGen := s.port.keyGen.set w.toNat n, lastKey := n } }

/-- A TDI as it is created (R310). The keys of its IDE stream count as in place then, and again when it is locked (PRESUMED,
log 85). -/
def Tdi.create (d : DevId) : Tdi :=
  { dev := d, state := .unlocked, frozen := [], locked := [], step := none, unlocks := false, runs := [], ide := true }

/-- CREATE_TDI (R310). -/
def execCreateTdi (h : MbHdr) (w d : Byte) (s : State) : Out :=
  s.mailbox h 0x14 .pf0 false fun s =>
    let world : World := w.setWidth 4
    if w = 0 || 15 < w.toNat || (s.tdi world).isSome then .refused s 8
    else if hd : d.toNat < 8 then
      let dev : DevId := ⟨d.toNat, hd⟩
      if (devsOf s.md.mode).contains dev then
        .ok ((s.newKey world).setTdi world (some (Tdi.create dev))) []
      else .refused s 9
    else .refused s 9

/-- A context of the world exists. -/
def State.worldContext (s : State) (w : World) : Bool :=
  (List.finRange 64).any fun c => match s.context c with | some x => x.world = w | none => false

/-- DESTROY_TDI (Table 15.2). -/
def execDestroyTdi (h : MbHdr) (w : Byte) (s : State) : Out :=
  s.mailbox h 0x15 .pf0 false fun s =>
    let world : World := w.setWidth 4
    if w = 0 || 15 < w.toNat then .refused s 8
    else
      match s.tdi world with
      | some t => if t.state = .unlocked && !s.worldContext world then .ok (s.setTdi world none) [] else .refused s 8
      | none => .refused s 8

/-- The tables of a context that a lock freezes (R288), as bytes. -/
def Context.tableBytes (x : Context) : List Byte :=
  (x.groups.flatMap fun g => match g with | some m => toBytes 8 (2 ^ 63 + m.toNat) | none => toBytes 8 0) ++
  (x.bounds.flatMap fun b => toBytes 4 b.low.toNat ++ toBytes 4 b.high.toNat ++
    [BitVec.ofNat 8 ((if b.valid then 128 else 0) + b.action.toNat * 4 + b.ty.toNat)]) ++
  (x.xch.flatMap fun e => toBytes 8 ((if e.valid then 2 ^ 63 else 0) + 2 ^ 48 * e.rcore + 2 ^ 32 * e.size) ++
    toBytes 8 (2 ^ 32 * e.pong + e.ping))

/-- The configuration that a lock freezes, as bytes: the world's ownership entries by index, and its contexts' tables (R288,
Table 13.5). -/
def State.frozenConfig (s : State) (w : World) : List Byte :=
  ((s.owner.filter fun p => p.2.extractLsb' 4 4 = w).flatMap fun p => toBytes 4 p.1 ++ [p.2]) ++
  ((List.finRange 64).flatMap fun c =>
    match s.context c with | some x => if x.world = w then x.tableBytes else [] | none => [])

/-- LOCK_INTERFACE_REQUEST (R288). -/
def execLockInterfaceRequest (w : World) (s : State) : Out :=
  .next (match s.tdi w with
    | some t => if t.state = .unlocked then s.setTdi w (some { t with state := .locked, frozen := s.frozenConfig w, ide := true }) else s
    | none => s)

/-- START_INTERFACE_REQUEST (R288, R294). -/
def execStartInterfaceRequest (w : World) (s : State) : Out :=
  .next (match s.tdi w with
    | some t => if t.state = .locked && t.step.isNone then (s.newKey w).setTdi w (some { t with state := .run }) else s
    | none => s)

/-! The reset of a world. -/

/-- The contexts of a world. -/
def State.contextsOf (s : State) (w : World) : List CtxId :=
  (List.finRange 64).filter fun c => match s.context c with | some x => x.world = w | none => false

/-- A slot's checkpoints become invalid, at the keepers and, by a PCTL notice, at the peer (Table 13.4). -/
def State.spoilImages (s : State) (k : SlotId) : State :=
  let bad (l : List CkptImage) : List CkptImage := l.map fun i => { i with bad := true }
  let held := (s.slot k).mirrored ≠ []
  let s := s.modSlot k fun x =>
    { x with images := x.images.map fun p => (p.1, bad p.2), mirrored := bad x.mirrored, ckptPending := [] }
  if held then (s.sendPeer 5 .other).2 else s

/-- Step 1 of Table 13.3: intake closes, and the slots leave a reconfiguration (Table 13.4). -/
def State.closeIntake (s : State) (w : World) : State :=
  let s := (List.finRange 48).foldl (fun s k => if (s.slot k).world = w then (s.closeSlot k).spoilImages k else s) s
  (s.contextsOf w).foldl (fun s c =>
    ((s.md.nodes.filter fun n => n.ctx = c && (n.state = .waiting || n.state = .ready)).map (·.id)).foldl (fun s id =>
      match s.node c id with | some n => s.cancelNode n | none => s) s) s

/-- Step 2: the world's RUNNING jobs stop, its nodes that are READY again since step 1 are CANCELLED, and each core that ran it last is
cleared as if a job of world 0 followed (R287, R456). -/
def State.drainWorld (s : State) (w : World) : State :=
  let cs := s.contextsOf w
  let s := cs.foldl State.cancelContext (s.stopJobs fun c => cs.contains c)
  (List.finRange 48).foldl (fun s k =>
    let u := unitOf k
    if (s.core u).job.isNone && (s.core u).lastWorld = w then
      (s.worldClear u).modCore u fun c => { c with lastWorld := 0 }
    else s) s

/-- Step 3: the world's keys are erased. -/
def State.eraseKeys (s : State) (w : World) : State :=
  let s := (s.contextsOf w).foldl (fun s c =>
    match s.context c with | some x => s.setContext c (some { x with key := none }) | none => s) s
  let s := s.newKey w
  { s with port := { s.port with spdm := s.port.spdm.map fun p =>
                      if p.port = .doe (.vf w) then { p with sessions := [] } else p } }

/-- The ownership entries of a world, by index. -/
def State.worldEntries (s : State) (w : World) : List Nat := (s.owner.filter fun p => p.2.extractLsb' 4 4 = w).map (·.1)

/-- The runs of a context in the pane stores, as ranges of bytes. -/
def State.storeRuns (s : State) (c : CtxId) : List (Nat × Nat) :=
  match s.context c with
  | none => []
  | some x =>
    [0, 1, 2, 3].filterMap fun k => (s.paneDie x.dev k).map fun vd =>
      let a := x.paneStart.getD k 0
      (keyPane vd (0x10000 * a), keyPane vd (0x10000 * (a + x.paneLen.getD k 0)))

/-- Step 4: the world's translations, IDE keys and contexts are gone, and its granules are locked. -/
def State.invalidateWorld (s : State) (w : World) (t : Tdi) : State :=
  let cs := s.contextsOf w
  let mine := s.worldEntries w
  let runs := cs.flatMap s.storeRuns
  let s := cs.foldl State.endContext s
  let s : State := { s with owner := mine.foldl (fun o i => CMap.set 0 o i 0x04) s.owner }
  s.setTdi w (some { t with locked := mine, runs := runs, ide := false })

/-- Bytes of SRAM read zero, and their checks hold. -/
def State.zeroRange (s : State) (r : Nat × Nat) : State :=
  { s with mem := CMap.clear s.mem r.1 r.2, flips := CMap.clear s.flips r.1 r.2, vflips := CMap.clear s.vflips r.1 r.2 }

/-- A tile slot of the world is zeroed. -/
def TileSlot.scrub (w : World) (t : TileSlot) : TileSlot := if t.hdr.world = w then TileSlot.reset else t

/-- Step 5: the world's regions of the pane stores, the tile slots of the dies and cores, and what is staged of a checkpoint read
zero. -/
def State.scrubWorld (s : State) (w : World) (t : Tdi) : State :=
  let s := t.runs.foldl State.zeroRange s
  let s : State :=
    { s with
      dies := s.dies.map fun d => { d with tiles := d.tiles.map (TileSlot.scrub w) },
      cores := s.cores.map fun c => { c with tiles := c.tiles.map (TileSlot.scrub w) },
      slots := s.slots.map fun x => if x.world = w then { x with incoming := none } else x }
  s.setTdi w (some { t with runs := [] })

/-- Step 6: CONFIG_UNLOCKED is reported, and the entries locked in step 4 read zero. -/
def State.unlockWorld (s : State) (w : World) (t : Tdi) : State :=
  let s : State := { s with owner := t.locked.foldl (fun o i => CMap.set 0 o i 0) s.owner }
  s.setTdi w (some { t with state := .unlocked, frozen := [], locked := [], step := none, unlocks := false })

/-- The step that follows one of steps 1 to 5: after the last the TDI stays in ERROR, or goes on to step 6. -/
def Tdi.after (t : Tdi) (n : Nat) : Tdi := { t with step := if n < 5 || t.unlocks then some (n + 1) else none }

/-- One step of Table 13.3. -/
def State.resetStep (s : State) (w : World) (t : Tdi) (n : Nat) : State :=
  let next (s : State) : State := match s.tdi w with | some t => s.setTdi w (some (t.after n)) | none => s
  match n with
  | 1 => next (s.closeIntake w)
  | 2 => next (s.drainWorld w)
  | 3 => next (s.eraseKeys w)
  | 4 => next (s.invalidateWorld w t)
  | 5 => next (s.scrubWorld w t)
  | _ => s.unlockWorld w t

/-- The sequence of R289 begins, unless it runs. -/
def Tdi.begin (t : Tdi) : Tdi := { t with step := some (t.step.getD 1), unlocks := true }

/-- What STOP_INTERFACE_REQUEST, FLR or a change of a frozen item does in each state (Table 13.2). In ERROR steps 1 to 5 run to their
end before step 6. -/
def State.stopTdi (s : State) (w : World) : State :=
  match s.tdi w with
  | none => s
  | some t =>
    match t.state with
    | .unlocked => s
    | .locked | .run => s.setTdi w (some t.begin)
    | .error => s.setTdi w (some { t with step := some (t.step.getD 6), unlocks := true })

/-- An event that takes a TDI in RUN to ERROR (Table 13.2): intake closes and steps 2 to 5 run. -/
def State.failTdi (s : State) (w : World) : State :=
  match s.tdi w with
  | some t => if t.state = .run then s.setTdi w (some { t with state := .error, step := some (t.step.getD 1) }) else s
  | none => s

/-- STOP_INTERFACE_REQUEST (R288). -/
def execStopInterfaceRequest (w : World) (s : State) : Out := .next (s.stopTdi w)

/-- FLR (R288). -/
def execFlr (w : World) (s : State) : Out := .next (s.stopTdi w)

/-- IDE_INTEGRITY_FAILURE (R288). -/
def execIdeIntegrityFailure (w : World) (s : State) : Out := .next (s.failTdi w)

/-- WORLD_RESET (R289): the next step of the sequence. -/
def execWorldReset (w : World) (s : State) : Out :=
  .next (match s.tdi w with
    | some t => match t.step with | some n => s.resetStep w t n | none => s
    | none => s)

/-! A change of a frozen item (R288). -/

/-- The reset of each TDI whose frozen configuration is no longer what it was. -/
def State.thaw (s : State) : List World → State
  | [] => s
  | w :: ws =>
    (match s.tdi w with
      | some t => if (t.state = TdiState.locked || t.state = TdiState.run) && t.frozen ≠ s.frozenConfig w then s.stopTdi w else s
      | none => s).thaw ws

/-- DESTROY_CONTEXT (R312, R456): of a context whose tables are frozen it starts the reset of their TDI. -/
def execDestroyContext (h : MbHdr) (s : State) : Out :=
  s.mailbox h 0x21 .all true fun s => s.named h fun c x => .ok ((s.destroyContext c).thaw [x.world]) []

/-- MODE_SET (R22): the ownership entries it clears may be frozen. -/
def execModeSet (h : MbHdr) (mode : Byte) (s : State) : Out :=
  s.mailbox h 0x10 .pf0 false fun s =>
    let set (m : Mode) : Reply := .ok ((s.setMode m).thaw (List.finRange 16 |>.map fun i => BitVec.ofFin i)) []
    if s.anyContext then .refused s noOff
    else
      match mode.toNat with
      | 1 => set .m1
      | 2 => set .m2
      | 8 => set .m8
      | _ => .refused s 8

/-! The SPDM responder (R297). -/

/-- Function 0 and every TDI speak SPDM over DOE, the MC over the side-band. -/
def State.spdmExists (s : State) : SpdmPort → Bool
  | .doe (.pf d) => d = 0
  | .doe (.vf w) => (s.tdi w).isSome
  | .mctp => true

def State.spdm (s : State) (p : SpdmPort) : Spdm :=
  (s.port.spdm.find? fun x => x.port = p).getD
    { port := p, version := false, caps := false, algs := false, answer := [], sessions := [] }

/-- Keeps what a requester's message changed; the answer's bytes are those of the standard, which this specification does
not give, but for `fixed`. -/
def State.answerSpdm (s : State) (x : Spdm) (fixed : Option (List Byte)) : State :=
  let x : Spdm := { x with answer := fixed.getD (Config.freeBytes s.freeCount) }
  { s with freeCount := s.freeCount + 1,
           port := { s.port with spdm := x :: s.port.spdm.filter fun y => y.port ≠ x.port } }

/-- A message of the responder: `ready` tells whether the negotiation before it is done, else it changes nothing but its
answer. -/
def State.spdmMessage (s : State) (p : SpdmPort) (ready : Spdm → Bool) (fixed : Option (List Byte)) (change : Spdm → Spdm) :
    Out :=
  .next (if !s.spdmExists p then s
    else
      let x := s.spdm p
      if ready x then s.answerSpdm (change x) fixed else s.answerSpdm x none)

/-- GET_VERSION begins a negotiation. -/
def execGetVersion (p : SpdmPort) (s : State) : Out :=
  s.spdmMessage p (fun _ => true) none fun x => { x with version := true, caps := false, algs := false }

/-- GET_CAPABILITIES. -/
def execGetCapabilities (p : SpdmPort) (s : State) : Out :=
  s.spdmMessage p (·.version) none fun x => { x with caps := true }

/-- NEGOTIATE_ALGORITHMS: P-384 with SHA-384, ECDHE on P-384, AES-256-GCM. -/
def execNegotiateAlgorithms (p : SpdmPort) (s : State) : Out :=
  s.spdmMessage p (·.caps) none fun x => { x with algs := true }

/-- The alias key of this boot: the fused identity key and the images measured at it derive it (R297). The active images change only
at a boot (R318). -/
def State.aliasKey (s : State) : List Byte := Config.aliasKey Config.identityKey (s.mc.firmware.toList.map fun f => Config.sha384 f.active)

/-- The device's certificate chain. -/
def State.certificate (s : State) : List Byte := Config.certificate Config.identityKey s.aliasKey

/-- GET_DIGESTS: the digest of the chain. -/
def execGetDigests (p : SpdmPort) (s : State) : Out := s.spdmMessage p (·.algs) (some (Config.sha384 s.certificate)) id

/-- GET_CERTIFICATE. -/
def execGetCertificate (p : SpdmPort) (s : State) : Out := s.spdmMessage p (·.algs) (some s.certificate) id

/-- CHALLENGE: the answer is signed with the alias key. -/
def execChallenge (p : SpdmPort) (nonce : List Byte) (s : State) : Out :=
  s.spdmMessage p (·.algs) (some (Config.challengeAnswer s.aliasKey nonce s.freeCount)) id

/-- The value of a thermometer counter (R296): its steps with any fuse blown. -/
def Firmware.counter (f : Firmware) : Nat := (f.steps.filter fun p => p.a || p.b || p.commit).length

/-- The measurement of an index (Table 13.5): the images and the manifest, measured; the counters, DIEMAP.DARK and the root key hash; and
the frozen configuration of a requesting TDI, zero on function 0. The order and widths of index 6 are a choice (DESIGN CHOICE,
log 87). -/
def State.measurement (s : State) (p : SpdmPort) (index : Byte) : Option (List Byte) :=
  match index.toNat, p with
  | 1, _ => some (Config.sha384 s.mc.firmware[0].active)
  | 2, _ => some (Config.sha384 s.mc.firmware[1].active)
  | 3, _ => some (Config.sha384 s.mc.firmware[2].active)
  | 4, _ => some (Config.sha384 s.mc.firmware[3].active)
  | 5, _ => some (Config.sha384 s.mc.manifest)
  | 6, _ => some ((s.mc.firmware.toList.map fun f => BitVec.ofNat 8 f.counter) ++ [Config.fifthCounter] ++ toBytes 2 s.md.dark.toNat ++
      Config.rootKeyHash)
  | 7, .doe (.vf w) => (s.tdi w).map fun t => Config.sha384 t.frozen
  | 7, .doe (.pf _) => some (List.replicate 48 0)
  | _, _ => none

/-- GET_MEASUREMENTS (Table 13.5). -/
def execGetMeasurements (p : SpdmPort) (index : Byte) (s : State) : Out :=
  s.spdmMessage p (·.algs) (s.measurement p index) id

/-- KEY_EXCHANGE opens a session under a new key. -/
def execKeyExchange (p : SpdmPort) (id : Word) (s : State) : Out :=
  s.spdmMessage p (·.algs) none fun x =>
    { x with sessions := (id, false, Config.freeKey s.freeCount) :: x.sessions.filter fun q => q.1 ≠ id }

/-- FINISH. -/
def execFinish (p : SpdmPort) (id : Word) (s : State) : Out :=
  s.spdmMessage p (·.algs) none fun x =>
    { x with sessions := x.sessions.map fun q => if q.1 = id then (q.1, true, q.2.2) else q }

/-- KEY_UPDATE gives a finished session another key. -/
def execKeyUpdate (p : SpdmPort) (id : Word) (s : State) : Out :=
  s.spdmMessage p (·.algs) none fun x =>
    { x with sessions := x.sessions.map fun q => if q.1 = id && q.2.1 then (q.1, true, Config.freeKey s.freeCount) else q }

/-- END_SESSION. -/
def execEndSession (p : SpdmPort) (id : Word) (s : State) : Out :=
  s.spdmMessage p (·.algs) none fun x => { x with sessions := x.sessions.filter fun q => q.1 ≠ id }

end Sys2Proof.Machine
end

