-- ==== Sys2Proof/Machine/Debug.lean ====
section
/-! DEFINITION. Debug stops, images and dumps (R301 to R304, R309, command 0x50), and the windows of recording and replay
(R305 to R307). -/

namespace Sys2Proof.Machine

/-! Stops. -/

/-- The stop a core waits for is due (R301). -/
def Core.stopDue (c : Core) : Bool :=
  match c.dbg with
  | none => false
  | some d => !d.stopped && (match d.at_ with | none => true | some (e, n) => n ≤ (c.eng e).scycle)

/-- DEBUG_STOP_EDGE (R301, Table 14.2): every engine of the core stops on this edge, and a STOP record is written when
TRCCTL.STOPREC asks for it. Which engine's SCYCLE the record of a stop at once holds, whose engine byte is 0xFF, is not said: that of S
(DESIGN CHOICE,
log 101). -/
def execDebugStopEdge (k : CoreId) (s : State) : Out :=
  let u := unitOf k
  let c := s.core u
  .next (match c.dbg with
    | none => s
    | some d =>
      if !c.stopDue then s
      else
        let (no, cyc) := match d.at_ with
          | none => ((0xFF : Byte), c.eS.scycle)
          | some (e, _) => (BitVec.ofNat 8 (engNo e), (c.eng e).scycle)
        let s := if c.trcctl.getLsbD 2 then s.trace u (stopRecord s 0x02 u no 0 cyc) else s
        s.modCore u fun c => { c with dbg := some { d with stopped := true } })

def Core.isStopped (c : Core) : Bool := match c.dbg with | some d => d.stopped | none => false

/-- The world whose debugger may reach a core (R304): that of its job, or of the job whose stop image it still holds; none for an idle
core, which any function of its device may arm. -/
def State.debugWorld (s : State) (u : UnitId) : Option World :=
  match (s.core u).job with
  | some j => some j.world
  | none => if (s.core u).isStopped then some (s.core u).lastWorld else none

/-- A command comes through the IDE stream of a world's TDI. -/
def viaIde (h : MbHdr) (w : World) : Bool := h.path = .ide && h.fn = .vf w

/-- Runs a debug command on a core of the function's device. A core of a world w ≠ 0 accepts it only through the IDE stream of TDI w;
one refused gets the header fields of a stop record where it named a buffer (R304). A virtual function reaches no core of world 0
(R312). -/
def State.debug (s : State) (h : MbHdr) (core : Byte) (buffer : Option Dword) (run : State → CoreId → Reply) : Out :=
  s.mailbox h 0x50 .all false fun s =>
    if hk : core.toNat < 48 then
      let k : CoreId := ⟨core.toNat, hk⟩
      let u := unitOf k
      if devOfDie s.md.mode (dieOf u) ≠ s.fnDev h.fn then .refused s 9
      else
        match s.debugWorld u with
        | none => run s k
        | some w =>
          if w ≠ 0 then
            if viaIde h w then run s k
            else
              match buffer with
              | some a => .refused (s.toBuffer h a (stopRecord s 0x02 u 0xFF 0 (s.core u).eS.scycle)) noOff
              | none => .refused s noOff
          else if fnWorld h.fn ≠ 0 then .denied s
          else run s k
    else .refused s 9

/-- An engine code of Table 15.5. -/
def engOf (b : Byte) : Option Eng :=
  match b.toNat with
  | 0 => some .S | 1 => some .V | 2 => some .M | 3 => some .C | _ => none

/-- DEBUG_STOP (R301): at an engine's cycle, or at once; a cycle already passed stops the core at once. Every engine stops on the same
clock edge, the next: DEBUG_STOP_EDGE. -/
def execDebugStop (h : MbHdr) (core at_ : Byte) (cycle : Dword) (s : State) : Out :=
  s.debug h core none fun s k =>
    let stop (a : Option (Eng × Nat)) : Reply :=
      let s := s.modCore (unitOf k) fun c =>
        { c with debugger := some { world := fnWorld h.fn, ide := h.path = .ide },
                 dbg := if c.isStopped then c.dbg else some { at_ := a, stopped := false } }
      .ok s (toBytes 8 0)
    if at_ = 0xFF then stop none
    else
      match engOf at_ with
      | some e => stop (some (e, cycle.toNat))
      | none => .refused s 10

/-! Images (Table 11.16). -/

/-- The stop image of a core (Table 11.16). -/
def State.stopImage (s : State) (u : UnitId) : List Byte :=
  s.imageBytes u (s.core u) ((s.claimed u).map fun p => (p.1, p.2.hdr)) false

/-- DEBUG_IMAGE_READ (R302). -/
def execDebugImageRead (h : MbHdr) (core : Byte) (buffer : Dword) (s : State) : Out :=
  s.debug h core (some buffer) fun s k =>
    if !(s.core (unitOf k)).isStopped then .refused s noOff
    else
      let im := s.stopImage (unitOf k)
      .ok (s.drewImage.toBuffer h buffer im) (toBytes 8 im.length)

/-- A stop image goes back into a stopped core: everything it holds but SCYCLE (R302, Table 15.5). -/
def State.putImage (s : State) (u : UnitId) (bs : List Byte) : State :=
  let c := s.core u
  let tiles := (s.claimed u).map fun p => (p.1, p.2.hdr)
  let counts := s.countBlock c
  let s := match coreOf u with | some k => s.mendFile k | none => s
  let s := s.setCore u (c.takeImage (c.headerIn u false bs) bs)
  let s := (slotsIn tiles bs).foldl (fun s p => if p ∈ tiles then s else s.setTile u p.1 { s.tile u p.1 with hdr := p.2 }) s
  s.takeCounts u counts bs

/-- DEBUG_IMAGE_WRITE (R302, Table 15.5): the image is written back from the host buffer. -/
def execDebugImageWrite (h : MbHdr) (core : Byte) (buffer : Dword) (s : State) : Out :=
  s.debug h core none fun s k =>
    if !(s.core (unitOf k)).isStopped then .refused s noOff
    else .ok (s.putImage (unitOf k) (s.readLoc 0 (.host buffer.toNat) 0x69000)) (toBytes 8 0x69000)

/-- The newest 64 KiB of the trace ring of the context whose job is, or was last, on the core (R309). -/
def State.newestTrace (s : State) (u : UnitId) : List Byte :=
  let c := s.core u
  let (ctx, w) : Option CtxId × World := match c.job with | some j => (some j.ctx, j.world) | none => (c.lastCtx, c.lastWorld)
  match ctx.bind s.context with
  | none => []
  | some x =>
    if !x.traceOn || x.world ≠ w then []
    else
      let prod := ofBytes (s.devRead x x.traceBase.toNat 8)
      let n := min 65536 prod
      (List.range n).flatMap fun i => s.devRead x (x.traceBase.toNat + 64 + (prod - n + i) % 2 ^ x.traceLog2) 1

/-- DEBUG_DUMP (R309): the stop image, the conflict matrix, the newest trace. -/
def execDebugDump (h : MbHdr) (core : Byte) (buffer : Dword) (s : State) : Out :=
  s.debug h core (some buffer) fun s k =>
    let u := unitOf k
    if !(s.core u).isStopped then .refused s noOff
    else
      let s := s.countConflicts u
      let bs := s.stopImage u ++ (s.core u).matrix ++ s.newestTrace u
      .ok (s.drewImage.toBuffer h buffer bs) (toBytes 8 bs.length)

/-! Registers. -/

/-- The register a code names (Table 15.5). -/
def dbgReg (reg : Half) : Option DbgReg :=
  let n := reg.toNat
  if n < 0x400 then some (.special (BitVec.ofNat 10 n))
  else if n < 0x410 then some (.c32 (.a (BitVec.ofNat 4 n)))
  else if n < 0x414 then some (.c32 (.lc (BitVec.ofNat 2 n)))
  else if 0x800 ≤ n ∧ n < 0x820 then some (.pred (BitVec.ofNat 5 n))
  else if 0xC00 ≤ n ∧ n < 0xC20 then some (.x (BitVec.ofNat 5 n))
  else none

/-- HEAD and TAIL of a message queue. -/
def Core.setPtr (c : Core) (k : Fin 4) (v : Dword) : Core :=
  { c with mqs := c.mqs.set k { c.mqs[k] with head := v.extractLsb' 0 32, tail := v.extractLsb' 32 32 } }

/-- A debugger's write of a special register (R302): every field takes its value, those a program may only read or clear too, and a
write of TSTAT abandons nothing. A register that only shows state held elsewhere (JOBINFO, DIEMAP, the counters) keeps its value. -/
def State.dbgSpecial (s : State) (u : UnitId) (e : Eng) (n : BitVec 10) (v : Dword) : State :=
  match n.toNat with
  | 0x00 => s.modEng u e fun g => { g with cause := v &&& 0xC0FF }
  | 0x03 => s.modEng u e fun g => { g with tdetail := v }
  | 0x05 => s.modEng u e fun g => { g with hm := v.getLsbD 0 }
  | 0x0C => s.modEng u e fun g => { g with replays := v.extractLsb' 0 32, escal := v.extractLsb' 32 8 }
  | 0x0D => s.modCore u fun c => { c with step := v.extractLsb' 0 3, cal := v.extractLsb' 8 8 }
  | 0x30 => s.modEng u e fun g => { g with sticky := v.extractLsb' 0 9 }
  | 0x40 => s.modCore u fun c => { c with lent := v.extractLsb' 0 4 }
  | 0x54 => s.modCore u fun c => c.setPtr 0 v
  | 0x55 => s.modCore u fun c => c.setPtr 1 v
  | 0x56 => s.modCore u fun c => c.setPtr 2 v
  | 0x57 => s.modCore u fun c => c.setPtr 3 v
  | 0xF0 => s.modCore u fun c => { c with trcctl := v.extractLsb' 0 3, drops := v.extractLsb' 32 32 }
  | _ => s.writeSr u e n v

/-- A debugger's write of a register; x0 and p0 keep their values. -/
def State.dbgWrite (s : State) (u : UnitId) (e : Eng) (r : DbgReg) (v : Dword) : State :=
  match r with
  | .special n => s.dbgSpecial u e n v
  | .c32 (.a n) => s.modEng u e fun g => { g with a := g.a.set n.toNat v }
  | .c32 (.lc n) => s.modEng u e fun g => { g with lc := g.lc.set n.toNat v }
  | .pred n =>
    s.modEng u e fun g =>
      if n = 0 then g
      else { g with p := if v.getLsbD 0 then g.p ||| (1#32 <<< n.toNat) else g.p &&& ~~~(1#32 <<< n.toNat) }
  | .x n => s.modEng u e fun g => if n = 0 then g else { g with x := g.x.set n.toNat v }

/-- DEBUG_REGISTER_WRITE (R302): any register but SCYCLE. -/
def execDebugRegisterWrite (h : MbHdr) (core eng : Byte) (reg : Half) (value : Dword) (s : State) : Out :=
  s.debug h core none fun s k =>
    if !(s.core (unitOf k)).isStopped then .refused s noOff
    else
      match engOf eng, dbgReg reg with
      | none, _ => .refused s 10
      | some _, none => .refused s 32
      | some e, some r =>
        if r = .special 0x19 then .refused s 32
        else
          match r, e with
          | .x _, .V | .x _, .M | .x _, .C => .refused s 32
          | _, _ => .ok (s.dbgWrite (unitOf k) e r value) (toBytes 8 0)

/-- DEBUG_RESUME (R302): with a step count k the core stops again after k cycles of the engine. No command detaches a debugger: one that
is attached stays so until the package is reset, or until another attaches (DESIGN CHOICE, log 102). -/
def execDebugResume (h : MbHdr) (core eng : Byte) (steps : Dword) (s : State) : Out :=
  s.debug h core none fun s k =>
    let u := unitOf k
    if !(s.core u).isStopped then .refused s noOff
    else if steps = 0 then .ok (s.modCore u fun c => { c with dbg := none }) (toBytes 8 0)
    else
      match engOf eng with
      | none => .refused s 10
      | some e =>
        .ok (s.modCore u fun c => { c with dbg := some { at_ := some (e, (c.eng e).scycle + steps.toNat), stopped := false } })
          (toBytes 8 0)

/-! Windows of recording and replay. -/

/-- A WINDOW entry (Table 14.5). -/
def windowEntry (k : CoreId) (e : Eng) (crc : Word) (scycle : Nat) : List Byte :=
  [0x02, BitVec.ofNat 8 k.val, BitVec.ofNat 8 (engNo e), 0] ++ toBytes 4 crc.toNat ++ toBytes 8 scycle

/-- A window of 4,096 schedule cycles of an S or V engine has ended. -/
def Engine.windowEnds (g : Engine) (e : Eng) : Bool := (e = .S || e = .V) && g.started && g.winAt + 4096 ≤ g.scycle

/-- The CRC of the window as it is logged. -/
def Engine.windowCrc (g : Engine) : Word := g.winCrc ^^^ 0xFFFFFFFF

def Engine.nextWindow (g : Engine) : Engine := { g with winAt := g.winAt + 4096, winCrc := 0xFFFFFFFF }

/-- RECORD_WINDOW (R305, R306): the entry of an S window follows those of the arrivals it covers, an append's too. -/
def execRecordWindow (k : CoreId) (e : Eng) (s : State) : Out :=
  let u := unitOf k
  let g := s.eng u e
  .next (match (s.core u).job with
    | none => s
    | some j =>
      match s.context j.ctx with
      | none => s
      | some x =>
        if x.recMode ≠ .record || !g.windowEnds e || (e = .S && s.appendsOut u) then s
        else
          let s := if x.recState = 0 then s.logEntry (endOf u) j.ctx x u g.scycle (windowEntry k e g.windowCrc (g.winAt + 4096)) else s
          s.modEng u e Engine.nextWindow)

/-- Key of the count of windows replayed by an engine, kept with the context's arrival counts. -/
def windowKey (k : CoreId) (e : Eng) : Nat := 2 ^ 33 + 4 * k.val + engNo e

/-- The n-th WINDOW entry of an engine. -/
def firstWindow (k : CoreId) (e : Eng) : List (List Byte) → Nat → Option (List Byte)
  | [], _ => none
  | w :: ws, n =>
    if w.getD 0 0 = 0x02 ∧ (w.getD 1 0).toNat = k.val ∧ (w.getD 2 0).toNat = engNo e then
      match n with
      | 0 => some w
      | m + 1 => firstWindow k e ws m
    else firstWindow k e ws n

/-- A REPLAY_DIVERGE record (Table 14.2). -/
def divergeRecord (k : CoreId) (e : Eng) (expected computed : Word) (scycle : Nat) : List Byte :=
  [0x04, BitVec.ofNat 8 k.val, BitVec.ofNat 8 (engNo e), 0] ++ toBytes 4 expected.toNat ++ toBytes 8 scycle ++
    toBytes 4 computed.toNat ++ List.replicate 12 0

/-- REPLAY_WINDOW_CHECK (R307). -/
def execReplayWindowCheck (k : CoreId) (e : Eng) (s : State) : Out :=
  let u := unitOf k
  let g := s.eng u e
  .next (match (s.core u).job with
    | none => s
    | some j =>
      match s.context j.ctx with
      | none => s
      | some x =>
        if x.recMode ≠ .replay || !g.windowEnds e then s
        else
          let s :=
            if x.recState ≠ 2 then s
            else
              let n := CMap.get 0 x.arrivals (windowKey k e)
              let log := logEntries (x.recUsed / 16) (s.devRead x (x.logBase.toNat + 64) x.recUsed)
              match firstWindow k e log n with
              | none => (s.freeMode (endOf u) j.ctx x).trace u (replayEnd u g.scycle)
              | some w =>
                let want : Word := BitVec.ofNat 32 (ofBytes ((w.drop 4).take 4))
                if want = g.windowCrc then
                  s.setContext j.ctx (some { x with arrivals := CMap.set 0 x.arrivals (windowKey k e) (n + 1) })
                else (s.freeMode (endOf u) j.ctx x).trace u (divergeRecord k e want g.windowCrc g.scycle)
          s.modEng u e Engine.nextWindow)

end Sys2Proof.Machine
end

