-- ==== Sys2Proof/Machine/Mc.lean ====
section
/-! DEFINITION. The management controller, the precision time unit, sensor buffers, firmware and boot (R13, R14, R21, R295,
R296, R316 to R319, Table 15.4). -/

namespace Sys2Proof.Config

/-- The byte at an offset of the flash log's record of an event at a precision time; the specification lays no record out (R318, log 104). -/
opaque logByte : Nat × Machine.LogEvent → Nat → Byte

end Sys2Proof.Config

namespace Sys2Proof.Machine

/-! The flash log. -/

/-- The flash log, in records of 64 bytes, oldest first (R318): what a reader finds there over MCTP. -/
def State.flashLog (s : State) : List Byte := s.mc.log.flatMap (block 64 Config.logByte)

/-! Power and temperature. -/

/-- The mean of the readings of the last 1 ms is over, or under, a number of milliwatts. -/
def meanOver (l : List Nat) (n : Nat) : Bool := n * l.length < l.sum
def meanUnder (l : List Nat) (n : Nat) : Bool := l.sum < n * l.length

/-- The error record of a power-limit event; its kind byte is not specified (R21, R283). -/
def powerRecord (s : State) : ErrorRecord :=
  toBytes 8 s.time ++ [Config.freeByte s.freeCount, 0xFF] ++ List.replicate 22 0

/-- The package step (R21), from readings in milliwatts. Whether a raise also holds back a lowering, and a power-limit event either, is not
said: one timer of 1 ms serves all three (DESIGN CHOICE, log 93). -/
def State.packageStep (s : State) : State :=
  let step (n : Nat) : State :=
    ({ s with mc := { s.mc with step := n, lastStepAt := s.time } } : State).logMc (.power n)
  if s.time < s.mc.lastStepAt + 1000000 then s
  else if meanOver s.mc.samples 200000 then
    if 600 < s.mc.step then step (s.mc.step - 50)
    else
      let r := powerRecord s
      (({ s with freeCount := s.freeCount + 1, mc := { s.mc with lastStepAt := s.time } } : State).logMc .powerLimit).addRecord r
  else if meanUnder s.mc.samples 190000 && s.mc.step < 1000 then step (s.mc.step + 50)
  else s

/-- A die's thermal step and shutdown (R318), from its reading in °C. -/
def State.thermalStep (s : State) (vd : Vd) (t : Nat) : State :=
  let s := s.setDie vd { s.die vd with temp := t }
  let d := s.die vd
  let step (n : Nat) : State :=
    (s.setDie vd { d with thermal := n, thermalAt := s.time }).logMc (.thermal vd n)
  if 115 < t then
    if d.railOn then (s.logMc (.shutdown vd)).railOff vd else s
  else if s.time < d.thermalAt + 1000000 then s
  else if 105 < t && 600 < d.thermal then step (d.thermal - 50)
  else if t < 100 && d.thermal < 1000 then step (d.thermal + 50)
  else s

/-- MC_SAMPLE (R21, R318). -/
def execMcSample (milliwatts : Nat) (x : Sensed) (s : State) : Out :=
  let s : State := { s with mc := { s.mc with samples := (milliwatts :: s.mc.samples).take 10, rails := x.rails } }
  .next ((List.finRange 8).foldl (fun s vd =>
    match x.temps[vd.val]? with | some t => s.thermalStep vd t | none => s) s.packageStep)

/-! Precision time. -/

/-- TIME_CORRECTION (R316): a forward offset of 1 ms or more is stepped, every other one slewed. -/
def execTimeCorrection (offset : Int) (s : State) : Out :=
  .next (if s.mc.source = .freeRunning then s
    else if 1000000 ≤ offset then { s with time := s.time + offset.toNat, mc := { s.mc with slew := 0 } }
    else { s with mc := { s.mc with slew := offset } })

/-- 1 ns passes; one in 2,000 is doubled or dropped while an offset is slewed, 500 ppm (R316). -/
def State.tick (s : State) : State :=
  let dies := if s.dies.all fun d => d.advances.isEmpty then s.dies else s.dies.map fun d => { d with advances := [] }
  let k : State := { s with md := { s.md with kickNew := 0 }, dies := dies }
  if s.mc.slew = 0 then { k with time := s.time + 1 }
  else if s.mc.slewIn < 1999 then { k with time := s.time + 1, mc := { s.mc with slewIn := s.mc.slewIn + 1 } }
  else if 0 < s.mc.slew then { k with time := s.time + 2, mc := { s.mc with slew := s.mc.slew - 1, slewIn := 0 } }
  else { k with mc := { s.mc with slew := s.mc.slew + 1, slewIn := 0 } }

/-! Sensor buffers (R317). -/

/-- Counts a buffer or a write that is dropped. -/
def State.senDrop (s : State) (k : SlotId) : State :=
  s.modSlot k fun x => { x with senDrops := min 0xFFFF (x.senDrops + 1) }

/-- The world of a host access (R284): that of the TDI whose IDE stream delivered it, else world 0. -/
def State.requesterWorld (s : State) (r : Requester) : World :=
  match r.tdi with
  | some w => match s.tdi w with | some t => if t.ide then w else 0 | none => 0
  | none => 0

/-- Every byte of a write may be accessed by a world (R286). -/
def State.senOwned (s : State) (k : SlotId) (w : World) (a n : Nat) : Bool :=
  (List.range n).all fun i => ownerAllows (s.ownerOf (s.slotDev k) (a + i)) w

/-- Every byte of a write lies in the device's memory, outside the checkpoint store. -/
def State.senInside (s : State) (k : SlotId) (a n : Nat) : Bool :=
  let d := s.slotDev k
  (List.range n).all fun i => !s.inCkptStore d (a + i) && (dramHome (s.dieListOf d) (a + i)).isSome

/-- Another requester's buffer is open. -/
def Slot.senTaken (x : Slot) (r : Requester) : Bool := match x.senOpen with | some q => q ≠ r.id | none => false

/-- SENSOR_WRITE (R317, R284): one that violates the ownership is dropped and counted, and takes its world's TDI to ERROR
(Table 13.2). Its bytes are stored as they come, with no check values of panes (DEDUCED, log 70). -/
def execSensorWrite (k : SlotId) (o : BitVec 24) (bs : List Byte) (r : Requester) (s : State) : Out :=
  let x := s.slot k
  let a := x.senBase.toNat + o.toNat
  let w := s.requesterWorld r
  .next (if x.senSize < o.toNat + bs.length || x.senTaken r || !s.senInside k a bs.length then s.senDrop k
    else if !s.senOwned k w a bs.length then (s.senDrop k).failTdi w
    else
      let s := s.writeLoc w (.dram (s.slotDev k) a) bs
      s.modSlot k fun x =>
        { x with senOpen := some r.id, senLast := dw s.time,
                 senFirst := if x.senOpen.isSome then x.senFirst else dw s.time })

/-- SENSOR_END (R317): the buffer closes; its record follows. A write of another requester is dropped and counted. -/
def execSensorEnd (k : SlotId) (x : SensorEnding) (s : State) : Out :=
  .next (if (s.slot k).senOpen.isNone then s
    else if (s.slot k).senTaken x.requester then s.senDrop k
    else (s.modSlot k fun y => { y with senOpen := none, senLen := some x.length }).follow [.sensorRecord k])

/-- The record of a buffer (R317). -/
def Slot.senRecord (x : Slot) (k : SlotId) (length : Dword) : List Byte :=
  [BitVec.ofNat 8 k.val, 0] ++ toBytes 2 x.senDrops ++ toBytes 4 x.senSeq.toNat ++ toBytes 8 x.senFirst.toNat ++
    toBytes 8 x.senLast.toNat ++ toBytes 8 length.toNat

/-- SENSOR_RECORD (R317): written when the ring has room, else dropped and counted. -/
def execSensorRecord (k : SlotId) (s : State) : Out :=
  let x := s.slot k
  .next (match x.senLen with
    | none => s
    | some length =>
      let done (s : State) : State := s.modSlot k fun x => { x with senLen := none, senSeq := x.senSeq + 1 }
      match x.senRing with
      | none => done (s.senDrop k)
      | some r =>
        if s.ringRoom r then
          done ((s.ringWrite r (x.senRecord k length)).modSlot k fun x =>
            { x with senRing := some { r with count := r.count + 1 }, senDrops := 0 })
        else done (s.senDrop k))

/-! Firmware. -/

def chipletIx (b : Byte) : Option (Fin 4 × Chiplet) :=
  match b.toNat with
  | 0 => some (0, .hub) | 1 => some (1, .mDie) | 2 => some (2, .cDie) | 3 => some (3, .mc) | _ => none

/-- An image a chiplet accepts (R295, R296): signed with the root key, its version not below the counter. -/
def Firmware.accepts (f : Firmware) (image : List Byte) : Bool :=
  Config.signed Config.rootKeyHash image && f.counter ≤ Config.imageVersion image && Config.imageVersion image ≤ 64

def State.setFirmware (s : State) (i : Fin 4) (f : Firmware) : State :=
  { s with mc := { s.mc with firmware := s.mc.firmware.set i f } }

/-- STAGE_FIRMWARE (R318, R295, R296): the image goes to the inactive bank. -/
def execStageFirmware (h : MbHdr) (chiplet : Byte) (image : Dword) (length : Word) (s : State) : Out :=
  s.mailbox h 0x61 .pfs false fun s =>
    match chipletIx chiplet with
    | none => .refused s 8
    | some (i, _) =>
      let bytes := s.readLoc 0 (.host image.toNat) length.toNat
      let f := s.mc.firmware[i]
      if f.accepts bytes then .ok (s.setFirmware i { f with inactive := bytes, staged := true, marked := false }) []
      else .refused s 16

/-- ACTIVATE_FIRMWARE (R318, R295, R296): the staged image is marked for the next package reset, if it is still accepted. -/
def execActivateFirmware (h : MbHdr) (chiplet : Byte) (s : State) : Out :=
  s.mailbox h 0x62 .pfs false fun s =>
    match chipletIx chiplet with
    | none => .refused s 8
    | some (i, c) =>
      let f := s.mc.firmware[i]
      if f.staged && f.accepts f.inactive then .ok ((s.setFirmware i { f with marked := true }).logMc (.firmware c)) []
      else .refused s 8

/-- A bank pair at boot (R318): a marked image that verifies becomes active, and the old one is left in the bank now inactive; else the
mark reverts to the active bank. -/
def Firmware.boot (f : Firmware) : Firmware :=
  if f.marked && f.staged && f.accepts f.inactive then
    { f with active := f.inactive, inactive := f.active, staged := false, marked := false }
  else { f with marked := false }

/-- A step of a thermometer counter that is advanced: any of its fuses is blown (R296). -/
def FuseStep.advanced (p : FuseStep) : Bool := p.a || p.b || p.commit

/-- The fuses of a step still to be blown. -/
def FuseStep.left (p : FuseStep) : Nat := [p.a, p.b, p.commit].count false

/-- Blows up to n fuses of a step, A, B and commit in that order. -/
def FuseStep.blow (p : FuseStep) (n : Nat) : FuseStep :=
  let fa := p.a || 1 ≤ n
  let n := if p.a then n else n - 1
  let fb := p.b || 1 ≤ n
  let n := if p.b then n else n - 1
  { a := fa, b := fb, commit := p.commit || 1 ≤ n }

/-- Blows up to n fuses of a counter's steps, from the first up. -/
def blowSteps : List FuseStep → Nat → List FuseStep
  | [], _ => []
  | p :: ps, n => p.blow n :: blowSteps ps (n - p.left)

/-- The steps of a counter with what its advance to a value asks for: every partly blown step, and new ones. -/
def Firmware.plan (f : Firmware) (value : Nat) : List FuseStep :=
  f.steps ++ List.replicate (min 64 value - f.steps.length) { a := false, b := false, commit := false }

/-- Blows up to n fuses to advance a counter. -/
def Firmware.advance (f : Firmware) (value n : Nat) : Firmware :=
  { f with steps := (blowSteps (f.plan value) n).filter FuseStep.advanced }

/-- Fuses that the advance of a counter blows. -/
def Firmware.need (f : Firmware) (value : Nat) : Nat := ((f.plan value).map FuseStep.left).sum

/-- What a counter advances to: the manifest's minimum, where the image stored and verified in flash reaches it, else no further than the
steps already begun (R296). -/
def Firmware.target (f : Firmware) (manifest : List Byte) (i : Nat) : Nat :=
  let v := Config.manifestMin manifest i
  if v ≤ Config.imageVersion f.active then v else 0

/-- The counters advance one after the other to their targets (R296), with at most n fuses blown. -/
def advanceCounters (manifest : List Byte) : List Firmware → Nat → Nat → List Firmware
  | [], _, _ => []
  | f :: fs, i, n =>
    let v := f.target manifest i
    f.advance v n :: advanceCounters manifest fs (i + 1) (n - f.need v)

/-- Fuses that all advances blow. -/
def fusesNeeded (manifest : List Byte) : List Firmware → Nat → Nat
  | [], _ => 0
  | f :: fs, i => f.need (f.target manifest i) + fusesNeeded manifest fs (i + 1)

/-- The four active images, the manifest and the counters verify (R295, R296). -/
def bootAccepts (manifest : List Byte) (fs : List Firmware) : Bool :=
  Config.signed Config.rootKeyHash manifest && Config.manifestAllows manifest (fs.map (·.active)) &&
    fs.all fun f => f.accepts f.active

/-! Boot. -/

/-- Exactly one M-position (even code) and one C-position (odd code) are dark (R13). -/
def darkOk (dark : BitVec 10) : Bool :=
  let n (p : Nat) : Nat := (([0, 1, 2, 3, 4] : List Nat).filter fun i => dark.getLsbD (2 * i + p)).length
  n 0 = 1 && n 1 = 1

/-- The live positions in the order of the walk from the dark M-position (R14). -/
def walkLive (dark : BitVec 10) : List Nat :=
  let dM := (([0, 2, 4, 6, 8] : List Nat).find? fun i => dark.getLsbD i).getD 0
  ((List.range 10).map fun i => (dM + 1 + i) % 10).filter fun p => !dark.getLsbD p

/-- The M-dies and the C-dies of the walk's pairs. -/
def pairUp : List Nat → List Nat × List Nat
  | a :: b :: l =>
    let (ms, cs) := pairUp l
    if a % 2 = 0 then (a :: ms, b :: cs) else (b :: ms, a :: cs)
  | _ => ([], [])

/-- The position of each virtual die (R14). -/
def numberDies (dark : BitVec 10) : Vector (BitVec 4) 8 :=
  let (ms, cs) := pairUp (walkLive dark)
  ⟨((List.range 8).map fun i => BitVec.ofNat 4 ((ms ++ cs).getD i 15)).toArray, by simp⟩

/-- What package reset leaves of memory: host memory and the hub's instruction memories, which the hub image fills. -/
def State.memKept (s : State) : CMap Byte :=
  s.mem.filter fun p => (keyHost 0 ≤ p.1 && p.1 < keyHub 0) || keyImem false 0 ≤ p.1

/-- A die at boot: the repair table comes from the MC's flash, the MC's clock step for it stands, its DRAM holds nothing that
is specified. -/
def Die.boot (old : Die) (m : Bool) (time : Nat) : Die :=
  { Die.reset m with spares := old.spares, thermal := old.thermal, thermalAt := old.thermalAt, temp := old.temp, epoch := old.epoch + 1,
                     lastBeat := time }

/-- The package in reset: no core runs and no die is released (R13, R295). -/
def State.down (s : State) : State :=
  let s : State := { s with mc := { s.mc with held := true }, schedule := [] }
  let s := List.foldl (fun s vd => s.setDie vd { s.die vd with state := DieState.lost, railOn := false }) s (List.finRange 8)
  (s.setCore 48 (Core.reset 64)).setCore 49 (Core.reset 64)

/-- The package held in reset, and the MC logs why. -/
def State.hold (s : State) (why : LogEvent) : State := (s.logMc why).down

/-- The state a package reset leaves, before the MC verifies anything: the MC, its flash and its log keep theirs (R319). -/
def State.cleared (s : State) (inp : BootInput) : State :=
  let dies : List Die := (List.finRange 8).map fun vd => Die.boot (s.die vd) (isMDie vd) s.time
  let cals (c : Core) : Core := { c with cal := inp.cal }
  { State.reset with
    time := s.time, freeCount := s.freeCount, doom := s.doom, msgCount := s.msgCount, mem := s.memKept,
    lineKey := s.lineKey, dies := ⟨dies.toArray, by simp [dies]⟩,
    cores := ⟨(resetCores.toList.map cals).toArray, by simp⟩,
    md := { Md.reset with dark := inp.dark, vdPos := numberDies inp.dark },
    cfm := { Cfm.reset with lastPeerBeat := s.time },
    mc := { s.mc with held := false, manifest := inp.manifest.getD s.mc.manifest, source := .freeRunning, slew := 0 },
    port := { Port.reset with lastKey := s.port.lastKey } }

/-- A result dword of the march test has a FAIL bit without its REPAIRED bit (R445). -/
def bootFails (d : Dword) : Bool := (List.range 6).any fun l => d.getLsbD l && !d.getLsbD (8 + l)

/-- What the march test leaves in a core that has located a failing word (Table 21.3): its FAIL bit and REPAIRED bit; what it has read of
the word is free. -/
def State.marchFailed (s : State) (d : Dword) (k : CoreId) : State :=
  let l := localOf (unitOf k)
  if !d.getLsbD l then s
  else
    let n := s.freeCount
    let bits : Dword := dw (2 ^ l.val + if d.getLsbD (8 + l) then 2 ^ (8 + l.val) else 0)
    ({ s with freeCount := n + 3 } : State).modEng (unitOf k) .S fun g =>
      { g with x := (((g.x.set 7 (Config.freeDword n)).set 8 (Config.freeDword (n + 1))).set 9 (Config.freeDword (n + 2))).set 16 bits }

/-- The end of a die's march test (R445, R264, Table 21.3): its summary word stands in the scratchpad of local core 0, and a die that fails
its test is kept in reset. -/
def State.bootDie (s : State) (vd : Vd) (d : Dword) : State :=
  let s := (coresOf vd).foldl (fun s k => s.marchFailed d k) s
  let s := s.putBytes (keyScratch (coreAt vd 0) 0) (toBytes 4 (d.toNat % 2 ^ 32))
  if bootFails d || (s.die vd).full then s.setDie vd { s.die vd with state := .lost, full := false } else s

/-- Step 4 of the boot (R264, R444, R445, Table 15.4): the writes of REPAIR in the boot march test, then its eight result dwords. The dies
that pass are the package's. -/
def State.bootTest (s : State) (inp : BootInput) : State :=
  let s := inp.repairs.foldl (fun s p => s.repairNow (unitOf p.1) p.2) s
  let s := (List.finRange 8).foldl (fun s vd => s.bootDie vd (inp.results.getD vd.val 0)) s
  let list := (fullList .m1 0).filter fun vd => (s.die vd).state = .healthy
  { s with md := { s.md with dieList := s.md.dieList.set 0 list } }

/-- PACKAGE_RESET (R319, Table 15.4): everything but the MC, its flash and its log is reset, then the package boots: the fuses, the
marked images, the verification, the counters, the march test. A power failure while fuses are blown leaves the package down (R296). -/
def State.packageReset (s : State) (inp : BootInput) : State :=
  let r := s.cleared inp
  let m := r.mc.manifest
  let fw := s.mc.firmware.toList.map Firmware.boot
  let put (l : List Firmware) : State := { r with mc := { r.mc with firmware := ⟨((l.take 4) ++ List.replicate (4 - l.length) Firmware.reset).toArray, by simp; omega⟩ } }
  let n := inp.blows.getD (fusesNeeded m fw 0)
  if !darkOk inp.dark then r.hold (.fuses inp.dark)
  else if !bootAccepts m fw then (put fw).hold .imageRefused
  else if n < fusesNeeded m fw 0 then (put (advanceCounters m fw 0 n)).down
  else (put (advanceCounters m fw 0 n)).bootTest inp

/-- PACKAGE_RESET (R319). -/
def execPackageReset (inp : BootInput) (s : State) : Out := .next (s.packageReset inp)

/-- PACKAGE_RESET_COMMAND (R319): the response is written before the reset begins, and the reset clears MBSTAT with the rest. -/
def execPackageResetCommand (h : MbHdr) (inp : BootInput) (s : State) : Out :=
  if s.takes h 0x71 && Issuers.pf0.allows h.fn && (strayByte h false).isNone then .next (s.packageReset inp)
  else s.mailbox h 0x71 .pf0 false fun s => .ok s []

end Sys2Proof.Machine
end

