-- ==== Sys2Proof/Machine/Dispatch.lean ====
section
/-! DEFINITION. One arm per instruction: a direct call of its meaning. -/

namespace Sys2Proof.Machine

/-- What an instruction does in a state. -/
def exec (i : Instr) (s : State) : Host.Outcome State Fault Refusal :=
  match i with
  | .packageReset inp => Sys2Proof.Machine.execPackageReset inp s
  | .mcSample milliwatts sensed => Sys2Proof.Machine.execMcSample milliwatts sensed s
  | .dispatchArrival core => Sys2Proof.Machine.execDispatchArrival core s
  | .resourceReport vd => Sys2Proof.Machine.execResourceReport vd s
  | .completionReport core => Sys2Proof.Machine.execCompletionReport core s
  | .jobComplete core => Sys2Proof.Machine.execJobComplete core s
  | .preemptRequest core => Sys2Proof.Machine.execPreemptRequest core s
  | .preemptStop core => Sys2Proof.Machine.execPreemptStop core s
  | .preemptTimeout core => Sys2Proof.Machine.execPreemptTimeout core s
  | .contextSave core => Sys2Proof.Machine.execContextSave core s
  | .saveWatchdogExpiry core => Sys2Proof.Machine.execSaveWatchdogExpiry core s
  | .contextRestore core => Sys2Proof.Machine.execContextRestore core s
  | .leaseGrant vd => Sys2Proof.Machine.execLeaseGrant vd s
  | .kicksetWrite src value => Sys2Proof.Machine.execKicksetWrite src value s
  | .kickpendWrite sc1 value => Sys2Proof.Machine.execKickpendWrite sc1 value s
  | .drainreqWrite sc1 value => Sys2Proof.Machine.execDrainreqWrite sc1 value s
  | .hqctlRelease sc1 value => Sys2Proof.Machine.execHqctlRelease sc1 value s
  | .scgoWrite sc1 value => Sys2Proof.Machine.execScgoWrite sc1 value s
  | .schedMachineCheck sc1 info => Sys2Proof.Machine.execSchedMachineCheck sc1 info s
  | .resultLand u e => Sys2Proof.Machine.execResultLand u e s
  | .tokenPopResume core e => Sys2Proof.Machine.execTokenPopResume core e s
  | .glintReplay u e fires => Sys2Proof.Machine.execGlintReplay u e fires s
  | .machineCheck core info => Sys2Proof.Machine.execMachineCheck core info s
  | .failedRecordTimer core => Sys2Proof.Machine.execFailedRecordTimer core s
  | .arrayRebuild a offset => Sys2Proof.Machine.execArrayRebuild a offset s
  | .patrolScrub a bank => Sys2Proof.Machine.execPatrolScrub a bank s
  | .repairWrite core value => Sys2Proof.Machine.execRepairWrite core value s
  | .arrtestWrite core value => Sys2Proof.Machine.execArrtestWrite core value s
  | .dieHeartbeat vd => Sys2Proof.Machine.execDieHeartbeat vd s
  | .dieHeartbeatTimeout vd => Sys2Proof.Machine.execDieHeartbeatTimeout vd s
  | .dieRailFault vd => Sys2Proof.Machine.execDieRailFault vd s
  | .dieHealthEvent vd why => Sys2Proof.Machine.execDieHealthEvent vd why s
  | .reconfiguration dev => Sys2Proof.Machine.execReconfiguration dev s
  | .reconfigRestore dev => Sys2Proof.Machine.execReconfigRestore dev s
  | .rotationVisit vd => Sys2Proof.Machine.execRotationVisit vd s
  | .rotationSkip vd => Sys2Proof.Machine.execRotationSkip vd s
  | .selftestEnd vd passed => Sys2Proof.Machine.execSelftestEnd vd passed s
  | .ckptReqWrite core value => Sys2Proof.Machine.execCkptReqWrite core value s
  | .checkpointWrite slot => Sys2Proof.Machine.execCheckpointWrite slot s
  | .checkpointMirrorAck slot => Sys2Proof.Machine.execCheckpointMirrorAck slot s
  | .peerQueryAnswer alive => Sys2Proof.Machine.execPeerQueryAnswer alive s
  | .facetArrival dst facet => Sys2Proof.Machine.execFacetArrival dst facet s
  | .decodeTimeout dst src cls seq => Sys2Proof.Machine.execDecodeTimeout dst src cls seq s
  | .flowAckSend dst src => Sys2Proof.Machine.execFlowAckSend dst src s
  | .flowAck src dst cls upto => Sys2Proof.Machine.execFlowAck src dst cls upto s
  | .lossNotice src dst cls seq => Sys2Proof.Machine.execLossNotice src dst cls seq s
  | .sourceAckTimeout src dst cls seq => Sys2Proof.Machine.execSourceAckTimeout src dst cls seq s
  | .pathDown a b part => Sys2Proof.Machine.execPathDown a b part s
  | .pathUp a b path => Sys2Proof.Machine.execPathUp a b path s
  | .laneDegrade hub position => Sys2Proof.Machine.execLaneDegrade hub position s
  | .permitArrival ctx entry => Sys2Proof.Machine.execPermitArrival ctx entry s
  | .msgAppendArrival core k => Sys2Proof.Machine.execMsgAppendArrival core k s
  | .spillMoveIn core k => Sys2Proof.Machine.execSpillMoveIn core k s
  | .msgCreditReport core k => Sys2Proof.Machine.execMsgCreditReport core k s
  | .groupEpisodeComplete ctx entry => Sys2Proof.Machine.execGroupEpisodeComplete ctx entry s
  | .phaseDoneAdvance vd slot => Sys2Proof.Machine.execPhaseDoneAdvance vd slot s
  | .translationWalk user ctx va => Sys2Proof.Machine.execTranslationWalk user ctx va s
  | .debugStopEdge core => Sys2Proof.Machine.execDebugStopEdge core s
  | .recordWindow core e => Sys2Proof.Machine.execRecordWindow core e s
  | .replayWindowCheck core e => Sys2Proof.Machine.execReplayWindowCheck core e s
  | .sensorWrite slot offset bytes requester => Sys2Proof.Machine.execSensorWrite slot offset bytes requester s
  | .sensorEnd slot ending => Sys2Proof.Machine.execSensorEnd slot ending s
  | .sensorRecord slot => Sys2Proof.Machine.execSensorRecord slot s
  | .timeCorrection offset => Sys2Proof.Machine.execTimeCorrection offset s
  | .lockInterfaceRequest w => Sys2Proof.Machine.execLockInterfaceRequest w s
  | .startInterfaceRequest w => Sys2Proof.Machine.execStartInterfaceRequest w s
  | .stopInterfaceRequest w => Sys2Proof.Machine.execStopInterfaceRequest w s
  | .flr w => Sys2Proof.Machine.execFlr w s
  | .ideIntegrityFailure w => Sys2Proof.Machine.execIdeIntegrityFailure w s
  | .worldReset w => Sys2Proof.Machine.execWorldReset w s
  | .getVersion port => Sys2Proof.Machine.execGetVersion port s
  | .getCapabilities port => Sys2Proof.Machine.execGetCapabilities port s
  | .negotiateAlgorithms port => Sys2Proof.Machine.execNegotiateAlgorithms port s
  | .getDigests port => Sys2Proof.Machine.execGetDigests port s
  | .getCertificate port => Sys2Proof.Machine.execGetCertificate port s
  | .challenge port nonce => Sys2Proof.Machine.execChallenge port nonce s
  | .getMeasurements port index => Sys2Proof.Machine.execGetMeasurements port index s
  | .keyExchange port session => Sys2Proof.Machine.execKeyExchange port session s
  | .finish port session => Sys2Proof.Machine.execFinish port session s
  | .keyUpdate port session => Sys2Proof.Machine.execKeyUpdate port session s
  | .endSession port session => Sys2Proof.Machine.execEndSession port session s
  | .resync h buffer => Sys2Proof.Machine.execResync h buffer s
  | .ackErrorRecords h n => Sys2Proof.Machine.execAckErrorRecords h n s
  | .modeSet h mode => Sys2Proof.Machine.execModeSet h mode s
  | .setLeaseParams h count limit => Sys2Proof.Machine.execSetLeaseParams h count limit s
  | .setFabrate h rate => Sys2Proof.Machine.execSetFabrate h rate s
  | .testMode h on => Sys2Proof.Machine.execTestMode h on s
  | .createTdi h w d => Sys2Proof.Machine.execCreateTdi h w d s
  | .destroyTdi h w => Sys2Proof.Machine.execDestroyTdi h w s
  | .createContext h block => Sys2Proof.Machine.execCreateContext h block s
  | .destroyContext h => Sys2Proof.Machine.execDestroyContext h s
  | .invalidateTranslations h all base length => Sys2Proof.Machine.execInvalidateTranslations h all base length s
  | .setSlotCtl h slot value => Sys2Proof.Machine.execSetSlotCtl h slot value s
  | .setSlotDeadline h slot value => Sys2Proof.Machine.execSetSlotDeadline h slot value s
  | .setSlotLevelTable h slot value => Sys2Proof.Machine.execSetSlotLevelTable h slot value s
  | .setSubmissionRing h slot addr n => Sys2Proof.Machine.execSetSubmissionRing h slot addr n s
  | .setCompletionRing h slot addr n => Sys2Proof.Machine.execSetCompletionRing h slot addr n s
  | .setSensorRegion h slot addr size => Sys2Proof.Machine.execSetSensorRegion h slot addr size s
  | .setSensorRecordRing h slot addr n => Sys2Proof.Machine.execSetSensorRecordRing h slot addr n s
  | .setSlotContext h slot value => Sys2Proof.Machine.execSetSlotContext h slot value s
  | .raiseLevel h slot => Sys2Proof.Machine.execRaiseLevel h slot s
  | .releaseDie h vd => Sys2Proof.Machine.execReleaseDie h vd s
  | .rotationPeriod h seconds => Sys2Proof.Machine.execRotationPeriod h seconds s
  | .peerLostToUp h => Sys2Proof.Machine.execPeerLostToUp h s
  | .writeOwnership h first count entry => Sys2Proof.Machine.execWriteOwnership h first count entry s
  | .installWeightKey h fromSession session key => Sys2Proof.Machine.execInstallWeightKey h fromSession session key s
  | .debugStop h core at_ cycle => Sys2Proof.Machine.execDebugStop h core at_ cycle s
  | .debugImageRead h core buffer => Sys2Proof.Machine.execDebugImageRead h core buffer s
  | .debugRegisterWrite h core e reg value => Sys2Proof.Machine.execDebugRegisterWrite h core e reg value s
  | .debugResume h core e steps => Sys2Proof.Machine.execDebugResume h core e steps s
  | .debugDump h core buffer => Sys2Proof.Machine.execDebugDump h core buffer s
  | .debugImageWrite h core buffer => Sys2Proof.Machine.execDebugImageWrite h core buffer s
  | .selectTimeSource h source => Sys2Proof.Machine.execSelectTimeSource h source s
  | .stageFirmware h chiplet image length => Sys2Proof.Machine.execStageFirmware h chiplet image length s
  | .activateFirmware h chiplet => Sys2Proof.Machine.execActivateFirmware h chiplet s
  | .clearFabricCounters h => Sys2Proof.Machine.execClearFabricCounters h s
  | .packageResetCommand h inp => Sys2Proof.Machine.execPackageResetCommand h inp s
  | .mqcfgWrite core k value => Sys2Proof.Machine.execMqcfgWrite core k value s
  | .mqptrHeadWrite core k value => Sys2Proof.Machine.execMqptrHeadWrite core k value s
  | .stickyWrite u e value => Sys2Proof.Machine.execStickyWrite u e value s
  | .tstatAbandon u e => Sys2Proof.Machine.execTstatAbandon u e s
  | .trcctlWrite core value => Sys2Proof.Machine.execTrcctlWrite core value s
  | .registerWrite target value => Sys2Proof.Machine.execRegisterWrite target value s
  | .amov d r imm => Sys2Proof.Machine.execAmov d r imm s
  | .aadd d r t imm => Sys2Proof.Machine.execAadd d r t imm s
  | .asub d r t imm => Sys2Proof.Machine.execAsub d r t imm s
  | .aand d r t imm => Sys2Proof.Machine.execAand d r t imm s
  | .ashl d r t imm => Sys2Proof.Machine.execAshl d r t imm s
  | .acmp p r t cond u => Sys2Proof.Machine.execAcmp p r t cond u s
  | .ald d r off => Sys2Proof.Machine.execAld d r off s
  | .ast d r off => Sys2Proof.Machine.execAst d r off s
  | .b r off => Sys2Proof.Machine.execB r off s
  | .bc p r off => Sys2Proof.Machine.execBc p r off s
  | .bcNot p r off => Sys2Proof.Machine.execBcNot p r off s
  | .call d r off => Sys2Proof.Machine.execCall d r off s
  | .ret r => Sys2Proof.Machine.execRet r s
  | .loop lc r rot stg end_ => Sys2Proof.Machine.execLoop lc r rot stg end_ s
  | .pset p value => Sys2Proof.Machine.execPset p value s
  | .plog p r t fn => Sys2Proof.Machine.execPlog p r t fn s
  | .mfs d sr => Sys2Proof.Machine.execMfs d sr s
  | .mts r sr => Sys2Proof.Machine.execMts r sr s
  | .tsig mask => Sys2Proof.Machine.execTsig mask s
  | .twait mask => Sys2Proof.Machine.execTwait mask s
  | .fence scope q => Sys2Proof.Machine.execFence scope q s
  | .trap code => Sys2Proof.Machine.execTrap code s
  | .bkpt code => Sys2Proof.Machine.execBkpt code s
  | .iadd h m o => Sys2Proof.Machine.execIadd h m o s
  | .isub h m o => Sys2Proof.Machine.execIsub h m o s
  | .imul h m o => Sys2Proof.Machine.execImul h m o s
  | .idiv h m o => Sys2Proof.Machine.execIdiv h m o s
  | .irem h m o => Sys2Proof.Machine.execIrem h m o s
  | .iand h m o => Sys2Proof.Machine.execIand h m o s
  | .ior h m o => Sys2Proof.Machine.execIor h m o s
  | .ixor h m o => Sys2Proof.Machine.execIxor h m o s
  | .ishl h m o => Sys2Proof.Machine.execIshl h m o s
  | .ishr h m o => Sys2Proof.Machine.execIshr h m o s
  | .imin h m o => Sys2Proof.Machine.execImin h m o s
  | .imax h m o => Sys2Proof.Machine.execImax h m o s
  | .iclz h m o => Sys2Proof.Machine.execIclz h m o s
  | .ipopc h m o => Sys2Proof.Machine.execIpopc h m o s
  | .isel h m o => Sys2Proof.Machine.execIsel h m o s
  | .icmp h m p a b c => Sys2Proof.Machine.execIcmp h m p a b c s
  | .ld h m o => Sys2Proof.Machine.execLd h m o s
  | .st h m o => Sys2Proof.Machine.execSt h m o s
  | .at_ h m o => Sys2Proof.Machine.execAt h m o s
  | .msend h o k => Sys2Proof.Machine.execMsend h o k s
  | .mrecv h o k => Sys2Proof.Machine.execMrecv h o k s
  | .nsub h o => Sys2Proof.Machine.execNsub h o s
  | .phadv h o => Sys2Proof.Machine.execPhadv h o s
  | .phwait h o => Sys2Proof.Machine.execPhwait h o s
  | .gbar h o gslot => Sys2Proof.Machine.execGbar h o gslot s
  | .gred h o sel => Sys2Proof.Machine.execGred h o sel s
  | .gtime h o => Sys2Proof.Machine.execGtime h o s
  | .drain h o => Sys2Proof.Machine.execDrain h o s
  | .vadd h m o => Sys2Proof.Machine.execVadd h m o s
  | .vsub h m o => Sys2Proof.Machine.execVsub h m o s
  | .vmul h m o => Sys2Proof.Machine.execVmul h m o s
  | .vfma h m o => Sys2Proof.Machine.execVfma h m o s
  | .vmin h m o => Sys2Proof.Machine.execVmin h m o s
  | .vmax h m o => Sys2Proof.Machine.execVmax h m o s
  | .vabs h m o => Sys2Proof.Machine.execVabs h m o s
  | .vneg h m o => Sys2Proof.Machine.execVneg h m o s
  | .vclamp h m o => Sys2Proof.Machine.execVclamp h m o s
  | .vand h m o => Sys2Proof.Machine.execVand h m o s
  | .vor h m o => Sys2Proof.Machine.execVor h m o s
  | .vxor h m o => Sys2Proof.Machine.execVxor h m o s
  | .vshl h m o => Sys2Proof.Machine.execVshl h m o s
  | .vshr h m o => Sys2Proof.Machine.execVshr h m o s
  | .vsel h m o => Sys2Proof.Machine.execVsel h m o s
  | .vcmp h m o => Sys2Proof.Machine.execVcmp h m o s
  | .vmovs h m o => Sys2Proof.Machine.execVmovs h m o s
  | .vcvt h m o => Sys2Proof.Machine.execVcvt h m o s
  | .vcvtSat h m o => Sys2Proof.Machine.execVcvtSat h m o s
  | .vexp h m o => Sys2Proof.Machine.execVexp h m o s
  | .vlog h m o => Sys2Proof.Machine.execVlog h m o s
  | .vrcp h m o => Sys2Proof.Machine.execVrcp h m o s
  | .vrsq h m o => Sys2Proof.Machine.execVrsq h m o s
  | .vrotr h m o => Sys2Proof.Machine.execVrotr h m o s
  | .vrotc h m o => Sys2Proof.Machine.execVrotc h m o s
  | .vbcr h m o => Sys2Proof.Machine.execVbcr h m o s
  | .vbcc h m o => Sys2Proof.Machine.execVbcc h m o s
  | .vredr h m o => Sys2Proof.Machine.execVredr h m o s
  | .vredc h m o => Sys2Proof.Machine.execVredc h m o s
  | .vscanr h m o => Sys2Proof.Machine.execVscanr h m o s
  | .vtrn h m o => Sys2Proof.Machine.execVtrn h m o s
  | .vext h m o => Sys2Proof.Machine.execVext h m o s
  | .part h m o => Sys2Proof.Machine.execPart h m o s
  | .vld h m o => Sys2Proof.Machine.execVld h m o s
  | .vst h m o => Sys2Proof.Machine.execVst h m o s
  | .vldp h m o => Sys2Proof.Machine.execVldp h m o s
  | .vstp h m d base aux ben bidx scale fmt => Sys2Proof.Machine.execVstp h m d base aux ben bidx scale fmt s
  | .vgath h m o => Sys2Proof.Machine.execVgath h m o s
  | .vscat h m o => Sys2Proof.Machine.execVscat h m o s
  | .vlend h ret bank => Sys2Proof.Machine.execVlend h ret bank s
  | .alease h => Sys2Proof.Machine.execAlease h s
  | .arel h => Sys2Proof.Machine.execArel h s
  | .tsclaim h n => Sys2Proof.Machine.execTsclaim h n s
  | .tsrel h n => Sys2Proof.Machine.execTsrel h n s
  | .mcfg h item value => Sys2Proof.Machine.execMcfg h item value s
  | .mbegin h iacc acc rows => Sys2Proof.Machine.execMbegin h iacc acc rows s
  | .mloadb h src => Sys2Proof.Machine.execMloadb h src s
  | .mma h acc src rows kch => Sys2Proof.Machine.execMma h acc src rows kch s
  | .mret h acc => Sys2Proof.Machine.execMret h acc s
  | .mretRetire core => Sys2Proof.Machine.execMretRetire core s
  | .cpy h queue o => Sys2Proof.Machine.execCpy h queue o s
  | .cpyp h m o => Sys2Proof.Machine.execCpyp h m o s
  | .cpyr h queue o => Sys2Proof.Machine.execCpyr h queue o s
  | .cdec h queue vonly o => Sys2Proof.Machine.execCdec h queue vonly o s
  | .cenc h queue o => Sys2Proof.Machine.execCenc h queue o s
  | .sbind h queue o => Sys2Proof.Machine.execSbind h queue o s
  | .sunbind h queue o => Sys2Proof.Machine.execSunbind h queue o s
  | .tsfill h queue swz o => Sys2Proof.Machine.execTsfill h queue swz o s
  | .cbw h queue o => Sys2Proof.Machine.execCbw h queue o s
  | .xsend h m o => Sys2Proof.Machine.execXsend h m o s
  | .xrecv h m o => Sys2Proof.Machine.execXrecv h m o s
  | .xfree h m o => Sys2Proof.Machine.execXfree h m o s
  | .quotaStall core => Sys2Proof.Machine.execQuotaStall core s
  | .cCommandPerformed core queue => Sys2Proof.Machine.execCCommandPerformed core queue s
  | .mCommandPerformed core => Sys2Proof.Machine.execMCommandPerformed core s
  | .streamRowTransfer core q => Sys2Proof.Machine.execStreamRowTransfer core q s
  | .badCode h code => Sys2Proof.Machine.execBadCode h code s
  | .peerPortDown port => Sys2Proof.Machine.execPeerPortDown port s
  | .peerPortUp port => Sys2Proof.Machine.execPeerPortUp port s
  | .pick => Sys2Proof.Machine.execPick s
  | .schedTakingOver => Sys2Proof.Machine.execSchedTakingOver s
  | .hubReset => Sys2Proof.Machine.execHubReset s
  | .peerHeartbeatSend => Sys2Proof.Machine.execPeerHeartbeatSend s
  | .peerHeartbeat => Sys2Proof.Machine.execPeerHeartbeat s
  | .peerHeartbeatMiss => Sys2Proof.Machine.execPeerHeartbeatMiss s
  | .peerQueryTimeout => Sys2Proof.Machine.execPeerQueryTimeout s
  | .packageFailure => Sys2Proof.Machine.execPackageFailure s
  | .nop => Sys2Proof.Machine.execNop s
  | .tfence => Sys2Proof.Machine.execTfence s
  | .rend => Sys2Proof.Machine.execRend s
  | .eret => Sys2Proof.Machine.execEret s
  | .peerMcQuery => Sys2Proof.Machine.execPeerMcQuery s

end Sys2Proof.Machine
end

