-- ==== Sys2Proof/Machine/Turn.lean ====
section
/-! DEFINITION. Turns: an engine's schedule cycle from fetch on, the steps the package takes by itself, and the round of
turns that follows when the schedule is empty (log 1). -/

namespace Sys2Proof.Machine

/-- The exception of an instruction that cannot be fetched or does not decode (R220 steps 1 and 2, R221); a fault held
from a completion word comes first (R248). -/
def State.fetchTrap (s : State) (u : UnitId) (e : Eng) (len : Nat) (cause : Byte) (detail : Dword) : State :=
  let g := s.eng u e
  match g.deferred, g.hm with
  | some d, false =>
    ((s.setEng u e { g with deferred := none }).takeTrap u e d.cause (dw (2 ^ 48 * d.code.toNat + d.cwi.toNat)) g.pc
      (g.follows len) g.ds true).advance u e
  | _, _ => s.trapHere u e len cause detail

/-- How the context of a core's job records. -/
def State.recModeOf (s : State) (u : UnitId) : RecMode :=
  match (s.core u).job with
  | none => .off
  | some j => match s.context j.ctx with | some x => x.recMode | none => .off

/-- The step of its own that comes before an engine's next instruction: a due result, the end of a window. -/
def State.before (s : State) (u : UnitId) (e : Eng) : Option Instr :=
  let g := s.eng u e
  if g.due then some (.resultLand u e)
  else
    match coreOf u with
    | none => none
    | some k =>
      if !g.windowEnds e then none
      else
        match s.recModeOf u with
        | .off => none
        | .record => some (.recordWindow k e)
        | .replay => some (.replayWindowCheck k e)

/-- Fetches and runs the instruction at an engine's program counter; while no path leads to the die that holds it, the fetch waits. -/
def State.issueNext (s : State) (u : UnitId) (e : Eng) : Host.Outcome State Fault Refusal :=
  if !s.fetchReaches u e then .next s
  else
    let s := s.fetchAsked u e
    match s.fetch u e (s.eng u e).pc.toNat with
    | .ok i _ => exec i s
    | .illegal w n => .next (s.fetchTrap u e n cIllegal (w.setWidth 64))
    | .fault a c n => .next (s.fetchTrap u e n c (dw a))

/-- A cycle of an engine whose TFENCE holds its issue (R116): held while flags are still to come, else the test, and with no
flag raised the next instruction. -/
def State.fenceTurn (s : State) (u : UnitId) (e : Eng) : Host.Outcome State Fault Refusal :=
  if (s.core u).flagsPending e then .next (s.advance u e)
  else
    let s := s.modEng u e fun g => { g with fencing := false }
    if (s.eng u e).raised = 0 then s.issueNext u e else .next (s.arith u e)

/-- One schedule cycle of an engine. An S engine whose message append is under way has no cycle until the append is performed: its
later accesses and pushes come after it (R155, R158; log 73). -/
def State.engineTurn (s : State) (u : UnitId) (e : Eng) : Host.Outcome State Fault Refusal :=
  let s := { s with cur := (u, e), tag := s.msgCount }
  let g := s.eng u e
  if !g.started || (s.core u).halted || (e = .S && s.appendsOut u) then .next s
  else
    match s.before u e with
    | some i => exec i s
    | none =>
      if g.ended then .next (if g.flights.isEmpty then s else s.advance u e)
      else if g.fencing then s.fenceTurn u e
      else s.issueNext u e

/-! What the package does by itself. Each of these steps leaves the state as it is when its condition no longer holds. -/

def twoBits : List (BitVec 2) := [0, 1, 2, 3]
def threeBits : List (BitVec 3) := [0, 1, 2, 3, 4, 5, 6, 7]

/-- Steps that come while a condition holds. -/
def whenOn (b : Bool) (l : List Instr) : List Instr := if b then l else []

/-- Steps of a core. -/
def State.coreSteps (s : State) (k : CoreId) : List Instr :=
  let c := s.core (unitOf k)
  List.flatten [
    whenOn c.stopDue [.debugStopEdge k],
    whenOn (s.md.dispatching.any fun d => d.core = k) [.dispatchArrival k, .contextRestore k],
    whenOn (!c.mq.isEmpty) [.mretRetire k, .mCommandPerformed k],
    twoBits.flatMap fun q => whenOn (!(c.cq[q.toNat]).isEmpty) [.cCommandPerformed k q],
    threeBits.flatMap fun q => whenOn (c.streams[q.toNat]).isSome [.streamRowTransfer k q],
    whenOn c.preempt.isSome
      [.preemptRequest k, .preemptStop k, .preemptTimeout k, .contextSave k, .saveWatchdogExpiry k],
    whenOn c.jobEnded [.jobComplete k],
    whenOn (s.md.waiting.any fun p => p.1 = k) [.completionReport k],
    whenOn (s.cfm.pendingFails.any fun p => p.1 = k) [.failedRecordTimer k],
    whenOn (match c.eS.frozen with | some (.quota _) => true | _ => false) [.quotaStall k],
    twoBits.flatMap fun q => whenOn (c.mqs[q.toNat]).report [.msgCreditReport k q]]

/-- Permits on their way, and spilled entries of a context. -/
def Context.steps (x : Context) (c : CtxId) : List Instr :=
  List.append (x.spilled.map fun p => Instr.spillMoveIn p.target p.queue)
    ((List.finRange 64).flatMap fun i =>
      whenOn (x.xdirs.getD i.val XDir.detached).attached.isSome [.permitArrival c i])

/-- Messages on their way, and spilled ones. -/
def State.messageSteps (s : State) : List Instr :=
  List.append (s.fab.appends.map fun a => Instr.msgAppendArrival a.target a.queue)
    ((List.finRange 64).flatMap fun c => match s.context c with | none => [] | some x => x.steps c)

/-- Steps of the MD and of the barriers it serves. -/
def State.mdSteps (s : State) : List Instr :=
  List.flatten [
    s.md.arrivals.map fun a => Instr.groupEpisodeComplete a.ctx a.entry,
    whenOn (!s.md.pool.isEmpty) [.pick],
    whenOn (s.md.role0 = .failed || s.md.role1 = .failed) [.schedTakingOver],
    (List.finRange 48).flatMap fun k => whenOn (!(s.slot k).ckptPending.isEmpty) [.checkpointWrite k]]

/-- Steps of a die: its lease, its reports, its phase counters and its heartbeat. -/
def State.dieSteps (s : State) (vd : Vd) : List Instr :=
  List.flatten [
    whenOn (!isMDie vd) [.leaseGrant vd],
    whenOn (s.time % 1000 = 0 || s.dieNow vd ≠ (s.die vd).view) [.resourceReport vd],
    (List.finRange 48).flatMap fun k => whenOn ((s.die vd).curNow k ≠ (s.die vd).done k) [.phaseDoneAdvance vd k],
    whenOn (s.time % 50000 = 0) [.dieHeartbeat vd],
    [.dieHeartbeatTimeout vd]]

/-- Acknowledgements and timers of a flow. -/
def Flow.steps (f : Flow) (time : Nat) : List Instr :=
  List.append (whenOn ((!f.outstanding.isEmpty || (f.src = f.dst && f.acked != f.release)) && time % 1000 = 0) [.flowAckSend f.dst f.src])
    (f.outstanding.flatMap fun o => whenOn (o.at_ + 6000 * timerScale f.cls ≤ time) [.sourceAckTimeout f.src f.dst f.cls o.seq])

/-- Decode timers of an endpoint: of the messages in its buffers, and of the next SEQ of each flow. -/
def EndPt.steps (p : EndPt) (e : Endpoint) (flows : List Flow) : List Instr :=
  List.append (p.bufs.map fun b => Instr.decodeTimeout e b.src b.cls b.seq)
    ((flows.filter fun f => f.dst = e && !p.timers.isEmpty).map fun f => Instr.decodeTimeout e f.src f.cls f.release)

def State.fabSteps (s : State) : List Instr :=
  List.append (s.fab.flows.flatMap fun f => f.steps s.time)
    ((List.finRange 9).flatMap fun e => (s.endPt e).steps e s.fab.flows)

/-- Steps of the CFM for a device. -/
def State.devSteps (s : State) (d : DevId) : List Instr :=
  List.append (whenOn (s.mustReconfigure d && s.cfm.phase[d] ≠ .drain) [.reconfiguration d])
    (whenOn (s.cfm.phase[d] ≠ .idle) [.reconfigRestore d])

/-- Steps of the CFM and the MC. -/
def State.cfmSteps (s : State) : List Instr :=
  List.flatten [
    (devsOf s.md.mode).flatMap s.devSteps,
    whenOn (s.cfm.rotPeriod ≠ 0 || s.cfm.rotDie.isSome)
      ((List.finRange 8).flatMap fun vd => [.rotationVisit vd, .rotationSkip vd]),
    whenOn (s.time % 1000000 = 0) [.peerHeartbeatSend],
    [.peerHeartbeatMiss, .peerQueryTimeout],
    whenOn s.packageFails [.packageFailure],
    (List.finRange 48).flatMap fun k => whenOn (s.slot k).senLen.isSome [.sensorRecord k]]

/-- The resets of worlds under way (R289); several run side by side (R290). -/
def State.trustSteps (s : State) : List Instr :=
  (List.finRange 16).flatMap fun i =>
    let w : World := BitVec.ofFin i
    whenOn (match s.tdi w with | some t => t.step.isSome | none => false) [.worldReset w]

/-- The steps the package would take now by itself, in the order of a round. -/
def State.ownSteps (s : State) : List Instr :=
  List.flatten [(List.finRange 48).flatMap s.coreSteps, s.messageSteps, s.mdSteps, (List.finRange 8).flatMap s.dieSteps,
    s.fabSteps, s.cfmSteps, s.trustSteps]

/-- The engines that run, in the order of a round. -/
def State.engineTurns (s : State) : List Turn :=
  (List.finRange 50).flatMap fun u =>
    ([Eng.S, .V, .M, .C].filter fun e => (s.eng u e).started).map fun e => Turn.engine u e

/-- The next round: 1 ns passes, the package takes the steps that are its own, then every engine has its turn. A package held
in reset only passes time. -/
def State.round (s : State) : State :=
  { s with schedule := if s.mc.held then [.tick] else .tick :: s.ownSteps.map Turn.event ++ s.engineTurns }

/-- The turn at the head of the schedule. A tick ends an ec of every core, with the snapshots of its loop exits (R299), and writes the
completion records that found no room (R315); stores of the scheduler cores that wait go on (R448, R449). -/
def State.turn (s : State) : Turn → Host.Outcome State Fault Refusal
  | .engine u e => s.engineTurn u e
  | .event i => exec i { s with tag := s.msgCount }
  | .tick => .next (s.flushAllExits ((List.finRange 48).map unitOf)).tick.flushPending.drainOn.hqOn

end Sys2Proof.Machine
end

