-- ==== Sys2Proof/Machine/Step.lean ====
section
/-! DEFINITION. The step of the package: the turn at the head of the schedule, or the making of the next round; and the
placing of an instruction where the next step fetches. -/

namespace Sys2Proof.Machine

/-- One step. -/
def step (s : State) : Host.Outcome State Fault Refusal :=
  match s.schedule with
  | [] => .next s.round
  | t :: ts => ({ s with schedule := ts } : State).turn t

/-! Placing an instruction (log 18). -/

/-- The words of an opcode-table row's bits, with operand words of zeros beyond. -/
def rowWords (nbits w : Nat) : List Word :=
  (List.range 9).map fun k => BitVec.ofNat 32 (w % 2 ^ nbits / 2 ^ (32 * k))

/-- An engine that has this instruction: SC0's, else one of core 0. -/
def placeOf (nbits w : Nat) : UnitId × Eng :=
  (([(48, .S), (0, .S), (0, .V), (0, .M), (0, .C)] : List (UnitId × Eng)).find? fun p =>
    match (decode (envOf p.1 p.2) (rowWords nbits w)).result with | .ok _ => true | .error _ => false).getD (48, .S)

/-- A context of world 0 on device 0, as command 0x20 would leave it. -/
def loadContext : Context where
  fn := .pf 0
  dev := 0
  world := 0
  root := 0
  groups := []
  bounds := []
  xch := []
  xdirs := []
  spillBase := 0
  spillQuota := 0
  spilled := []
  quotaWait := 100
  recMode := .off
  recState := 0
  recUsed := 0
  savePool := 0
  saveSize := 0x69000
  traceBase := 0
  traceLog2 := 0
  traceOn := false
  logBase := 0
  logSize := 0
  paneStart := []
  paneLen := []
  key := none
  nextId := 2
  arrivals := []
  producers := []

/-- A job of node 1 of context 0 on core 0, its code image the 64 KiB at virtual address 0. -/
def loadJob : Job where
  node := 1
  ctx := 0
  standIn := 0
  slot := 0
  dev := 0
  world := 0
  eng := 0xF
  imgBase := 0
  imgLen := 0x10000
  spNeed := 1
  tsNeed := 0
  persist := false
  gvalid := 0
  gidx := 0
  arg0 := 0
  arg1 := 0
  leasePrio := 0

/-- A job runs on core 0 (R37), its code page in the die's TLB, readable, writable and executable. -/
def State.withJob (s : State) : State :=
  let s := s.setContext 0 (some loadContext)
  let s : State := { s with tlb := { vd := 0, ctx := 0, base := 0, size := 0x10000, leaf := 0xB1 } :: s.tlb }
  s.modCore 0 fun c =>
    { c with job := some loadJob, eS := { Engine.reset with started := true }, eV := { Engine.reset with started := true },
             eM := { Engine.reset with started := true }, eC := { Engine.reset with started := true } }

/-- The state with an instruction's bits placed where the next step fetches: at SC0's program counter, or, where SC0 does not
have the instruction, at that of an engine of a job loaded on core 0. -/
def State.withFetchWord (s : State) (nbits w : Nat) : State :=
  let p := placeOf nbits w
  let bytes := toBytes 36 (w % 2 ^ nbits)
  let s := { s with schedule := .engine p.1 p.2 :: s.schedule }
  if p.1 = 48 then s.putBytes (keyImem false (s.eng 48 .S).pc.toNat) bytes
  else s.withJob.writeLoc 0 (.dram 0 0) bytes

end Sys2Proof.Machine
end

