-- ==== Sys2Proof/Safety.lean ====
section
/-! DEFINITION. What counts as a safe run, and the terms the claims use: when an instruction issues with its own effect, and the
state that effect leaves. -/

namespace Sys2Proof.Machine

/-- The machine goes on from s. -/
def State.goesOn (s : State) : Prop := ∃ t, step s = .next t

/-- The machine goes on for n steps from s. -/
def State.safeFor : Nat → State → Prop
  | 0, _ => True
  | n + 1, s => ∃ t, step s = .next t ∧ State.safeFor n t

/-! When an instruction issues (R220, R228, R229). -/

/-- The WAIT and SIG masks of a P64 header; a C32 instruction has none (R201). -/
def waitOf (h : Option Hdr) : BitVec 3 := match h with | some h => h.wait | none => 0
def sigOf (h : Option Hdr) : BitVec 3 := match h with | some h => h.sig | none => 0

/-- The guard of a P64 header holds (R204); a C32 instruction has none. -/
def Engine.guardOn (g : Engine) (h : Option Hdr) : Bool :=
  match h with | some h => g.p.getLsbD h.guard.toNat != h.neg | none => true

/-- No result of the engine lands in its next cycle. -/
def Engine.quiet (g : Engine) : Prop := ∀ f ∈ g.flights, g.scycle + 1 < f.landAt

/-- Nothing of R220 stands against instruction i of the executing engine: no completion-word fault is pending (R248), the
fields are legal where it is fetched, its pops find tokens (or were made while it was frozen), its pushes stay below their
ceilings; it ends no active loop (R235), and no earlier result lands in the cycle that its issue ends. -/
structure State.Ready (s : State) (i : Instr) (h : Option Hdr) : Prop where
  undeferred : s.me.deferred = none ∨ s.me.hm = true
  legal : i.legalOn (envOf s.cur.1 s.cur.2) = true
  tokens : s.me.popDone = true ∨ (s.core s.cur.1).emptyBits s.cur.2 (waitOf h) = 0
  ceiling : (s.core s.cur.1).overCeil s.cur.2 (sigOf h) = 0
  body : s.me.endsLoop s.me.pc.toNat (instrWords i) = false
  quiet : s.me.quiet

/-! What an issue leaves. -/

/-- The engine one schedule cycle after an instruction of n words that issued in sequence: the pc follows it, or is the branch
target when it was a delay slot (R232), and SCYCLE has advanced (R231). -/
def Engine.passed (g : Engine) (len : Nat) : Engine :=
  { g with
    pc := g.follows len, after := none, ds := false, noEnd := false, frozen := none, popDone := false,
    scycle := g.scycle + 1, latch := { pOld := g.p, lcOld := g.lc, pMask := 0, lcMask := 0 } }

/-- The tokens of the WAIT mask are popped, unless an earlier freeze of this instruction has popped them (R205). -/
def State.popTokens (s : State) (h : Option Hdr) : State :=
  if s.me.popDone then s else s.modCore s.cur.1 (·.popMask s.cur.2 (waitOf h))

/-- The state in which an instruction's own effect begins: the tokens of its WAIT mask are popped, and its engine has noted
that they are (R205). -/
def State.begins (s : State) (h : Option Hdr) : State :=
  if s.me.popDone = true ∨ waitOf h = 0 then s
  else s.setCore s.cur.1 (((s.core s.cur.1).popMask s.cur.2 (waitOf h)).setEng s.cur.2 { s.me with popDone := true })

/-- An n-word instruction has issued in sequence and changed nothing else. -/
def State.passes (s : State) (len : Nat) (h : Option Hdr) : State :=
  (s.popTokens h).setEng s.cur.1 s.cur.2 (s.me.passed len)

/-- The instruction has issued, and its result is in flight: it lands `lat` schedule cycles after the issue (R227). -/
def State.flies (s : State) (len : Nat) (h : Option Hdr) (lat : Nat) (ws : List Write) (f : FlagSet) : State :=
  (s.popTokens h).setEng s.cur.1 s.cur.2
    { s.me.passed len with
      flights := s.me.flights ++ [{ landAt := s.me.scycle + lat, issuedAt := s.me.scycle, writes := ws, flags := f, sig := sigOf h, lost := none }] }

/-- The instruction has issued, and its result of latency 1 has landed: registers of the engine, STICKY flags, then the pushes
of its SIG mask (R227). -/
def State.lands (s : State) (len : Nat) (h : Option Hdr) (ws : List Write) (f : FlagSet) : State :=
  let g := ws.foldl Engine.put (s.me.passed len)
  ((s.popTokens h).setEng s.cur.1 s.cur.2 { g with sticky := g.sticky ||| f }).push s.cur.1 s.cur.2 (sigOf h)

/-- An n-word instruction has issued in sequence in s; its own effect has made the rest of the state that of t. -/
def State.leaves (s t : State) (len : Nat) : State := t.setEng s.cur.1 s.cur.2 (s.me.passed len)

/-- A P64 instruction issues with its own effect: nothing of R220 stands against it, and its guard holds (R204). -/
def State.Runs (s : State) (i : Instr) (h : Hdr) : Prop := s.Ready i (some h) ∧ s.me.guardOn (some h) = true

/-- The instruction has issued, and its result lands `lat` schedule cycles after it (R227). -/
def State.results (s : State) (i : Instr) (h : Hdr) (lat : Nat) (ws : List Write) (f : FlagSet) : State :=
  if lat = 1 then s.lands (instrWords i) (some h) ws f else s.flies (instrWords i) (some h) lat ws f

/-- The executing engine goes on from t, in which the instruction's accesses are performed: it has issued, and its result lands
`lat` schedule cycles after it; `lost` tells whether its read was lost on its way (R453). -/
def State.flying (s t : State) (i : Instr) (h : Option Hdr) (lat : Nat) (ws : List Write) (f : FlagSet) (lost : Option LostRead) :
    State :=
  t.modEng s.cur.1 s.cur.2 fun g =>
    { g.passed (instrWords i) with
      flights := g.flights ++ [{ landAt := g.scycle + lat, issuedAt := g.scycle, writes := ws, flags := f, sig := sigOf h, lost := lost }] }

/-- The executing engine goes on from t, in which instruction i has had its whole effect at its issue. -/
def State.issued (s t : State) (i : Instr) : State := t.modEng s.cur.1 s.cur.2 (·.passed (instrWords i))

/-- The executing engine goes on from t, and a result of latency 1 has landed: registers, flags, then pushes (R227). -/
def State.landing (s t : State) (i : Instr) (h : Option Hdr) (ws : List Write) (f : FlagSet) : State :=
  (t.modEng s.cur.1 s.cur.2 fun g =>
    let k := ws.foldl Engine.put (g.passed (instrWords i))
    { k with sticky := k.sticky ||| f }).push s.cur.1 s.cur.2 (sigOf h)

/-- A command stands last in the M queue of the executing core, or last in one of its C queues (R320, R365). -/
def State.queuesM (s : State) (op : MOp) (sig : BitVec 3) : State :=
  s.modCore s.cur.1 fun c => { c with mq := c.mq ++ [{ op := op, sig := sig, stamp := s.stampOf s.cur.1 }] }
def State.queuesC (s : State) (q : BitVec 2) (op : COp) (adr aux : Dword) (cwi : Half) (sig : BitVec 3) : State :=
  s.modCore s.cur.1 fun c =>
    { c with cq := c.cq.set q.toNat (c.cq[q.toNat] ++
        [{ op := op, adr := adr, aux := aux, cwi := cwi, sig := sig, stamp := s.stampOf s.cur.1, permit := none }]) }

/-- What R412 asks of a V instruction's operands before its own work: no lent bank (R125), streams bound in the right direction
(R142), no fault of an earlier push outstanding, an item to pop from each read stream (R144), and source registers whose words
pass their checks (R261). -/
structure State.VReady (s : State) (dst : Spec) (srcs : List Spec) : Prop where
  unlent : (s.core s.cur.1).lentNamed (dst :: srcs) = false
  streams : ∀ f ∈ streamFields dst srcs, (s.core s.cur.1).streamBad f.2 f.1 = false
  drains : ∀ f ∈ streamFields dst srcs, (drainTrouble s f.1).isNone = true
  pops : (popTrouble s (srcs.filterMap Spec.stream?)).isNone = true
  file : s.readFile s.cur.1 (srcs.filterMap (mainReg (s.core s.cur.1).eV.rrb)) = .ok s

/-- The writes of a V result r and the flags of its conversion: a vector register with the slot's last-result entry, or a push of a
drain stream (R118, R119, R144, R150). -/
def State.vDest (s : State) (dst : Spec) (slot : BitVec 2) (r : VReg) : Option (List Write × FlagSet) :=
  match dst with
  | .q n => match s.pushCheck n r with
    | .ok r' f => some ([.push n r' (s.stampOf s.cur.1), .l slot r], f)
    | _ => none
  | d => some ((s.core s.cur.1).vdst slot r d, 0)

/-- A V instruction has taken its stream items and occupies its slot (R207, R230). -/
def State.vTakes (s : State) (srcs : List Spec) (slot : BitVec 2) : State :=
  (s.modCore s.cur.1 (·.popAll (srcs.filterMap Spec.stream?))).claimSlot slot

/-- Flags of a V instruction with those of the widening of its items (R429). -/
def State.vFlags (s : State) (srcs : List Spec) (f : FlagSet) : FlagSet :=
  srcs.foldl (fun f x => f ||| (s.core s.cur.1).popFlags x) f

/-- V instruction i issues into its free slot and lands r, flags f and the further writes, `lat` schedule cycles later. -/
def State.VResult (s : State) (i : Instr) (h : Hdr) (slot : BitVec 2) (lat : Nat) (dst : Spec) (srcs : List Spec) (r : VReg)
    (f : FlagSet) (more : List Write) : Prop :=
  let b := s.begins (some h)
  s.cur.2 = .V → s.Runs i h → s.slotBusy slot = false → b.VReady dst srcs →
  ∀ (ws : List Write) (g : FlagSet), b.vDest dst slot r = some (ws, g) →
    exec i s = .next (s.flying (b.vTakes srcs slot) i (some h) lat (ws ++ more) (b.vFlags srcs f ||| g) none)

/-- The register whose elements are given by f, and the union of their flags (R413). -/
def eachOf (f : Nat → Word) : VReg := VReg.gen f
def flagsOf (f : Nat → FlagSet) : FlagSet := flagsUpTo f 1024

/-- The raw key of the byte at a location, where there is one. -/
def State.keyOf (s : State) : Loc → Option Nat
  | .scratch c o => some (keyScratch c o)
  | .pane vd o => some (keyPane vd o)
  | .dram d a => (dramHome (s.dieListOf d) a).map fun p => keyDram p.1 p.2
  | .host a => some (keyHost a)

/-- The 64-byte line of a location, and the tag under which world w keeps a line of device memory (R294). -/
def State.lineOf (s : State) (l : Loc) : Option Nat := (s.keyOf l).map (· / 64)
def State.tagAt (s : State) (w : World) : Loc → Option Nat
  | .dram d a => (dramHome (s.dieListOf d) a).map fun p => (s.lineTag p.1 d a w).code
  | _ => none

/-- The canonical forms of the three maps that the bytes of memory are read through. -/
def State.memSound (s : State) : Prop :=
  Memory.wf s.mem = true ∧ CMap.wf 0 s.flips = true ∧ CMap.wf 0 s.lineKey = true

/-- An n-word branch has issued and is taken: its delay slot is next, then the target (R232). -/
def Engine.jumps (g : Engine) (len : Nat) (target : Dword) (loops : List LoopEntry) : Engine :=
  { g with
    pc := g.pc + BitVec.ofNat 64 (4 * len), after := some target, ds := true, frozen := none, popDone := false, loops := loops,
    scycle := g.scycle + 1, latch := { pOld := g.p, lcOld := g.lc, pMask := 0, lcMask := 0 } }

/-- An n-word branch has issued and is not taken: the next instruction stands in its delay slot all the same (R232). -/
def Engine.falls (g : Engine) (len : Nat) : Engine :=
  { g with
    pc := g.follows len, after := none, ds := true, frozen := none, popDone := false,
    scycle := g.scycle + 1, latch := { pOld := g.p, lcOld := g.lc, pMask := 0, lcMask := 0 } }

/-- An MTS of an n-word instruction has issued and its write of special register k has landed (R373). -/
def State.landsSr (s : State) (len : Nat) (k : BitVec 10) (v : Dword) : State :=
  let f : Flight := { landAt := s.me.scycle + 1, issuedAt := s.me.scycle, writes := [.sr k v], flags := 0, sig := 0, lost := none }
  ((s.setEng s.cur.1 s.cur.2 { s.me.passed len with flights := s.me.flights ++ [f] }).writeSr s.cur.1 s.cur.2 k v).modEng
    s.cur.1 s.cur.2 fun g => { g with flights := g.flights.erase f }

/-- The executing engine takes an exception (R244): it is not already in a handler, and a handler is enabled. -/
def Engine.mayTrap (g : Engine) : Prop := g.hm = false ∧ g.tvec.getLsbD 0 = true

/-- The engine after an exception of an n-word instruction at its pc, one cycle later (R244, R245): CAUSE with its DS bit,
TDETAIL, EPC and ENPC save it, TSTAT.HM is set, and the handler at TVEC issues next. -/
def Engine.trapped (g : Engine) (len : Nat) (cause : Byte) (detail : Dword) : Engine :=
  { g with
    cause := dw ((if g.ds then 2 ^ 14 else 0) + cause.toNat), tdetail := detail, epc := g.pc &&& addrMask,
    enpc := g.follows len &&& addrMask0, hm := true, pc := g.tvec &&& addrMask, after := none, ds := false, noEnd := false,
    epcDone := false, frozen := none, fencing := false, popDone := false,
    scycle := g.scycle + 1, latch := { pOld := g.p, lcOld := g.lc, pMask := 0, lcMask := 0 } }

end Sys2Proof.Machine
end

