-- ==== Sys2Proof/Certificates/Slice0/Obligations.lean ====
section
/-! DEFINITION. The statements for the provers. -/

open Sys2Proof Sys2Proof.Machine

/-! The shared control subset C32. -/

/-- R324, R331: AMOV, AADD, ASUB, AAND and ASHL write d one cycle after they issue, on every engine; a d of 28 discards the
result. The whole next state is given: nothing else changes but the pc and SCYCLE. ASHL is the arithmetic of R324. -/
def Obligations.AddressArithmeticWritesItsResult : Prop :=
  ∀ (s : State) (d : CDst) (a t : CSrc) (imm15 : BitVec 15) (imm : BitVec 10),
    let u := s.me.csrc t + imm.signExtend 64
    let x := s.me.csrc a
    let lands (i : Instr) (v : Dword) : Prop :=
      s.Ready i none → exec i s = .next (s.lands (instrWords i) none (cdstWrite v d) 0)
    lands (.amov d a imm15) (x + imm15.signExtend 64) ∧
    lands (.aadd d a t imm) (x + u) ∧
    lands (.asub d a t imm) (x - u) ∧
    lands (.aand d a t imm) (x &&& u) ∧
    (0 ≤ u.toInt → u.toInt ≤ 63 → lands (.ashl d a t imm) (BitVec.ofNat 64 (x.toNat * 2 ^ u.toInt.toNat))) ∧
    (64 ≤ u.toInt → lands (.ashl d a t imm) 0) ∧
    (-63 ≤ u.toInt → u.toInt ≤ -1 → lands (.ashl d a t imm) (BitVec.ofInt 64 (x.toInt / 2 ^ (-u.toInt).toNat))) ∧
    (u.toInt < -63 → lands (.ashl d a t imm) (if x.toInt < 0 then BitVec.ofNat 64 (2 ^ 64 - 1) else 0))

/-- R325, R393: ACMP, PSET and PLOG write a predicate one cycle after they issue. -/
def Obligations.PredicateInstructionsWriteTheirPredicate : Prop :=
  ∀ (s : State) (p q r : BitVec 5) (a t : CSrc) (c : Cond) (uns v : Bool) (fn : BitVec 4),
    let lands (i : Instr) (b : Bool) : Prop := s.Ready i none → exec i s = .next (s.lands (instrWords i) none [.p p b] 0)
    let x := s.me.csrc a
    let y := s.me.csrc t
    let order (i j : Int) : Bool :=
      match c with
      | .eq => i = j | .ne => i ≠ j | .lt => i < j | .le => i ≤ j | .gt => j < i | .ge => j ≤ i
    lands (.acmp p a t c uns) (if uns then order x.toNat y.toNat else order x.toInt y.toInt) ∧
    lands (.pset p v) v ∧
    lands (.plog p q r fn) (fn.getLsbD (2 * (s.me.pred q).toNat + (s.me.pred r).toNat))

/-- R232, R236, R336, R337, R396: a taken branch issues its delay slot next and then its target. Nothing else changes but
SCYCLE, the loops that B and BC leave, and the link register of CALL. Loop exits that write a snapshot (R299) are left out by
the premise on TRCCTL.
R232, R337: a BC that is not taken issues its delay slot next, and checks nothing of its target; a taken branch to an
address that is no multiple of 4 raises ALIGNMENT (cause 0x03) with TDETAIL the target. -/
def Obligations.BranchesIssueTheirSlotThenTheTarget : Prop :=
  (∀ (s : State) (p : BitVec 5) (d : BitVec 4) (a : CSrc) (r : CReg) (off : BitVec 15),
     let target : Dword := (match a with | .zero => s.me.pc | a => s.me.csrc a) + (off.signExtend 64 <<< 2)
     let back : Dword := s.me.creg r
     let taken (i : Instr) (t : Dword) (pops : Bool) : Prop :=
       s.Ready i none → delaySlotFault s.me i (instrWords i) (s.slotLen (instrWords i)) = false →
       (s.core s.cur.1).trcctl.getLsbD 1 = false → t.toNat % 4 = 0 →
       exec i s = .next (s.setEng s.cur.1 s.cur.2 (s.me.jumps (instrWords i) t
         (if pops then leaveLoops (s.loopAfter s.cur.1 s.cur.2) s.me.pc.toNat t.toNat s.me.loops else s.me.loops)))
     let i := Instr.call d a off
     let n := instrWords i
     taken (.b a off) target true ∧
     (s.me.pred p = true → taken (.bc p a off) target true) ∧
     (s.me.pred p = false → taken (.bcNot p a off) target true) ∧
     taken (.ret r) back false ∧
     (∀ m, s.Ready i none → delaySlotFault s.me i n (s.slotLen n) = false →
       (s.core s.cur.1).trcctl.getLsbD 1 = false → target.toNat % 4 = 0 →
       s.lenAt s.cur.1 s.cur.2 (s.me.pc.toNat + 4 * n) = some m →
       exec i s = .next (s.setEng s.cur.1 s.cur.2
         ((s.me.jumps n target s.me.loops).put (.a d (s.me.pc + BitVec.ofNat 64 (4 * n + 4 * m))))))) ∧
  (∀ (s : State) (p : BitVec 5) (a : CSrc) (r : CReg) (d : BitVec 4) (off : BitVec 15),
     let target : Dword := (match a with | .zero => s.me.pc | a => s.me.csrc a) + (off.signExtend 64 <<< 2)
     let ready (i : Instr) : Prop :=
       s.Ready i none ∧ delaySlotFault s.me i (instrWords i) (s.slotLen (instrWords i)) = false
     let misaligned (i : Instr) (t : Dword) : Prop :=
       ready i → s.me.mayTrap → (s.cur.2 = .M → (s.core s.cur.1).mpop = []) → t.toNat % 4 ≠ 0 →
       exec i s = .next (s.setEng s.cur.1 s.cur.2 (s.me.trapped (instrWords i) 0x03 t))
     (s.me.pred p = false → ready (.bc p a off) →
       exec (.bc p a off) s = .next (s.setEng s.cur.1 s.cur.2 (s.me.falls (instrWords (.bc p a off))))) ∧
     (s.me.pred p = true → ready (.bcNot p a off) →
       exec (.bcNot p a off) s = .next (s.setEng s.cur.1 s.cur.2 (s.me.falls (instrWords (.bcNot p a off))))) ∧
     misaligned (.b a off) target ∧ (s.me.pred p = true → misaligned (.bc p a off) target) ∧
     misaligned (.call d a off) target ∧ misaligned (.ret r) (s.me.creg r))

/-- R234, R363: LOOP makes its loop active, with its counter COUNT + STG, and on a rotating loop clears p16 to p31 and sets
p16; a count of 0 issues next what follows the end instruction (`afterEnd`, R364), and opens no loop. LOOP_NEST (0x2B) is raised, with
any count, when four loops are active (1), when the counter is one of an active loop (2), and when the end lies beyond the innermost
loop's end instruction (3), with that reason in TDETAIL bits 63:62 and the address of LOOP below. The order of the reasons is the model's choice
(log 23).
R235, R236, R238, R326: the loop-end action of an instruction that ends the innermost loop, guarded off or not, here NOP, PSET and
IADD: with a counter above 1 the counter falls by 1, a rotating loop's RRB falls by 1 and its stage predicates shift, p16 telling whether the
counter still exceeds STG, and the body's start issues next; else the counter is 0, the loop is left without rotation, and the loop
around it that
shares the end takes its action in the same cycle. What PSET writes lands after the action. -/
def Obligations.LoopActivatesItsBody : Prop :=
  (∀ (s : State) (lc : BitVec 2) (a : CSrc) (rot : Bool) (stg : BitVec 4) (end_ : BitVec 10),
    let i := Instr.loop lc a rot stg end_
    let n := instrWords i
    let start := s.me.pc.toNat + 4 * n
    let stop := start + 4 * end_.toNat
    let count := s.me.csrc a
    let why : Nat :=
      if s.me.loops.length = 4 then 1
      else if s.me.loops.any fun l => l.lc = lc then 2
      else if s.me.loops.head?.any fun l => s.loopAfter s.cur.1 s.cur.2 l ≤ stop then 3
      else 0
    s.Ready i none → s.me.ds = false → start + 4 * 1024 ≤ 2 ^ 64 → s.me.loops.length ≤ 4 →
    (count ≠ 0 → why = 0 → exec i s = .next (s.setEng s.cur.1 s.cur.2
      (({ s.me with
          loops := { start := BitVec.ofNat 64 start, end_ := BitVec.ofNat 64 stop, lc := lc, rot := rot, stg := stg } :: s.me.loops,
          lc := s.me.lc.set lc.toNat (BitVec.ofNat 64 (min (count.toNat + stg.toNat) (2 ^ 64 - 1))),
          p := if rot then (s.me.p &&& 0xFFFF) ||| 0x10000 else s.me.p } : Engine).passed n))) ∧
    (count = 0 → why = 0 → exec i s = .next (s.setEng s.cur.1 s.cur.2
      { s.me.passed n with pc := BitVec.ofNat 64 (s.afterEnd s.cur.1 s.cur.2 stop 1024 start) })) ∧
    (why ≠ 0 → s.me.mayTrap → (s.cur.2 = .M → (s.core s.cur.1).mpop = []) →
      exec i s = .next (s.setEng s.cur.1 s.cur.2 (s.me.trapped n 0x2B (BitVec.ofNat 64 (2 ^ 62 * why) ||| s.me.pc))))) ∧
  (∀ (s : State) (l : LoopEntry) (around : List LoopEntry) (q : BitVec 5) (v : Bool) (h : Hdr) (m : ModIA) (o : R4),
    let g := s.me
    let n := (g.lc[l.lc.toNat]).toNat
    let turned : Engine := { g with
      lc := g.lc.set l.lc.toNat (BitVec.ofNat 64 (n - 1))
      rrb := if l.rot then g.rrb - 1 else g.rrb
      p := if l.rot then (g.p &&& 0xFFFF) ||| ((g.p &&& 0x7FFF0000) <<< 1) ||| (if l.stg.toNat < n - 1 then 0x10000 else 0) else g.p }
    let left : Engine := { g with lc := g.lc.set l.lc.toNat 0, loops := around }
    let ends (i : Instr) (lands : Engine → Engine) : Prop :=
      i.legalOn (envOf s.cur.1 s.cur.2) = true → g.pc.toNat + 4 * instrWords i = l.end_.toNat + 4 →
      (2 ≤ n → exec i s = .next (s.setEng s.cur.1 s.cur.2 (lands { turned.passed (instrWords i) with pc := l.start }))) ∧
      (n ≤ 1 → (∀ k ∈ around.head?, ¬(g.pc.toNat ≤ k.end_.toNat ∧ k.end_.toNat ≤ l.end_.toNat + 3)) →
        exec i s = .next (s.setEng s.cur.1 s.cur.2 (lands (left.passed (instrWords i))))) ∧
      (n ≤ 1 → (∃ k ∈ around.head?, k.end_ = l.end_) → exec i s = exec i (s.setEng s.cur.1 s.cur.2 left))
    g.loops = l :: around → g.hm = false → g.deferred = none → g.noEnd = false → g.quiet → g.latch.pMask = 0 → g.latch.lcMask = 0 →
    (s.core s.cur.1).trcctl.getLsbD 1 = false →
    ends .nop id ∧ ends (.pset q v) (·.put (.p q v)) ∧
    (s.cur.2 = .S → h.wait = 0 → h.sig = 0 → g.guardOn (some h) = false → ends (.iadd h m o) id))

/-- R373: MFS writes the special register's value to d one cycle after it issues, and MTS writes the special register.
R115, R137, R243, R271, R300: the rows that write one register do to it what MTS does: an M queue's configuration where its range lies in the
job's scratchpad, its HEAD, STICKY, TSTAT with ABANDON = 1 in a handler, TRCCTL, CKPT, any special register of a unit that
its engine may write, and a register of the MD. -/
def Obligations.SpecialRegisterMoves : Prop :=
  ∀ (s : State) (d : CReg) (a : CSrc) (n : BitVec 10) (k : CoreId) (q : BitVec 2) (v : Dword) (w : UnitId) (e : Eng) (sc1 : Bool)
    (off : BitVec 20),
    let u := unitOf k
    let fits (n : BitVec 10) : Prop := ∀ k, mqcfgOf n = some k → s.mqcfgOutside w k v = false
    (s.mqcfgOutside u q v = false → exec (.mqcfgWrite k q v) s = .next (s.writeSr u e (0x050 + q.setWidth 10) v)) ∧
    (s.mqcfgOutside u q v = true → exec (.mqcfgWrite k q v) s = .next s) ∧
    exec (.mqptrHeadWrite k q v) s = .next (s.writeSr u e (0x054 + q.setWidth 10) v) ∧
    exec (.stickyWrite w e v) s = .next (s.writeSr w e 0x030 v) ∧
    ((s.eng w e).hm = true → v.getLsbD 2 = true → exec (.tstatAbandon w e) s = .next (s.writeSr w e 0x005 v)) ∧
    exec (.trcctlWrite k v) s = .next (s.writeSr u e 0x0F0 v) ∧
    exec (.ckptReqWrite k v) s = .next (s.writeSr u e 0x0E4 v) ∧
    (srAssigned (envOf w e) n = true → (s.eng w e).hm = true ∨ privilegedWrite n v = false → fits n →
      exec (.registerWrite (.special w e n) v) s = .next (s.writeSr w e n v)) ∧
    (off.toNat % 8 = 0 →
      exec (.registerWrite (.md sc1 off 8) v) s = .next (s.mdWrite sc1 off.toNat (toBytes 8 v.toNat))) ∧
    (s.Ready (.mfs d n) none →
      exec (.mfs d n) s = .next (s.lands (instrWords (.mfs d n)) none [cregWrite (s.readSr s.cur.1 s.cur.2 n) d] 0)) ∧
    (s.Ready (.mts a n) none → (s.me.hm = true ∨ privilegedWrite n (s.me.csrc a) = false) →
      (∀ k, mqcfgOf n = some k → s.mqcfgOutside s.cur.1 k (s.me.csrc a) = false) →
      exec (.mts a n) s = .next (s.landsSr (instrWords (.mts a n)) n (s.me.csrc a)))

/-- R243: outside a handler an MTS to EPC, to ENPC, or to TSTAT with ABANDON, and ERET out of a delay slot, raise PRIVILEGED (0x22)
with TDETAIL the instruction's address; MFS reads every register in and out of a handler.
R401: TRAP raises SOFT_TRAP (0x2C) with its code in TDETAIL. R244: CAUSE, TDETAIL, EPC and ENPC save an exception, HM is set and
the handler at TVEC issues next; in a handler, or with TVEC.EN = 0, it aborts the job with its cause (`abortJob`).
R338: without a debugger attached, BKPT raises BREAKPOINT (0x2D) with its code in TDETAIL.
R338, R303: with a debugger attached that reaches the job's world, BKPT stops the core, at the instruction that follows it.
R116, R400: a TFENCE that finds an enabled flag has completed, and raises ARITH (0x41) with the flags in TDETAIL: EPC names
the next instruction, ENPC.SEQ is 1 and CAUSE.DS is 0. That ENPC's address bits are 0 is the model's reading (log 26).
R205, R46: an instruction whose pushes would take a queue above its ceiling raises TOKEN_CEILING (0x23), and one that finds an orphaned
queue of its pops empty TOKEN_ORPHAN (0x29), each with the mask bits of those queues in TDETAIL; shown on TSIG, TWAIT and IADD.
R245: ERET in a handler clears HM and issues the instruction at EPC next; ENPC follows it unless its SEQ bit is 1. -/
def Obligations.ExceptionsAreTakenAndLeft : Prop :=
  (∀ (s : State) (d : CReg) (a : CSrc) (n : BitVec 10),
     let denied (i : Instr) : Prop :=
       s.Ready i none → s.me.hm = false → (s.cur.2 = .M → (s.core s.cur.1).mpop = []) →
       exec i s = .next (if s.me.tvec.getLsbD 0 then s.setEng s.cur.1 s.cur.2 (s.me.trapped (instrWords i) 0x22 s.me.pc)
         else (s.abortJob s.cur.1 0x22).advance s.cur.1 s.cur.2)
     (s.me.ds = false → denied .eret) ∧ denied (.mts a 0x001) ∧ denied (.mts a 0x002) ∧
     ((s.me.csrc a).getLsbD 2 = true → denied (.mts a 0x005)) ∧
     (s.Ready (.mfs d n) none → exec (.mfs d n) s = .next (s.lands 1 none [cregWrite (s.readSr s.cur.1 s.cur.2 n) d] 0))) ∧
  (∀ (s : State) (code : Byte),
     let i := Instr.trap code
     s.Ready i none → (s.cur.2 = .M → (s.core s.cur.1).mpop = []) →
     (s.me.mayTrap → exec i s = .next (s.setEng s.cur.1 s.cur.2 (s.me.trapped 1 0x2C (code.setWidth 64)))) ∧
     (¬s.me.mayTrap → exec i s = .next ((s.abortJob s.cur.1 0x2C).advance s.cur.1 s.cur.2))) ∧
  (∀ (s : State) (code : Byte),
     let i := Instr.bkpt code
     s.Ready i none → s.me.mayTrap → (s.cur.2 = .M → (s.core s.cur.1).mpop = []) → (s.core s.cur.1).debugger = none →
     exec i s = .next (s.setEng s.cur.1 s.cur.2 (s.me.trapped 1 0x2D (code.setWidth 64)))) ∧
  (∀ (s : State) (code : Byte) (j : Job) (dbg : Debugger),
     let i := Instr.bkpt code
     s.Ready i none → (s.core s.cur.1).job = some j → (s.core s.cur.1).debugger = some dbg → dbg.reaches j.world = true →
     (s.core s.cur.1).trcctl.getLsbD 2 = false →
     exec i s = .next ((s.setEng s.cur.1 s.cur.2
         { s.me with pc := s.me.follows 1, after := none, ds := false, noEnd := false, frozen := none, popDone := false }).modCore
       s.cur.1 fun c => { c with dbg := some { at_ := some (s.cur.2, s.me.scycle), stopped := true } })) ∧
  (∀ s : State, s.Ready .tfence none → s.me.mayTrap → (s.cur.2 = .M → (s.core s.cur.1).mpop = []) →
     (s.core s.cur.1).flagsPending s.cur.2 = false → s.me.sticky &&& s.me.trapen ≠ 0 →
     exec .tfence s = .next (s.setEng s.cur.1 s.cur.2
       { s.me.passed 1 with
         cause := 0x41, tdetail := (s.me.sticky &&& s.me.trapen).setWidth 64, epc := s.me.follows 1 &&& addrMask, enpc := 1,
         hm := true, pc := s.me.tvec &&& addrMask, epcDone := false, fencing := false })) ∧
  (∀ s : State, s.Ready .eret none → s.me.ds = false → s.me.hm = true →
     exec .eret s = .next (s.setEng s.cur.1 s.cur.2
       { s.me with
         hm := false, pc := s.me.epc, after := if s.me.enpc.getLsbD 0 then none else some (s.me.enpc &&& addrMask),
         ds := !s.me.enpc.getLsbD 0 && s.me.cause.getLsbD 14, noEnd := s.me.epcDone, epcDone := false, frozen := none,
         popDone := false, scycle := s.me.scycle + 1,
         latch := { pOld := s.me.p, lcOld := s.me.lc, pMask := 0, lcMask := 0 } })) ∧
  (∀ (s : State) (m : BitVec 3) (h : Hdr) (a : ModIA) (o : R4),
     let c := s.core s.cur.1
     let e := s.cur.2
     let i := Instr.iadd h a o
     let raises (i : Instr) (cause : Byte) (bits : BitVec 3) : Prop :=
       exec i s = .next (s.setEng s.cur.1 e (s.me.trapped (instrWords i) cause (bits.setWidth 64)))
     s.me.mayTrap → s.me.deferred = none → s.me.quiet → s.me.popDone = false → (e = .M → c.mpop = []) →
     ((Instr.tsig m).legalOn (envOf s.cur.1 e) = true → c.overCeil e m ≠ 0 → raises (.tsig m) 0x23 (c.overCeil e m)) ∧
     ((Instr.twait m).legalOn (envOf s.cur.1 e) = true → c.orphanBits e m ≠ 0 → raises (.twait m) 0x29 (c.orphanBits e m)) ∧
     (i.legalOn (envOf s.cur.1 e) = true → c.overCeil e h.sig ≠ 0 → raises i 0x23 (c.overCeil e h.sig)) ∧
     (i.legalOn (envOf s.cur.1 e) = true → c.overCeil e h.sig = 0 → c.orphanBits e h.wait ≠ 0 →
       raises i 0x29 (c.orphanBits e h.wait)))

/-- R384, R351, R400: NOP, a FENCE of S or V that has nothing to wait for and no loss to report, and a TFENCE that finds no flag
that TRAPEN enables, only let the engine go on.
R157, R407: on the C engine TSIG puts a marker into each of the four queues, and its copy in C0 alone carries the mask;
FENCE puts one into each queue it covers.
R205, R407, R408: TSIG of S or V pushes its tokens one cycle after it issues, on M it enters the queue, as FENCE does; TWAIT
pops one token from each queue of its mask, or freezes while one of them is empty.
R204, R205, R230: a P64 instruction of S or V that is guarded off pops the tokens of WAIT, pushes those of SIG at its issue plus its latency,
takes the divider or its slot, and does nothing else. The latency of those for which no table gives one is 1, the model's choice (log 92). -/
def Obligations.FencesAndTokensTakeEffect : Prop :=
  (∀ (s : State) (scope : BitVec 3) (q : BitVec 4),
     (s.Ready .nop none → exec .nop s = .next (s.passes 1 none)) ∧
     (s.Ready (.fence scope q) none → (s.cur.2 = .S ∧ s.appendsOut s.cur.1 = false) ∨ s.cur.2 = .V →
       (scope.toNat < 2 ∨ s.me.lost = none) → exec (.fence scope q) s = .next (s.passes 1 none)) ∧
     (s.Ready .tfence none → (s.core s.cur.1).flagsPending s.cur.2 = false → s.me.sticky &&& s.me.trapen = 0 →
       exec .tfence s = .next (s.passes 1 none))) ∧
  (∀ (s : State) (m scope : BitVec 3) (q : BitVec 4),
     let c := s.core s.cur.1
     let entered (op : COp) (on : BitVec 4) (sig : BitVec 3) : State :=
       s.setCore s.cur.1 { c with
         markers := c.markers + 1
         cq := Vector.ofFn fun k => if on.getLsbD k then c.cq[k] ++ [marker op (if k = 0 then sig else 0)] else c.cq[k] }
     s.cur.2 = .C → (∀ k < 4, s.cqRoom s.cur.1 k = true) →
     (s.Ready (.tsig m) none → c.overCeil .C m = 0 →
       exec (.tsig m) s = .next (s.leaves (entered (.token c.markers) 0xF m) 1)) ∧
     (s.Ready (.fence scope q) none → (scope.toNat < 2 ∨ s.me.lost = none) →
       exec (.fence scope q) s = .next (s.leaves (entered (.fence c.markers scope) (if q = 0 then 0xF else q) 0) 1))) ∧
  (∀ (s : State) (m scope : BitVec 3) (q : BitVec 4),
     let c := s.core s.cur.1
     (s.Ready (.tsig m) none → s.cur.2 = .S ∨ s.cur.2 = .V → c.overCeil s.cur.2 m = 0 →
       exec (.tsig m) s = .next ((s.passes 1 none).push s.cur.1 s.cur.2 m)) ∧
     (s.Ready (.tsig m) none → s.cur.2 = .M → c.overCeil .M m = 0 → s.mqRoom s.cur.1 = true →
       exec (.tsig m) s = .next ((s.passes 1 none).modCore s.cur.1 fun c =>
         { c with mq := c.mq ++ [{ op := .token, sig := m, stamp := .zero }] })) ∧
     (s.Ready (.fence scope q) none → s.cur.2 = .M → (scope.toNat < 2 ∨ s.me.lost = none) → s.mqRoom s.cur.1 = true →
       exec (.fence scope q) s = .next ((s.passes 1 none).modCore s.cur.1 fun c =>
         { c with mq := c.mq ++ [{ op := .fence scope, sig := 0, stamp := .zero }] })) ∧
     (s.Ready (.twait m) none → s.me.popDone = false → c.emptyBits s.cur.2 m = 0 →
       exec (.twait m) s = .next ((s.setCore s.cur.1 (c.popMask s.cur.2 m)).setEng s.cur.1 s.cur.2 (s.me.passed 1))) ∧
     (s.Ready (.twait m) none → s.me.popDone = false → c.orphanBits s.cur.2 m = 0 → c.emptyBits s.cur.2 m ≠ 0 →
       exec (.twait m) s = .next (s.setEng s.cur.1 s.cur.2 { s.me with frozen := some (.tokens m) }))) ∧
  (∀ (s : State) (h : Hdr) (o : R4) (q : Q3) (x : MemOp) (ia : ModIA) (is : ModIS) (ic : ModIC) (sm : ModSM) (sa : ModSA) (va : ModVA)
     (vc : ModVC) (vv : ModVV) (vf : ModVF) (vx : ModVX) (vp : ModVP) (vm : ModVM) (vq : ModVQ) (sg : SelG) (p : BitVec 5) (a b d : Spec)
     (ben ret : Bool) (bidx : BitVec 6) (scale fmt : Byte) (k : BitVec 2),
     let off (i : Instr) (lat : Nat) (after : State → State) : Prop :=
       s.Ready i (some h) → exec i s = .next (after (if h.sig = 0 then s.passes (instrWords i) (some h) else s.results i h lat [] 0))
     let divider : State → State := fun t => t.modEng s.cur.1 s.cur.2 fun g => { g with divFree := s.me.scycle + 20 }
     let inSlot (slot : BitVec 2) : State → State := fun t => t.modEng s.cur.1 s.cur.2 fun g =>
       { g with slotFree := g.slotFree.set slot.toNat (s.me.scycle + 4) }
     let v (i : Instr) (slot : BitVec 2) (lat : Nat) : Prop := s.slotBusy slot = false → off i lat (inSlot slot)
     let ab (m : Bool) : BitVec 2 := if m then 1 else 0
     s.me.guardOn (some h) = false →
     (s.cur.2 = .S →
       off (.iadd h ia o) 1 id ∧ off (.isub h ia o) 1 id ∧ off (.imul h ia o) 3 id ∧ off (.imin h ia o) 1 id ∧ off (.imax h ia o) 1 id ∧
       off (.iand h ia o) 1 id ∧ off (.ior h ia o) 1 id ∧ off (.ixor h ia o) 1 id ∧ off (.ishl h ia o) 1 id ∧ off (.ishr h ia o) 1 id ∧
       off (.iclz h ia o) 1 id ∧ off (.ipopc h ia o) 1 id ∧ off (.isel h is o) 1 id ∧ off (.icmp h ic p a b d) 1 id ∧
       (s.me.divFree ≤ s.me.scycle → off (.idiv h ia o) 20 divider ∧ off (.irem h ia o) 20 divider) ∧
       off (.ld h sm x) 4 id ∧ off (.st h sm x) 1 id ∧ off (.at_ h sa o) 8 id ∧ off (.msend h q k) 2 id ∧ off (.mrecv h q k) 4 id ∧
       off (.nsub h q) 1 id ∧ off (.phadv h q) 1 id ∧ off (.phwait h q) 1 id ∧ off (.gbar h q k) 1 id ∧ off (.gred h q sg) 1 id ∧
       off (.gtime h q) 2 id ∧ off (.drain h q) 1 id) ∧
     (s.cur.2 = .V →
       v (.vadd h va o) (ab va.slotB) 5 ∧ v (.vsub h va o) (ab va.slotB) 5 ∧ v (.vmul h va o) (ab va.slotB) 6 ∧
       v (.vfma h va o) (ab va.slotB) 6 ∧ v (.vmin h va o) (ab va.slotB) 5 ∧ v (.vmax h va o) (ab va.slotB) 5 ∧
       v (.vclamp h va o) (ab va.slotB) 5 ∧ v (.vabs h va o) (ab va.slotB) 5 ∧ v (.vneg h va o) (ab va.slotB) 5 ∧
       v (.vand h va o) (ab va.slotB) 5 ∧ v (.vor h va o) (ab va.slotB) 5 ∧ v (.vxor h va o) (ab va.slotB) 5 ∧
       v (.vsel h va o) (ab va.slotB) 5 ∧ v (.vmovs h va o) (ab va.slotB) 5 ∧ v (.vshl h va o) (ab va.slotB) 5 ∧
       v (.vshr h va o) (ab va.slotB) 5 ∧ v (.vcmp h vc o) (ab vc.slotB) 5 ∧ v (.vcvt h vv o) 2 5 ∧ v (.vcvtSat h vv o) 2 5 ∧
       v (.vexp h vf o) 2 12 ∧ v (.vlog h vf o) 2 12 ∧ v (.vrcp h vf o) 2 12 ∧ v (.vrsq h vf o) 2 12 ∧
       v (.vrotr h vx o) 3 5 ∧ v (.vrotc h vx o) 3 7 ∧ v (.vbcr h vx o) 3 5 ∧ v (.vbcc h vx o) 3 7 ∧ v (.vext h vx o) 3 5 ∧
       v (.vtrn h vx o) 3 9 ∧ v (.vredr h vx o) 3 8 ∧ v (.vredc h vx o) 3 10 ∧ v (.vscanr h vx o) 3 8 ∧ v (.part h vp o) 3 12 ∧
       v (.vld h vm x) 3 14 ∧ v (.vst h vm x) 3 14 ∧ v (.vgath h vm x) 3 20 ∧ v (.vscat h vm x) 3 20 ∧ v (.vldp h vq x) 3 14 ∧
       v (.vstp h vq d a b ben bidx scale fmt) 3 14 ∧ off (.vlend h ret k) 1 id))

/-! The S engine. -/

/-- R227, R359 (Table 17.2): IADD, ISUB, IMUL, IMIN, IMAX, IAND, IOR and IXOR. The operands are read as signed or unsigned w-bit
numbers, the exact result is clamped or reduced to w bits, the register gets it sign- or zero-extended, STICKY gets SAT when the
clamp changed it, and nothing else changes. IMUL lands 3 schedule cycles after its issue, the others 1.
R227, R230, R359: IDIV rounds toward zero, IREM gives the remainder of that quotient; a zero divisor gives 2^w − 1 and the
dividend. They land 20 schedule cycles after their issue and take the divider for 20; while it is busy they are held. -/
def Obligations.ScalarArithmeticAndDivision : Prop :=
  (∀ (s : State) (h : Hdr) (m : ModIA) (o : R4),
     let w := if m.w32 then 32 else 64
     let bits (x : Dword) : BitVec w := x.setWidth w
     let num (x : Dword) : Int := if m.u then (bits x).toNat else (bits x).toInt
     let a := s.me.scalar o.a
     let b := s.me.scalar o.b
     let lo : Int := if m.u then 0 else -2 ^ (w - 1)
     let hi : Int := if m.u then 2 ^ w - 1 else 2 ^ (w - 1) - 1
     let kept (v : Int) : Int := if m.sat then max lo (min v hi) else v
     let reg (p : BitVec w) : Dword := if m.u then p.setWidth 64 else p.signExtend 64
     let done (i : Instr) (lat : Nat) (p : BitVec w) (f : FlagSet) : Prop :=
       s.Runs i h → exec i s = .next (s.results i h lat (sdstWrite (reg p) o.dst) f)
     let sum (i : Instr) (lat : Nat) (v : Int) : Prop :=
       done i lat (BitVec.ofInt w (kept v)) (if kept v = v then 0 else fSAT)
     sum (.iadd h m o) 1 (num a + num b) ∧ sum (.isub h m o) 1 (num a - num b) ∧ sum (.imul h m o) 3 (num a * num b) ∧
     done (.imin h m o) 1 (if num b < num a then bits b else bits a) 0 ∧
     done (.imax h m o) 1 (if num a < num b then bits b else bits a) 0 ∧
     done (.iand h m o) 1 (bits a &&& bits b) 0 ∧ done (.ior h m o) 1 (bits a ||| bits b) 0 ∧
     done (.ixor h m o) 1 (bits a ^^^ bits b) 0) ∧
  (∀ (s : State) (h : Hdr) (m : ModIA) (o : R4),
     let w := if m.w32 then 32 else 64
     let bits (x : Dword) : BitVec w := x.setWidth w
     let num (x : Dword) : Int := if m.u then (bits x).toNat else (bits x).toInt
     let a := s.me.scalar o.a
     let b := s.me.scalar o.b
     let reg (p : BitVec w) : Dword := if m.u then p.setWidth 64 else p.signExtend 64
     let done (i : Instr) (p : BitVec w) : Prop := s.Runs i h →
       (s.me.divFree ≤ s.me.scycle → exec i s = .next
         ((s.results i h 20 (sdstWrite (reg p) o.dst) 0).modEng s.cur.1 s.cur.2 fun g =>
           { g with divFree := s.me.scycle + 20 })) ∧
       (s.me.scycle < s.me.divFree → exec i s = .next
         (s.setEng s.cur.1 s.cur.2 { s.me with
           scycle := s.me.scycle + 1, latch := { pOld := s.me.p, lcOld := s.me.lc, pMask := 0, lcMask := 0 } }))
     done (.idiv h m o) (if num b = 0 then BitVec.allOnes w else BitVec.ofInt w ((num a).tdiv (num b))) ∧
     done (.irem h m o) (if num b = 0 then bits a else BitVec.ofInt w (num a - num b * (num a).tdiv (num b))))

/-- R358, R359: ISHL and ISHR shift by the whole 64-bit count, ICLZ and IPOPC count bits and are zero-extended, ISEL chooses by a
predicate read at issue, ICMP writes a predicate. -/
def Obligations.ShiftsCountsAndSelections : Prop :=
  ∀ (s : State) (h : Hdr) (m : ModIA) (ms : ModIS) (mc : ModIC) (o : R4) (p : BitVec 5) (x y z : Spec),
    let w := if m.w32 then 32 else 64
    let bits (x : Dword) : BitVec w := x.setWidth w
    let a := s.me.scalar o.a
    let n := (s.me.scalar o.b).toNat
    let reg (p : BitVec w) : Dword := if m.u then p.setWidth 64 else p.signExtend 64
    let sa : Int := if m.u then (bits a).toNat else (bits a).toInt
    let lo : Int := if m.u then 0 else -2 ^ (w - 1)
    let hi : Int := if m.u then 2 ^ w - 1 else 2 ^ (w - 1) - 1
    let done (i : Instr) (ws : List Write) (f : FlagSet := 0) : Prop := s.Runs i h → exec i s = .next (s.results i h 1 ws f)
    let pick := if s.me.pred ms.psel then a else s.me.scalar o.b
    let num (x : Dword) : Int :=
      if mc.w32 then (if mc.u then (x.setWidth 32).toNat else (x.setWidth 32).toInt) else (if mc.u then x.toNat else x.toInt)
    let i := num (s.me.scalar x)
    let j := num (s.me.scalar y)
    let holds : Bool :=
      match mc.cond with
      | .eq => i = j | .ne => i ≠ j | .lt => i < j | .le => i ≤ j | .gt => j < i | .ge => j ≤ i
    (m.sat = false → done (.ishl h m o) (sdstWrite (reg (bits a <<< n)) o.dst)) ∧
    (m.sat = true → done (.ishl h m o) (sdstWrite (reg (BitVec.ofInt w (max lo (min (sa * 2 ^ n) hi)))) o.dst)
      (if max lo (min (sa * 2 ^ n) hi) = sa * 2 ^ n then 0 else fSAT)) ∧
    done (.ishr h m o) (sdstWrite (reg (if m.u then bits a >>> n else (bits a).sshiftRight n)) o.dst) ∧
    done (.iclz h m o) (sdstWrite ((bits a).clz.toNat) o.dst) ∧
    done (.ipopc h m o) (sdstWrite (((List.range w).countP fun k => a.getLsbD k) : Nat) o.dst) ∧
    done (.isel h ms o) (sdstWrite (if ms.w32 then (pick.setWidth 32).signExtend 64 else pick) o.dst) ∧
    done (.icmp h mc p x y z) [.p p holds]

/-- R3, R327, R360 to R362: LD reads 1, 2, 4 or 8 bytes at value(base) + disp × size, least significant first, zero- or
sign-extended, and ALD reads 8 bytes; the register is written 4 schedule cycles after the issue. `resolve` is the address check of
R362, `checkLoc` the error code of the bank (R261), and `arriveLoc` the record of its arrival (R305). Nothing else changes.
R446: on SC0 and SC1 they read the hub window, aligned.
R132, R134, R146, R147, R270, R286, R362: an address that cannot be read raises its cause precisely, with the address in TDETAIL, and
nothing else
happens: SCRATCH_RANGE (0x05) in the scratch windows of cores 48 to 62 and past the job's scratchpad, PROTECTION (0x02) for another
core's scratchpad, host memory, a checkpoint store and a leaf without the right, ALIGNMENT (0x03), TRANSLATION (0x01) where no leaf maps it, and
WORLD_VIOLATION (0x04) where the granule's owner does not allow the world. -/
def Obligations.LoadsReadMemory : Prop :=
  (∀ (s b t : State) (h : Hdr) (m : ModSM) (o : MemOp) (d : CDst) (a : CSrc) (off : BitVec 15) (j : Job) (l : Loc),
    let u := s.cur.1
    let reads (i : Instr) (hd : Option Hdr) (ea : Dword) (n : Nat) (ws : Nat → List Write) : Prop :=
      isSched u = false → (s.core u).job = some j → (s.begins hd).resolve u j .read n ea.toNat = .ok l →
      (s.begins hd).checkLoc l ea n = .ok b → b.arriveLoc l u s.cur.2 n = some t →
      let r := t.ask (endOf u) (t.homeOf l) n
      exec i s = .next (s.flying r.2 i hd 4 (ws (ofBytes (t.readLoc j.world l n))) 0
        (r.2.lostMark (instrWords i) (waitOf hd) ea (!r.1)))
    let n := 2 ^ m.size.toNat
    (s.Runs (.ld h m o) h → reads (.ld h m o) (some h) (s.me.scalar o.base + (o.disp.signExtend 64 <<< m.size.toNat)) n
      fun x => sdstWrite (if m.sx then (BitVec.ofNat (8 * n) x).signExtend 64 else BitVec.ofNat 64 x) o.d) ∧
    (s.Ready (.ald d a off) none → (s.core u).queueBusy s.cur.2 = false →
      reads (.ald d a off) none (s.me.csrc a + off.signExtend 64) 8 fun x => cdstWrite (BitVec.ofNat 64 x) d)) ∧
  (∀ (s : State) (h : Hdr) (m : ModSM) (o : MemOp) (d : CDst) (a : CSrc) (off : BitVec 15) (j : Job) (c : Byte),
    let u := s.cur.1
    let hub (i : Instr) (hd : Option Hdr) (ea : Dword) (n : Nat) (ws : Nat → List Write) : Prop :=
      isSched u = true → 0x01E0000000000000 ≤ ea.toNat → ea.toNat < 0x01E0000000400000 → ea.toNat % n = 0 →
      exec i s = .next (s.flying (s.begins hd) i hd 4 (ws (ofBytes ((s.begins hd).hubRead (ea.toNat % 0x400000) n))) 0 none)
    let faults (i : Instr) (hd : Option Hdr) (ea : Dword) (n : Nat) : Prop :=
      s.me.mayTrap → (s.cur.2 = .M → (s.core u).mpop = []) → waitOf hd = 0 →
      ((isSched u = false ∧ (s.core u).job = some j ∧ s.resolve u j .read n ea.toNat = .error c) ∨
        (isSched u = true ∧ c = 0x02 ∧ (ea.toNat < 0x01E0000000000000 ∨ 0x01E0000000400000 ≤ ea.toNat)) ∨
        (isSched u = true ∧ c = 0x03 ∧ 0x01E0000000000000 ≤ ea.toNat ∧ ea.toNat < 0x01E0000000400000 ∧ ea.toNat % n ≠ 0)) →
      exec i s = .next (s.setEng u s.cur.2 (s.me.trapped (instrWords i) c ea))
    let n := 2 ^ m.size.toNat
    let ea := s.me.scalar o.base + (o.disp.signExtend 64 <<< m.size.toNat)
    let va := s.me.csrc a + off.signExtend 64
    (s.Runs (.ld h m o) h → hub (.ld h m o) (some h) ea n
        (fun x => sdstWrite (if m.sx then (BitVec.ofNat (8 * n) x).signExtend 64 else BitVec.ofNat 64 x) o.d) ∧
      faults (.ld h m o) (some h) ea n) ∧
    (s.Ready (.ald d a off) none → (s.core u).queueBusy s.cur.2 = false →
      hub (.ald d a off) none va 8 (fun x => cdstWrite (BitVec.ofNat 64 x) d) ∧ faults (.ald d a off) none va 8)) ∧
  (∀ (s : State) (u : UnitId) (k : CoreId) (j : Job) (x : Context) (acc : Acc) (align c o va p : Nat) (leaf : Dword) (size : Nat) (l : Loc)
     (e : Byte),
    let at_ := 0x01F0000000000000 + 2 ^ 24 * c + o
    let scratch (r : Except Byte Loc) : Prop := s.resolve u j acc align at_ = r
    let place := entryAddr leaf % 2 ^ 56 / size * size + va % size
    let maps (r : Except Byte Loc) : Prop := s.translate (some u) j.ctx j.world acc va = r
    (c < 64 → o < 2 ^ 24 → coreOf u = some k →
      (48 ≤ c → c ≤ 62 → scratch (.error 0x05)) ∧ (c < 48 → c ≠ k.val → scratch (.error 0x02)) ∧
      (c = 63 ∨ c = k.val → (4096 * j.spNeed ≤ o → scratch (.error 0x05)) ∧
        (o < 4096 * j.spNeed → at_ % align ≠ 0 → scratch (.error 0x03)) ∧
        (o < 4096 * j.spNeed → at_ % align = 0 → scratch (.ok (.scratch k o))))) ∧
    (windowOf va = .mapped →
      (va % align ≠ 0 → s.resolve u j acc align va = .error 0x03) ∧
      (va % align = 0 → (maps (.error e) → s.resolve u j acc align va = .error e) ∧
        (maps (.ok (.host p)) → s.resolve u j acc align va = .error 0x02) ∧
        (maps (.ok l) → (∀ p, l ≠ .host p) → s.resolve u j acc align va = .ok l))) ∧
    (s.context j.ctx = some x →
      (2 ^ 57 ≤ va → maps (.error 0x01)) ∧ (va < 2 ^ 57 → s.leafOf (some u) j.ctx x va = none → maps (.error 0x01)) ∧
      (va < 2 ^ 57 → s.leafOf (some u) j.ctx x va = some (leaf, size) →
        (leafAllows leaf acc = false → maps (.error 0x02)) ∧
        (leafAllows leaf acc = true → leaf.getLsbD 56 = true → maps (.ok (.host place))) ∧
        (leafAllows leaf acc = true → leaf.getLsbD 56 = false →
          (s.inCkptStore x.dev place = true → maps (.error 0x02)) ∧
          (s.inCkptStore x.dev place = false → ownerAllows (s.ownerOf x.dev place) j.world = false → maps (.error 0x04)) ∧
          (s.inCkptStore x.dev place = false → ownerAllows (s.ownerOf x.dev place) j.world = true →
            maps (.ok (.dram x.dev place)))))))

/-- R3, R327, R328, R360 to R362: ST writes the low 1, 2, 4 or 8 bytes of value(D), least significant first, at value(base) +
disp × size, and AST writes 8 bytes; the pushes of ST's SIG mask come in the next cycle. No register changes.
R446, R448, R449: on SC0 and SC1 they write the hub window, aligned; a store to DRAINREQ or HQCTL that must wait freezes its engine, and goes on
when it has ended.
R362: an address that cannot be written raises its cause precisely, as a load's does, and nothing is written. -/
def Obligations.StoresWriteMemory : Prop :=
  (∀ (s t : State) (h : Hdr) (m : ModSM) (o : MemOp) (d : CDst) (a : CSrc) (off : BitVec 15) (j : Job) (l : Loc),
    let u := s.cur.1
    let writes (i : Instr) (hd : Option Hdr) (ea : Dword) (n : Nat) (v : Dword) : Prop :=
      isSched u = false → (s.core u).job = some j → (s.begins hd).resolve u j .write n ea.toNat = .ok l →
      (s.begins hd).arriveLoc l u s.cur.2 n = some t →
      exec i s = .next (((t.performWrite u s.cur.2 j l ea (toBytes n v.toNat)).modEng u s.cur.2 (·.passed (instrWords i))).push
        u s.cur.2 (sigOf hd))
    let n := 2 ^ m.size.toNat
    (s.Runs (.st h m o) h → writes (.st h m o) (some h) (s.me.scalar o.base + (o.disp.signExtend 64 <<< m.size.toNat)) n
      (s.me.scalar o.d)) ∧
    (s.Ready (.ast d a off) none → (s.core u).queueBusy s.cur.2 = false →
      writes (.ast d a off) none (s.me.csrc a + off.signExtend 64) 8 (s.me.cdat d))) ∧
  (∀ (s : State) (h : Hdr) (m : ModSM) (o : MemOp) (d : CDst) (a : CSrc) (off : BitVec 15) (j : Job) (c : Byte),
    let u := s.cur.1
    let sc1 := decide (u.val = 49)
    let hub (i : Instr) (hd : Option Hdr) (ea : Dword) (n : Nat) (v : Dword) : Prop :=
      let t := (s.begins hd).hubStore sc1 (ea.toNat % 0x400000) (toBytes n v.toNat)
      isSched u = true → 0x01E0000000000000 ≤ ea.toNat → ea.toNat < 0x01E0000000400000 → ea.toNat % n = 0 →
      (s.me.frozen ≠ some .ring → t.hubBusy sc1 = false →
        exec i s = .next ((t.modEng u s.cur.2 (·.passed (instrWords i))).push u s.cur.2 (sigOf hd))) ∧
      (s.me.frozen ≠ some .ring → t.hubBusy sc1 = true →
        exec i s = .next (t.modEng u s.cur.2 fun g => { g with frozen := some .ring })) ∧
      (s.me.frozen = some .ring → s.hubBusy sc1 = false →
        exec i s = .next (((s.begins hd).modEng u s.cur.2 (·.passed (instrWords i))).push u s.cur.2 (sigOf hd)))
    let faults (i : Instr) (hd : Option Hdr) (ea : Dword) (n : Nat) : Prop :=
      s.me.mayTrap → (s.cur.2 = .M → (s.core u).mpop = []) → waitOf hd = 0 →
      ((isSched u = false ∧ (s.core u).job = some j ∧ s.resolve u j .write n ea.toNat = .error c) ∨
        (isSched u = true ∧ c = 0x02 ∧ (ea.toNat < 0x01E0000000000000 ∨ 0x01E0000000400000 ≤ ea.toNat)) ∨
        (isSched u = true ∧ c = 0x03 ∧ 0x01E0000000000000 ≤ ea.toNat ∧ ea.toNat < 0x01E0000000400000 ∧ ea.toNat % n ≠ 0)) →
      exec i s = .next (s.setEng u s.cur.2 (s.me.trapped (instrWords i) c ea))
    let n := 2 ^ m.size.toNat
    let ea := s.me.scalar o.base + (o.disp.signExtend 64 <<< m.size.toNat)
    let va := s.me.csrc a + off.signExtend 64
    (s.Runs (.st h m o) h → hub (.st h m o) (some h) ea n (s.me.scalar o.d) ∧ faults (.st h m o) (some h) ea n) ∧
    (s.Ready (.ast d a off) none → (s.core u).queueBusy s.cur.2 = false →
      hub (.ast d a off) none va 8 (s.me.cdat d) ∧ faults (.ast d a off) none va 8))

/-- R3, R135: a write stores its bytes, lowest first, and every other byte of memory reads as before: scratchpads, the pane store,
each device's DRAM as the writing world sees it, and host memory. -/
def Obligations.WritesStoreTheirBytesAndNoOthers : Prop :=
  ∀ (s : State) (w : World) (l : Loc) (bs : List Byte), s.memSound →
    let alike (k : Loc) : Prop :=
      ∀ a, a < bs.length → s.lineOf k = s.lineOf (l.plus a) → s.tagAt w k = s.tagAt w (l.plus a)
    (∀ a, a < bs.length → (s.keyOf (l.plus a)).isSome = true ∧ alike (l.plus a) ∧
      ∀ b, b < a → s.keyOf (l.plus a) ≠ s.keyOf (l.plus b)) →
    (s.writeLoc w l bs).readLoc w l bs.length = bs ∧
    ∀ k : Loc, alike k → (∀ a, a < bs.length → s.keyOf k ≠ s.keyOf (l.plus a)) →
      (s.writeLoc w l bs).locByte w k = s.locByte w k

/-- R135, R332 to R335: AT reads and rewrites a word of a scratchpad of its die in one step; DST gets the old word, zero-extended,
8 schedule cycles after the issue, with the flags of FADD.
R334: an address that is no word of a running job's scratchpad on the same die, of its context, raises its cause precisely with the address
in TDETAIL. `noteWrite` keeps the write's place in tie order (R160). -/
def Obligations.AtomicsRewriteTheirWord : Prop :=
  (∀ (s b t : State) (h : Hdr) (m : ModSA) (o : R4) (j : Job) (k : CoreId) (off : Nat),
    let i := Instr.at_ h m o
    let u := s.cur.1
    let w := if m.w64 then 64 else 32
    let ea := s.me.scalar o.a
    let l : Loc := .scratch k off
    s.Runs i h → (s.core u).job = some j → (∀ x, s.context j.ctx = some x → x.recMode = .off) →
    (s.begins (some h)).atResolve u j ea.toNat (w / 8) = .ok (k, off) → (s.begins (some h)).checkLoc l ea (w / 8) = .ok b →
    b.arriveLoc l u s.cur.2 (w / 8) = some t →
    let old : BitVec w := BitVec.ofNat w (ofBytes (t.readLoc j.world l (w / 8)))
    let v : BitVec w := (s.me.scalar o.b).setWidth w
    let e : BitVec w := (s.me.scalar o.c).setWidth w
    let less (x y : BitVec w) : Bool := if m.u then x.ult y else x.slt y
    let sum := add32 .rn (fv32 (old.setWidth 32)) (fv32 (v.setWidth 32))
    let new : BitVec w := match m.op with
      | .add => old + v | .and => old &&& v | .or => old ||| v | .xor => old ^^^ v
      | .min => if less v old then v else old | .max => if less old v then v else old
      | .fadd => sum.1.setWidth w | .xchg => v | .cas => if old = e then v else old
    exec i s = .next (s.flying ((t.writeLoc j.world l (toBytes (w / 8) new.toNat)).noteWrite (t.tieOf u) l (w / 8)) i (some h) 8
      (sdstWrite (old.setWidth 64) o.dst) (if m.op = .fadd then sum.2 else 0) none)) ∧
  (∀ (s : State) (h : Hdr) (m : ModSA) (o : R4) (j j' : Job) (k : CoreId) (c off align : Nat),
    let u := s.cur.1
    let i := Instr.at_ h m o
    let at_ := 0x01F0000000000000 + 2 ^ 24 * c + off
    let gives (r : Except Byte (CoreId × Nat)) : Prop := s.atResolve u j at_ align = r
    (∀ e, s.Runs i h → h.wait = 0 → s.me.mayTrap → (s.cur.2 = .M → (s.core u).mpop = []) → (s.core u).job = some j →
      s.atResolve u j (s.me.scalar o.a).toNat ((if m.w64 then 64 else 32) / 8) = .error e →
      exec i s = .next (s.setEng u s.cur.2 (s.me.trapped (instrWords i) e (s.me.scalar o.a)))) ∧
    (∀ va, (∀ c o, windowOf va ≠ .scratch c o) → s.atResolve u j va align = .error 0x02) ∧
    (off < 2 ^ 24 → (48 ≤ c → c ≤ 62 → gives (.error 0x05)) ∧
      (c = k.val ∨ (c = 63 ∧ u.val = k.val) →
        (dieOf (unitOf k) ≠ dieOf u ∨ (s.core (unitOf k)).job = none → gives (.error 0x02)) ∧
        (dieOf (unitOf k) = dieOf u → (s.core (unitOf k)).job = some j' →
          (j'.world ≠ j.world → gives (.error 0x04)) ∧
          (j'.world = j.world → j'.ctx ≠ j.ctx → gives (.error 0x02)) ∧
          (j'.world = j.world → j'.ctx = j.ctx → 4096 * j'.spNeed ≤ off → gives (.error 0x05)) ∧
          (j'.world = j.world → j'.ctx = j.ctx → off < 4096 * j'.spNeed →
            gives (if at_ % align ≠ 0 then .error 0x03 else .ok (k, off)))))))

/-! The V engine. -/

/-- R227, R410, R414 to R416 (Tables 10.4, 19.2): the element-wise instructions. Under F32 they round the exact result once, under
an I type they reduce it to w bits or clamp it with SAT; the raw ones take all 32 bits. The result lands 5 schedule cycles after the
issue, or 6 for VMUL and VFMA, in the destination and the slot's last-result entry.
R230, R410, R416: VSHL and VSHR shift each element by the B element as an unsigned count, rounding down to the right. -/
def Obligations.ElementwiseInstructionsAndShifts : Prop :=
  (∀ (s : State) (h : Hdr) (m : ModVA) (o : R4),
     let c := (s.begins (some h)).core s.cur.1
     let A (k : Nat) : Word := (c.vread m.obc o.a).at_ k
     let B (k : Nat) : Word := (c.vread m.obc o.b).at_ k
     let C (k : Nat) : Word := (c.vread m.obc o.c).at_ k
     let w := tyBits m.ty
     let u := tyUnsigned m.ty
     let num (x : Word) : Int := if u then (x.setWidth w).toNat else (x.setWidth w).toInt
     let lo : Int := if u then 0 else -2 ^ (w - 1)
     let hi : Int := if u then 2 ^ w - 1 else 2 ^ (w - 1) - 1
     let el (v : Int) : Word := if u then (BitVec.ofInt w v).setWidth 32 else (BitVec.ofInt w v).signExtend 32
     let kept (sat : Bool) (v : Int) : Int := if sat then max lo (min v hi) else v
     let slot : BitVec 2 := if m.slotB then 1 else 0
     let gives (i : Instr) (n lat : Nat) (f : Nat → Word × FlagSet) : Prop :=
       s.VResult i h slot lat o.dst ([o.a, o.b, o.c].take n) (eachOf fun k => (f k).1) (flagsOf fun k => (f k).2) []
     let both (i : Instr) (n lat : Nat) (f : Nat → Word × FlagSet) (sat : Bool) (v : Nat → Int) : Prop :=
       gives i n lat fun k => if m.ty = .f32 then f k
         else (el (kept sat (v k)), if kept sat (v k) = v k then 0 else fSAT)
     let a (k : Nat) := num (A k)
     let b (k : Nat) := num (B k)
     let d (k : Nat) := num (C k)
     both (.vadd h m o) 2 5 (fun k => add32 m.rnd (fv32 (A k)) (fv32 (B k))) m.sat (fun k => a k + b k) ∧
     both (.vsub h m o) 2 5 (fun k => add32 m.rnd (fv32 (A k)) (fv32 (B k ^^^ 0x80000000))) m.sat (fun k => a k - b k) ∧
     both (.vmul h m o) 2 6 (fun k => mul32 m.rnd (fv32 (A k)) (fv32 (B k))) m.sat (fun k => a k * b k) ∧
     both (.vfma h m o) 3 6 (fun k => fma32 m.rnd (fv32 (A k)) (fv32 (B k)) (fv32 (C k))) m.sat (fun k => a k * b k + d k) ∧
     both (.vmin h m o) 2 5 (fun k => (min32 (A k) (B k), 0)) false (fun k => min (a k) (b k)) ∧
     both (.vmax h m o) 2 5 (fun k => (max32 (A k) (B k), 0)) false (fun k => max (a k) (b k)) ∧
     both (.vclamp h m o) 3 5 (fun k => (min32 (max32 (A k) (B k)) (C k), 0)) false (fun k => min (max (a k) (b k)) (d k)) ∧
     both (.vabs h m o) 1 5 (fun k => (A k &&& 0x7FFFFFFF, 0)) m.sat (fun k => (a k).natAbs) ∧
     both (.vneg h m o) 1 5 (fun k => (A k ^^^ 0x80000000, 0)) m.sat (fun k => -a k) ∧
     gives (.vand h m o) 2 5 (fun k => (A k &&& B k, 0)) ∧ gives (.vor h m o) 2 5 (fun k => (A k ||| B k, 0)) ∧
     gives (.vxor h m o) 2 5 (fun k => (A k ^^^ B k, 0)) ∧
     gives (.vsel h m o) 3 5 (fun k => (if C k = 0 then B k else A k, 0)) ∧ gives (.vmovs h m o) 1 5 (fun k => (A k, 0))) ∧
  (∀ (s : State) (h : Hdr) (m : ModVA) (o : R4),
     let c := (s.begins (some h)).core s.cur.1
     let w := tyBits m.ty
     let u := tyUnsigned m.ty
     let num (x : Word) : Int := if u then (x.setWidth w).toNat else (x.setWidth w).toInt
     let a (k : Nat) : Int := num ((c.vread m.obc o.a).at_ k)
     let n (k : Nat) : Nat := ((c.vread m.obc o.b).at_ k).toNat
     let lo : Int := if u then 0 else -2 ^ (w - 1)
     let hi : Int := if u then 2 ^ w - 1 else 2 ^ (w - 1) - 1
     let el (v : Int) : Word := if u then (BitVec.ofInt w v).setWidth 32 else (BitVec.ofInt w v).signExtend 32
     let left (k : Nat) : Int := if m.sat then max lo (min (a k * 2 ^ n k) hi) else if w ≤ n k then 0 else a k * 2 ^ n k
     let slot : BitVec 2 := if m.slotB then 1 else 0
     s.VResult (.vshl h m o) h slot 5 o.dst [o.a, o.b] (eachOf fun k => el (left k))
       (flagsOf fun k => if m.sat ∧ left k ≠ a k * 2 ^ n k then fSAT else 0) [] ∧
     s.VResult (.vshr h m o) h slot 5 o.dst [o.a, o.b] (eachOf fun k => el (a k / 2 ^ n k)) (flagsOf fun _ => 0) [])

/-- R105 to R107, R419 to R422: VCMP writes all ones where the comparison holds, VCVT converts each element and holds the result as
binary32 or an extended integer, and VEXP, VLOG, VRCP and VRSQ give the values of R106 with the flags of R107. -/
def Obligations.ComparisonsConversionsAndSpecialFunctions : Prop :=
  ∀ (s : State) (h : Hdr) (mc : ModVC) (mv : ModVV) (mf : ModVF) (o : R4),
    let c := (s.begins (some h)).core s.cur.1
    let A (obc : Bool) (k : Nat) : Word := (c.vread obc o.a).at_ k
    let B (k : Nat) : Word := (c.vread mc.obc o.b).at_ k
    let int (x y : Word) : Bool :=
      let i : Int := if tyUnsigned mc.ty then (x.setWidth (tyBits mc.ty)).toNat else (x.setWidth (tyBits mc.ty)).toInt
      let j : Int := if tyUnsigned mc.ty then (y.setWidth (tyBits mc.ty)).toNat else (y.setWidth (tyBits mc.ty)).toInt
      match mc.cond with
      | .eq => i = j | .ne => i ≠ j | .lt => i < j | .le => i ≤ j | .gt => j < i | .ge => j ≤ i
    let holds (x y : Word) : Bool := if mc.ty = .f32 then condFloat mc.cond (fv32 x) (fv32 y) else int x y
    let each (i : Instr) (slot : BitVec 2) (lat n : Nat) (f : Nat → Word × FlagSet) : Prop :=
      s.VResult i h slot lat o.dst ([o.a, o.b, o.c].take n) (eachOf fun k => (f k).1) (flagsOf fun k => (f k).2) []
    each (.vcmp h mc o) (if mc.slotB then 1 else 0) 5 2
      (fun k => (if holds (A mc.obc k) (B k) then 0xFFFFFFFF else 0, 0)) ∧
    each (.vcvt h mv o) 2 5 1 (fun k => cvtEl mv false (A false k)) ∧
    each (.vcvtSat h mv o) 2 5 1 (fun k => cvtEl mv true (A false k)) ∧
    each (.vexp h mf o) 2 12 1 (fun k => expEl (A mf.obc k)) ∧ each (.vlog h mf o) 2 12 1 (fun k => logEl (A mf.obc k)) ∧
    each (.vrcp h mf o) 2 12 1 (fun k => rcpEl (A mf.obc k)) ∧ each (.vrsq h mf o) 2 12 1 (fun k => rsqEl (A mf.obc k))

/-- R230, R417, R433 (Tables 10.4, 19.3): the instructions that move elements along the rows and columns of a register. Element
64 × row + col of the result is given.
R418: the reductions halve each row of 64, or each column of 16, until one element stands for it; the scan runs from column 0.
`redStep` is one application of the operator; flags are the union over all steps.
R51, R388 to R390: PART writes the element numbers sorted by outcome, each list ascending, and the lengths of the lists in a12
and a13, and with WAY4 in a14 and a15. -/
def Obligations.AxisInstructionsReductionsAndPart : Prop :=
  (∀ (s : State) (h : Hdr) (m : ModVX) (o : R4),
     let c := (s.begins (some h)).core s.cur.1
     let A (row col : Nat) : Word := (c.vread m.obc o.a).at_ (64 * row + col)
     let B (row col : Nat) : Word := (c.vread m.obc o.b).at_ (64 * row + col)
     let moves (i : Instr) (lat n : Nat) (f : Nat → Nat → Word) : Prop :=
       s.VResult i h 3 lat o.dst ([o.a, o.b].take n) (eachOf fun k => f (k / 64) (k % 64)) 0 []
     let n := (s.me.vscalar o.b).toNat
     let e := (s.me.vscalar o.c).toNat % 64
     moves (.vrotr h m o) 5 1 (fun row col => A row ((col + 64 - n % 64) % 64)) ∧
     moves (.vrotc h m o) 7 1 (fun row col => A ((row + 16 - n % 16) % 16) col) ∧
     moves (.vbcr h m o) 5 1 (fun row _ => A row (n % 64)) ∧ moves (.vbcc h m o) 7 1 (fun _ col => A (n % 16) col) ∧
     moves (.vext h m o) 5 2 (fun row col => if col + e < 64 then A row (col + e) else B row (col + e - 64)) ∧
     moves (.vtrn h m o) 9 1 (fun row col => A (col % 16) (16 * (col / 16) + row))) ∧
  (∀ (s : State) (h : Hdr) (m : ModVX) (o : R4),
     let c := (s.begins (some h)).core s.cur.1
     let a := c.vread m.obc o.a
     let row (r : Nat) : List Word := (List.range 64).map fun k => a.at_ (64 * r + k)
     let col (k : Nat) : List Word := (List.range 16).map fun r => a.at_ (64 * r + k)
     let gives (i : Instr) (lat : Nat) (v : Nat → Nat → Word) (f : FlagSet) : Prop :=
       s.VResult i h 3 lat o.dst [o.a] (eachOf fun k => v (k / 64) (k % 64)) f []
     let scan (r : Nat) : List Word × FlagSet := scanList m (redOnly m (a.at_ (64 * r))) ((row r).drop 1)
     gives (.vredr h m o) 8 (fun r _ => (reduceList m 6 (row r)).1)
       ((List.range 16).foldl (fun f r => f ||| (reduceList m 6 (row r)).2) 0) ∧
     gives (.vredc h m o) 10 (fun _ k => (reduceList m 4 (col k)).1)
       ((List.range 64).foldl (fun f k => f ||| (reduceList m 4 (col k)).2) 0) ∧
     gives (.vscanr h m o) 8 (fun r k => if k = 0 then redOnly m (a.at_ (64 * r)) else (scan r).1.getD (k - 1) 0)
       ((List.range 16).foldl (fun f r => f ||| (scan r).2) 0)) ∧
  (∀ (s : State) (h : Hdr) (m : ModVP) (o : R4),
     let c := (s.begins (some h)).core s.cur.1
     let el (x : Spec) (k : Nat) : Word := (c.vread false x).at_ k
     let cmp (x y : Word) : Bool :=
       if m.ty = .f32 then condFloat m.cond (fv32 x) (fv32 y) else condInt m.cond (readEl m.ty x) (readEl m.ty y)
     let out (k : Nat) : Nat :=
       (if cmp (el o.a k) (el o.b k) then 1 else 0) + (if m.way4 && cmp (el o.a k) (el o.c k) then 2 else 0)
     let list (t : Nat) : List Nat := (List.range 1024).filter fun k => out k = t
     let all := list 0 ++ list 1 ++ list 2 ++ list 3
     let len (t : Nat) : Dword := BitVec.ofNat 64 (list t).length
     s.VResult (.part h m o) h 3 12 o.dst (if m.way4 then [o.a, o.b, o.c] else [o.a, o.b])
       (eachOf fun k => BitVec.ofNat 32 (all.getD k 0)) 0
       ([.a 12 (len 0), .a 13 (len 1)] ++ if m.way4 then [.a 14 (len 2), .a 15 (len 3)] else []))

/-- R423 to R431: VLD reads a span of lines, VGATH an element for each index (0x8000_0000 names none and gives +0), and VLDP the
panes that hold 1,024 tensor elements, each pane checked whole. The elements land 14 schedule cycles after the issue, or 20 for
VGATH. `vLocs` is the address check in order, and `vReads` the accesses with their check by bank and their messages (R452).
R362, R412, R425, R427, R431: the first address in order that fails its check raises its cause with that address in TDETAIL; a misaligned
BASE of VLDP
ALIGNMENT, or SCRATCH_RANGE in the window of a core that is none (R132), and a pane that fails its check PANE_FAULT (0x06) with its code. -/
def Obligations.VectorLoadsReadMemory : Prop :=
  (∀ (s t : State) (h : Hdr) (m : ModVM) (q : ModVQ) (o : MemOp) (j : Job) (ls : List (Nat × Loc)) (bs : List (List Byte))
    (lost : Option Dword) (ws : List Write) (g : FlagSet),
    let b := s.begins (some h)
    let loads (i : Instr) (lat : Nat) (srcs : List Spec) (n : Nat) (share : Share) (at_ : List Nat) (r : VReg)
        (f : FlagSet) : Prop :=
      s.cur.2 = .V → s.Runs i h → s.slotBusy 3 = false → b.VReady o.d srcs → (b.core s.cur.1).job = some j →
      b.vLocs j .read n at_ = .ok ls → b.vReads j n share none ls = .ok t bs lost → t.vDest o.d 3 r = some (ws, g) →
      exec i s = .next (s.flying (t.vTakes srcs 3) i (some h) lat ws (t.vFlags srcs f ||| g) (vLost t i h lost))
    let span : List Nat := (List.range (2 * tyBits m.ty)).map fun k =>
      (wrapNat 64 ((s.me.vscalar o.base).toNat + 64 * o.disp.toInt) + 64 * k) % 2 ^ 64
    let raw := loadRun m.ty (codesOf (tyBits m.ty) bs.flatten)
    let ps := scatterPlaces (s.me.vscalar o.base) o.disp (tyBits m.ty) ((b.core s.cur.1).vread false o.aux)
    let base := s.me.vscalar o.base
    let first := (s.me.vscalar o.aux).toNat
    let panes := panesOf q.wc first 1024
    let els := paneElements q.wc (panes.headD 0) (joinPanes panes.length bs) first 1024
    loads (.vld h m o) 14 [] 64 .lines span (VReg.ofList raw.1) raw.2 ∧
    loads (.vgath h m o) 20 [o.aux] (max 1 (tyBits m.ty / 8)) .lines (ps.filterMap fun p => p.map (·.1))
      (VReg.ofList (gathered m.ty ps bs)) 0 ∧
    (alignFault base.toNat 64 = none → firstFault q.wc (joinPanes panes.length bs) = none →
      loads (.vldp h q o) 14 [] 64 (.panes base.toNat) (paneLines base.toNat panes) (VReg.ofList els.1) els.2)) ∧
  (∀ (s t : State) (h : Hdr) (m : ModVM) (q : ModVQ) (o : MemOp) (j : Job) (c : Byte) (a : Nat) (ls : List (Nat × Loc))
    (bs : List (List Byte)) (code : Half),
    let traps (i : Instr) (srcs : List Spec) (c : Byte) (d : Dword) (t : State) : Prop :=
      s.cur.2 = .V → s.Runs i h → h.wait = 0 → s.me.mayTrap → s.slotBusy 3 = false → s.VReady o.d srcs → (s.core s.cur.1).job = some j →
      exec i s = .next (t.modEng s.cur.1 .V (·.trapped (instrWords i) c d))
    let span : List Nat := (List.range (2 * tyBits m.ty)).map fun k =>
      (wrapNat 64 ((s.me.vscalar o.base).toNat + 64 * o.disp.toInt) + 64 * k) % 2 ^ 64
    let ps := scatterPlaces (s.me.vscalar o.base) o.disp (tyBits m.ty) ((s.core s.cur.1).vread false o.aux)
    let base := s.me.vscalar o.base
    let panes := panesOf q.wc (s.me.vscalar o.aux).toNat 1024
    (s.vLocs j .read 64 span = .error (c, a) → traps (.vld h m o) [] c (BitVec.ofNat 64 a) s) ∧
    (s.vLocs j .read (max 1 (tyBits m.ty / 8)) (ps.filterMap fun p => p.map (·.1)) = .error (c, a) →
      traps (.vgath h m o) [o.aux] c (BitVec.ofNat 64 a) s) ∧
    (alignFault base.toNat 64 = some c → traps (.vldp h q o) [] c base s) ∧
    (alignFault base.toNat 64 = none →
      (s.vLocs j .read 64 (paneLines base.toNat panes) = .error (c, a) → traps (.vldp h q o) [] c (BitVec.ofNat 64 a) s) ∧
      (s.vLocs j .read 64 (paneLines base.toNat panes) = .ok ls → s.vReads j 64 (.panes base.toNat) none ls = .ok t bs none →
        firstFault q.wc (joinPanes panes.length bs) = some code → traps (.vldp h q o) [] 0x06 (code.setWidth 64) t)))

/-- R423 to R431, R454: VST writes a span of lines, VSCAT an element for each index in ascending position, and VSTP the panes of
1,024 tensor elements, each read, checked and merged with its other blocks, under a fresh check value. Registers are read when the
instruction issues;
flags and pushes come at its latency. `vWrites` and `scatter` perform the writes at the places that were checked.
R362, R425, R427, R431: the first address in order that fails its check raises its cause with that address in TDETAIL, and nothing is
written. -/
def Obligations.VectorStoresWriteMemory : Prop :=
  (∀ (s t t' : State) (h : Hdr) (m : ModVM) (o : MemOp) (j : Job) (ls : List (Nat × Loc)) (q : ModVQ) (d base aux : Spec)
    (ben : Bool) (bidx : BitVec 6) (scale fmt : Byte) (bs : List (List Byte)),
    let b := s.begins (some h)
    let ready (i : Instr) (srcs : List Spec) : Prop :=
      s.cur.2 = .V ∧ s.Runs i h ∧ s.slotBusy 3 = false ∧ b.VReady .none srcs ∧ (b.core s.cur.1).job = some j
    let done (i : Instr) (lat : Nat) (srcs : List Spec) (f : FlagSet) : Prop :=
      exec i s = .next (s.flying (t.vTakes srcs 3) i (some h) lat [] (t.vFlags srcs f) none)
    let x (d : Spec) : List Word := (List.range 1024).map ((b.core s.cur.1).vread false d).at_
    let w := tyBits m.ty
    let run := storeRun m.ty m.rnd m.sat (x o.d)
    let cs := scatterCodes m.ty m.rnd m.sat
      (scatterPlaces (s.me.vscalar o.base) o.disp w ((b.core s.cur.1).vread false o.aux)) (x o.d)
    let ba := s.me.vscalar base
    let first := (s.me.vscalar aux).toNat
    let ps := panesOf q.wc first 1024
    let entry := if ben then b.boundEntry s.cur.1 bidx.toNat else none
    let out := (x d).any fun v => match entry with | some e => e.out v | none => false
    let ys := (x d).map fun v => match entry with | some e => e.apply v | none => v
    let els := encodeEls fmt q.rnd q.sat
      (((List.range 1024).zip ys).map fun y => (first + y.1, unscaled scale (fv32 y.2)))
    let panes := joinPanes ps.length bs
    let merged := (ps.zip panes).map fun p => mergePane q.wc fmt scale (elsOfPane q.wc p.1 els.1) p.2
    (ready (.vst h m o) [o.d] → b.vLocs j .write 64 (vSpan b o m.ty) = .ok ls →
      b.vWrites j .lines none (ls.zip (chunks 64 (tyLines m.ty) (bytesOf w run.1))) = some t →
      done (.vst h m o) 14 [o.d] run.2) ∧
    (ready (.vscat h m o) [o.d, o.aux] → b.vLocs j .write (elBytes w) (cs.1.map (·.1)) = .ok ls →
      b.scatter j w none (ls.zip (cs.1.map (·.2))) = some t → done (.vscat h m o) 20 [o.d, o.aux] cs.2) ∧
    (let i := Instr.vstp h q d base aux ben bidx scale fmt
     ready i [d] → (ben = true → ∃ e, entry = some e ∧ (out = true → e.action ≠ 2)) → alignFault ba.toNat 64 = none →
      first % epb q.wc = 0 → b.vLocs j .both 64 (paneLines ba.toNat ps) = .ok ls →
      b.vReads j 64 (.panes ba.toNat) none ls = .ok t' bs none → firstFault q.wc panes = none →
      t'.vWrites j (.panes ba.toNat) none (ls.zip (merged.flatMap (chunks 64 31))) = some t →
      done i 14 [d] (els.2 ||| if out then fBOUND else 0))) ∧
  (∀ (s : State) (h : Hdr) (m : ModVM) (o : MemOp) (j : Job) (q : ModVQ) (d base aux : Spec) (ben : Bool) (bidx : BitVec 6)
    (scale fmt : Byte) (c : Byte) (a : Nat),
    let traps (i : Instr) (srcs : List Spec) (c : Byte) (d : Dword) : Prop :=
      s.cur.2 = .V → s.Runs i h → h.wait = 0 → s.me.mayTrap → s.slotBusy 3 = false → s.VReady .none srcs →
      (s.core s.cur.1).job = some j → exec i s = .next (s.setEng s.cur.1 .V (s.me.trapped (instrWords i) c d))
    let x : List Word := (List.range 1024).map ((s.core s.cur.1).vread false o.d).at_
    let cs := scatterCodes m.ty m.rnd m.sat
      (scatterPlaces (s.me.vscalar o.base) o.disp (tyBits m.ty) ((s.core s.cur.1).vread false o.aux)) x
    let ba := s.me.vscalar base
    let first := s.me.vscalar aux
    let i := Instr.vstp h q d base aux ben bidx scale fmt
    (s.vLocs j .write 64 (vSpan s o m.ty) = .error (c, a) → traps (.vst h m o) [o.d] c (BitVec.ofNat 64 a)) ∧
    (s.vLocs j .write (elBytes (tyBits m.ty)) (cs.1.map (·.1)) = .error (c, a) →
      traps (.vscat h m o) [o.d, o.aux] c (BitVec.ofNat 64 a)) ∧
    (alignFault ba.toNat 64 = some c → traps i [d] c ba) ∧
    (alignFault ba.toNat 64 = none → first.toNat % epb q.wc ≠ 0 → traps i [d] 0x03 first) ∧
    (alignFault ba.toNat 64 = none → first.toNat % epb q.wc = 0 →
      s.vLocs j .both 64 (paneLines ba.toNat (panesOf q.wc first.toNat 1024)) = .error (c, a) → traps i [d] c (BitVec.ofNat 64 a)))

/-- R124, R432: VLEND lends a bank of the main file, or takes it back, at its issue, and does nothing where the bank stands so
already. A bank that a result in flight or an open chain holds raises LEND_HAZARD with the pc as TDETAIL.
R125, R412: a V instruction that names a register of a lent bank in any field raises BANK_LENT (0x24) with the pc as TDETAIL. -/
def Obligations.BanksAreLentAndReturned : Prop :=
  (∀ (s : State) (h : Hdr) (ret : Bool) (bank : BitVec 2),
    let i := Instr.vlend h ret bank
    let b := s.begins (some h)
    let c := b.core s.cur.1
    let bit : BitVec 4 := 1#4 <<< bank.toNat
    let done (c' : Core) : Prop :=
      exec i s = .next (((b.setCore s.cur.1 c').modEng s.cur.1 .V (·.passed (instrWords i))).push
        s.cur.1 .V h.sig)
    s.cur.2 = .V → s.Runs i h →
    (ret = true → c.lent.getLsbD bank.toNat = true → c.chainIn bank = false → done (c.setLent b.time (c.lent &&& ~~~bit))) ∧
    (ret = false → c.lent.getLsbD bank.toNat = false → c.bankPending bank = false → done (c.setLent b.time (c.lent ||| bit))) ∧
    (ret = !c.lent.getLsbD bank.toNat → done c) ∧
    (h.wait = 0 → s.me.mayTrap →
      (ret = true ∧ c.lent.getLsbD bank.toNat = true ∧ c.chainIn bank = true) ∨
        (ret = false ∧ c.lent.getLsbD bank.toNat = false ∧ c.bankPending bank = true) →
      exec i s = .next (s.setEng s.cur.1 .V (s.me.trapped (instrWords i) 0x25 s.me.pc)))) ∧
  (∀ (s : State) (h : Hdr) (va : ModVA) (vc : ModVC) (vx : ModVX) (vp : ModVP) (vm : ModVM) (vq : ModVQ) (o : R4) (x : MemOp)
     (d base aux : Spec) (ben : Bool) (bidx : BitVec 6) (scale fmt : Byte),
    let c := s.core s.cur.1
    let lent (i : Instr) (slot : BitVec 2) (fields : List Spec) : Prop :=
      s.cur.2 = .V → s.Runs i h → h.wait = 0 → s.me.mayTrap → s.slotBusy slot = false →
      (∃ r, .v r ∈ fields ∧ c.lent.getLsbD ((physReg c.eV.rrb r).toNat / 16) = true) →
      exec i s = .next (s.setEng s.cur.1 .V (s.me.trapped (instrWords i) 0x24 s.me.pc))
    lent (.vadd h va o) (if va.slotB then 1 else 0) [o.dst, o.a, o.b] ∧
    lent (.vfma h va o) (if va.slotB then 1 else 0) [o.dst, o.a, o.b, o.c] ∧
    lent (.vmovs h va o) (if va.slotB then 1 else 0) [o.dst, o.a] ∧
    lent (.vcmp h vc o) (if vc.slotB then 1 else 0) [o.dst, o.a, o.b] ∧ lent (.vtrn h vx o) 3 [o.dst, o.a] ∧
    lent (.part h vp o) 3 ([o.dst, o.a, o.b] ++ if vp.way4 then [o.c] else []) ∧
    lent (.vld h vm x) 3 [x.d] ∧ lent (.vst h vm x) 3 [x.d] ∧ lent (.vgath h vm x) 3 [x.d, x.aux] ∧
    lent (.vscat h vm x) 3 [x.d, x.aux] ∧ lent (.vldp h vq x) 3 [x.d] ∧
    lent (.vstp h vq d base aux ben bidx scale fmt) 3 [d])

/-! The M engine. -/

/-- R70 to R72, R329, R402, R403: ALEASE under the lease, TSCLAIM and TSREL are performed at their issue and push their tokens.
A claim makes a free slot EMPTY for its core and world, within the tile slots the job may hold; a release makes it free again.
Without the lease ALEASE asks for it and freezes.
R376, R378, R403: TSREL, MLOADB and MMA of a slot that the core has not claimed raise SLOT_UNCLAIMED (0x27) with the pc as TDETAIL. -/
def Obligations.LeaseAndSlotClaimsAreMadeAtIssue : Prop :=
  ∀ (s : State) (h : Hdr) (n : BitVec 7) (j : Job),
    let u := s.cur.1
    let b := s.begins (some h)
    let t := b.tile u n
    let done (i : Instr) (r : State) : Prop := exec i s = .next (s.issued (r.push u .M h.sig) i)
    let ready (i : Instr) : Prop := s.cur.2 = .M ∧ s.Runs i h
    (ready (.alease h) → b.holdsLease u = true → done (.alease h) b) ∧
    (ready (.alease h) → b.holdsLease u = false →
      exec (.alease h) s = .next ((b.askLease u).modEng u .M fun g => { g with frozen := some .lease })) ∧
    (ready (.tsclaim h n) → (b.core u).job = some j → t.hdr.fill = .free → b.claimCount u < j.tsNeed →
      done (.tsclaim h n) (b.setTile u n
        { TileSlot.reset with hdr := { TileHdr.reset with fill := .empty, owner := localOf u, world := j.world } })) ∧
    (ready (.tsclaim h n) → (b.core u).job = some j → t.hdr.fill ≠ .free → b.claims u n = true → done (.tsclaim h n) b) ∧
    (ready (.tsrel h n) → b.claims u n = true → (b.core u).mq.any (fun c => c.op.names n) = false → t.issued ≤ t.done →
      done (.tsrel h n) (b.setTile u n TileSlot.reset)) ∧
    (∀ (acc : BitVec 6) (rows : BitVec 2) (kch : BitVec 6) (g : Nat),
      let c := s.core u
      let unclaimed (i : Instr) : Prop := ready i → h.wait = 0 → s.me.mayTrap → c.mpop = [] → s.claims u n = false →
        exec i s = .next (s.setEng u .M (s.me.trapped (instrWords i) 0x27 s.me.pc))
      unclaimed (.tsrel h n) ∧ unclaimed (.mloadb h (.slot n)) ∧
      (c.chain.isOpen = true → groupRow (isCCore u) c.chain.vbase acc = some g → g + rowCount rows ≤ c.chain.rows →
        c.isLent s.time acc = true → c.chain.count < (s.readSr u .M 0x021).toNat → unclaimed (.mma h acc (.slot n) rows kch)))

/-- R330, R365, R366, R370 to R372, R376, R378, R383: AREL, MCFG, MBEGIN, MLOADB, MMA and MRET enter the M queue, in issue order.
MBEGIN opens the chain, MMA counts in it, MRET makes it wait for its retirement, and MLOADB and MMA count toward the lease. The
sources of this statement are tile slots; stream sources have one of their own. -/
def Obligations.MatrixCommandsEnterTheQueue : Prop :=
  ∀ (s : State) (h : Hdr) (item : McfgItem) (v : Spec) (iacc : Bool) (acc : BitVec 6) (rows : BitVec 2) (n : BitVec 7)
    (src : TSrc) (kch : BitVec 6) (g : Nat),
    let u := s.cur.1
    let b := s.begins (some h)
    let c := b.core u
    let x := (s.me.scalar v).toNat
    let queued (i : Instr) (t : State) (op : MOp) : Prop :=
      s.cur.2 = .M → s.Runs i h → b.mqRoom u = true → exec i s = .next (s.issued (t.queuesM op h.sig) i)
    let edge := if isCCore u then 256 else 64
    let legal : Prop := match item with
      | .ncol => 1 ≤ x ∧ x ≤ edge
      | .arowbase | .kbase => x ≤ 4 * edge - 16 ∧ x % 16 = 0
      | .atrans | .btrans => x ≤ 1
      | .swz => x ≤ 2
    let held := b.holdsLease u = true
    let slot := src = .slot n ∧ b.claims u n = true ∧ held ∧ b.leaseSpent u = false
    let counted (note : Core → Core) : State := (b.countLease u).modCore u note
    let tile := (b.tile u n).seen b.time
    let r := rowCount rows
    queued (.arel h) b .arel ∧ (legal → queued (.mcfg h item v) b (.mcfg item x)) ∧
    (c.chain.state = .none → c.isLent b.time acc = true → held → b.leaseSpent u = false → queued (.mbegin h iacc acc rows)
      (b.modCore u fun c => { c with chain := { Chain.none with state := .open, vbase := acc, rows := r, iacc := iacc } }) .mbegin) ∧
    (slot → queued (.mloadb h src) (counted id) (.mloadb (.slot n tile.fillsSeen) false)) ∧
    (slot → c.chain.isOpen = true → groupRow (isCCore u) c.chain.vbase acc = some g → g + r ≤ c.chain.rows →
      c.isLent b.time acc = true → c.chain.count < (s.readSr u .M 0x021).toNat →
      (tile.hdr.enc = false ∨ tile.filling = true) →
      queued (.mma h acc src rows kch) (counted fun c => { c with chain := { c.chain with count := c.chain.count + 1 } })
        (.mma g r (16 * (kch.toNat + 1)) (.slot n tile.fillsSeen))) ∧
    (c.chain.isOpen = true → c.chain.vbase = acc →
      queued (.mret h acc) (b.modCore u fun c => { c with chain := { c.chain with state := .retiring } }) .mret)

/-- R365, R376, R378: MLOADB and MMA of a stream pop one register in each schedule cycle. Until the last pop the issue is held; with
it the command enters the M queue with all that was popped. -/
def Obligations.StreamSourcesArePoppedOneACycle : Prop :=
  ∀ (s : State) (h : Hdr) (q : BitVec 3) (acc : BitVec 6) (rows : BitVec 2) (kch : BitVec 6) (g : Nat) (t : Stream) (x : StreamBuf)
    (rest : List StreamBuf),
    let u := s.cur.1
    let b := s.begins (some h)
    let c := b.core u
    let cls := fmtClass t.desc.fmt
    let edge := if isCCore u then 256 else 64
    let r := rowCount rows
    let k := 16 * (kch.toNat + 1)
    let each (i : Instr) (pieces : Nat) (mk : MSrc → MOp) (note : Core → Core) : Prop :=
      let n := if t.desc.rowMode then pieces else pieces / 16
      let popped := c.mpop ++ [(q, x)]
      let taken := b.modCore u fun c => { c.setStream q { t with buf := rest } with mpop := popped }
      s.cur.2 = .M → s.Runs i h → b.mqRoom u = true → b.holdsLease u = true → b.leaseSpent u = false →
      c.streams[q.toNat] = some t → t.desc.engM = true → t.desc.drain = false → t.buf = x :: rest →
      (∀ e d f, x.item ≠ .fault e d f) →
      (popped.length < n → exec i s = .next (taken.modEng u .M fun g =>
        { g with scycle := g.scycle + 1, latch := { pOld := g.p, lcOld := g.lc, pMask := 0, lcMask := 0 } })) ∧
      (n ≤ popped.length → exec i s = .next (s.issued
        ((((taken.modCore u fun c => { c with mpop := [] }).countLease u).modCore u note).queuesM
          (mk (streamSource cls (popped.map (·.2.item)))) h.sig) i))
    each (.mloadb h (.stream q)) (edge * (slotRow edge cls / 64)) (.mloadb · false) id ∧
    (c.chain.isOpen = true → groupRow (isCCore u) c.chain.vbase acc = some g → g + r ≤ c.chain.rows → c.isLent b.time acc = true →
      c.chain.count < (s.readSr u .M 0x021).toNat →
      each (.mma h acc (.stream q) rows kch) (r * ((k + 63) / 64)) (.mma g r k)
        fun c => { c with chain := { c.chain with count := c.chain.count + 1 } })

/-- R365, R366, R372, R376, R379: the command at the head of the M queue leaves it, has its effect, and pushes its tokens: MCFG sets
its item, MBEGIN takes the group's registers as working values, MLOADB loads the stationary registers and keeps the old ones for a
chain that still reads them, MMA accumulates into the working values with its flags, AREL ends the lease, or waits for the end of a chain (R330).
An MLOADB that need not wait is performed ahead of the commands before it (R376) and leaves its chain's flags at its place.
R369, R377: an MLOADB or MMA that fails in a chain makes the chain fail with its code, and the commands behind it there have no effect; an MLOADB
that fails outside one poisons the registers and writes its completion word. Outside a chain the flags of an MLOADB go to STICKY when it is
performed, the model's choice (log 72).
R366, R383: MRET at the head of the queue writes the group's registers with the chain's values and its flags to STICKY, unless
the chain has failed; its completion word tells the number of MMAs, or the failure; the chain ends, its tokens are pushed, and a core
that is asked to stop stops at this boundary (`chainBoundary`, R77). `loadWaits` and `tryCw` speak of a completion word that waits for
its place in a replayed order (R307), `readFor` of the check of the words read (R261). -/
def Obligations.MatrixCommandsArePerformedAndRetired : Prop :=
  (∀ (s : State) (k : CoreId) (rest : List MCmd) (sig : BitVec 3) (stamp : Stamp) (item : McfgItem) (v g r n : Nat) (m : MSrc)
     (d : Nat) (rows : List (List Elem)) (f : FlagSet) (a : List (List Elem)) (j : Job) (quiet : Bool) (code : Half) (sc : BitVec 3)
     (x : MCmd) (slot : BitVec 7),
     let u := unitOf k
     let i := Instr.mCommandPerformed k
     let c := s.core u
     let ch := c.chain
     let left := s.modCore u fun c => { c with mq := rest }
     let ready (ahead : List MCmd) (op : MOp) : Prop :=
       c.halted = false ∧ c.job = some j ∧ s.mBegins u ahead op = true ∧ s.loadWaits u ahead op = false ∧ s.readFor u op = .ok s
     let heads (op : MOp) : Prop := ready [] op ∧ c.mq = { op := op, sig := sig, stamp := stamp } :: rest
     let performs (op : MOp) (t : State) : Prop :=
       heads op → left.arelWaits u op = false → (t.eng u .M).deferred = none → exec i s = .next ((t.push u .M sig).leaseCheck u)
     let put (s : State) (rows : List (List Elem)) (d : Nat) : State :=
       s.modCore u fun c => { c with statOld := c.stat, stat := { depth := d, rows := rows, poison := none } }
     performs (.mcfg item v) (left.modCore u fun c => { c with mcfg := c.mcfg.put item v }) ∧
     performs .mbegin (left.modCore u fun c =>
       { c with chain := { c.chain with work := (c.chain.groupRegs (isCCore u)).map fun n => c.vmain[n] } }) ∧
     performs .off left ∧ performs .token left ∧ performs (.fence sc) left ∧
     performs (.loaded f) (left.modCore u fun c => { c with chain := { c.chain with flags := c.chain.flags ||| f } }) ∧
     (ch.fail = none → performs (.loadFailed code) (left.modCore u fun c => { c with chain := c.chain.fails code })) ∧
     (ch.state = .none → performs .arel (if isCCore u && s.holdsLease u then left.endLease u else left)) ∧
     (ch.state ≠ .none → isCCore u = true → s.holdsLease u = true → heads .arel → (s.eng u .M).deferred = none →
       exec i s = .next (left.modCore u fun c => { c with arels := c.arels ++ [sig] })) ∧
     (ch.running = false →
       (left.loadRows u c.mcfg m = (.ok (d, rows, f), left) → performs (.mloadb m quiet)
         (if quiet then put left rows d else (put left rows d).modEng u .M fun g => { g with sticky := g.sticky ||| f })) ∧
       (left.loadRows u c.mcfg m = (.error code, left) → performs (.mloadb m false)
         ((left.modCore u fun c => { c with
           statOld := c.stat, stat := { Stationary.reset (edge (isCCore u)) with poison := some code } }).writeCw u j .M stamp.tie 0xFFFF
             (cword 4 0 code)))) ∧
     (ch.running = true → ch.fail = none →
       (left.loadRows u c.mcfg m = (.ok (d, rows, f), left) → performs (.mloadb m quiet) ((put left rows d).modCore u fun c =>
         { c with chain := { c.chain with flags := c.chain.flags ||| f } })) ∧
       (left.loadRows u c.mcfg m = (.error code, left) →
         performs (.mloadb m quiet) (left.modCore u fun c => { c with chain := c.chain.fails code })) ∧
       (left.mmaRows u r n m = .error code → performs (.mma g r n m) (left.modCore u fun c => { c with chain := c.chain.fails code })) ∧
       (left.mmaRows u r n m = .ok (a, f) →
         let ops : MmaOps :=
           { iacc := ch.iacc, first := g, a := a.map fun x => x.map Elem.value,
             b := (List.range c.mcfg.ncol).map fun j => (left.core u).statFor.column j c.mcfg.kbase n, chunks := n / 16 }
         let res := ops.run (edge (isCCore u) / 64) 0 ch.work
         performs (.mma g r n m) (left.modCore u fun c =>
           { c with chain := { c.chain with work := res.1, done := c.chain.done + 1, flags := c.chain.flags ||| f ||| res.2 } }))) ∧
     (ch.running = true → ch.fail.isSome = true → performs (.mloadb m quiet) left ∧ performs (.mma g r n m) left) ∧
     ((s.tile u slot).hdr.fill = .faulted → s.mmaRows u r n (.slot slot v) = .error (s.tile u slot).hdr.err ∧
       s.loadRows u c.mcfg (.slot slot v) = (.error (s.tile u slot).hdr.err, s)) ∧
     (s.mmaRows u r n (.stream a 3 f none) = .error 0x0104 ∧ s.loadRows u c.mcfg (.stream a 3 f none) = (.error 0x0104, s)) ∧
     (c.mq = x :: { op := .mloadb m quiet, sig := sig, stamp := stamp } :: rest → x.op = .mret ∨ s.mBegins u [] x.op = false →
       ready [x] (.mloadb m quiet) → insideChain ch.running [x] = true → ch.fail = none →
       s.loadRows u (c.mcfg.after [x]) m = (.ok (d, rows, f), s) → (s.eng u .M).deferred = none →
       exec i s = .next ((((put s rows d).modCore u fun c =>
         { c with mq := [x] ++ { op := .loaded f, sig := 0, stamp := stamp } :: rest }).push u .M sig).leaseCheck u))) ∧
  (∀ (s : State) (k : CoreId) (rest : List MCmd) (sig : BitVec 3) (stamp : Stamp) (j : Job) (code : Half) (n : Nat),
     let u := unitOf k
     let c := s.core u
     let ends (s : State) : State := (s.modCore u fun c => { c with mq := rest, chain := Chain.none }).push u .M sig
     let gives (t : State) (word : Dword) : Prop :=
       (t.tryCw u j .M stamp.tie 0xFFFF word).isSome = true → exec (.mretRetire k) s = .next
         ((((ends (t.writeCw u j .M stamp.tie 0xFFFF word)).chainEnds u).chainBoundary k).abortAgain u .M)
     c.mq = { op := .mret, sig := sig, stamp := stamp } :: rest → c.job = some j → c.halted = false →
     (c.chain.fail = none → gives
         (let c' := c.writeGroup (c.chain.groupRegs (isCCore u)) c.chain.work
          (s.mendGroup u (c.chain.groupRegs (isCCore u))).setCore u
            { c' with eM := { c'.eM with sticky := c'.eM.sticky ||| c.chain.flags } }) (cword 4 c.chain.count 0)) ∧
     (c.chain.fail = some (code, n) → gives s (cword 4 n code)))

/-! The C engine. -/

/-- R320, R339, R343, R345, R347: CPY, CPYP, CPYR, CDEC, CENC and CBW enter their queue with the values of their operands; nothing
else changes. They are performed when they reach its head.
R190, R192, R404, R434: TSFILL marks its slot as filling, for what issues in a later cycle, and enters its queue, or raises
SLOT_UNCLAIMED (0x27) with
the pc as TDETAIL where the slot is not claimed; XSEND, XRECV and XFREE enter theirs once the
entry of their channel allows them. -/
def Obligations.CopyFillAndExchangeCommandsEnterTheirQueue : Prop :=
  (∀ (s : State) (h : Hdr) (q : BitVec 2) (m : ModCP) (o : K3) (vonly : Bool),
     let b := s.begins (some h)
     let queued (i : Instr) (q : BitVec 2) (op : COp) : Prop :=
       s.cur.2 = .C → s.Runs i h → b.cqRoom s.cur.1 q.toNat = true →
       exec i s = .next (s.issued (b.queuesC q op (s.me.scalar o.adr) (s.me.scalar o.aux) o.cwi h.sig) i)
     queued (.cpy h q o) q .cpy ∧ queued (.cpyp h m o) m.queue (.cpyp m) ∧ queued (.cpyr h q o) q .cpyr ∧
     queued (.cdec h q vonly o) q (.cdec vonly) ∧ queued (.cenc h q o) q .cenc ∧ queued (.cbw h q o) q .cbw) ∧
  (∀ (s : State) (h : Hdr) (q : BitVec 2) (swz : Swz) (m : ModCX) (o : K3) (j : Job) (k : CoreId) (e : XchEntry),
     let u := s.cur.1
     let b := s.begins (some h)
     let adr := s.me.scalar o.adr
     let aux := s.me.scalar o.aux
     let n : BitVec 7 := BitVec.ofNat 7 aux.toNat
     let t := b.tile u n
     let d := b.xdir j.ctx (exchIndex u m.ch m.dir)
     let ready (i : Instr) (q : BitVec 2) : Prop := s.cur.2 = .C ∧ s.Runs i h ∧ b.cqRoom u q.toNat = true
     let queued (i : Instr) (recv : Bool) (op : COp) : Prop :=
       ready i m.queue → (b.core u).job = some j → coreOf u = some k → b.xchEntry u j m.ch m.dir recv = some e →
       exec i s = .next (s.issued (b.queuesC m.queue op adr aux o.cwi h.sig) i)
     (ready (.tsfill h q swz o) q → aux.toNat < slotCount (isCCore u) → b.claims u n = true →
       exec (.tsfill h q swz o) s = .next (s.issued ((b.setTile u n { t with issued := t.issued + 1, issuedAt := b.time, dropped := false }).queuesC
         q (.tsfill n swz (t.issued + 1)) adr 0 o.cwi h.sig) (.tsfill h q swz o))) ∧
     (s.cur.2 = .C → s.Runs (.tsfill h q swz o) h → h.wait = 0 → s.me.mayTrap → aux.toNat < slotCount (isCCore u) → s.claims u n = false →
       exec (.tsfill h q swz o) s = .next (s.setEng u .C (s.me.trapped (instrWords (.tsfill h q swz o)) 0x27 s.me.pc))) ∧
     (aux ≠ 0 → aux.toNat % 64 = 0 → aux.toNat ≤ 4096 * e.size → queued (.xsend h m o) false (.xsend m.ch m.dir)) ∧
     (recvCore (exchIndex u m.ch m.dir) e = k → (d.attached = some k ∨ e.outside k j = none) →
       d.held k + (b.core u).recvsOut m.ch m.dir < 2 → queued (.xrecv h m o) true (.xrecv m.ch m.dir)) ∧
     (0 < d.held k + (b.core u).recvsOut m.ch m.dir → queued (.xfree h m o) true (.xfree m.ch m.dir)))

/-- R142, R397, R399: SBIND, its queue empty and its descriptor sound, binds the stream register and writes its completion word;
SUNBIND frees the register and enters its queue, with the pushes of a drain stream still to write; it first waits for the pushes issued in
its own cycle or earlier. A push issued later finds the register unbound and is dropped, the model's choice (log 42). -/
def Obligations.StreamsAreBoundAndUnbound : Prop :=
  ∀ (s t : State) (h : Hdr) (q : BitVec 2) (o : K3) (j : Job) (ls : List Loc) (bs : List (Option Byte)) (x : Stream),
    let u := s.cur.1
    let b := s.begins (some h)
    let n := K3.stream o
    let adr := s.me.scalar o.adr
    let bind := Instr.sbind h q o
    let free := Instr.sunbind h q o
    let bound := t.modCore u fun c => c.setStream n x
    let since : Nat := match s.me.frozen with | some (.unbind _ at_) => at_ | _ => (s.core u).eV.scycle
    let waits := x.desc.drain && (b.core u).pushesBefore n since
    (s.cur.2 = .C → s.Runs bind h → (b.core u).job = some j → ((b.core u).cq[q.toNat]).isEmpty = true →
      ((b.core u).streams[n.toNat]).isNone = true → alignFault adr.toNat 64 = none → b.cmdLocs u j .read adr.toNat 64 = .ok ls →
      b.readAt u .C j adr.toNat (runsOf adr.toNat ls) = .ok t bs false →
      t.bindCheck u j (wordAt (encode bind) 0) (knownBytes bs) = .ok x →
      ∀ t' : State, bound.tryCw u j .C (bound.tieOf u) o.cwi (cword q.toNat 0 0) = some t' →
      (t'.eng u .C).deferred = none → exec bind s = .next (s.issued (t'.push u .C h.sig) bind)) ∧
    (s.cur.2 = .C → s.Runs free h → b.cqRoom u q.toNat = true → (b.core u).streams[n.toNat] = some x →
      (waits = false → exec free s = .next (s.issued ((b.modCore u fun c => (c.dropPushes n).clearStream n).queuesC q
        (.sunbind (if x.desc.drain then some x else none)) 0 0 o.cwi h.sig) free)) ∧
      (waits = true → exec free s = .next (b.modEng u .C fun g => { g with frozen := some (.unbind n since) })))

/-- R157, R247, R248, R320, R407: at the head of a C queue a guarded-off command pushes its tokens, a TSIG marker its own with the
last of its copies, a FENCE marker leaves every queue it heads once it heads all it is in, and any other command, performed with a
code and PROGRESS, writes its completion word and pushes its tokens. -/
def Obligations.CopyCommandsArePerformedInOrder : Prop :=
  ∀ (s t : State) (k : CoreId) (q : BitVec 2) (cmd : CCmd) (rest : List CCmd) (j : Job) (code : Half) (n : Nat),
    let u := unitOf k
    let c := s.core u
    let left : Core := { c with cq := c.cq.set q.toNat rest }
    let i := Instr.cCommandPerformed k q
    c.cq[q.toNat] = cmd :: rest → c.job = some j → c.ending = none → c.halted = false →
    (cmd.op = .off → exec i s = .next (s.setCore u (left.push .C cmd.sig))) ∧
    (∀ id, cmd.op = .token id → (∀ x : Fin 4, hasMarker cmd.op left.cq[x] = false) →
      exec i s = .next (s.setCore u (left.push .C cmd.sig))) ∧
    (∀ id sc, cmd.op = .fence id sc → exec i s = .next (s.setCore u (c.takeFence cmd.op s.writes))) ∧
    ((∀ id, cmd.op ≠ .token id) → (∀ id sc, cmd.op ≠ .fence id sc) → cmd.op ≠ .off →
      runCommand s u j q cmd = .done t code n → (t.core u).job = some j →
      (t.tryCw u j .C cmd.stamp.tie cmd.cwi (cword q.toNat n code)).isSome = true →
      let done := t.writeCw u j .C cmd.stamp.tie cmd.cwi (cword q.toNat n code)
      exec i s = .next (((done.modCore u fun c => (c.retireC q done.writes).push .C cmd.sig).endAbort u).abortAgain u .C))

/-- R144, R169, R191, R412: a read stream with room fetches the rows of its next pop, a drain stream writes its oldest push, and a
permit reaches the sending die of an attached direction while a path between the dies is up. -/
def Obligations.StreamRowsAndPermitsMove : Prop :=
  ∀ (s t : State) (k : CoreId) (q : BitVec 3) (j : Job) (x : Stream) (rs : List RowData) (b : StreamBuf) (rest : List StreamBuf)
    (n : Nat) (c : CtxId) (e : Fin 64),
    let u := unitOf k
    let i := Instr.streamRowTransfer k q
    let words := if x.desc.engM then VReg.zero else VReg.ofList (rs.flatMap (·.words))
    let codes := if x.desc.engM then rs.map (·.codes) else []
    let fetched : StreamItem := .rows words codes (rs.foldl (fun f r => f ||| r.flags) 0)
    let d := s.xdir c e.val
    ((s.core u).job = some j → (s.core u).streams[q.toNat] = some x → (s.core u).health = .live → (s.core u).ending = none →
      (s.core u).dbgStopped = false →
      (x.desc.drain = false → (s.core u).halted = false → x.buf.length < 4 → x.pos < x.desc.total → x.buf.all (·.item.isRows) = true →
        fetchRows u j x.desc s x.pos x.desc.rowsEach = .ok t rs →
        exec i s = .next (t.modCore u fun c => c.setStream q { x with
          buf := x.buf ++ [{ pos := x.pos, item := fetched, stamp := .zero }], pos := x.pos + x.desc.rowsEach })) ∧
      (x.desc.drain = true → x.buf = b :: rest → x.fault = none → x.rewrite = false → drainPush u j x.desc false s b = .ok t n none →
        (t.core u).job = some j →
        exec i s = .next (t.modCore u fun c => c.setStream q { x with buf := rest, written := x.written + n }))) ∧
    let here := endOfVd (dieOf u)
    let there := endOfVd (partnerOf (dieOf u))
    (d.attached = some k → d.permitDue = true → s.anyPath here there = true →
      exec (.permitArrival c e) s = .next ((s.ctl here there).setXdir c e.val d.permitArrives)) ∧
    (d.attached = some k → d.permitDue = false → exec (.permitArrival c e) s = .next s)

/-! Messages, nodes, phases, groups and time. -/

/-- R137, R138, R380, R382: MSEND sends the 64 bytes at value(B) to a queue of core value(A); while a credit is left and nothing is
spilled for the queue it spends the credit and DST gets the credits left, otherwise the entry goes to the context's spill ring and
DST gets 0. `sendEntry` puts the entry on its way. The result lands 2 schedule cycles after the issue.
R137, R381: MRECV moves the entry at HEAD of one of its core's queues to value(A) and advances HEAD; DST gets the entries left.
An empty queue freezes it. `applyWrite` stores the bytes, keeps the write's place in tie order (R160) and takes it into the window of a
recording (R305).
R139: an MSEND that has waited for its context's spill quota longer than QUOTAWAIT microseconds raises QUOTA (0x28), with the
queue and the target core in TDETAIL, and has sent nothing. -/
def Obligations.MessagesAreSentAndReceived : Prop :=
  (∀ (s b t : State) (h : Hdr) (o : Q3) (q : BitVec 2) (j : Job) (x : Context) (me k : CoreId) (l : Loc),
     let i := Instr.msend h o q
     let u := s.cur.1
     let a := s.begins (some h)
     let ea := s.me.scalar o.b
     let spill := a.sendSpills x (dieOf u) k q
     let data := t.readLoc j.world l 64
     let sent := t.sendEntry u me j x k q data spill
     let crosses := (t.send (endOf u) (t.appendHome x k spill) (if spill then 0 else 1) 64 (.stream u .S (.append q k))).1
     s.cur.2 = .S → s.Runs i h → (a.core u).job = some j → coreOf u = some me → a.context j.ctx = some x →
     a.ownLine j .read ea = .ok l → a.sendTarget u j (s.me.scalar o.a) = .ok k →
     (spill = true → a.spillBytes j.ctx x + 64 ≤ x.spillQuota) → a.checkLoc l ea 64 = .ok b → b.arriveLoc l u .S 64 = some t →
     exec i s = .next (s.flying sent.2 i (some h) 2 (sdstWrite sent.1 o.dst) 0 none) ∧
     (spill = false → sent.1 = BitVec.ofNat 64 (CMap.get 0 (t.die (dieOf u)).credits (creditKey k q) - 1)) ∧
     (spill = true → sent.1 = 0) ∧
     (crosses = true → ∃ y : Append, sent.2.fab.appends = t.fab.appends ++ [y] ∧
       y.target = k ∧ y.queue = q ∧ y.spill = spill ∧ y.member = j.standIn ∧ y.data = BitVec.ofNat 512 (ofBytes data))) ∧
  (∀ (s b t t' : State) (h : Hdr) (o : Q3) (q : BitVec 2) (j : Job) (k : CoreId) (l : Loc),
     let i := Instr.mrecv h o q
     let u := s.cur.1
     let a := s.begins (some h)
     let m := (a.core u).mqs[q.toNat]
     let ea := s.me.scalar o.a
     let src : Loc := .scratch k (m.base + 64 * (m.head.toNat % 2 ^ m.log2n))
     s.cur.2 = .S → s.Runs i h → (a.core u).job = some j → coreOf u = some k → m.en = true → a.ownLine j .write ea = .ok l →
     (m.tail = m.head → exec i s = .next (a.modEng u .S fun g => { g with frozen := some (.message q) })) ∧
     (m.tail ≠ m.head → a.checkLoc src ea 64 = .ok b → b.arriveLoc src u .S 64 = some t → t.arriveLoc l u .S 64 = some t' →
       exec i s = .next (s.flying ((t'.applyWrite u .S j l ea (t'.readLoc j.world src 64) true).modCore u fun c =>
           { c with mqs := c.mqs.set q.toNat { c.mqs[q.toNat] with head := m.head + 1, report := true } }) i (some h) 4
         (sdstWrite (BitVec.ofNat 64 (m.tail - m.head - 1).toNat) o.dst) 0 none))) ∧
  (∀ (s : State) (k dst : CoreId) (h : Hdr) (o : Q3) (q : BitVec 2) (n t : Nat) (j : Job) (x : Context),
     let u := unitOf k
     let g := s.eng u .S
     g.frozen = some (.quota t) → (s.core u).job = some j → s.atPc u .S = some (.msend h o q, n) → s.context j.ctx = some x →
     ({ s with cur := (u, .S) } : State).sendTarget u j (g.scalar o.a) = .ok dst → t + 1000 * x.quotaWait.toNat < s.time →
     (s.core u).halted = false → g.mayTrap → g.quiet → g.popDone = false →
     exec (.quotaStall k) s = .next (({ s with cur := (u, .S) } : State).setEng u .S
       (g.trapped n 0x28 (BitVec.ofNat 64 (q.toNat + 2 ^ 8 * dst.val)))))

/-- R138, R174, R380: an entry that reaches a queue of its context with room is written at TAIL, and TAIL advances; otherwise it waits in
the spill ring. One sender's entries are tried in its order. An append that crosses the fabric is decoded from the facets that no path has
dropped on the way; with fewer than k of them it is lost, and its source hears of it. Spilled entries move in as the queue empties, and the
free entries are reported to the dies of the device. The model's choices: an entry that spills as it arrives is not checked against the
quota, which its MSEND was (log 41); where in the ring it is put is a free value (log 71); and a report that no path carries to some
die comes later (log 51). -/
def Obligations.MessageEntriesArriveAndSpill : Prop :=
  ∀ (s t : State) (k : CoreId) (q : BitVec 2) (a : Append) (more : List Append) (x : Context) (j : Job) (d : BitVec 512)
    (n : Word) (p : PathKey) (f : Facet) (fs : List (PathKey × Facet)),
    let u := unitOf k
    let m := (s.core u).mqs[q.toNat]
    let i := Instr.msgAppendArrival k q
    let dies := s.dieListOf (devOfDie s.md.mode (dieOf u))
    let place := m.base + 64 * (m.tail.toNat % 2 ^ m.log2n)
    let tie : Tie := { a.stamp.tie with queued := false }
    ((∀ y ∈ s.fab.appends, y.target = k → y.queue = q → y.from_ = a.from_ → y = a) → a ∈ s.fab.appends → a.target = k → a.queue = q →
      a ∈ s.nextAppends k q) ∧
    (s.nextAppends k q = a :: more → a.target = k → a.queue = q → s.context a.ctx = some x →
      (a.entry = some d → a.spill = false → s.queueTakes a.ctx k q = true → x.spilledFor k q = false →
        s.arriveWords a.ctx k (unitOf a.from_) (s.eng (unitOf a.from_) .S).scycle 0 a.seq place 8 = some t →
        exec i s = .next (((t.dropAppend a).enterQueue k q d).noteWrite tie (.scratch k place) 64)) ∧
      (a.entry = some d → (a.spill = true ∨ s.queueTakes a.ctx k q = false ∨ x.spilledFor k q = true) →
        exec i s = .next (((s.dropAppend a).setContext a.ctx
          (some { x with spilled := x.spilled ++ [{ target := k, queue := q, data := d }] })).spillPut (s.appendEnd x a) x d)) ∧
      (a.entry = none → exec i s = .next (s.loseAppend a (s.appendEnd x a)))) ∧
    (a.msgSeq = none → a.entry = some a.data) ∧
    (a.msgSeq = some n → a.facets = [] → a.entry = none) ∧
    (a.msgSeq = some n → a.facets = (p, f) :: fs → (a.facets.length < f.k → a.entry = none) ∧
      (f.k ≤ a.facets.length → a.entry = some (BitVec.ofNat 512 (ofBytes (decodeFacets f.len.toNat f.k
        ((a.facets.take f.k).map fun g => (g.2.index.toNat, g.2.payload))))))) ∧
    ((s.core u).job = some j → exec (.spillMoveIn k q) s = .next (s.moveIn j.ctx k q 65536)) ∧
    (m.report = true → (∀ vd ∈ dies, s.ctlUp (endOfVd (dieOf u)) (endOfVd vd) = true) → exec (.msgCreditReport k q) s = .next
      (((s.modCore u fun c => { c with mqs := c.mqs.set q.toNat { m with report := false } }).ctlAll (endOfVd (dieOf u))
        ((dies.filter (· ≠ dieOf u)).map endOfVd)).setCredits (creditKey k q) m.free dies))

/-- R138: the oldest entry spilled for a queue that has room moves into it, and the rest stay in order. -/
def Obligations.SpilledEntriesMoveInOrder : Prop :=
  ∀ (s t : State) (k : CoreId) (q : BitVec 2) (c : CtxId) (x y : Context) (p : Spilled) (before after : List Spilled) (n : Nat),
    let u := unitOf k
    let m := (s.core u).mqs[q.toNat]
    s.queueTakes c k q = true → s.context c = some x → x.spilled = before ++ p :: after →
    (p.target = k ∧ p.queue = q) → (∀ r ∈ before, ¬(r.target = k ∧ r.queue = q)) →
    s.arriveWords c k u (s.eng u .S).scycle 5 (s.core u).spillSeq (m.base + 64 * (m.tail.toNat % 2 ^ m.log2n)) 8 = some t →
    t.context c = some y →
    s.moveIn c k q (n + 1) = (((t.setContext c (some { y with spilled := before ++ after })).modCore u fun c =>
      { c with spillSeq := c.spillSeq + 1 }).enterQueue k q p.data).moveIn c k q n

/-- R163 to R165, R348, R349, R357, R385, R391, R392: NSUB writes the node's number and status, PHADV closes the phase and writes its
number (what else issues in its ec still carries it, since `advances` notes the step until the ec ends, R391), PHWAIT ends once DONE of
the die it names has reached its value, GTIME writes the time, and DRAIN ends once every access and
command of the core is performed. -/
def Obligations.SystemInstructionsOfSComplete : Prop :=
  ∀ (s t : State) (h : Hdr) (o : Q3) (j : Job) (id : Word) (st : Byte) (vd : Vd),
    let u := s.cur.1
    let b := s.begins (some h)
    let ready (i : Instr) : Prop := s.cur.2 = .S ∧ s.Runs i h ∧ (b.core u).job = some j
    let own := dieOf u
    let v : Word := (s.me.scalar o.b).setWidth 32
    let noted := if vd ≠ own ∧ laterThan v ((b.die own).vec j.slot vd) = true then b.setDie own ((b.die own).setVec j.slot vd v) else b
    (ready (.nsub h o) → b.appendsOut u = false → b.submit j.ctx j.world (s.me.scalar o.a).toNat none 0 none = .answer id st t →
      exec (.nsub h o) s = .next (s.landing t (.nsub h o) (some h)
        (sdstWrite (BitVec.ofNat 64 (2 ^ 32 * id.toNat + st.toNat)) o.dst) 0)) ∧
    (ready (.phadv h o) → exec (.phadv h o) s = .next (s.landing
      (b.setDie own { (b.die own).setCur j.slot ((b.die own).cur j.slot + 1) with
        advances := j.slot :: ((b.die own).setCur j.slot ((b.die own).cur j.slot + 1)).advances }) (.phadv h o) (some h)
      (sdstWrite (((b.die own).cur j.slot).setWidth 64) o.dst) 0)) ∧
    (ready (.phwait h o) → (∀ d w, s.me.frozen ≠ some (.phase d w)) → (s.me.scalar o.a).toNat = vd.val →
      (b.dieListOf j.dev).contains vd = true → (fullList b.md.mode j.dev).contains vd = true →
      (b.die vd).state ≠ .umbra → (b.die vd).state ≠ .lost → ((b.die vd).done j.slot - v).toNat < 2 ^ 31 →
      b.unheard vd own j.slot v = false → exec (.phwait h o) s = .next (s.landing noted (.phwait h o) (some h) [] 0)) ∧
    (s.cur.2 = .S → s.Runs (.gtime h o) h →
      exec (.gtime h o) s = .next (s.flying b (.gtime h o) (some h) 2 (sdstWrite (BitVec.ofNat 64 b.time) o.dst) 0 none)) ∧
    (ready (.drain h o) → isSched u = false → (b.core u).drained = true → b.appendsOut u = false →
      (∀ e : Eng, (b.eng u e).lost = none) → exec (.drain h o) s = .next (s.landing b (.drain h o) (some h) [] 0))

/-- R49, R353 to R356: GBAR and GRED count their arrival once and freeze (with no path to H they wait for one first, the model's choice,
log 51); once the episode has completed, GBAR goes on and GRED writes
the episode's result with its flags. -/
def Obligations.GroupInstructionsArriveAndComplete : Prop :=
  ∀ (s : State) (h : Hdr) (o : Q3) (g : BitVec 2) (m : SelG) (j : Job) (x : Context) (e : Byte) (v : Dword) (f : FlagSet),
    let u := s.cur.1
    let b := s.begins (some h)
    let ready (i : Instr) : Prop := s.cur.2 = .S ∧ s.Runs i h
    let n := CMap.get 0 x.arrivals (arrivalKey j.standIn e) + 1
    let arrives (i : Instr) (g : BitVec 2) (sel : Option SelG) : Prop :=
      ready i → s.me.frozen = none → (b.core u).job = some j → j.groupEntry g = some e →
      (b.ctlUp (endOf u) 8 = false →
        exec i s = .next ((b.ctlDown (endOf u) 8).modEng u .S fun k => { k with frozen := some .link })) ∧
      (b.ctlUp (endOf u) 8 = true → b.context j.ctx = some x →
      let t := b.setContext j.ctx (some { x with arrivals := CMap.set 0 x.arrivals (arrivalKey j.standIn e) n })
      let told : State := { t with md := { t.md with arrivals := t.md.arrivals ++
          [{ ctx := j.ctx, entry := e, core := j.standIn, episode := n, sel := sel, operand := s.me.scalar o.a }] } }
      exec i s = .next ((told.ctl (endOf u) 8).modEng u .S fun k => { k with frozen := some (.group e n) }))
    arrives (.gbar h o g) g none ∧ arrives (.gred h o m) m.gslot (some m) ∧
    (ready (.gbar h o g) → s.me.frozen = some (.groupDone v f) →
      exec (.gbar h o g) s = .next (s.landing b (.gbar h o g) (some h) [] 0)) ∧
    (ready (.gred h o m) → s.me.frozen = some (.groupDone v f) →
      exec (.gred h o m) s = .next (s.landing b (.gred h o m) (some h) (sdstWrite v o.dst) f))

/-- R50, R164, R354, R355: an episode completes once every member of its entry has arrived and the members' appends have been
performed: the engines that wait in it get the tree's result. DONE of a slot advances once its phase is closed and every write of the
phase is performed. -/
def Obligations.EpisodesAndPhasesComplete : Prop :=
  ∀ (s : State) (c : CtxId) (e : Byte) (x : Context) (mem : BitVec 48) (n : Nat) (vd : Vd) (slot : SlotId),
    let i := Instr.groupEpisodeComplete c e
    let here (a : Arrival) : Bool := a.ctx = c && a.entry = e && a.episode = n
    let as := (List.finRange 48).filterMap fun k => s.md.arrivals.find? fun a => here a && a.core = k
    let r := episodeResult as
    (s.context c = some x → x.group e.toNat = some mem → s.firstEpisode c e = some n → s.episodeFull c e mem n = true →
      (∀ a ∈ s.fab.appends, a.ctx = c → mem.getLsbD a.member.val = false) →
      (∀ k : CoreId, mem.getLsbD k.val = true → s.ctlUp 8 (endOf (unitOf k)) = true) →
      ∃ t, exec i s = .next t ∧ t.md.arrivals = s.md.arrivals.filter (fun a => !here a) ∧ t.mem = s.mem ∧
        ∀ k : CoreId, t.core (unitOf k) = (s.core (unitOf k)).endEpisode c mem e n r.1 r.2) ∧
    ((s.die vd).curNow slot ≠ (s.die vd).done slot → s.stampDone vd slot ((s.die vd).done slot) = true →
      exec (.phaseDoneAdvance vd slot) s = .next ((s.setDie vd ((s.die vd).setDone slot ((s.die vd).done slot + 1))).ctlAll
        (endOfVd vd) (((s.dieListOf (devOfDie s.md.mode vd)).filter (· ≠ vd)).map endOfVd)))

/-! Dispatch, scheduling and pre-emption. -/

/-- R37, R38, R57, R59, R60, R62, R65: the MD dispatches the node it has picked, at most one in 10 ns; a dispatch that its core takes
starts the job's streams at their entries in one cycle, with ARG0 and ARG1 in x1 and x2 of S, tokens and queues empty; a core that
does not take it makes the node READY again, in the pool or, with 4,096 there, behind it (R57). A dispatch that no path carries is sent
again (log 51, the model's choice). Resource reports that arrive replace the MD's view of a HEALTHY die, and a completion report enters
the hold queue while it has room. -/
def Obligations.DispatchesStartTheirJobs : Prop :=
  ∀ (s : State) (k : CoreId) (n : Node) (x : Context) (d : Dispatch) (vd : Vd) (r : HeldReport),
    let u := unitOf k
    let i := Instr.dispatchArrival k
    let b := s.ctl 8 (endOf u)
    let found := s.md.dispatching.any (fun d => d.core = k) = true ∧ b.md.dispatching.find? (fun d => d.core = k) = some d ∧
      b.node d.ctx d.id = some n ∧ b.context d.ctx = some x ∧ n.state = .running
    let report := s.send (endOfVd vd) 8 3 64 .other
    (let h := s.ranked.find? fun n => s.overdue n && (s.chooseCore n).isNone
     s.md.nextPick ≤ s.time → s.cfm.pkgFailed = false → s.firstFit (s.ranked.filter fun n => !heldBack h n) = some (n, k) →
      (∃ t, exec .pick s = .next (t.dispatch n k) ∧ (s.ranked.head? = some n → t = s) ∧
        (t = s ∨ ∃ f j v, t = s.startPreempt f j v)) ∧
      (s.dispatch n k).md.nextPick = s.time + 10 ∧
      (s.dispatch n k).md.dispatching = s.md.dispatching ++ [{ ctx := n.ctx, id := n.id, core := k }]) ∧
    (s.ctlUp 8 (endOf u) = true → found → b.takesDispatch n k = true → n.image = none → ∃ t, exec i s = .next t ∧
      (t.core u).job.isSome = true ∧ (t.core u).tokens = Vector.replicate 16 0 ∧ (t.core u).mq = [] ∧
      (t.eng u .S).started = n.eng.getLsbD 0 ∧ (t.eng u .S).pc = n.imgBase + BitVec.ofNat 64 (n.ents.getD 0 0) ∧
      (t.eng u .S).x[1] = n.arg0 ∧ (t.eng u .S).x[2] = n.arg1 ∧ (t.eng u .V).started = n.eng.getLsbD 1 ∧
      (t.eng u .M).started = n.eng.getLsbD 2 ∧ (t.eng u .C).started = n.eng.getLsbD 3) ∧
    (s.ctlUp 8 (endOf u) = true → found → b.takesDispatch n k = false → exec i s = .next ((b.dropDispatch k).refuseDispatch n) ∧
      (b.md.pool.length < 4096 → ((b.dropDispatch k).refuseDispatch n).md.pool = b.md.pool ++ [(n.ctx, n.id)]) ∧
      (4096 ≤ b.md.pool.length → ((b.dropDispatch k).refuseDispatch n).md.overflow = b.md.overflow ++ [(n.ctx, n.id)])) ∧
    ((s.die vd).state = .healthy → exec (.resourceReport vd) s = .next
      (if report.1 then report.2.setDie vd { report.2.die vd with view := s.dieNow vd } else report.2)) ∧
    (s.ctlUp 8 (endOf u) = false → s.md.dispatching.any (fun d => d.core = k) = true → exec i s = .next (s.ctlDown 8 (endOf u))) ∧
    (s.md.waiting.find? (fun p => p.1 = k) = some (k, r) → s.md.held.length < 1024 → s.ctlUp (endOf u) 8 = true →
      ∃ t, exec (.completionReport k) s = .next t ∧ t.md.waiting = s.md.waiting.filter (fun p => p.1 ≠ k) ∧
        t.md.jhead = s.md.jhead + 1 ∧
        t.md.held = s.md.held ++ [{ r with time := BitVec.ofNat 64 s.time, seq := s.md.jhead + 1 }])

/-- R42, R43, R71, R187, R328, R394: REND ends its stream: on V, M and C at once (on M also the lease, by `leaseRend`), or raises
FACET_LOSS there
for a write of its own that was lost; on S once the other
streams have ended, the core has drained and no loss is to be reported. The job is COMPLETE in a step of its own; its report then waits
for the MD. -/
def Obligations.StreamsAndJobsEnd : Prop :=
  ∀ (s : State) (k : CoreId) (j : Job) (n : Node),
    let u := s.cur.1
    let e := s.cur.2
    let c := s.core u
    let ended (t : State) : State := t.modEng u e fun g => { g.ends with
      scycle := g.scycle + 1, latch := { pOld := g.p, lcOld := g.lc, pMask := 0, lcMask := 0 } }
    let ready := s.Ready .rend none ∧ s.me.hm = false
    (ready → (e = .V ∨ e = .C) → s.me.lost = none → exec .rend s = .next (ended s)) ∧
    (ready → e = .M → c.chain.state ≠ .open → c.chain.state ≠ .failed → s.me.lost = none →
      exec .rend s = .next (((s.modEng u .M Engine.ends).leaseRend u).advance u .M) ∧
      (isCCore u = false → exec .rend s = .next (ended s))) ∧
    (ready → (e = .V ∨ e = .C ∨ (e = .M ∧ c.chain.state ≠ .open ∧ c.chain.state ≠ .failed ∧ c.mpop = [])) → s.me.mayTrap →
      ∀ r, s.me.lost = some r →
        exec .rend s = .next (s.setEng u e (({ s.me with lost := none } : Engine).trapped 1 0x71 r.detail))) ∧
    (ready → e = .S → c.othersEnded = true → c.drained = true → s.appendsOut u = false → c.lossAt = none →
      exec .rend s = .next (ended s)) ∧
    ((s.core (unitOf k)).jobEnded = true → (s.core (unitOf k)).job = some j → (s.core (unitOf k)).ckptReq = false →
      (s.cleanup (unitOf k) j).node j.ctx j.node = some n →
      ∃ t, exec (.jobComplete k) s = .next t ∧
        t.md.waiting = (s.cleanup (unitOf k) j).md.waiting ++
          [(k, { n with state := .complete, core := none, lastDie := some (dieOf (unitOf k)) }.report 1 0)])

/-- R77, R78, R155, R254 to R256, R303: a pre-emption request stops a core that no open chain and no drain of REND keeps, waits for the
chain, and
is withdrawn after 1 ms of that; a core that the debugger has stopped answers later; a stopped core whose commands, drain streams and
message appends have ended is saved, unless its world is being reset; the save watchdog
first logs, then the die is reset. The node is READY again with its image: files, engines, commands and tile slots as the core holds them.
A restore is refused where the core cannot take the job; a whole image put back gives the core the saved registers, files, lent banks,
tokens, queues and commands, SCYCLE of every engine, and every result in flight with its remaining latency; FULL and FILLING tile slots
come back FAULTED, and the scratchpad as the image's bytes. The model's choices: an image of another class or an incomplete one fails its
node with a cause that is left open, and one onto claimed tile slots is refused (log 50); what the die reset spares (logs 49, 86); the
place and the layout of an image (log 30). -/
def Obligations.PreemptionsStopSaveAndRestore : Prop :=
  ∀ (s b : State) (k : CoreId) (p : Preempt) (d : Dispatch) (n : Node) (x : Context) (im : SaveImage) (j : Job) (e : Eng) (a o : Nat)
    (s0 : State) (r : BitVec 7 × TileSlot) (w : World),
    let u := unitOf k
    let c := s.core u
    let free : State := { s.modCore u fun c => { c with preempt := none } with
      md := { s.md with reserved := s.md.reserved.filter fun r => r.1 ≠ k } }
    let asks (i : Instr) : Prop := p.stopped = false → c.dbgStopped = false →
      (c.inRendDrain = true → exec i s = .next free) ∧
      (c.inRendDrain = false → c.chain.state ≠ .none →
        exec i s = .next (s.modCore u fun c => { c with preempt := some { p with asked := true } })) ∧
      (c.inRendDrain = false → c.chain.state = .none → exec i s = .next (s.stopAll u p))
    (c.preempt = some p → (p.asked = false → asks (.preemptRequest k)) ∧ (p.asked = true → asks (.preemptStop k)) ∧
      (p.stopped = false → p.since + 1000000 ≤ s.time → c.chain.state ≠ .none → c.dbgStopped = false →
        exec (.preemptTimeout k) s = .next free) ∧
      (c.dbgStopped = true → exec (.preemptStop k) s = .next s ∧ exec (.preemptTimeout k) s = .next s) ∧
      (c.mayBeSaved = true → s.appendsOut u = false → s.saveBarred k = false →
        (s.readSaved k = .ok b → exec (.contextSave k) s = .next (b.saveJob k false) ∧
          (c.job = some j → b.node j.ctx j.node = some n → ∃ m a, (b.saveJob k false).node j.ctx j.node = some m ∧ m.state = .ready ∧
            m.core = none ∧ m.image = some (b.imageOf k false a) ∧ ((b.saveJob k false).core u).job = none)) ∧
        (∀ i, s.readSaved k = .error i → exec (.contextSave k) s = .next (s.machineCheck u i))) ∧
      ((c.mayBeSaved = false ∨ s.appendsOut u = true ∨ s.saveBarred k = true) → exec (.contextSave k) s = .next s) ∧
      (p.stopped = true → p.expiries = 0 → p.saveBegun + 400000 ≤ s.time → exec (.saveWatchdogExpiry k) s = .next
        ((s.logMc (.saveWatchdog k)).modCore u fun c => { c with preempt := some { p with expiries := 1 } })) ∧
      (p.stopped = true → p.expiries ≠ 0 → p.saveBegun + 400000 * (p.expiries + 1) ≤ s.time →
        exec (.saveWatchdogExpiry k) s = .next ((s.saveJob k true).resetDie (dieOf u)))) ∧
    (let m := s.imageOf k false a
     m.from_ = k ∧ m.incomplete = false ∧ m.core.vmain = c.vmain ∧ m.core.vop = c.vop ∧ m.core.vlast = c.vlast ∧ m.core.lent = c.lent ∧
       m.core.tokens = c.tokens ∧ m.core.cq = c.cq ∧ m.core.mq = c.mq ∧ m.core.mqs = c.mqs ∧ m.core.mcfg = c.mcfg ∧
       m.core.engineBlock e = c.engineBlock e ∧ (m.core.eng e).scycle = (c.eng e).scycle ∧ (m.core.eng e).hm = (c.eng e).hm ∧
       (m.core.eng e).flights = (c.eng e).flights ∧
       m.tiles = ((slotNums u).filter (s.claims u)).map fun n => (n, s.tile u n)) ∧
    (s.md.dispatching.find? (fun d => d.core = k) = some d → s.node d.ctx d.id = some n → s.context d.ctx = some x →
      n.image = some im → n.state = .running →
      let h := im.core.headerIn (unitOf im.from_) im.incomplete (s.imageIn x n im)
      let t := s.dropDispatch k
      let mine := h.incomplete = false ∧ h.cls = if isCCore u then 2 else 1
      (mine → exec (.contextRestore k) s = .next
        (if t.takesDispatch n k && !t.slotsTaken u im then t.loadImage k n x im else t.refuseDispatch n)) ∧
      (¬ mine → ∃ r m, exec (.contextRestore k) s = .next r ∧ r.node d.ctx d.id = some m ∧ m.state = .failed ∧ m.image = none ∧
        r.md.waiting = s.md.waiting ++ [(k, m.report 2 m.cause)])) ∧
    (let bs := s.imageIn x n im
     let t := s.loadImage k n x im
     let y := im.core.eng e
     let latency (g : Engine) : List (Nat × List Write × FlagSet × BitVec 3) :=
       g.flights.map fun f => (f.landAt - g.scycle, f.writes, f.flags, f.sig)
     isCCore (unitOf im.from_) = isCCore u → im.core.inFlight.length ≤ 32 → s0.countBlock im.core = im.counts →
       bs.take 0x69000 = s0.imageBytes (unitOf im.from_) im.core im.headers im.incomplete →
       let z := t.core u
       z.job = im.core.job ∧ z.vmain = im.core.vmain ∧ z.vop = im.core.vop ∧ z.vlast = im.core.vlast ∧ z.lent = im.core.lent ∧
       z.tokens = im.core.tokens ∧ z.cq = im.core.cq ∧ z.mq = im.core.mq ∧ z.mqs = im.core.mqs ∧ z.mcfg = im.core.mcfg ∧
       z.streams = im.core.streams ∧ z.engineBlock e = im.core.engineBlock e ∧ (z.eng e).scycle = y.scycle ∧ (z.eng e).hm = y.hm ∧
       latency (z.eng e) = latency y ∧ (∀ m, t.node n.ctx n.id = some m → m.image = none) ∧
       (r ∈ im.tiles → (∀ q ∈ im.tiles, q.1.toNat < slotCount (isCCore u) ∧ (q.1 = r.1 → q = r)) → t.tile u r.1 = r.2.restored u) ∧
       (o < 4096 * n.spNeed → o < scratchSize u → t.locByte w (.scratch k o) = bs.getD (0x69000 + o) 0))

/-- R63, R67, R68, R69, R72, R245, R289, R315, R448, R449: the registers of the scheduler cores. Kicks are set for the slots their source may
kick, none of a world whose intake is closed, and cleared unless set anew; SCGO makes a core that takes over ACTIVE; DRAINREQ submits the
entries of a ring and then writes CONS, or waits while a REFUSED record finds the completion ring full; HQCTL writes the record of the head of
the hold queue, then releases that entry, or waits for the room; a machine check fails a scheduler core, its STANDBY partner takes over once
the stores of the failed core have ended, and a hub reset makes a FAILED core STANDBY. The lease goes to the request the arbiter chooses. -/
def Obligations.SchedulerRegistersAndRolesChange : Prop :=
  ∀ (s : State) (src : KickSrc) (v : Dword) (sc1 : Bool) (mc : McInfo) (vd : Vd) (r : HeldReport) (hs : List HeldReport)
    (q : Fin 6 × BitVec 3 × Nat) (slot k : SlotId) (ring : Ring) (last : Nat) (t : State),
    let m : BitVec 48 := v.extractLsb' 0 48
    let kicks := m &&& s.kickMask src &&& s.kickable
    let l := (s.die vd).lease
    let prod := s.hostDword ring.addr.toNat
    let start := fullCount (v.extractLsb' 0 32) prod
    let written (sc : Bool) : State :=
      { s.writeRecord r with md := { (s.writeRecord r).md with hqStores := [sc], releasing := some sc } }
    exec (.kicksetWrite src v) s = .next { s with md := { s.md with
      kickpend := s.md.kickpend ||| kicks, kickNew := s.md.kickNew ||| kicks } } ∧
    (s.kickable.getLsbD k.val = !s.intakeShut (s.slot k).world) ∧
    exec (.kickpendWrite sc1 v) s = .next { s with md := { s.md with
      kickpend := s.md.kickpend &&& ~~~(m &&& ~~~s.md.kickNew) } } ∧
    ((s.role sc1 = .active ∨ s.role sc1 = .takingOver) → (v.extractLsb' 32 6).toNat = slot.val → (s.slot slot).sub = some ring →
      s.drainEntries slot ring (s.slot slot).ctx (s.slot slot).world start (prod - start) = (last, t) →
      (t.recordsWait slot = false →
        exec (.drainreqWrite sc1 v) s = .next ((t.hostWrite (ring.addr.toNat + 8) (toBytes 8 last)).modSlot slot fun x =>
          { x with sub := some { ring with count := last } })) ∧
      (t.recordsWait slot = true → exec (.drainreqWrite sc1 v) s = .next { t with md := { t.md with drains := t.md.drains ++
        [{ sc1 := sc1, slot := slot, at_ := last, stop := prod }] } })) ∧
    (s.role sc1 = .standby ∨ s.role sc1 = .failed → exec (.drainreqWrite sc1 v) s = .next s) ∧
    (v.getLsbD 0 = true → s.role sc1 = .active → s.md.held = r :: hs → s.md.hqStores = [] → s.md.releasing = none →
      (s.headWaits = false → exec (.hqctlRelease sc1 v) s = .next
        (State.release { written sc1 with md := { (written sc1).md with hqStores := [], releasing := none, held := hs } } r)) ∧
      (s.headWaits = true → exec (.hqctlRelease sc1 v) s = .next { s with md := { s.md with hqStores := [sc1] } })) ∧
    (v.getLsbD 0 = true → s.role sc1 = .takingOver → exec (.scgoWrite sc1 v) s = .next (s.setRole sc1 .active)) ∧
    (s.role sc1 ≠ .failed → ∃ t, exec (.schedMachineCheck sc1 mc) s = .next t ∧ t.role sc1 = .failed ∧
      t.cfm.records = s.cfm.records ++ [mcRecord s.time 0xFF mc]) ∧
    (s.role false = .failed → s.role true = .standby → s.hubBusy false = false →
      exec .schedTakingOver s = .next (s.setRole true .takingOver)) ∧
    (s.role true = .failed → s.role false = .standby → s.hubBusy true = false →
      exec .schedTakingOver s = .next (s.setRole false .takingOver)) ∧
    (s.role sc1 = .failed → ∃ t, exec .hubReset s = .next t ∧ t.role sc1 = .standby) ∧
    (l.holder = none → leaseChoice l.lastGrant l.requests = some q → ∃ t, exec (.leaseGrant vd) s = .next t ∧
      (t.die vd).lease.holder = some q.1 ∧ (t.die vd).lease.count = 0 ∧
      (l.lastGrant ≠ some q.1 → (t.core (unitOf (coreAt vd q.1))).stat = Stationary.reset 256))

/-! Landing, faults of the arrays, and the rows that write registers. -/

/-- R205, R227, R229, R453: a result that is due lands: its registers, its flags, then its pushes. A lost read raises FACET_LOSS when it
would land, its pops are undone and its loop-end action is not repeated. A frozen pop of tokens is made, and its engine goes on, once
every queue of its mask holds one. -/
def Obligations.ResultsLandAndFrozenPopsResume : Prop :=
  ∀ (s : State) (u : UnitId) (e : Eng) (f : Flight) (fs : List Flight) (r : LostRead) (k : CoreId) (m : BitVec 3),
    let g := s.eng u e
    let c := s.core (unitOf k)
    let landed := ((s.landWrites u e f.writes).modEng u e fun g =>
      { g with sticky := g.sticky ||| f.flags, flights := g.flights.erase f }).push u e f.sig
    (g.flights = f :: fs → f.landAt ≤ g.scycle → (∀ h ∈ fs, g.scycle < h.landAt) → (s.core u).blocked f = false →
      (landed.eng u e).firstDue = none → exec (.resultLand u e) s = .next landed) ∧
    (g.flights = f :: fs → f.landAt ≤ g.scycle → (∀ h ∈ fs, g.scycle + 1 < h.landAt) → f.lost = some r → g.mayTrap →
      ∃ t, exec (.resultLand u e) s = .next t ∧
        let h := t.eng u e
        h.epcDone = r.ended ∧ (t.core u).tokens = ((s.core u).unpopMask e r.wait).tokens ∧
        h.cause = dw ((if r.ds then 2 ^ 14 else 0) + cLoss.toNat) ∧ h.tdetail = r.va ∧ h.epc = r.epc &&& addrMask ∧
          h.enpc = g.pc &&& addrMask0 ∧ h.hm = true ∧ h.pc = g.tvec &&& addrMask ∧ h.ended = false ∧ h.flights = fs) ∧
    (c.halted = false → (c.eng e).started = true → (c.eng e).due = false → (c.eng e).popDone = false →
      (c.eng e).frozen = some (.tokens m) → c.emptyBits e m = 0 →
      exec (.tokenPopResume k e) s = .next ((s.setCore (unitOf k) (c.popMask e m)).modEng (unitOf k) e fun g =>
        { g with frozen := none, popDone := true }))

/-- R252, R253, R260 to R264, R443, R444: a failing word is rebuilt from V and its group, or machine-checks its core, which halts its job;
the FAILED report follows after 10 µs. Glint replays are counted. REPAIR and ARRTEST act in SELFTEST only, and a row of a scratchpad or a
vector file that a spare serves reads zero. No word is rebuilt or patrolled under ARRTEST.RAW. The model's choice: the banks and rows of
every array, pane stores too, are numbered as a scratchpad's (log 36). -/
def Obligations.FailingArraysAreRebuiltRepairedOrReported : Prop :=
  ∀ (s : State) (k : CoreId) (info : McInfo) (j : Job) (p : CoreId × Nat × CtxId × Word) (n : Node) (a : SramArray)
    (o : BitVec 25) (bank : BitVec 5) (f : BitVec 72) (v : Dword) (w : UnitId) (e : Eng) (row : Fin 8192) (b : Fin 64) (c : Fin 6),
    let u := unitOf k
    let vd := dieOf u
    let key := arrayBase a + o.toNat
    let mates := (List.range 64).map (fun r => groupOf key + 2048 * r) |>.filter (· ≠ key / 8 * 8)
    let left := mates.foldl (fun x m => x ^^^ s.flipWord m) 0 ^^^ CMap.get 0 s.vflips (groupOf key)
    let good := (∀ m ∈ mates, flipFails (s.flipWord m) = false) ∧ flipFails left = false
    let fails := o.toNat < arraySize a ∧ flipFails (s.flipWord key) = true
    let home := match a with | .pane d => d | .scratch c | .vector c | .operand c => dieOf (unitOf c)
    let checked := s.rawArray a = false
    let live := (s.core u).health = .live
    let test := (s.die vd).state = .selftest
    let used := CMap.get 0 (s.die vd).spares (spareKey c.val 0 bank.toNat)
    let asks : Dword := dw (2 ^ 63 + 2 ^ 56 * c.val + 2 ^ 48 * bank.toNat + row.val)
    let place := row.val * 2048 + bank.toNat * 64
    let files : Dword := dw (2 ^ 63 + 2 ^ 56 * c.val + 2 ^ 53 + 2 ^ 48 * bank.toNat + row.val)
    (live → ∃ t, exec (.machineCheck k info) s = .next t ∧ (t.core u).health = .umbra ∧ (t.core u).job = none ∧
      t.cfm.records = s.cfm.records ++ [mcRecord s.time (unitByte u) info] ∧
      ((s.core u).job = some j → (s.node j.ctx j.node).isSome = true →
        t.cfm.pendingFails = s.cfm.pendingFails ++ [(k, s.time, j.ctx, j.node)])) ∧
    ((s.cfm.pendingFails.find? fun p => p.1 = k && p.2.1 + 10000 ≤ s.time) = some p → s.node p.2.2.1 p.2.2.2 = some n →
      exec (.failedRecordTimer k) s = .next { s with
        cfm := { s.cfm with pendingFails := s.cfm.pendingFails.erase p },
        md := { s.md with waiting := s.md.waiting ++ [(k, n.report 2 n.cause)] } }) ∧
    (fails → s.rawArray a = true → exec (.arrayRebuild a o) s = .next s) ∧
    (fails → checked → good → exec (.arrayRebuild a o) s = .next
      (({ s with flips := CMap.set 0 s.flips (key / 8 * 8) left } : State).setDie home
        { s.die home with rebuilds := min 0xFFFF ((s.die home).rebuilds + 1) })) ∧
    (fails → checked → ¬ good → exec (.arrayRebuild a o) s = .next (s.arrayCheck (.array a) (s.arrayInfo a o.toNat 0)) ∧
      (a = .pane vd ∨ (a = .operand k ∧ isCCore u = true) → s.arrayCheck (.array a) (s.arrayInfo a o.toNat 0) =
        s.sharedCheck vd (s.arrayInfo a o.toNat 0)) ∧
      (a = .scratch k ∨ a = .vector k ∨ (a = .operand k ∧ isCCore u = false) → live → s.arrayCheck (.array a) (s.arrayInfo a o.toNat 0) = s.machineCheck u (s.arrayInfo a o.toNat 0))) ∧
    (s.rawArray a = true → exec (.patrolScrub a bank) s = .next s) ∧
    (checked → exec (.patrolScrub a bank) s = .next (s.patrol a bank.toNat) ∧
      (s.flips = [(key, f)] → s.vflips = [] → o.toNat < arraySize a → o.toNat % 8 = 0 → o.toNat / 64 % 32 = bank.toNat →
        flipFails f = true → exec (.patrolScrub a bank) s = exec (.arrayRebuild a o) s)) ∧
    ((s.core w).health = .live → (s.eng w e).started = true → (s.eng w e).replays.toNat < 0xFFFFFFFD →
      exec (.glintReplay w e 3) s = .next (s.modEng w e fun g => { g with replays := g.replays + 3 })) ∧
    ((s.core w).health = .live → (s.eng w e).started = true → (s.core w).step.toNat < 4 →
      ∃ t, exec (.glintReplay w e 4) s = .next t ∧ (t.core w).step = (s.core w).step + 1 ∧
        (isSched w = false → (t.die (dieOf w)).escalations = min 0xFFFF ((s.die (dieOf w)).escalations + 1)) ∧
        ((s.eng w e).escal ≠ 0xFF → (t.eng w e).escal = (s.eng w e).escal + 1)) ∧
    (test → used < 16 → ∃ t, exec (.repairWrite k asks) s = .next t ∧ (t.core u).repair = asks ||| dw (2 ^ 44 * used) ∧
      CMap.get 0 (t.die vd).spares (spareKey c.val 0 bank.toNat) = used + 1 ∧
      (place < scratchSize (unitOf (coreAt vd c)) → t.rawByte (keyScratch (coreAt vd c) (place + b.val)) = 0)) ∧
    (test → CMap.get 0 (s.die vd).spares (spareKey c.val 1 bank.toNat) < 16 → place < 2 ^ 18 →
      ∃ t, exec (.repairWrite k files) s = .next t ∧
        (((t.core (unitOf (coreAt vd c))).vmain.toList.getD (place / 4096) VReg.zero).toList.getD (place % 4096 / 4 + b.val / 4) 1) = 0) ∧
    (test → 16 ≤ used → exec (.repairWrite k asks) s = .next
      ((s.setDie vd { s.die vd with full := true }).modCore u fun x =>
        { x with repair := dw (2 ^ 62 + (2 ^ 56 * c.val + 2 ^ 48 * bank.toNat + row.val) +
                               2 ^ 44 * (x.repair.extractLsb' 44 4).toNat) })) ∧
    (test → exec (.arrtestWrite k v) s = .next (s.modCore u fun x => { x with arrtestRaw := v.getLsbD 0 })) ∧
    (¬ test → exec (.repairWrite k v) s = .next s ∧ exec (.arrtestWrite k v) s = .next s)

/-- R115, R137, R243, R245, R271, R300, R373: the rows that write one register. MQCFG enables a queue whose range lies in the job's
scratchpad, and sets nothing while it is enabled; HEAD moves within the queue; STICKY clears what is written as 1; TSTAT.ABANDON
aborts the job with the cause being handled; CKPT.REQ, TRCCTL and a register of REGISTER_WRITE take what MTS writes. -/
def Obligations.RegisterRowsWriteTheirRegisters : Prop :=
  ∀ (s : State) (k : CoreId) (q : BitVec 2) (v : Dword) (w : UnitId) (e : Eng) (n : BitVec 10) (off : BitVec 20)
    (sc1 : Bool) (m : BitVec 48),
    let u := unitOf k
    let x := (s.core u).mqs[q.toNat]
    let lg := (v.extractLsb' 32 4).toNat
    let on := v.getLsbD 63 && 4 ≤ lg && lg ≤ 16
    let set (y : MsgQueue) : State := s.modCore u fun c => { c with mqs := c.mqs.set q.toNat y }
    (x.en = false → s.mqcfgOutside u q v = false → exec (.mqcfgWrite k q v) s = .next (set { x with
      base := (v.extractLsb' 0 24).toNat / 64 * 64, log2n := lg, en := on, report := x.report || on })) ∧
    (x.en = true → v.getLsbD 63 = true → exec (.mqcfgWrite k q v) s = .next s) ∧
    (x.en = true → v.getLsbD 63 = false → (s.core u).job = none →
      exec (.mqcfgWrite k q v) s = .next (set { x with en := false })) ∧
    ((x.tail - v.extractLsb' 0 32).toNat ≤ 2 ^ x.log2n →
      exec (.mqptrHeadWrite k q v) s = .next (set { x with head := v.extractLsb' 0 32 })) ∧
    (2 ^ x.log2n < (x.tail - v.extractLsb' 0 32).toNat → exec (.mqptrHeadWrite k q v) s = .next s) ∧
    exec (.stickyWrite w e v) s = .next (s.modEng w e fun g => { g with sticky := g.sticky &&& ~~~(v.extractLsb' 0 9) }) ∧
    ((s.eng w e).hm = true → exec (.tstatAbandon w e) s = .next (s.abortJob w ((s.eng w e).cause.extractLsb' 0 8))) ∧
    exec (.ckptReqWrite k v) s = .next (s.modCore u fun c => { c with ckptReq := v.getLsbD 0 }) ∧
    (v.getLsbD 0 = false → exec (.trcctlWrite k v) s = .next (s.modCore u fun c => { c with trcctl := v.extractLsb' 0 3 })) ∧
    (v.getLsbD 0 = true → (s.core u).job = none → exec (.trcctlWrite k v) s = .next s) ∧
    (srAssigned (envOf w e) n = true → (s.eng w e).hm = true ∨ privilegedWrite n v = false → mqcfgOf n = none →
      exec (.registerWrite (.special w e n) v) s = .next (s.writeSr w e n v)) ∧
    exec (.registerWrite (.md sc1 0x100 8) (m.setWidth 64)) s = exec (.kicksetWrite (.sched sc1) (m.setWidth 64)) s ∧
    exec (.registerWrite (.md sc1 0x108 8) (m.setWidth 64)) s = exec (.kickpendWrite sc1 (m.setWidth 64)) s ∧
    exec (.registerWrite (.md sc1 0x228 8) v) s = exec (.hqctlRelease sc1 v) s ∧
    exec (.registerWrite (.md sc1 0x230 8) v) s = exec (.drainreqWrite sc1 v) s

/-! Stops, windows and walks. -/

/-- R147, R176, R301, R305 to R307, R309: a debug stop that is due stops every engine of its core on one edge; without
TRCCTL.STOPREC nothing else changes. A window of 4,096 schedule cycles of S or V ends with its CRC in the log, or is compared with it. A
translation that a die asked for ends in its TLB, with the walk's leaf, and in the micro-TLB of the core it was for; `walkAsked` sends the
walk's reads of other dies. The model's choices: the TLBs hold 8,192 and 256 entries and drop the oldest (log 29); a window of S waits for
its appends (log 73); the corners of the record log, as the end of a replay in `freeMode` (log 28). -/
def Obligations.CoresStopAndWindowsAndWalksEnd : Prop :=
  ∀ (s : State) (k : CoreId) (d : DebugStop) (e : Eng) (j : Job) (x : Context) (w : List Byte) (vd : Vd) (c : CtxId) (va leaf : Dword)
    (size : Nat) (l : Option (Fin 6)) (o : TlbEntry),
    let u := unitOf k
    let g := s.eng u e
    let crc : Word := g.winCrc ^^^ 0xFFFFFFFF
    let next (t : State) : State := t.modEng u e fun g => { g with winAt := g.winAt + 4096, winCrc := 0xFFFFFFFF }
    let windowed := (s.core u).job = some j ∧ s.context j.ctx = some x ∧ (e = .S ∨ e = .V) ∧ g.started = true ∧
      g.winAt + 4096 ≤ g.scycle
    let entry : List Byte := [0x02, BitVec.ofNat 8 k.val, if e = .S then 0 else 1, 0] ++ toBytes 4 crc.toNat ++
      toBytes 8 (g.winAt + 4096)
    let seen := CMap.get 0 x.arrivals (windowKey k e)
    let log := logEntries (x.recUsed / 16) (s.devRead x (x.logBase.toNat + 64) x.recUsed)
    let want : Word := BitVec.ofNat 32 (ofBytes ((w.drop 4).take 4))
    let mine (t : TlbEntry) : Bool := t.vd = vd && t.maps c va.toNat
    let micro (t : State) (o : TlbEntry) : State := match l with
      | none => t
      | some l => t.modCore (unitOf (coreAt vd l)) fun c => { c with mtlb := o :: c.mtlb.take 255 }
    let asked := s.walkAsked (endOfVd vd) x va.toNat x.root.toNat 4
    let walked : TlbEntry := { vd := vd, ctx := c, base := va.toNat / size * size, size := size, leaf := leaf }
    ((s.core u).dbg = some d → d.stopped = false → (∀ p, d.at_ = some p → p.2 ≤ (s.eng u p.1).scycle) →
      (∃ t, exec (.debugStopEdge k) s = .next t ∧ (t.core u).dbg = some { d with stopped := true } ∧
        (t.core u).halted = true) ∧
      ((s.core u).trcctl.getLsbD 2 = false →
        exec (.debugStopEdge k) s = .next (s.modCore u fun c => { c with dbg := some { d with stopped := true } }))) ∧
    (windowed → x.recMode = .record →
      (e = .S → s.appendsOut u = false) →
      (x.recState = 0 → exec (.recordWindow k e) s = .next (next (s.logEntry (endOf u) j.ctx x u g.scycle entry))) ∧
      (x.recState ≠ 0 → exec (.recordWindow k e) s = .next (next s))) ∧
    (windowed → x.recMode = .replay →
      (x.recState ≠ 2 → exec (.replayWindowCheck k e) s = .next (next s)) ∧
      (x.recState = 2 → firstWindow k e log seen = none →
        exec (.replayWindowCheck k e) s = .next (next ((s.freeMode (endOf u) j.ctx x).trace u (replayEnd u g.scycle)))) ∧
      (x.recState = 2 → firstWindow k e log seen = some w → want = crc → exec (.replayWindowCheck k e) s =
        .next (next (s.setContext j.ctx (some { x with arrivals := CMap.set 0 x.arrivals (windowKey k e) (seen + 1) })))) ∧
      (x.recState = 2 → firstWindow k e log seen = some w → want ≠ crc → exec (.replayWindowCheck k e) s =
        .next (next ((s.freeMode (endOf u) j.ctx x).trace u (divergeRecord k e want crc g.scycle))))) ∧
    (s.context c = some x → va.toNat < 2 ^ 57 →
      (s.tlb.find? mine = none → s.walkFrom x va.toNat x.root.toNat 4 = some (leaf, size) →
        exec (.translationWalk ⟨vd, l⟩ c va) s = .next (micro { asked with
          tlb := walked :: (s.tlb.filter fun t => t.vd = vd).take 8191 ++ s.tlb.filter fun t => t.vd ≠ vd } walked)) ∧
      (s.tlb.find? mine = none → s.walkFrom x va.toNat x.root.toNat 4 = none →
        exec (.translationWalk ⟨vd, l⟩ c va) s = .next asked) ∧
      (s.tlb.find? mine = some o → exec (.translationWalk ⟨vd, l⟩ c va) s = .next (micro s o)))

/-! Dies, devices and the peer package. -/

/-- R174, R187, R251, R258, R259, R278, R279: a heartbeat that reaches the CFM is noted; a die without one for 150 µs, or without its rail,
is LOST and runs nothing. A failure of die-shared SRAM, of the memory channel or of all six cores puts a HEALTHY die in umbra.
Rotation chooses a die and tests it once it is empty, or skips it after 10 ms; a die that passes its test, no repair being left
without a spare, serves again, recalibrated and with zero scratchpads. The model's choices: ROTATION is given to NORMAL slots alone, and
scratchpads are zero after a test (log 84); a chosen die stays HEALTHY until its test begins (log 96); a released die stays UMBRA while it
is tested (log 49). -/
def Obligations.DiesFailRotateAndPassTheirTests : Prop :=
  ∀ (s : State) (vd : Vd) (passed : Bool) (l : Fin 6) (k : SlotId) (info : McInfo) (o : Nat),
    let u := unitOf (coreAt vd l)
    let beat := s.send (endOfVd vd) 8 3 64 .other
    let ok := passed = true ∧ (s.die vd).full = false
    let st (t : State) : DieState := (t.die vd).state
    let dev := devOfDie s.md.mode vd
    let lost (i : Instr) : Prop := st s ≠ .lost → ∃ t, exec i s = .next t ∧ st t = .lost ∧ (t.core u).health = .umbra ∧ t.mem = s.mem
    let lit := st s = .healthy
    let choice := s.cfm.rotPeriod ≠ 0 ∧ s.cfm.rotDie = none ∧ s.cfm.phase[dev] = .idle ∧ s.mustReconfigure dev = false ∧ lit ∧
      vd ∈ s.dieListOf dev ∧ s.visitDue vd = true ∧ s.rotationFits dev vd = true
    (st s ≠ .lost → exec (.dieHeartbeat vd) s = .next
      (if beat.1 then beat.2.setDie vd { beat.2.die vd with lastBeat := beat.2.time } else beat.2)) ∧
    ((s.die vd).lastBeat + 150000 ≤ s.time → lost (.dieHeartbeatTimeout vd)) ∧
    (s.time < (s.die vd).lastBeat + 150000 → exec (.dieHeartbeatTimeout vd) s = .next s) ∧
    lost (.dieRailFault vd) ∧
    (s.cutOff vd = true → lost (.dieHealthEvent vd .pathDown)) ∧
    (lit → ∃ t, exec (.dieHealthEvent vd (.sharedSram info)) s = .next t ∧ st t = .umbra ∧ (t.core u).health = .umbra ∧
      t.cfm.records = s.cfm.records ++ [mcRecord s.time (BitVec.ofNat 8 (vd.val * 16 + 14)) info]) ∧
    (lit → exec (.dieHealthEvent vd .channelFault) s = .next (s.setDieState vd .umbra)) ∧
    (lit → (∀ l, (s.core (unitOf (coreAt vd l))).health = .umbra) →
      exec (.dieHealthEvent vd .coreUmbra) s = .next (s.setDieState vd .umbra)) ∧
    (exec (.dieHealthEvent vd .messageLost) s = .next (s.logMc (.dieHealth (BitVec.ofNat 8 vd.val)))) ∧
    (choice → ∃ t, exec (.rotationVisit vd) s = .next t ∧ t.cfm.rotDie = some vd ∧ t.cfm.rotSince = s.time ∧
      (t.die vd).stopDispatch = true ∧ st t = .healthy ∧ (t.slot k).state = (s.slot k).state) ∧
    (s.cfm.rotDie = some vd → lit → s.dieBusy vd = false → ∃ t, exec (.rotationVisit vd) s = .next t ∧ st t = .selftest ∧
      (t.die vd).full = false ∧ (k ∈ s.openSlots dev → (s.slot k).state = .normal → (t.slot k).state = .rotation) ∧
      ((s.slot k).state ≠ .normal → (t.slot k).state = (s.slot k).state)) ∧
    (s.cfm.rotDie = some vd → lit → s.dieBusy vd = true → s.cfm.rotSince + 10000000 ≤ s.time →
      ∃ t, exec (.rotationSkip vd) s = .next t ∧ t.cfm.rotDie = none ∧ (t.die vd).stopDispatch = false ∧ st t = .healthy) ∧
    (st s = .selftest ∨ (st s = .umbra ∧ (s.die vd).testing = true) → ∃ t, exec (.selftestEnd vd passed) s = .next t ∧
      (ok → st t = .healthy) ∧ (¬ ok → st t = .umbra) ∧ (t.die vd).testing = false ∧
      (s.cfm.rotDie = some vd → t.cfm.rotDie = none) ∧
      (o < 2 ^ 24 → t.rawByte (keyScratch (coreAt vd l) o) = 0) ∧
      (ok → (t.core u).health = .live ∧ (t.core u).step = 0 ∧ (t.core u).eS.replays = 0 ∧ (t.core u).eV.escal = 0))

/-- R269 to R277, R282: a device that holds a die gone for good drains its slots, but for those in NOFIT, and, once the aborted jobs have
ended, restores them: its die list is the HEALTHY dies of its mode, its DRAM holds nothing that is specified, and its translations are
gone. A further fault while it restores returns it to the drain. A package whose scheduler
cores have both failed, or whose open slots have no fitting level, stops every job. A checkpoint advances LAST and writes its image at
the keepers, with a message for each 4 KiB that crosses the fabric; LASTPEER follows the oldest copy that the peer acknowledges, while the
peer is UP or SUSPECT. FAILED goes to the host over the side-band. The model's choices: the sequence in two steps (log 48); a checkpoint
taken and written in one step (log 35); slots in NOFIT stay there, where R275 sets DRAINING in every open slot (log 105); a package
with no open slot has not failed (log 97); the channel of FAILED (log 98). -/
def Obligations.DevicesReconfigureAndCheckpointsAreWritten : Prop :=
  ∀ (s : State) (d : DevId) (k : SlotId) (vd : Vd) (c : CoreId) (n : Word) (rest : List Word) (tb : LevelTable) (i : Nat)
    (more : List Nat),
    let again := s.mustReconfigure d = true ∧ s.cfm.phase[d] ≠ .drain
    let ended := s.cfm.phase[d] = .drain ∧ s.settled d = true
    let fails := s.packageFails = true ∧ s.cfm.pkgFailed = false
    let x := s.slot k
    let seq : BitVec 24 := if x.last + 1 = 0 then 1 else x.last + 1
    let image := s.takeImage k seq.toNat
    let heard := s.cfm.peer = .up ∨ s.cfm.peer = .suspect
    let before (vd : Vd) : List CkptImage := ((x.images.find? fun p => p.1 = vd).map (·.2)).getD []
    let moved := (s.keepers (s.slotDev k)).foldl (fun s vd => s.moveImage (s.slotDev k) (endOfVd vd) true (s.slot k).ranges) s
    let kept := (s.keepers (s.slotDev k)).map fun vd => (vd, image :: (before vd).take 1)
    (again → ∃ t, exec (.reconfiguration d) s = .next t ∧ t.cfm.phase[d] = .drain ∧
      (k ∈ s.openSlots d → (t.slot k).state = if x.state = .nofit then .nofit else .draining)) ∧
    (¬ again → exec (.reconfiguration d) s = .next s) ∧
    (ended → ∃ t, exec (.reconfigRestore d) s = .next t ∧ t.cfm.phase[d] = .restore ∧
      (k ∈ s.openSlots d → (t.slot k).state = if x.state = .nofit then .nofit else .restoring) ∧
      t.md.dieList[d] = (fullList s.md.mode d).filter (fun vd => (s.die vd).state = .healthy) ∧
      (vd ∈ s.md.dieList[d] → (t.die vd).epoch = (s.die vd).epoch + 1) ∧
      ∀ e ∈ t.tlb, ∀ x, s.context e.ctx = some x → x.dev ≠ d) ∧
    (s.cfm.phase[d] = .restore → ∃ t, exec (.reconfigRestore d) s = .next t ∧ t.cfm.phase[d] = .idle ∧
      t.md.dieList = s.md.dieList) ∧
    (¬ ended → s.cfm.phase[d] ≠ .restore → exec (.reconfigRestore d) s = .next s) ∧
    (fails → ∃ t, exec .packageFailure s = .next t ∧ t.cfm.pkgFailed = true ∧
      t.mc.sideBand = s.mc.sideBand ++ Config.failedAnswer ∧ ((s.core (unitOf c)).sending = false → (t.core (unitOf c)).job = none)) ∧
    (¬ fails → exec .packageFailure s = .next s) ∧
    (x.ckptPending = n :: rest → x.table = some tb → tb.pmir = false ∨ (s.cfm.peer ≠ .up ∧ s.cfm.peer ≠ .suspect) → exec (.checkpointWrite k) s = .next
      (moved.modSlot k fun x => { x with ckptPending := rest, last := seq, images := kept })) ∧
    (x.ckptPending = n :: rest → x.table = some tb → tb.pmir = true → heard → exec (.checkpointWrite k) s = .next
      ((moved.modSlot k fun x => { x with
        ckptPending := rest, last := seq, images := kept, mirrored := image :: x.mirrored.take 1, mirroring := true,
        unacked := x.unacked ++ [seq.toNat], mirrorErr := 0 }).sendCopy k seq.toNat (copyMessages tb))) ∧
    (x.unacked = i :: more → heard → exec (.checkpointMirrorAck k) s = .next
      (s.modSlot k fun x => { x with lastPeer := BitVec.ofNat 24 i, unacked := more, mirroring := more ≠ [] })) ∧
    (x.unacked = [] ∨ ¬ heard → exec (.checkpointMirrorAck k) s = .next s)

/-- R196, R280 to R282: heartbeats are sent until the package has failed. One that arrives makes the peer UP unless it is LOST; three
periods without one make it SUSPECT and its MC is asked; an answer ALIVE makes it PARTITIONED, FAILED or no answer in 2 ms LOST, and
a shadow slot with an image that a HEALTHY keeper holds whole is taken over (`takeSlot`). Only the host makes a LOST peer UP again. The
MC of this package answers likewise. The
model's choices: PEER_LOST_TO_UP leaves the time of the last heartbeat (log 52); SUSPECT and PARTITIONED go into the MC's log (log 106). -/
def Obligations.PeerStateFollowsHeartbeatsAndAnswers : Prop :=
  ∀ (s : State) (h : MbHdr) (d : DevId),
    let c := s.cfm
    let peer (p : PeerState) : State := { s with cfm := { c with peer := p } }
    let may := s.takes h 0x34 = true ∧ h.fn = .pf d ∧ strayByte h false = none
    let lost : State := (List.finRange 48).foldl State.takeSlot (peer .lost)
    (c.pkgFailed = false → exec .peerHeartbeatSend s =
      .next (({ s with cfm := { c with beatsSent := c.beatsSent + 1 } } : State).sendPeer 5 .other).2) ∧
    (c.pkgFailed = true → exec .peerHeartbeatSend s = .next s) ∧
    (s.fab.portDown = (true, true) → exec .peerHeartbeat s = .next s) ∧
    (s.fab.portDown ≠ (true, true) → c.peer ≠ .lost →
      exec .peerHeartbeat s = .next { s with cfm := { c with lastPeerBeat := s.time, peer := .up } }) ∧
    (c.peer = .up → c.lastPeerBeat + 3000000 ≤ s.time → exec .peerHeartbeatMiss s = .next
      (({ s with cfm := { c with peer := .suspect, peerSince := s.time } } : State).logMc .peer)) ∧
    (s.time < c.lastPeerBeat + 3000000 → exec .peerHeartbeatMiss s = .next s) ∧
    (c.peer = .suspect → exec (.peerQueryAnswer true) s = .next
      (({ s with cfm := { c with peer := .partitioned, peerEvents := c.peerEvents ++ [s.time] } } : State).logMc .peer)) ∧
    (c.peer = .suspect → (∀ k, (s.slot k).shadow = false) → exec (.peerQueryAnswer false) s = .next (peer .lost) ∧
      (c.peerSince + 2000000 ≤ s.time → exec .peerQueryTimeout s = .next (peer .lost))) ∧
    (c.peer = .suspect → exec (.peerQueryAnswer false) s = .next lost ∧
      (c.peerSince + 2000000 ≤ s.time → exec .peerQueryTimeout s = .next lost)) ∧
    (∀ k tb im more, (s.slot k).shadow = true → (s.slot k).open_ = false → (s.slot k).table = some tb →
      s.soundImages k (s.slot k).peerImages = im :: more → ((s.takeSlot k).slot k).open_ = true ∧
        ((s.takeSlot k).slot k).shadow = false ∧ ((s.takeSlot k).slot k).last = BitVec.ofNat 24 im.seq) ∧
    (c.peer ≠ .suspect → exec (.peerQueryAnswer true) s = .next s ∧ exec (.peerQueryAnswer false) s = .next s ∧
      exec .peerQueryTimeout s = .next s) ∧
    (may → c.peer = .lost → exec (.peerLostToUp h) s = .next ((peer .up).respond h 0x34 0 0xFFFFFFFF [])) ∧
    (may → c.peer ≠ .lost → exec (.peerLostToUp h) s = .next (s.respond h 0x34 1 0xFFFFFFFF [])) ∧
    exec .peerMcQuery s = .next { s with mc := { s.mc with answer := some (!c.pkgFailed) } } ∧
    exec (.peerPortDown false) s = .next { s with fab := { s.fab with portDown := (true, s.fab.portDown.2) } } ∧
    exec (.peerPortDown true) s = .next { s with fab := { s.fab with portDown := (s.fab.portDown.1, true) } } ∧
    exec (.peerPortUp false) s = .next { s with fab := { s.fab with portDown := (false, s.fab.portDown.2) } } ∧
    exec (.peerPortUp true) s = .next { s with fab := { s.fab with portDown := (s.fab.portDown.1, false) } }

/-! The fabric. -/

/-- R178, R180 to R185, R187, R196: the facets that a source forms pass every check, and the data facets hold the message. A bad or late
facet is counted and discarded. The first facet of a message opens a buffer; the k-th
decodes it, and the message is delivered when its SEQ is next. A message not decoded 2 µs after its timer began is LOST and its source
is told first.
Acknowledgements free what they cover; a loss notice, or 6 µs without an acknowledgement, makes the source declare the loss. The model's
choices: the notice is the next step
of the schedule, before the rounds (logs 1, 51), and a late facet is LATE whatever else it says (log 75). -/
def Obligations.FacetsAreDecodedAndLossesDeclared : Prop :=
  ∀ (s : State) (dst src : Endpoint) (f : Facet) (b : DecodeBuf) (cls : BitVec 3) (seq upto : Word) (vd : Vd) (o : Sent)
    (at_ : Module) (g : Flow) (data : List Byte) (id : Half),
    let e := s.endPt dst
    let rate := s.classRate cls
    let formed := facetsOf src dst cls rate.1 rate.2 id seq data
    let fl := s.flow src dst f.cls
    let idle := e.ingress = [] ∧ e.timers = [] ∧ e.decoded = [] ∧ fl.lostAhead = []
    let good := f.srcNo = src.val ∧ f.bad dst = false ∧ f.seq = fl.release
    let fresh := (∀ b ∈ e.bufs, b.is src f.cls f.seq = false) ∧ e.used f.cls < 64
    let msg (bytes : List Byte) : Message := { src := src, cls := f.cls, seq := f.seq, msgid := f.msgid, bytes := bytes }
    let parts := b.facets ++ [(f.index.toNat, f.payload)]
    let w := s.flow src dst cls
    let acks := s.fab.flows.filter fun f => f.src = src && f.dst = dst && !f.outstanding.isEmpty
    let declares (i : Instr) : Prop := ∃ t, exec i s = .next t ∧
      (t.flow src dst cls).outstanding = w.outstanding.erase o ∧
      (cls.toNat < 4 → src.val = vd.val → (t.die vd).lost = min 0xFFFF ((s.die vd).lost + 1))
    (cls.toNat < 4 → 0 < data.length → data.length ≤ 4096 → formed.length = rate.1 + rate.2 ∧
      (∀ f ∈ formed, f.bad dst = false ∧ f.srcNo = src.val ∧ f.cls = cls ∧ f.seq = seq ∧ f.msgid = id) ∧
      decodeFacets data.length rate.1 ((formed.take rate.1).map fun f => (f.index.toNat, f.payload)) = data) ∧
    (e.ingress = [] → f.bad dst = true → exec (.facetArrival dst ⟨f, at_⟩) s = .next (s.countFab dst f.cls 16 1)) ∧
    (e.ingress = [] → f.srcNo = src.val → f.bad dst = false → s.facetLate dst src f.cls f.seq = true →
      exec (.facetArrival dst ⟨f, at_⟩) s = .next (s.countFab dst f.cls 32 1)) ∧
    (idle → good → fresh → 2 ≤ f.k → exec (.facetArrival dst ⟨f, at_⟩) s = .next (s.setEndPt dst { e with bufs := e.bufs ++
      [{ src := src, cls := f.cls, seq := f.seq, msgid := f.msgid, k := f.k, m := f.m, len := f.len.toNat,
         facets := [(f.index.toNat, f.payload)], since := s.time }] })) ∧
    (idle → good → fresh → f.k = 1 → f.index = 0 → ∃ t, exec (.facetArrival dst ⟨f, at_⟩) s = .next t ∧
      (t.endPt dst).delivered = e.delivered ++ [msg (f.payload.take f.len.toNat)] ∧ (t.flow src dst f.cls).release = f.seq + 1) ∧
    (idle → good → (e.bufs.find? fun b => b.is src f.cls f.seq) = some b → b.len = f.len.toNat → b.k = f.k → b.m = f.m →
      b.msgid = f.msgid → (∀ g ∈ b.facets, g.1 ≠ f.index.toNat) → b.k = b.facets.length + 1 →
      ∃ t, exec (.facetArrival dst ⟨f, at_⟩) s = .next t ∧ (t.endPt dst).delivered = e.delivered ++
        [msg (((List.range b.k).flatMap (gfDecode (facetLen b.len b.k) parts)).take b.len)]) ∧
    (s.facetLate dst src cls seq = false → (e.begun src cls seq).any (fun t => t + 2000 * timerScale cls ≤ s.time) = true →
      e.ingress = [] → e.decoded = [] → ∃ t, exec (.decodeTimeout dst src cls seq) s = .next t ∧
        (cls.toNat < 4 → s.ctlUp dst src = true → t.schedule.head? = some (.event (.lossNotice src dst cls seq))) ∧
        (t.endPt dst).bufs = e.bufs.filter (fun b => !b.is src cls seq)) ∧
    (src ≠ dst → acks = [] → exec (.flowAckSend dst src) s = .next s) ∧
    (src ≠ dst → acks = [g] → exec (.flowAckSend dst src) s = .next
      (if (s.send dst src 3 64 .ack).1 then (s.send dst src 3 64 .ack).2.follow [.flowAck src dst g.cls g.release]
       else (s.send dst src 3 64 .ack).2)) ∧
    (w.outstanding ≠ [] → exec (.flowAck src dst cls upto) s = .next (s.setFlow { w with
      outstanding := w.outstanding.filter fun o => o.seq = upto || 2 ^ 31 ≤ (upto - o.seq).toNat })) ∧
    (w.outstanding.find? (fun o => o.seq = seq) = some o → declares (.lossNotice src dst cls seq) ∧
      (o.at_ + 6000 * timerScale cls ≤ s.time → declares (.sourceAckTimeout src dst cls seq)))

/-- R172, R174, R187, R188, R258, R259: when a module goes down every path over it is DOWN until it is up again, and a die whose last path
to H went down is LOST, and the facets under way on them do not arrive; a path through a position without its rail stays DOWN; a degraded
lane only stands in its list; command 0x70
sets every fabric counter to zero. -/
def Obligations.PathsLanesAndCountersChange : Prop :=
  ∀ (s : State) (a b x y : Endpoint) (p q : Fin 3) (n : Nat) (m : Module) (hub : Bool) (o : Fin 10) (vd : Vd) (h : MbHdr) (d : DevId),
    let less := s.markDown fun r => r.modules.contains m
    let dead : Prop := ∃ v, (s.die v).railOn = false ∧ (s.route a b p).meets (s.posOf v) = true
    let lane : Module := if hub then .hub o else .ring o
    let reset : Prop := hub = true ∧ s.md.dark.getLsbD o.val = true
    ((s.route a b p).modules[n]? = some m → ∃ t, exec (.pathDown a b ⟨p, n⟩) s = .next t ∧ t.fab = less.fab ∧
      t.fab.appends = (s.fab.appends.map fun y => { y with facets := y.facets.filter fun f => !(allPaths.contains f.1 &&
        (s.route f.1.1 f.1.2.1 f.1.2.2).modules.contains m && !s.fab.down.contains f.1) }) ∧
      (x < y → m ∈ (s.route x y q).modules → t.pathUp x y q = false) ∧
      (x < y → m ∉ (s.route x y q).modules → t.pathUp x y q = s.pathUp x y q) ∧
      ((∃ q, s.pathUp (endOfVd vd) 8 q = true) → less.cutOff vd = true → (t.die vd).state = .lost)) ∧
    ((s.route a b p).modules[n]? = none → exec (.pathDown a b ⟨p, n⟩) s = .next s) ∧
    (¬ dead → ∃ t, exec (.pathUp a b p) s = .next t ∧ t.pathUp a b p = true ∧
      t = { s with fab := { s.fab with down := s.fab.down.filter (· ≠ s.pathKey a b p) } }) ∧
    (dead → exec (.pathUp a b p) s = .next s) ∧
    (¬ reset → lane ∉ s.fab.degraded →
      exec (.laneDegrade hub o) s = .next { s with fab := { s.fab with degraded := lane :: s.fab.degraded } }) ∧
    (reset ∨ lane ∈ s.fab.degraded → exec (.laneDegrade hub o) s = .next s) ∧
    (s.takes h 0x70 = true → h.fn = .pf d → strayByte h false = none → exec (.clearFabricCounters h) s = .next
      (({ s with fab := { s.fab with ends := s.fab.ends.map fun e => { e with cnt := [0, 0, 0, 0] } } } : State).respond
        h 0x70 0 0xFFFFFFFF []))

/-! Sensors, time and power. -/

/-- R21, R284, R286, R288, R316, R317, R318: a sensor write that fits its region, comes from the buffer's requester and may be made by the
requester's world is stored and opens or extends the buffer; any other is dropped whole and counted, and one that the ownership denies
takes the TDI of its world to ERROR. The buffer's record follows its end, which only its requester may write. Power and
temperature move the clock steps by 50 MHz at most once in 1 ms; above 115 °C the die shuts down. The model's choices: a free-running
source takes no correction (log 61); what is dropped, whole writes and ENDs without a buffer or room in a ring (log 62); bytes are stored as
they come (log 70); the mean is over the readings there are (log 8); one timer holds back lowering, raising and the event (log 93). -/
def Obligations.SensorsTimeAndPowerAreKept : Prop :=
  ∀ (s : State) (k : SlotId) (o : BitVec 24) (bs : List Byte) (req : Requester) (len : Dword) (r : Ring) (off : Int) (mw deg : Nat)
    (temps : List Nat) (rails : List (Nat × Nat)) (vd : Vd),
    let x := s.slot k
    let a := x.senBase.toNat + o.toNat
    let drop : State := s.modSlot k fun x => { x with senDrops := min 0xFFFF (x.senDrops + 1) }
    let w := s.requesterWorld req
    let his := x.senOpen = none ∨ x.senOpen = some req.id
    let fits := o.toNat + bs.length ≤ x.senSize ∧ his ∧ s.senInside k a bs.length = true
    let done (t : State) : State := t.modSlot k fun x => { x with senLen := none, senSeq := x.senSeq + 1 }
    let record : List Byte := [BitVec.ofNat 8 k.val, 0] ++ toBytes 2 x.senDrops ++ toBytes 4 x.senSeq.toNat ++
      toBytes 8 x.senFirst.toNat ++ toBytes 8 x.senLast.toNat ++ toBytes 8 len.toNat
    let samples := (mw :: s.mc.samples).take 10
    let above := 200000 * samples.length < samples.sum
    let below := samples.sum < 190000 * samples.length
    let m0 : Mc := { s.mc with samples := samples, rails := rails }
    let due := s.mc.lastStepAt + 1000000 ≤ s.time
    let power (n : Nat) : State := ({ s with mc := { m0 with step := n, lastStepAt := s.time } } : State).logMc (.power n)
    let die := s.die vd
    (fits → s.senOwned k w a bs.length = true → exec (.sensorWrite k o bs req) s = .next ((s.writeLoc w (.dram (s.slotDev k) a) bs).modSlot k fun x =>
      { x with senOpen := some req.id, senLast := dw s.time, senFirst := if x.senOpen.isSome then x.senFirst else dw s.time })) ∧
    (¬ fits → exec (.sensorWrite k o bs req) s = .next drop) ∧
    (fits → s.senOwned k w a bs.length = false → exec (.sensorWrite k o bs req) s = .next (drop.failTdi w)) ∧
    (x.senOpen = none → exec (.sensorEnd k ⟨len, req⟩) s = .next s) ∧ (¬ his → exec (.sensorEnd k ⟨len, req⟩) s = .next drop) ∧
    (x.senOpen = some req.id → exec (.sensorEnd k ⟨len, req⟩) s = .next ((s.modSlot k fun x =>
      { x with senOpen := none, senLen := some len }).follow [.sensorRecord k])) ∧
    (x.senLen = some len → x.senRing = some r → s.ringRoom r = true → exec (.sensorRecord k) s =
      .next (done ((s.ringWrite r record).modSlot k fun x => { x with senRing := some { r with count := r.count + 1 }, senDrops := 0 }))) ∧
    (x.senLen = some len → (x.senRing = none ∨ ∃ r, x.senRing = some r ∧ s.ringRoom r = false) →
      exec (.sensorRecord k) s = .next (done drop)) ∧
    (s.mc.source = .freeRunning → exec (.timeCorrection off) s = .next s) ∧
    (s.mc.source ≠ .freeRunning → 1000000 ≤ off →
      exec (.timeCorrection off) s = .next { s with time := s.time + off.toNat, mc := { s.mc with slew := 0 } }) ∧
    (s.mc.source ≠ .freeRunning → off < 1000000 →
      exec (.timeCorrection off) s = .next { s with mc := { s.mc with slew := off } }) ∧
    (¬ due ∨ (¬ above ∧ ¬ below) → exec (.mcSample mw ⟨[], rails⟩) s = .next { s with mc := m0 }) ∧
    (due → above → 600 < s.mc.step → exec (.mcSample mw ⟨[], rails⟩) s = .next (power (s.mc.step - 50))) ∧
    (due → above → s.mc.step ≤ 600 → ∃ t, exec (.mcSample mw ⟨[], rails⟩) s = .next t ∧ t.mc.step = s.mc.step ∧
      t.cfm.records.length = s.cfm.records.length + 1 ∧ t.mc.log = s.mc.log ++ [(s.time, .powerLimit)]) ∧
    (due → ¬ above → below → s.mc.step < 1000 → exec (.mcSample mw ⟨[], rails⟩) s = .next (power (s.mc.step + 50))) ∧
    (temps[vd.val]? = some deg → ∃ t, exec (.mcSample mw ⟨temps, rails⟩) s = .next t ∧ (t.die vd).temp = deg ∧
      (115 < deg → die.railOn = true → (t.die vd).railOn = false ∧ (t.die vd).state = .lost) ∧
      (deg ≤ 115 → die.thermalAt + 1000000 ≤ s.time →
        (105 < deg → 600 < die.thermal → (t.die vd).thermal = die.thermal - 50) ∧
        (deg < 100 → die.thermal < 1000 → (t.die vd).thermal = die.thermal + 50) ∧
        (100 ≤ deg → deg ≤ 105 → (t.die vd).thermal = die.thermal)))

/-- R13, R14, R264, R319, R444, R445: package reset keeps the MC, its log and time, and starts every other unit anew: cores live and idle, no
context, no mailbox, slots closed, SC0 running from its entry. The boot march test leaves its summary word in each die; a die with a
failing word that was not repaired, or a repair without a spare, is kept in reset, and the others are the package's. With wrong fuses,
images, a manifest or counters that do not verify, or a power failure while fuses are blown, the package is held: its dies are LOST and
nothing runs. The command resets the same. The model's choices: the first turn is SC0's (log 1), its entry is offset 0 (log 4), and what
survives, the state LOST of a die kept in reset and of those of a package that is held (log 63). -/
def Obligations.PackageResetStartsEverythingAnew : Prop :=
  ∀ (s : State) (inp : BootInput) (k : CoreId) (c : CtxId) (q : SlotId) (vd : Vd) (h : MbHdr) (d : DevId),
    let i := Instr.packageReset inp
    let fw := s.mc.firmware.toList.map Firmware.boot
    let m := inp.manifest.getD s.mc.manifest
    let need := fusesNeeded m fw 0
    let boots := darkOk inp.dark = true ∧ bootAccepts m fw = true ∧ need ≤ inp.blows.getD need
    let result := inp.results.getD vd.val 0
    let fails := ∃ l < 6, result.getLsbD l = true ∧ result.getLsbD (8 + l) = false
    (∃ t, exec i s = .next t ∧ t.time = s.time ∧ t.context c = none ∧ t.slot q = Slot.reset ∧ t.port.boxes = [] ∧
      (t.core (unitOf k)).job = none ∧ (t.core (unitOf k)).health = .live ∧ t.md.nodes = [] ∧ t.md.dark = inp.dark ∧
      (∀ e ∈ s.mc.log, e ∈ t.mc.log)) ∧
    (boots → ∃ t, exec i s = .next t ∧ t.schedule = [.engine 48 .S] ∧
      (t.eng 48 .S).started = true ∧ (t.eng 48 .S).pc = 0 ∧ t.md.role0 = .active ∧ t.md.role1 = .standby ∧ t.md.mode = .m1 ∧
      (t.core (unitOf k)).cal = inp.cal ∧ (fails → (t.die vd).state = .lost) ∧
      (¬ fails → inp.repairs = [] → (t.die vd).state = .healthy) ∧
      t.md.dieList[0] = ([0, 4, 1, 5, 2, 6, 3, 7] : List Vd).filter (fun vd => (t.die vd).state = .healthy) ∧
      t.rawBytes (keyScratch (coreAt vd 0) 0) 4 = toBytes 4 (result.toNat % 2 ^ 32)) ∧
    (¬ boots → ∃ t, exec i s = .next t ∧ t.mc.held = true ∧ t.schedule = [] ∧
      (t.die vd).state = .lost ∧ (t.eng 48 .S).started = false ∧ (t.eng 49 .S).started = false) ∧
    (s.takes h 0x71 = true → h.fn = .pf 0 → strayByte h false = none → exec (.packageResetCommand h inp) s = exec i s) ∧
    (s.takes h 0x71 = true → h.fn = .pf d → d ≠ 0 → exec (.packageResetCommand h inp) s = .next (s.respond h 0x71 3 0xFFFFFFFF []))

/-! Trust. -/

/-- R288 to R290, R294: a TDI is locked, which freezes its configuration, then started under a new key. A stop or a function-level reset
of a LOCKED or RUN TDI starts the six steps of its reset; an integrity failure takes a RUN TDI to ERROR and starts five of them, after
which a stop unlocks it. The steps close its slots, clear its cores, erase its keys, end its contexts and lock its granules, zero its
regions of the pane stores, and free the granules as the TDI reports CONFIG_UNLOCKED. No node of the world is left WAITING or READY after the
second step (R456). The model's choices: the keys of IDE are in place at LOCK (log 85), each step is one row (log 56), and a key is
named by its generation (log 45). -/
def Obligations.InterfacesAreLockedStartedAndReset : Prop :=
  ∀ (s : State) (w : World) (t : Tdi) (i : Nat),
    let at_ (st : TdiState) : Prop := s.tdi w = some t ∧ t.state = st
    let begins (i : Instr) (first : Nat) : Prop :=
      exec i s = .next (s.setTdi w (some { t with step := some (t.step.getD first), unlocks := true }))
    let step (n : Nat) (holds : State → Prop) : Prop :=
      s.tdi w = some t → t.step = some n → ∃ r, exec (.worldReset w) s = .next r ∧ holds r
    (at_ .unlocked → exec (.lockInterfaceRequest w) s = .next
      (s.setTdi w (some { t with state := .locked, frozen := s.frozenConfig w, ide := true }))) ∧
    (at_ .locked → t.step = none →
      exec (.startInterfaceRequest w) s = .next ((s.newKey w).setTdi w (some { t with state := .run }))) ∧
    (at_ .locked ∨ at_ .run → begins (.stopInterfaceRequest w) 1 ∧ begins (.flr w) 1) ∧
    (at_ .error → begins (.stopInterfaceRequest w) 6 ∧ begins (.flr w) 6) ∧
    (at_ .run → exec (.ideIntegrityFailure w) s = .next
      (s.setTdi w (some { t with state := .error, step := some (t.step.getD 1) }))) ∧
    step 1 (fun r => r.tdi w = some { t with step := some 2 } ∧ ∀ k, (s.slot k).world = w → (r.slot k).open_ = false) ∧
    step 2 (fun r => ∀ k : CoreId, w ≠ 0 → (r.core (unitOf k)).job = none → (r.core (unitOf k)).lastWorld ≠ w) ∧
    step 2 (fun r => ∀ c id n x, s.context c = some x → x.world = w → r.node c id = some n → n.state ≠ .ready ∧ n.state ≠ .waiting) ∧
    step 3 (fun r => r.port.keyGen[w.toNat] = s.port.lastKey + 1 ∧
      ∀ c x, r.context c = some x → x.world = w → x.key = none) ∧
    step 4 (fun r => (∀ c x, r.context c = some x → x.world ≠ w) ∧
      (∃ u, r.tdi w = some u ∧ u.ide = false ∧ u.locked = s.worldEntries w ∧ u.step = some 5) ∧
      (CMap.wf 0 s.owner = true → i ∈ s.worldEntries w → CMap.get 0 r.owner i = 0x04)) ∧
    step 5 (fun r => (∃ u, r.tdi w = some u ∧ u.step = if t.unlocks then some 6 else none) ∧
      (CMap.wf 0 s.mem = true → ∀ p ∈ t.runs, p.1 ≤ i → i < p.2 → r.rawByte i = 0)) ∧
    step 6 (fun r => r.tdi w = some { t with state := .unlocked, frozen := [], locked := [], step := none, unlocks := false } ∧
      (CMap.wf 0 s.owner = true → i ∈ t.locked → CMap.get 0 r.owner i = 0)) ∧
    (s.tdi w = none ∨ (at_ .unlocked ∧ t.step = none) → exec (.stopInterfaceRequest w) s = .next s ∧ exec (.flr w) s = .next s ∧
      exec (.worldReset w) s = .next s ∧ exec (.ideIntegrityFailure w) s = .next s ∧ exec (.startInterfaceRequest w) s = .next s)

/-- R295 to R297: the responder answers each SPDM message of a requester it knows, in the order of a negotiation: version, capabilities,
algorithms, then the others; digests, certificate and challenge rest on the fused identity key and the alias key of this boot, which the
measured images derive; sessions are opened, finished, given new keys and ended. The order is PRESUMED from the standard (log 44), and
the bytes of an answer that the specification does not fix are free values; the forms of certificate and signature are opaque (log 87). -/
def Obligations.SpdmMessagesAreAnswered : Prop :=
  ∀ (s : State) (p : SpdmPort) (nonce : List Byte) (index : Byte) (id : Word),
    let x := s.spdm p
    let n := s.freeCount
    let told (y : Spdm) (bytes : List Byte) : State := { s with
      freeCount := n + 1,
      port := { s.port with spdm := { y with answer := bytes } :: s.port.spdm.filter fun z => z.port ≠ y.port } }
    let free (i : Instr) (y : Spdm) : Prop := exec i s = .next (told y (Config.freeBytes n))
    let known := s.spdmExists p = true
    let alias_ := Config.aliasKey Config.identityKey (s.mc.firmware.toList.map fun f => Config.sha384 f.active)
    (known → free (.getVersion p) { x with version := true, caps := false, algs := false }) ∧
    (known → x.version = true → free (.getCapabilities p) { x with caps := true }) ∧
    (known → x.caps = true → free (.negotiateAlgorithms p) { x with algs := true }) ∧
    (known → x.algs = true →
      exec (.getDigests p) s = .next (told x (Config.sha384 (Config.certificate Config.identityKey alias_))) ∧
      exec (.getCertificate p) s = .next (told x (Config.certificate Config.identityKey alias_)) ∧
      exec (.challenge p nonce) s = .next (told x (Config.challengeAnswer alias_ nonce n)) ∧
      exec (.getMeasurements p index) s = .next (told x ((s.measurement p index).getD (Config.freeBytes n))) ∧
      free (.keyExchange p id) { x with sessions := (id, false, Config.freeKey n) :: x.sessions.filter fun q => q.1 ≠ id } ∧
      free (.finish p id) { x with sessions := x.sessions.map fun q => if q.1 = id then (q.1, true, q.2.2) else q } ∧
      free (.keyUpdate p id) { x with sessions := x.sessions.map fun q =>
        if q.1 = id && q.2.1 then (q.1, true, Config.freeKey n) else q } ∧
      free (.endSession p id) { x with sessions := x.sessions.filter fun q => q.1 ≠ id }) ∧
    (known → x.version = false → free (.getCapabilities p) x) ∧ (known → x.caps = false → free (.negotiateAlgorithms p) x) ∧
    (known → x.algs = false → free (.keyExchange p id) x ∧ free (.getMeasurements p index) x) ∧
    (s.spdmExists p = false → exec (.getVersion p) s = .next s ∧ exec (.keyExchange p id) s = .next s)

/-! The mailbox. -/

/-- R283, R311 to R313: a command of a function that exists is answered in its mailbox: NOT_PERMITTED where the function may not issue it,
REFUSED with the first byte that should be zero, BAD_CODE for a code of no command; a function that does not exist is not answered.
RESYNC writes the summary and answers JHEAD; error records are acknowledged oldest first. A mailbox whose last command has not ended
takes none; the side-band takes RESYNC and the debug commands, and the MC sends their answers. The model's choices (log 53): the order of the
checks, BAD_CODE for a function of either kind, and a summary of the asking function's device. -/
def Obligations.MailboxCommandsAreAnswered : Prop :=
  ∀ (s : State) (h : MbHdr) (code mode : Byte) (buffer : Dword) (n : Word) (b : Fin 64) (w : World) (st : Byte) (off : Word)
    (res : List Byte),
    let takes (c : Byte) : Prop := s.takes h c = true
    let ok (c : Byte) : Prop := takes c ∧ strayByte h false = none
    let t := s.respond h code st off res
    let bytes := [code, st] ++ toBytes 2 h.tag.toNat ++ toBytes 4 off.toNat ++ (res ++ List.replicate 56 0).take 56
    let sent (s : State) (bs : List Byte) : State := { s with mc := { s.mc with sideBand := s.mc.sideBand ++ bs } }
    (h.path ≠ .mctp → t.port.boxes.find? (fun x => x.fn = h.fn) =
      some { fn := h.fn, tag := h.tag, status := st, busy := false, response := bytes }) ∧
    (h.path = .mctp → t = sent s bytes) ∧
    (s.port.boxes = [] → (s.box h.fn).tag = 0 ∧ (s.box h.fn).status = 0 ∧ (s.box h.fn).busy = false) ∧
    (s.fnExists h.fn = true → h.path = .plain → (s.box h.fn).busy = false → takes code) ∧
    (s.fnExists h.fn = true → h.path = .mctp → h.fn = .pf 0 → (takes code ↔ code = 0x01 ∨ code = 0x50)) ∧
    (takes code → mbCodes.contains code = false → exec (.badCode h code) s = .next (s.respond h code 2 0xFFFFFFFF [])) ∧
    (s.fnExists h.fn = false ∨ (h.path ≠ .mctp ∧ (s.box h.fn).busy = true) →
      exec (.badCode h code) s = .next s ∧ exec (.resync h buffer) s = .next s) ∧
    (takes 0x10 → h.fn = .vf w → exec (.modeSet h mode) s = .next (s.respond h 0x10 3 0xFFFFFFFF [])) ∧
    (takes 0x01 → h.stray = some b → h.ctx = 0 → exec (.resync h buffer) s = .next (s.respond h 0x01 1 (BitVec.ofNat 32 b.val) [])) ∧
    (ok 0x01 → buffer.toNat % 64 = 0 → exec (.resync h buffer) s = .next
      ((if h.path = .mctp then sent s (s.summary (s.fnDev h.fn)) else s.hostWrite buffer.toNat (s.summary (s.fnDev h.fn))).respond
        h 0x01 0 0xFFFFFFFF (toBytes 8 s.md.jhead.toNat))) ∧
    (ok 0x01 → buffer.toNat % 64 ≠ 0 → exec (.resync h buffer) s = .next (s.respond h 0x01 1 8 [])) ∧
    (ok 0x02 → n.toNat ≤ s.cfm.records.length → exec (.ackErrorRecords h n) s = .next
      (({ s with cfm := { s.cfm with records := s.cfm.records.drop n.toNat } } : State).respond h 0x02 0 0xFFFFFFFF
        (toBytes 4 (s.cfm.records.length - n.toNat)))) ∧
    (ok 0x02 → s.cfm.records.length < n.toNat → exec (.ackErrorRecords h n) s = .next (s.respond h 0x02 1 8 []))

/-- R22, R74, R177, R258, R278, R285, R288, R310, R312, R316: the commands of physical functions that set the package's parameters. Each
answers OK and sets what it names, and is REFUSED with the operand's offset, or 0xFFFFFFFF, where its condition does not hold. A change of
mode also starts the reset of each TDI whose frozen ownership entries it clears. The model's choices: a new DRAM key with a new TDI (log 45),
the offsets and the order of refusals (log 53), and a released die that stays UMBRA until its test ends (log 49). -/
def Obligations.ParameterCommandsSetWhatTheyName : Prop :=
  ∀ (s : State) (h : MbHdr) (m : Mode) (mode x y : Byte) (a b : Half) (n : Word) (vd : Vd) (d : DevId) (w : World) (td : Tdi)
    (src : TimeSource),
    let ok := s.fnExists h.fn = true ∧ h.fn = .pf 0 ∧ h.path = .plain ∧ (s.box h.fn).busy = false ∧ strayByte h false = none
    let dev := s.fnDev h.fn
    let yes (i : Instr) (code : Byte) (t : State) : Prop := exec i s = .next (t.respond h code 0 0xFFFFFFFF [])
    let no (i : Instr) (code : Byte) (off : Word) : Prop := exec i s = .next (s.respond h code 1 off [])
    let empty := s.anyContext = false
    let tdi : Byte := w.setWidth 8
    ok →
      (empty → mode = (match m with | .m1 => 1 | .m2 => 2 | .m8 => 8) → yes (.modeSet h mode) 0x10
        ((s.setMode m).thaw ((List.finRange 16).map fun i => BitVec.ofFin i))) ∧
      (empty → mode ≠ 1 → mode ≠ 2 → mode ≠ 8 → no (.modeSet h mode) 0x10 8) ∧
      (s.anyContext = true → no (.modeSet h mode) 0x10 0xFFFFFFFF ∧ no (.testMode h x) 0x13 0xFFFFFFFF) ∧
      (s.devContext dev = false → 1 ≤ a.toNat → a.toNat ≤ 4095 → 1 ≤ b.toNat → b.toNat ≤ 256 → yes (.setLeaseParams h a b) 0x11
        { s with md := { s.md with leaseMax := s.md.leaseMax.set dev (a.setWidth 12), maxChain := s.md.maxChain.set dev (b.setWidth 9) } }) ∧
      (s.devContext dev = false → a = 0 → no (.setLeaseParams h a b) 0x11 8) ∧
      (s.badRate a = false → yes (.setFabrate h a) 0x12 { s with fab := { s.fab with rate := a } }) ∧
      (s.badRate a = true → no (.setFabrate h a) 0x12 8) ∧
      (empty → x.toNat ≤ 1 → yes (.testMode h x) 0x13 { s with port := { s.port with testMode := x = 1 } }) ∧
      (w ≠ 0 → s.tdi w = none → y.toNat = d.val → d ∈ devsOf s.md.mode → ∃ x : Tdi, yes (.createTdi h tdi y) 0x14
        ((s.newKey w).setTdi w (some x)) ∧ x.dev = d ∧ x.state = .unlocked ∧ x.locked = [] ∧ x.step = none) ∧
      ((s.tdi w).isSome = true → no (.createTdi h tdi y) 0x14 8) ∧
      (w ≠ 0 → s.tdi w = some td → td.state = .unlocked → s.worldContext w = false → yes (.destroyTdi h tdi) 0x15 (s.setTdi w none)) ∧
      (w ≠ 0 → s.tdi w = some td → td.state ≠ .unlocked → no (.destroyTdi h tdi) 0x15 8) ∧
      (x.toNat = vd.val → (s.die vd).state = .umbra → yes (.releaseDie h x) 0x32
        (s.setDie vd { s.die vd with testing := true, full := false })) ∧
      (x.toNat = vd.val → (s.die vd).state ≠ .umbra → no (.releaseDie h x) 0x32 8) ∧
      (n.toNat ≤ 3600 → yes (.rotationPeriod h n) 0x33 { s with cfm := { s.cfm with rotPeriod := n.toNat } }) ∧
      (3600 < n.toNat → no (.rotationPeriod h n) 0x33 8) ∧
      (x = (match src with | .freeRunning => 0 | .ieee1588 => 1 | .ptm => 2) →
        yes (.selectTimeSource h x) 0x60 { s with mc := { s.mc with source := src } }) ∧
      (2 < x.toNat → no (.selectTimeSource h x) 0x60 8)

/-- R35, R47, R147, R149, R189, R285, R291, R295, R296, R312, R318, R456: contexts are created from their block, and destroyed with all
that is theirs; translations are dropped by range; ownership entries and weight keys are written; images that a chiplet accepts are
staged, and marked for the next reset. The model's choices: any physical function names any ownership entry (log 55), and the offsets of the
refusals, of create blocks (log 54) and of firmware commands (log 57). -/
def Obligations.ContextOwnershipAndFirmwareCommands : Prop :=
  ∀ (s : State) (h : MbHdr) (block base len : Dword) (c : CtxId) (x : Context) (d : DevId) (first n : Word) (e all sec : Byte) (sid : Word)
    (key : BitVec 256) (i : Nat) (chip : Fin 4) (image : Dword) (size : Word) (w : World),
    let lives := s.fnExists h.fn = true ∧ h.path = .plain ∧ (s.box h.fn).busy = false
    let ok := lives ∧ strayByte h false = none
    let named := strayByte h true = none ∧ h.ctx.toNat = c.val ∧ s.context c = some x ∧ x.fn = h.fn
    let mine := lives ∧ named
    let pf := ok ∧ h.fn = .pf d
    let yes (t : State) (code : Byte) (res : List Byte) : State := t.respond h code 0 0xFFFFFFFF res
    let hit (t : TlbEntry) : Bool := t.ctx = c && (all = 1 || (t.base < base.toNat + len.toNat && base.toNat < t.base + t.size))
    let f := s.mc.firmware[chip]
    let bytes := s.readLoc 0 (.host image.toNat) size.toNat
    let chips : Byte := BitVec.ofNat 8 chip.val
    (pf → block.toNat % 8 = 0 → (List.finRange 64).find? (fun c => (s.context c).isNone) = some c →
      s.blockContext h.fn d block = some x → ∃ t, exec (.createContext h block) s = .next (yes t 0x20 (toBytes 2 c.val)) ∧
        (x.recMode = .off → t = s.setContext c (some x))) ∧
    (pf → block.toNat % 8 ≠ 0 → exec (.createContext h block) s = .next (s.respond h 0x20 1 8 [])) ∧
    (pf → s.blockContext h.fn d block = none → block.toNat % 8 = 0 →
      exec (.createContext h block) s = .next (s.respond h 0x20 1 0xFFFFFFFF [])) ∧
    (mine → ∃ t, exec (.destroyContext h) s = .next (yes t 0x21 []) ∧ t.context c = none ∧ (∀ n ∈ t.md.nodes, n.ctx ≠ c) ∧
      (∀ e ∈ t.tlb, e.ctx ≠ c) ∧ (∀ u : UnitId, ∀ e ∈ (t.core u).mtlb, e.ctx ≠ c) ∧ (∀ a ∈ t.fab.appends, a.ctx ≠ c) ∧ ∀ k, (t.slot k).ctx ≠ some c) ∧
    (mine → all = 1 ∨ (all = 0 ∧ base.toNat % 0x10000 = 0 ∧ len ≠ 0 ∧ len.toNat % 0x10000 = 0) →
      ∃ t, exec (.invalidateTranslations h all base len) s = .next (yes t 0x22 []) ∧ t.tlb = s.tlb.filter (fun t => !hit t) ∧
        ∀ u : UnitId, (t.core u).mtlb = (s.core u).mtlb.filter fun t => !hit t) ∧
    (mine → all = 0 → base.toNat % 0x10000 ≠ 0 →
      exec (.invalidateTranslations h all base len) s = .next (s.respond h 0x22 1 16 [])) ∧
    (lives → strayByte h true = none → h.ctx.toNat = c.val → s.context c = none →
      exec (.destroyContext h) s = .next (s.respond h 0x21 1 4 [])) ∧
    (pf → first.toNat + n.toNat ≤ 196608 → first.toNat < 196608 → e = w.setWidth 8 <<< 4 → s.ownable w = true →
      (∀ i < n.toNat, s.entryFree (first.toNat + i) = true) → ∃ t, exec (.writeOwnership h first n e) s = .next (yes t 0x40 []) ∧
        t.mem = s.mem ∧ (CMap.wf 0 s.owner = true → CMap.get 0 t.owner i =
          if first.toNat ≤ i ∧ i < first.toNat + n.toNat then e else CMap.get 0 s.owner i)) ∧
    (pf → first.toNat < 196608 → first.toNat + n.toNat ≤ 196608 → e.getLsbD 2 = true →
      exec (.writeOwnership h first n e) s = .next (s.respond h 0x40 1 16 [])) ∧
    (s.takes h 0x41 = true → named → h.path = .ide →
      exec (.installWeightKey h 0 sid key) s = .next (yes (s.setContext c (some { x with key := some key })) 0x41 [])) ∧
    (mine → exec (.installWeightKey h 0 sid key) s = .next (s.respond h 0x41 1 8 [])) ∧
    (mine → s.sessionKey h.fn sid = some key → exec (.installWeightKey h 1 sid 0) s =
      .next (yes (s.setContext c (some { x with key := some key })) 0x41 [])) ∧
    (pf → f.accepts bytes = true → exec (.stageFirmware h chips image size) s = .next (yes { s with mc := { s.mc with
      firmware := s.mc.firmware.set chip { f with inactive := bytes, staged := true, marked := false } } } 0x61 [])) ∧
    (pf → f.accepts bytes = false → exec (.stageFirmware h chips image size) s = .next (s.respond h 0x61 1 16 [])) ∧
    (pf → f.staged = true → f.accepts f.inactive = true → ∃ t, exec (.activateFirmware h chips) s = .next (yes t 0x62 []) ∧
      t.mc.firmware[chip] = { f with marked := true }) ∧
    (pf → f.staged = false ∨ f.accepts f.inactive = false →
      exec (.activateFirmware h chips) s = .next (s.respond h 0x62 1 8 [])) ∧
    (pf → 3 < sec.toNat → exec (.activateFirmware h sec) s = .next (s.respond h 0x62 1 8 []))

/-- R55, R266 to R269, R312 to R315, R317, R455: the items of a slot that its function may name. Rings, the sensor region and the context
are set while the slot is closed; SLOTCTL opens it where it may open, and is refused otherwise; a level table without TAKE
ends the slot's shadow; a level raise reconfigures the device with no die lost. A slot of another world, or a context of another function,
is not the function's to name; SLOTCTL with a reserved bit is refused whole. The model's choices: TAKE = 0 ends the shadow, and a refused OPEN
is logged by the MC (log 40); LAST is 0 at open (log 35); offset 16, and when NOT_PERMITTED comes first (log 53). -/
def Obligations.SlotItemsAreSetAndAnswered : Prop :=
  ∀ (s : State) (h : MbHdr) (k : SlotId) (v addr size : Dword) (n : Byte) (c : CtxId) (x : Context) (w : World),
    let slot : Byte := BitVec.ofNat 8 k.val
    let y := s.slot k
    let reaches := s.fnExists h.fn = true ∧ h.path = .plain ∧ (s.box h.fn).busy = false ∧ strayByte h false = none
    let ok := reaches ∧ s.slotDev k = s.fnDev h.fn ∧ (fnWorld h.fn = 0 ∨ y.world = fnWorld h.fn)
    let shut := ok ∧ y.open_ = false
    let yes (t : State) (a b : Nat) : State := t.respond h 0x30 0 0xFFFFFFFF (List.replicate 8 0 ++ toBytes 8 a ++ toBytes 8 b)
    let no (off : Word) : State := s.respond h 0x30 1 off []
    let ring (i : Instr) (at_ most : Nat) (put : Slot → Ring → Slot) : Prop :=
      (shut → addr.toNat % 64 = 0 → 4 ≤ n.toNat → n.toNat ≤ most → exec i s = .next (yes (s.modSlot k fun y =>
        put y { addr := addr, n := n.toNat, count := s.hostDword (addr.toNat + at_) }) addr.toNat n.toNat)) ∧
      (shut → addr.toNat % 64 ≠ 0 → exec i s = .next (no 16)) ∧
      (ok → y.open_ = true → exec i s = .next (no 16))
    let ctl := v &&& ~~~0xCF07 = 0 ∧ v.extractLsb' 8 4 = y.world
    ring (.setSubmissionRing h slot addr n) 8 12 (fun y r => { y with sub := some r }) ∧
    ring (.setCompletionRing h slot addr n) 0 16 (fun y r => { y with comp := some r }) ∧
    ring (.setSensorRecordRing h slot addr n) 0 16 (fun y r => { y with senRing := some r }) ∧
    (shut → addr.toNat % 4096 = 0 → size.toNat ≤ 2 ^ 24 - 4096 → exec (.setSensorRegion h slot addr size) s =
      .next (yes (s.modSlot k fun y => { y with senBase := addr, senSize := size.toNat }) addr.toNat size.toNat)) ∧
    (shut → exec (.setSlotContext h slot 0xFFFFFFFF) s = .next (yes (s.modSlot k fun y => { y with ctx := none }) 0xFFFFFFFF 0)) ∧
    (shut → s.context c = some x → x.fn ≠ h.fn →
      exec (.setSlotContext h slot (BitVec.ofNat 32 c.val)) s = .next (s.respond h 0x30 3 0xFFFFFFFF [])) ∧
    (shut → s.context c = some x → x.fn = h.fn → x.world = y.world → x.dev = s.slotDev k →
      exec (.setSlotContext h slot (BitVec.ofNat 32 c.val)) s =
        .next (yes (s.modSlot k fun y => { y with ctx := some c }) c.val 0)) ∧
    (ok → ∃ t, exec (.setSlotDeadline h slot v) s = .next (yes t v.toNat 0) ∧ (t.slot k) = { y with deadline := v }) ∧
    (ok → ctl → y.open_ = true → v.getLsbD 15 = true → ∃ t, exec (.setSlotCtl h slot v) s = .next (yes t (t.slot k).ctl.toNat 0) ∧
      t.slot k = { y with preempt := v.getLsbD 14, prio := v.extractLsb' 0 3 }) ∧
    (ok → ctl → v.getLsbD 15 = false → ∃ t, exec (.setSlotCtl h slot v) s = .next (yes t (t.slot k).ctl.toNat 0) ∧
      (t.slot k).open_ = false ∧ (t.slot k).preempt = v.getLsbD 14 ∧ (t.slot k).prio = v.extractLsb' 0 3 ∧
      (t.slot k).world = y.world) ∧
    (ok → v &&& ~~~0xCF07 ≠ 0 → exec (.setSlotCtl h slot v) s = .next (no 16)) ∧
    (ok → y.open_ = true → v.extractLsb' 8 4 ≠ y.world → exec (.setSlotCtl h slot v) s = .next (no 16)) ∧
    (shut → v.getLsbD 15 = true → ctl → s.mayOpen k y.world = true → ∃ t,
      exec (.setSlotCtl h slot v) s = .next (yes t (t.slot k).ctl.toNat 0) ∧ (t.slot k).open_ = true ∧ (t.slot k).last = 0) ∧
    (shut → v.getLsbD 15 = true → ctl → s.mayOpen k y.world = false → exec (.setSlotCtl h slot v) s =
      .next ((s.logMc (.openRefused k)).respond h 0x30 1 16 [])) ∧
    (shut → ((s.modSlot k fun y => { y with svt := v }).readLevels k).take = false → exec (.setSlotLevelTable h slot v) s = .next
      (yes (s.modSlot k fun y => { y with svt := v, shadow := false, reserved := 0, table := none, peerImages := [] }) v.toNat 0)) ∧
    (ok → y.open_ = true → exec (.setSlotLevelTable h slot v) s = .next (no 16)) ∧
    (ok → h.fn = .pf (s.slotDev k) → ∃ t, exec (.raiseLevel h slot) s =
      .next ((t.respond h 0x31 0 0xFFFFFFFF [(t.slot k).level.setWidth 8])) ∧ t = s.raiseLevels (s.slotDev k)) ∧
    (ok → h.fn = .vf w → exec (.raiseLevel h slot) s = .next (s.respond h 0x31 3 0xFFFFFFFF [])) ∧
    (reaches → fnWorld h.fn ≠ 0 → y.world ≠ fnWorld h.fn →
      exec (.setSlotDeadline h slot v) s = .next (s.respond h 0x30 3 0xFFFFFFFF []))

/-- R301 to R304, R309: the debug commands, which a core of a world other than 0 takes over the IDE stream of that world's TDI alone: a stop
at an engine's cycle or at once, on the next edge; the image read and written back, registers written and dumps taken while the core is
stopped; and the resumption, for a number of cycles or without end. A write of an image sets everything but SCYCLE from its bytes. Any other
function is turned away, with the header of a stop record where it named a buffer. The model's choices: the layout of the blocks whose layout
the specification does not give, and free bytes drawn anew each time (log 30); refusals of a core that is not stopped, offset 32 for SCYCLE,
the 32 bytes of the header, and the attaching (log 58); a debugger stays attached (log 102); the order of a dump (log 59). -/
def Obligations.DebugCommandsStopReadWriteAndResume : Prop :=
  ∀ (s : State) (h : MbHdr) (k : CoreId) (e : Eng) (n : BitVec 5) (v buffer : Dword) (i : Nat) (s0 : State),
    let u := unitOf k
    let written := s.readLoc 0 (.host buffer.toNat) 0x69000
    let core : Byte := BitVec.ofNat 8 k.val
    let eng : Byte := match e with | .S => 0 | .V => 1 | .M => 2 | .C => 3
    let c := s.core u
    let reaches := s.takes h 0x50 = true ∧ strayByte h false = none ∧ devOfDie s.md.mode (dieOf u) = s.fnDev h.fn
    let held := s.debugWorld u
    let ok := reaches ∧ (held = none ∨ (held = some 0 ∧ fnWorld h.fn = 0) ∨ (held ≠ none ∧ h.path = .ide ∧ held = some (fnWorld h.fn)))
    let still := ok ∧ c.isStopped = true
    let yes (t : State) (a : Nat) : State := t.respond h 0x50 0 0xFFFFFFFF (toBytes 8 a)
    let no (off : Word) : State := s.respond h 0x50 1 off []
    let stops (a : Option (Eng × Nat)) : State := s.modCore u fun c =>
      { c with debugger := some { world := fnWorld h.fn, ide := h.path = .ide }, dbg := some { at_ := a, stopped := false } }
    let image := s.stopImage u
    (ok → c.isStopped = false → exec (.debugStop h core 0xFF v) s = .next (yes (stops none) 0)) ∧
    (ok → c.isStopped = false → (c.eng e).scycle < v.toNat →
      exec (.debugStop h core eng v) s = .next (yes (stops (some (e, v.toNat))) 0)) ∧
    (still → exec (.debugImageRead h core buffer) s = .next (yes (s.drewImage.toBuffer h buffer image) image.length)) ∧
    image.length = 0x69000 ∧
    (still → ∃ more, let counted := s.countConflicts u
      let bs := counted.stopImage u ++ more
      exec (.debugDump h core buffer) s = .next (yes (counted.drewImage.toBuffer h buffer bs) bs.length)) ∧
    (still → ∃ t, exec (.debugImageWrite h core buffer) s = .next (yes t 0x69000) ∧ t.mem = s.mem ∧
      (t.eng u e).scycle = (c.eng e).scycle ∧
      (i < 1024 → ((t.core u).vmain[n.toNat]).toList[i]? = some (BitVec.ofNat 32 (ofBytes ((written.drop
        (0x8000 + 4096 * n.toNat + 4 * i)).take 4)))) ∧
      (c.inFlight.length ≤ 32 → s0.countBlock c = s.countBlock c →
        written = s0.imageBytes u c ((s.claimed u).map fun p => (p.1, p.2.hdr)) false → (t.core u).engineBlock e = c.engineBlock e ∧
          (t.core u).vop = c.vop ∧ (t.core u).vlast = c.vlast ∧ (t.core u).tokens = c.tokens ∧ (t.core u).cq = c.cq ∧
          (t.core u).mq = c.mq ∧ (t.core u).streams = c.streams ∧ (t.eng u e).hm = (c.eng e).hm)) ∧
    (still → exec (.debugRegisterWrite h core 0 (0xC00 + n.setWidth 16) v) s = .next (yes (s.modEng u .S fun g =>
      if n = 0 then g else { g with x := g.x.set n.toNat v }) 0)) ∧
    (still → exec (.debugRegisterWrite h core eng 4 v) s = .next (yes (s.modEng u e fun g =>
      { g with tvec := v &&& addrMask0 }) 0)) ∧
    (still → exec (.debugRegisterWrite h core eng 0x19 v) s = .next (no 32)) ∧
    (still → exec (.debugResume h core eng 0) s = .next (yes (s.modCore u fun c => { c with dbg := none }) 0)) ∧
    (still → v ≠ 0 → exec (.debugResume h core eng v) s = .next (yes (s.modCore u fun c =>
      { c with dbg := some { at_ := some (e, (c.eng e).scycle + v.toNat), stopped := false } }) 0)) ∧
    (ok → c.isStopped = false → exec (.debugResume h core eng v) s = .next (no 0xFFFFFFFF) ∧
      exec (.debugImageRead h core buffer) s = .next (no 0xFFFFFFFF)) ∧
    (reaches → held = some 0 → fnWorld h.fn ≠ 0 → exec (.debugStop h core 0xFF v) s = .next (s.respond h 0x50 3 0xFFFFFFFF []) ∧
      exec (.debugResume h core eng v) s = .next (s.respond h 0x50 3 0xFFFFFFFF [])) ∧
    (reaches → held.isSome = true → held ≠ some 0 → h.path ≠ .ide ∨ held ≠ some (fnWorld h.fn) →
      exec (.debugStop h core 0xFF v) s = .next (no 0xFFFFFFFF) ∧ exec (.debugResume h core eng v) s = .next (no 0xFFFFFFFF) ∧
      exec (.debugImageRead h core buffer) s = .next ((s.toBuffer h buffer
        (stopRecord s 0x02 u 0xFF 0 c.eS.scycle)).respond h 0x50 1 0xFFFFFFFF []))

/-! The whole machine. -/

/-- R198, R207, R221: the decoder reads back every instruction from its words, whatever words follow, on every engine where its fields
are legal, and reckons its length. -/
def Obligations.DecodeOfEncodeIsTheInstruction : Prop :=
  ∀ (env : DecEnv) (i : Instr) (rest : List Word),
    i.legalOn env = true → decode env (encode i ++ rest) = ⟨(encode i).length, .ok i⟩

/-- R198, R201, R207, R220, R221: words written out from the encodings and worked examples of the specification, and the instructions
they stand for; unassigned words, and a reserved bit that is set, are refused by name, with their lengths. -/
def Obligations.WordsOfTheSpecificationDecode : Prop :=
  let h : Hdr := { wait := 0, sig := 0, guard := 0, neg := false }
  let reads (e : Eng) (ws : List Word) (i : Instr) : Prop := decode ⟨e, false, false⟩ ws = ⟨ws.length, .ok i⟩
  reads .S [0x0A20F3FC] (.ashl (.a 2) (.a 1) .zero 0x3FC) ∧
  reads .M [0x32329808] (.plog 3 5 6 8) ∧
  reads .C [0x30700001] (.pset 7 true) ∧
  reads .S [0x26FE0040] (.call 15 .zero 0x40) ∧
  reads .V [0x52000001] (.twait 1) ∧
  reads .S [0x420F00E1, 1] (.mts (.lit32 1) 0xE1) ∧
  reads .S [0x2B0F4000, 0x20] (.loop 0 (.lit32 0x20) true 0 0) ∧
  reads .S [0x80010140, 0x0506FEFD, 100] (.iadd h ⟨true, false, true⟩ ⟨.x 5, .x 6, .lit32 100, .none⟩) ∧
  reads .S [0x801000A0, 0x0402FEFD, 10] (.icmp h ⟨false, true, .lt⟩ 4 (.x 2) (.lit32 10) .none) ∧
  reads .S [0x80200060, 0x0567FD00] (.ld h ⟨0, 3, false⟩ ⟨.x 5, .a 7, .none, 0⟩) ∧
  reads .S [0x80210060, 0x0467FD00] (.st h ⟨0, 3, false⟩ ⟨.x 4, .a 7, .none, 0⟩) ∧
  reads .V [0x80040149, 0x05010263] (.vfma h ⟨.i32, .rn, true, false, true⟩ ⟨.v 5, .v 1, .v 2, .a 3⟩) ∧
  reads .V [0x80440000, 0x0A02FDFD] (.vredr h ⟨.f32, .rn, .add, false⟩ ⟨.v 10, .v 2, .none, .none⟩) ∧
  reads .C [0x80020120, 0x64FD0005] (.cpyp h ⟨1, false, 1⟩ ⟨.a 4, .none, 5⟩) ∧
  decode ⟨.M, false, false⟩ [0x80220000, 0x0005FD43] = ⟨2, .ok (.mma h 0 (.slot 5) 1 3)⟩ ∧
  decode ⟨.S, false, false⟩ [0x0E000000] = ⟨1, .error .unassignedC32⟩ ∧
  decode ⟨.S, false, false⟩ [0x81FF0000, 0] = ⟨2, .error .unassignedP64⟩ ∧
  decode ⟨.S, false, false⟩ [0x00000001] = ⟨1, .error .reservedBits⟩

/-- R4, R220, R227, R232: what a step does with the turn at the head of the schedule. When the words at the program counter of an engine that
runs decode to an instruction, the step is that instruction at the engine; a result that is due lands first; illegal words raise
ILLEGAL_INSTRUCTION with their first word; an engine whose words lie on another die asks for them first (`fetchAsked`, R176); the next
round begins when no turn is left. The schedule is the model's (log 1), and so is the
wait of an S engine for the arrival of its last message entry (log 73). -/
def Obligations.AStepRunsTheDecodedInstruction : Prop :=
  ∀ (s : State) (u : UnitId) (e : Eng) (ts : List Turn) (ws : List Word) (i : Instr) (n : Nat) (why : DecodeError) (a : Nat),
    let r : State := { s with schedule := ts, cur := (u, e), tag := s.msgCount }
    let rest : State := { s with schedule := ts }
    let q := r.fetchAsked u e
    let g := r.eng u e
    let appends := e = .S ∧ r.appendsOut u = true
    let runs := s.schedule = .engine u e :: ts ∧ g.started = true ∧ (r.core u).halted = false ∧ ¬ appends ∧ g.ended = false ∧
      g.fencing = false
    let words := r.fetchReaches u e = true ∧ ws = (q.fetchWords u g.pc.toNat 9).1 ∧ ws ≠ [] ∧ n ≤ ws.length
    (runs → r.before u e = none → words → decode (envOf u e) ws = ⟨n, .ok i⟩ → step s = exec i q) ∧
    (r.fetchHome u e = endOf u → q = r ∧ r.fetchReaches u e = true) ∧
    (runs → r.before u e = none → r.fetchReaches u e = false → step s = .next r) ∧
    (runs → r.before u e = none → words → decode (envOf u e) ws = ⟨n, .error why⟩ →
      step s = .next (q.fetchTrap u e n cIllegal ((wordAt ws 0).setWidth 64))) ∧
    (runs → g.due = true → step s = exec (.resultLand u e) r) ∧
    (s.schedule = .engine u e :: ts → g.started = false ∨ (r.core u).halted = true ∨ appends → step s = .next r) ∧
    (s.schedule = .event i :: ts → step s = exec i { rest with tag := s.msgCount }) ∧
    (s.schedule = .tick :: ts → step s = .next (rest.flushAllExits ((List.finRange 48).map unitOf)).tick.flushPending.drainOn.hqOn) ∧
    (s.schedule = [] → step s = .next s.round) ∧
    (a + 4 ≤ 0x40000 → s.fetchWord 48 a = .ok (BitVec.ofNat 32 (ofBytes (s.rawBytes (keyImem false a) 4))))

/-- R1, R13, R18, R22, R37, R55, R67, R115, R200, R205, R206, R240, R255, R367, R374, R446, Tables 15.4, 17.4, 21.3: the machine after package
reset, where the specification gives a value; on the compute cores Table 21.3 gives what the march test leaves in vector registers, RRB of
V, and x7 to x9 and x16 of S. The model's choices: the schedule of one turn of SC0 (log 1), and p, x, loops, results in flight and queues of
engines that have not started (log 6), where Table 21.3 says nothing of them. -/
def Obligations.ResetHoldsTheSpecifiedValues : Prop :=
  ∀ (u : UnitId) (e : Eng) (k : CoreId) (c : CtxId) (q : SlotId) (vd : Vd) (w : World),
    let s := State.reset
    let g := s.eng u e
    let r := s.core u
    let ones : Dword := 0xFFFFFFFFFFFFFFFF
    let zero : Vector Dword 32 := Vector.replicate 32 0
    let marched (n : Nat) (w : Word) : Prop := r.vmain.toList[n]? = some (Vector.replicate 1024 w)
    g.p = 1 ∧ g.x = (if e = .S ∧ u.val < 48 then (zero.set 8 ones).set 9 ones else zero) ∧
    (u.val < 48 → marched 0 0 ∧ marched 1 0xFFFFFFFF ∧ marched 3 0 ∧ marched 4 0 ∧ marched 5 0 ∧
      ∀ n, 32 ≤ n → n < 64 → marched n 0xFFFFFFFF) ∧
    g.rrb = (if e = .V ∧ u.val < 48 then 4 else 0) ∧ g.sticky = 0 ∧ g.trapen = 0 ∧ g.tokceil = 0x080808 ∧ g.hm = false ∧ g.tvec = 0 ∧
      g.replays = 0 ∧ g.escal = 0 ∧ g.loops = [] ∧ g.flights = [] ∧ g.scycle = 0 ∧
    (g.started = true ↔ (u = 48 ∨ u = 49) ∧ e = .S) ∧
    r.health = .live ∧ r.job = none ∧ r.tokens = Vector.replicate 16 0 ∧ r.lent = 0 ∧ r.trcctl = 0 ∧ r.repair = 0 ∧ r.step = 0 ∧
      r.mq = [] ∧ r.chain.state = .none ∧ r.mcfg.ncol = edge (isCCore u) ∧ r.stat.depth = 4 * edge (isCCore u) ∧
    s.context c = none ∧ (s.slot q).open_ = false ∧ (s.die vd).state = .healthy ∧ (s.die vd).lease.holder = none ∧
      s.md.leaseMax = Vector.replicate 8 64 ∧ s.md.maxChain = Vector.replicate 8 256 ∧ s.md.role0 = .active ∧ s.md.role1 = .standby ∧
      s.md.mode = .m1 ∧ s.md.dieList[0] = [0, 4, 1, 5, 2, 6, 3, 7] ∧ s.md.kickpend = 0 ∧ s.md.jhead = 0 ∧ s.fab.rate = 0x0111 ∧
      s.cfm.peer = .up ∧ s.mc.step = 1000 ∧ s.port.boxes = [] ∧ s.port.tdis[w.toNat] = none ∧
    s.schedule = [.engine 48 .S] ∧ s.jobinfo (unitOf k) = dw (2 ^ 24 * (if isCCore (unitOf k) then 2 else 1) + 2 ^ 8 * k.val) ∧
    s.memSound ∧ s.vflips = [] ∧ s.commits = []

/-- Every step keeps the bytes of memory, the flips of stored words and of vertical words, the keys of DRAM lines and the places of writes in
tie order in their canonical forms, so that equal
contents are equal data. -/
def Obligations.EveryStepKeepsMemoryCanonical : Prop :=
  ∀ (s t : State), step s = .next t →
    (s.memSound → t.memSound) ∧ (CMap.wf 0 s.vflips = true → CMap.wf 0 t.vflips = true) ∧
    (CMap.wf Commit.none s.commits = true → CMap.wf Commit.none t.commits = true)
end

