-- ==== Sys2Proof/Laws/State.lean ====
section
/-! SUPPORT. The small laws of the state: what each accessor reads after each update. One lemma per field per update, so that
no later proof unfolds a record update. -/

namespace Sys2Proof.Machine

/-! State.setCore. -/

@[simp] theorem State.setCore_schedule (s : State) (u : UnitId) (c : Core) : (s.setCore u c).schedule = s.schedule := rfl
@[simp] theorem State.setCore_cur (s : State) (u : UnitId) (c : Core) : (s.setCore u c).cur = s.cur := rfl
@[simp] theorem State.setCore_time (s : State) (u : UnitId) (c : Core) : (s.setCore u c).time = s.time := rfl
@[simp] theorem State.setCore_freeCount (s : State) (u : UnitId) (c : Core) : (s.setCore u c).freeCount = s.freeCount := rfl
@[simp] theorem State.setCore_doom (s : State) (u : UnitId) (c : Core) : (s.setCore u c).doom = s.doom := rfl
@[simp] theorem State.setCore_msgCount (s : State) (u : UnitId) (c : Core) : (s.setCore u c).msgCount = s.msgCount := rfl
@[simp] theorem State.setCore_tag (s : State) (u : UnitId) (c : Core) : (s.setCore u c).tag = s.tag := rfl
@[simp] theorem State.setCore_flips (s : State) (u : UnitId) (c : Core) : (s.setCore u c).flips = s.flips := rfl
@[simp] theorem State.setCore_vflips (s : State) (u : UnitId) (c : Core) : (s.setCore u c).vflips = s.vflips := rfl
@[simp] theorem State.setCore_writes (s : State) (u : UnitId) (c : Core) : (s.setCore u c).writes = s.writes := rfl
@[simp] theorem State.setCore_commits (s : State) (u : UnitId) (c : Core) : (s.setCore u c).commits = s.commits := rfl
@[simp] theorem State.setCore_dies (s : State) (u : UnitId) (c : Core) : (s.setCore u c).dies = s.dies := rfl
@[simp] theorem State.setCore_mem (s : State) (u : UnitId) (c : Core) : (s.setCore u c).mem = s.mem := rfl
@[simp] theorem State.setCore_lineKey (s : State) (u : UnitId) (c : Core) : (s.setCore u c).lineKey = s.lineKey := rfl
@[simp] theorem State.setCore_owner (s : State) (u : UnitId) (c : Core) : (s.setCore u c).owner = s.owner := rfl
@[simp] theorem State.setCore_tlb (s : State) (u : UnitId) (c : Core) : (s.setCore u c).tlb = s.tlb := rfl
@[simp] theorem State.setCore_contexts (s : State) (u : UnitId) (c : Core) : (s.setCore u c).contexts = s.contexts := rfl
@[simp] theorem State.setCore_slots (s : State) (u : UnitId) (c : Core) : (s.setCore u c).slots = s.slots := rfl
@[simp] theorem State.setCore_md (s : State) (u : UnitId) (c : Core) : (s.setCore u c).md = s.md := rfl
@[simp] theorem State.setCore_fab (s : State) (u : UnitId) (c : Core) : (s.setCore u c).fab = s.fab := rfl
@[simp] theorem State.setCore_cfm (s : State) (u : UnitId) (c : Core) : (s.setCore u c).cfm = s.cfm := rfl
@[simp] theorem State.setCore_mc (s : State) (u : UnitId) (c : Core) : (s.setCore u c).mc = s.mc := rfl
@[simp] theorem State.setCore_port (s : State) (u : UnitId) (c : Core) : (s.setCore u c).port = s.port := rfl

/-! State.modCore. -/

@[simp] theorem State.modCore_schedule (s : State) (u : UnitId) (f : Core → Core) : (s.modCore u f).schedule = s.schedule := rfl
@[simp] theorem State.modCore_cur (s : State) (u : UnitId) (f : Core → Core) : (s.modCore u f).cur = s.cur := rfl
@[simp] theorem State.modCore_time (s : State) (u : UnitId) (f : Core → Core) : (s.modCore u f).time = s.time := rfl
@[simp] theorem State.modCore_freeCount (s : State) (u : UnitId) (f : Core → Core) : (s.modCore u f).freeCount = s.freeCount := rfl
@[simp] theorem State.modCore_doom (s : State) (u : UnitId) (f : Core → Core) : (s.modCore u f).doom = s.doom := rfl
@[simp] theorem State.modCore_msgCount (s : State) (u : UnitId) (f : Core → Core) : (s.modCore u f).msgCount = s.msgCount := rfl
@[simp] theorem State.modCore_tag (s : State) (u : UnitId) (f : Core → Core) : (s.modCore u f).tag = s.tag := rfl
@[simp] theorem State.modCore_flips (s : State) (u : UnitId) (f : Core → Core) : (s.modCore u f).flips = s.flips := rfl
@[simp] theorem State.modCore_vflips (s : State) (u : UnitId) (f : Core → Core) : (s.modCore u f).vflips = s.vflips := rfl
@[simp] theorem State.modCore_writes (s : State) (u : UnitId) (f : Core → Core) : (s.modCore u f).writes = s.writes := rfl
@[simp] theorem State.modCore_commits (s : State) (u : UnitId) (f : Core → Core) : (s.modCore u f).commits = s.commits := rfl
@[simp] theorem State.modCore_dies (s : State) (u : UnitId) (f : Core → Core) : (s.modCore u f).dies = s.dies := rfl
@[simp] theorem State.modCore_mem (s : State) (u : UnitId) (f : Core → Core) : (s.modCore u f).mem = s.mem := rfl
@[simp] theorem State.modCore_lineKey (s : State) (u : UnitId) (f : Core → Core) : (s.modCore u f).lineKey = s.lineKey := rfl
@[simp] theorem State.modCore_owner (s : State) (u : UnitId) (f : Core → Core) : (s.modCore u f).owner = s.owner := rfl
@[simp] theorem State.modCore_tlb (s : State) (u : UnitId) (f : Core → Core) : (s.modCore u f).tlb = s.tlb := rfl
@[simp] theorem State.modCore_contexts (s : State) (u : UnitId) (f : Core → Core) : (s.modCore u f).contexts = s.contexts := rfl
@[simp] theorem State.modCore_slots (s : State) (u : UnitId) (f : Core → Core) : (s.modCore u f).slots = s.slots := rfl
@[simp] theorem State.modCore_md (s : State) (u : UnitId) (f : Core → Core) : (s.modCore u f).md = s.md := rfl
@[simp] theorem State.modCore_fab (s : State) (u : UnitId) (f : Core → Core) : (s.modCore u f).fab = s.fab := rfl
@[simp] theorem State.modCore_cfm (s : State) (u : UnitId) (f : Core → Core) : (s.modCore u f).cfm = s.cfm := rfl
@[simp] theorem State.modCore_mc (s : State) (u : UnitId) (f : Core → Core) : (s.modCore u f).mc = s.mc := rfl
@[simp] theorem State.modCore_port (s : State) (u : UnitId) (f : Core → Core) : (s.modCore u f).port = s.port := rfl

/-! State.setEng. -/

@[simp] theorem State.setEng_schedule (s : State) (u : UnitId) (e : Eng) (g : Engine) : (s.setEng u e g).schedule = s.schedule := rfl
@[simp] theorem State.setEng_cur (s : State) (u : UnitId) (e : Eng) (g : Engine) : (s.setEng u e g).cur = s.cur := rfl
@[simp] theorem State.setEng_time (s : State) (u : UnitId) (e : Eng) (g : Engine) : (s.setEng u e g).time = s.time := rfl
@[simp] theorem State.setEng_freeCount (s : State) (u : UnitId) (e : Eng) (g : Engine) : (s.setEng u e g).freeCount = s.freeCount := rfl
@[simp] theorem State.setEng_doom (s : State) (u : UnitId) (e : Eng) (g : Engine) : (s.setEng u e g).doom = s.doom := rfl
@[simp] theorem State.setEng_msgCount (s : State) (u : UnitId) (e : Eng) (g : Engine) : (s.setEng u e g).msgCount = s.msgCount := rfl
@[simp] theorem State.setEng_tag (s : State) (u : UnitId) (e : Eng) (g : Engine) : (s.setEng u e g).tag = s.tag := rfl
@[simp] theorem State.setEng_flips (s : State) (u : UnitId) (e : Eng) (g : Engine) : (s.setEng u e g).flips = s.flips := rfl
@[simp] theorem State.setEng_vflips (s : State) (u : UnitId) (e : Eng) (g : Engine) : (s.setEng u e g).vflips = s.vflips := rfl
@[simp] theorem State.setEng_writes (s : State) (u : UnitId) (e : Eng) (g : Engine) : (s.setEng u e g).writes = s.writes := rfl
@[simp] theorem State.setEng_commits (s : State) (u : UnitId) (e : Eng) (g : Engine) : (s.setEng u e g).commits = s.commits := rfl
@[simp] theorem State.setEng_dies (s : State) (u : UnitId) (e : Eng) (g : Engine) : (s.setEng u e g).dies = s.dies := rfl
@[simp] theorem State.setEng_mem (s : State) (u : UnitId) (e : Eng) (g : Engine) : (s.setEng u e g).mem = s.mem := rfl
@[simp] theorem State.setEng_lineKey (s : State) (u : UnitId) (e : Eng) (g : Engine) : (s.setEng u e g).lineKey = s.lineKey := rfl
@[simp] theorem State.setEng_owner (s : State) (u : UnitId) (e : Eng) (g : Engine) : (s.setEng u e g).owner = s.owner := rfl
@[simp] theorem State.setEng_tlb (s : State) (u : UnitId) (e : Eng) (g : Engine) : (s.setEng u e g).tlb = s.tlb := rfl
@[simp] theorem State.setEng_contexts (s : State) (u : UnitId) (e : Eng) (g : Engine) : (s.setEng u e g).contexts = s.contexts := rfl
@[simp] theorem State.setEng_slots (s : State) (u : UnitId) (e : Eng) (g : Engine) : (s.setEng u e g).slots = s.slots := rfl
@[simp] theorem State.setEng_md (s : State) (u : UnitId) (e : Eng) (g : Engine) : (s.setEng u e g).md = s.md := rfl
@[simp] theorem State.setEng_fab (s : State) (u : UnitId) (e : Eng) (g : Engine) : (s.setEng u e g).fab = s.fab := rfl
@[simp] theorem State.setEng_cfm (s : State) (u : UnitId) (e : Eng) (g : Engine) : (s.setEng u e g).cfm = s.cfm := rfl
@[simp] theorem State.setEng_mc (s : State) (u : UnitId) (e : Eng) (g : Engine) : (s.setEng u e g).mc = s.mc := rfl
@[simp] theorem State.setEng_port (s : State) (u : UnitId) (e : Eng) (g : Engine) : (s.setEng u e g).port = s.port := rfl

/-! State.modEng. -/

@[simp] theorem State.modEng_schedule (s : State) (u : UnitId) (e : Eng) (f : Engine → Engine) : (s.modEng u e f).schedule = s.schedule := rfl
@[simp] theorem State.modEng_cur (s : State) (u : UnitId) (e : Eng) (f : Engine → Engine) : (s.modEng u e f).cur = s.cur := rfl
@[simp] theorem State.modEng_time (s : State) (u : UnitId) (e : Eng) (f : Engine → Engine) : (s.modEng u e f).time = s.time := rfl
@[simp] theorem State.modEng_freeCount (s : State) (u : UnitId) (e : Eng) (f : Engine → Engine) : (s.modEng u e f).freeCount = s.freeCount := rfl
@[simp] theorem State.modEng_doom (s : State) (u : UnitId) (e : Eng) (f : Engine → Engine) : (s.modEng u e f).doom = s.doom := rfl
@[simp] theorem State.modEng_msgCount (s : State) (u : UnitId) (e : Eng) (f : Engine → Engine) : (s.modEng u e f).msgCount = s.msgCount := rfl
@[simp] theorem State.modEng_tag (s : State) (u : UnitId) (e : Eng) (f : Engine → Engine) : (s.modEng u e f).tag = s.tag := rfl
@[simp] theorem State.modEng_flips (s : State) (u : UnitId) (e : Eng) (f : Engine → Engine) : (s.modEng u e f).flips = s.flips := rfl
@[simp] theorem State.modEng_vflips (s : State) (u : UnitId) (e : Eng) (f : Engine → Engine) : (s.modEng u e f).vflips = s.vflips := rfl
@[simp] theorem State.modEng_writes (s : State) (u : UnitId) (e : Eng) (f : Engine → Engine) : (s.modEng u e f).writes = s.writes := rfl
@[simp] theorem State.modEng_commits (s : State) (u : UnitId) (e : Eng) (f : Engine → Engine) : (s.modEng u e f).commits = s.commits := rfl
@[simp] theorem State.modEng_dies (s : State) (u : UnitId) (e : Eng) (f : Engine → Engine) : (s.modEng u e f).dies = s.dies := rfl
@[simp] theorem State.modEng_mem (s : State) (u : UnitId) (e : Eng) (f : Engine → Engine) : (s.modEng u e f).mem = s.mem := rfl
@[simp] theorem State.modEng_lineKey (s : State) (u : UnitId) (e : Eng) (f : Engine → Engine) : (s.modEng u e f).lineKey = s.lineKey := rfl
@[simp] theorem State.modEng_owner (s : State) (u : UnitId) (e : Eng) (f : Engine → Engine) : (s.modEng u e f).owner = s.owner := rfl
@[simp] theorem State.modEng_tlb (s : State) (u : UnitId) (e : Eng) (f : Engine → Engine) : (s.modEng u e f).tlb = s.tlb := rfl
@[simp] theorem State.modEng_contexts (s : State) (u : UnitId) (e : Eng) (f : Engine → Engine) : (s.modEng u e f).contexts = s.contexts := rfl
@[simp] theorem State.modEng_slots (s : State) (u : UnitId) (e : Eng) (f : Engine → Engine) : (s.modEng u e f).slots = s.slots := rfl
@[simp] theorem State.modEng_md (s : State) (u : UnitId) (e : Eng) (f : Engine → Engine) : (s.modEng u e f).md = s.md := rfl
@[simp] theorem State.modEng_fab (s : State) (u : UnitId) (e : Eng) (f : Engine → Engine) : (s.modEng u e f).fab = s.fab := rfl
@[simp] theorem State.modEng_cfm (s : State) (u : UnitId) (e : Eng) (f : Engine → Engine) : (s.modEng u e f).cfm = s.cfm := rfl
@[simp] theorem State.modEng_mc (s : State) (u : UnitId) (e : Eng) (f : Engine → Engine) : (s.modEng u e f).mc = s.mc := rfl
@[simp] theorem State.modEng_port (s : State) (u : UnitId) (e : Eng) (f : Engine → Engine) : (s.modEng u e f).port = s.port := rfl

/-! State.setDie. -/

@[simp] theorem State.setDie_schedule (s : State) (vd : Vd) (d : Die) : (s.setDie vd d).schedule = s.schedule := rfl
@[simp] theorem State.setDie_cur (s : State) (vd : Vd) (d : Die) : (s.setDie vd d).cur = s.cur := rfl
@[simp] theorem State.setDie_time (s : State) (vd : Vd) (d : Die) : (s.setDie vd d).time = s.time := rfl
@[simp] theorem State.setDie_freeCount (s : State) (vd : Vd) (d : Die) : (s.setDie vd d).freeCount = s.freeCount := rfl
@[simp] theorem State.setDie_doom (s : State) (vd : Vd) (d : Die) : (s.setDie vd d).doom = s.doom := rfl
@[simp] theorem State.setDie_msgCount (s : State) (vd : Vd) (d : Die) : (s.setDie vd d).msgCount = s.msgCount := rfl
@[simp] theorem State.setDie_tag (s : State) (vd : Vd) (d : Die) : (s.setDie vd d).tag = s.tag := rfl
@[simp] theorem State.setDie_flips (s : State) (vd : Vd) (d : Die) : (s.setDie vd d).flips = s.flips := rfl
@[simp] theorem State.setDie_vflips (s : State) (vd : Vd) (d : Die) : (s.setDie vd d).vflips = s.vflips := rfl
@[simp] theorem State.setDie_writes (s : State) (vd : Vd) (d : Die) : (s.setDie vd d).writes = s.writes := rfl
@[simp] theorem State.setDie_commits (s : State) (vd : Vd) (d : Die) : (s.setDie vd d).commits = s.commits := rfl
@[simp] theorem State.setDie_cores (s : State) (vd : Vd) (d : Die) : (s.setDie vd d).cores = s.cores := rfl
@[simp] theorem State.setDie_mem (s : State) (vd : Vd) (d : Die) : (s.setDie vd d).mem = s.mem := rfl
@[simp] theorem State.setDie_lineKey (s : State) (vd : Vd) (d : Die) : (s.setDie vd d).lineKey = s.lineKey := rfl
@[simp] theorem State.setDie_owner (s : State) (vd : Vd) (d : Die) : (s.setDie vd d).owner = s.owner := rfl
@[simp] theorem State.setDie_tlb (s : State) (vd : Vd) (d : Die) : (s.setDie vd d).tlb = s.tlb := rfl
@[simp] theorem State.setDie_contexts (s : State) (vd : Vd) (d : Die) : (s.setDie vd d).contexts = s.contexts := rfl
@[simp] theorem State.setDie_slots (s : State) (vd : Vd) (d : Die) : (s.setDie vd d).slots = s.slots := rfl
@[simp] theorem State.setDie_md (s : State) (vd : Vd) (d : Die) : (s.setDie vd d).md = s.md := rfl
@[simp] theorem State.setDie_fab (s : State) (vd : Vd) (d : Die) : (s.setDie vd d).fab = s.fab := rfl
@[simp] theorem State.setDie_cfm (s : State) (vd : Vd) (d : Die) : (s.setDie vd d).cfm = s.cfm := rfl
@[simp] theorem State.setDie_mc (s : State) (vd : Vd) (d : Die) : (s.setDie vd d).mc = s.mc := rfl
@[simp] theorem State.setDie_port (s : State) (vd : Vd) (d : Die) : (s.setDie vd d).port = s.port := rfl

/-! State.setContext. -/

@[simp] theorem State.setContext_schedule (s : State) (c : CtxId) (x : Option Context) : (s.setContext c x).schedule = s.schedule := rfl
@[simp] theorem State.setContext_cur (s : State) (c : CtxId) (x : Option Context) : (s.setContext c x).cur = s.cur := rfl
@[simp] theorem State.setContext_time (s : State) (c : CtxId) (x : Option Context) : (s.setContext c x).time = s.time := rfl
@[simp] theorem State.setContext_freeCount (s : State) (c : CtxId) (x : Option Context) : (s.setContext c x).freeCount = s.freeCount := rfl
@[simp] theorem State.setContext_doom (s : State) (c : CtxId) (x : Option Context) : (s.setContext c x).doom = s.doom := rfl
@[simp] theorem State.setContext_msgCount (s : State) (c : CtxId) (x : Option Context) : (s.setContext c x).msgCount = s.msgCount := rfl
@[simp] theorem State.setContext_tag (s : State) (c : CtxId) (x : Option Context) : (s.setContext c x).tag = s.tag := rfl
@[simp] theorem State.setContext_flips (s : State) (c : CtxId) (x : Option Context) : (s.setContext c x).flips = s.flips := rfl
@[simp] theorem State.setContext_vflips (s : State) (c : CtxId) (x : Option Context) : (s.setContext c x).vflips = s.vflips := rfl
@[simp] theorem State.setContext_writes (s : State) (c : CtxId) (x : Option Context) : (s.setContext c x).writes = s.writes := rfl
@[simp] theorem State.setContext_commits (s : State) (c : CtxId) (x : Option Context) : (s.setContext c x).commits = s.commits := rfl
@[simp] theorem State.setContext_cores (s : State) (c : CtxId) (x : Option Context) : (s.setContext c x).cores = s.cores := rfl
@[simp] theorem State.setContext_dies (s : State) (c : CtxId) (x : Option Context) : (s.setContext c x).dies = s.dies := rfl
@[simp] theorem State.setContext_mem (s : State) (c : CtxId) (x : Option Context) : (s.setContext c x).mem = s.mem := rfl
@[simp] theorem State.setContext_lineKey (s : State) (c : CtxId) (x : Option Context) : (s.setContext c x).lineKey = s.lineKey := rfl
@[simp] theorem State.setContext_owner (s : State) (c : CtxId) (x : Option Context) : (s.setContext c x).owner = s.owner := rfl
@[simp] theorem State.setContext_tlb (s : State) (c : CtxId) (x : Option Context) : (s.setContext c x).tlb = s.tlb := rfl
@[simp] theorem State.setContext_slots (s : State) (c : CtxId) (x : Option Context) : (s.setContext c x).slots = s.slots := rfl
@[simp] theorem State.setContext_md (s : State) (c : CtxId) (x : Option Context) : (s.setContext c x).md = s.md := rfl
@[simp] theorem State.setContext_fab (s : State) (c : CtxId) (x : Option Context) : (s.setContext c x).fab = s.fab := rfl
@[simp] theorem State.setContext_cfm (s : State) (c : CtxId) (x : Option Context) : (s.setContext c x).cfm = s.cfm := rfl
@[simp] theorem State.setContext_mc (s : State) (c : CtxId) (x : Option Context) : (s.setContext c x).mc = s.mc := rfl
@[simp] theorem State.setContext_port (s : State) (c : CtxId) (x : Option Context) : (s.setContext c x).port = s.port := rfl

/-! State.setSlot. -/

@[simp] theorem State.setSlot_schedule (s : State) (k : SlotId) (x : Slot) : (s.setSlot k x).schedule = s.schedule := rfl
@[simp] theorem State.setSlot_cur (s : State) (k : SlotId) (x : Slot) : (s.setSlot k x).cur = s.cur := rfl
@[simp] theorem State.setSlot_time (s : State) (k : SlotId) (x : Slot) : (s.setSlot k x).time = s.time := rfl
@[simp] theorem State.setSlot_freeCount (s : State) (k : SlotId) (x : Slot) : (s.setSlot k x).freeCount = s.freeCount := rfl
@[simp] theorem State.setSlot_doom (s : State) (k : SlotId) (x : Slot) : (s.setSlot k x).doom = s.doom := rfl
@[simp] theorem State.setSlot_msgCount (s : State) (k : SlotId) (x : Slot) : (s.setSlot k x).msgCount = s.msgCount := rfl
@[simp] theorem State.setSlot_tag (s : State) (k : SlotId) (x : Slot) : (s.setSlot k x).tag = s.tag := rfl
@[simp] theorem State.setSlot_flips (s : State) (k : SlotId) (x : Slot) : (s.setSlot k x).flips = s.flips := rfl
@[simp] theorem State.setSlot_vflips (s : State) (k : SlotId) (x : Slot) : (s.setSlot k x).vflips = s.vflips := rfl
@[simp] theorem State.setSlot_writes (s : State) (k : SlotId) (x : Slot) : (s.setSlot k x).writes = s.writes := rfl
@[simp] theorem State.setSlot_commits (s : State) (k : SlotId) (x : Slot) : (s.setSlot k x).commits = s.commits := rfl
@[simp] theorem State.setSlot_cores (s : State) (k : SlotId) (x : Slot) : (s.setSlot k x).cores = s.cores := rfl
@[simp] theorem State.setSlot_dies (s : State) (k : SlotId) (x : Slot) : (s.setSlot k x).dies = s.dies := rfl
@[simp] theorem State.setSlot_mem (s : State) (k : SlotId) (x : Slot) : (s.setSlot k x).mem = s.mem := rfl
@[simp] theorem State.setSlot_lineKey (s : State) (k : SlotId) (x : Slot) : (s.setSlot k x).lineKey = s.lineKey := rfl
@[simp] theorem State.setSlot_owner (s : State) (k : SlotId) (x : Slot) : (s.setSlot k x).owner = s.owner := rfl
@[simp] theorem State.setSlot_tlb (s : State) (k : SlotId) (x : Slot) : (s.setSlot k x).tlb = s.tlb := rfl
@[simp] theorem State.setSlot_contexts (s : State) (k : SlotId) (x : Slot) : (s.setSlot k x).contexts = s.contexts := rfl
@[simp] theorem State.setSlot_md (s : State) (k : SlotId) (x : Slot) : (s.setSlot k x).md = s.md := rfl
@[simp] theorem State.setSlot_fab (s : State) (k : SlotId) (x : Slot) : (s.setSlot k x).fab = s.fab := rfl
@[simp] theorem State.setSlot_cfm (s : State) (k : SlotId) (x : Slot) : (s.setSlot k x).cfm = s.cfm := rfl
@[simp] theorem State.setSlot_mc (s : State) (k : SlotId) (x : Slot) : (s.setSlot k x).mc = s.mc := rfl
@[simp] theorem State.setSlot_port (s : State) (k : SlotId) (x : Slot) : (s.setSlot k x).port = s.port := rfl

/-! State.modSlot. -/

@[simp] theorem State.modSlot_schedule (s : State) (k : SlotId) (f : Slot → Slot) : (s.modSlot k f).schedule = s.schedule := rfl
@[simp] theorem State.modSlot_cur (s : State) (k : SlotId) (f : Slot → Slot) : (s.modSlot k f).cur = s.cur := rfl
@[simp] theorem State.modSlot_time (s : State) (k : SlotId) (f : Slot → Slot) : (s.modSlot k f).time = s.time := rfl
@[simp] theorem State.modSlot_freeCount (s : State) (k : SlotId) (f : Slot → Slot) : (s.modSlot k f).freeCount = s.freeCount := rfl
@[simp] theorem State.modSlot_doom (s : State) (k : SlotId) (f : Slot → Slot) : (s.modSlot k f).doom = s.doom := rfl
@[simp] theorem State.modSlot_msgCount (s : State) (k : SlotId) (f : Slot → Slot) : (s.modSlot k f).msgCount = s.msgCount := rfl
@[simp] theorem State.modSlot_tag (s : State) (k : SlotId) (f : Slot → Slot) : (s.modSlot k f).tag = s.tag := rfl
@[simp] theorem State.modSlot_flips (s : State) (k : SlotId) (f : Slot → Slot) : (s.modSlot k f).flips = s.flips := rfl
@[simp] theorem State.modSlot_vflips (s : State) (k : SlotId) (f : Slot → Slot) : (s.modSlot k f).vflips = s.vflips := rfl
@[simp] theorem State.modSlot_writes (s : State) (k : SlotId) (f : Slot → Slot) : (s.modSlot k f).writes = s.writes := rfl
@[simp] theorem State.modSlot_commits (s : State) (k : SlotId) (f : Slot → Slot) : (s.modSlot k f).commits = s.commits := rfl
@[simp] theorem State.modSlot_cores (s : State) (k : SlotId) (f : Slot → Slot) : (s.modSlot k f).cores = s.cores := rfl
@[simp] theorem State.modSlot_dies (s : State) (k : SlotId) (f : Slot → Slot) : (s.modSlot k f).dies = s.dies := rfl
@[simp] theorem State.modSlot_mem (s : State) (k : SlotId) (f : Slot → Slot) : (s.modSlot k f).mem = s.mem := rfl
@[simp] theorem State.modSlot_lineKey (s : State) (k : SlotId) (f : Slot → Slot) : (s.modSlot k f).lineKey = s.lineKey := rfl
@[simp] theorem State.modSlot_owner (s : State) (k : SlotId) (f : Slot → Slot) : (s.modSlot k f).owner = s.owner := rfl
@[simp] theorem State.modSlot_tlb (s : State) (k : SlotId) (f : Slot → Slot) : (s.modSlot k f).tlb = s.tlb := rfl
@[simp] theorem State.modSlot_contexts (s : State) (k : SlotId) (f : Slot → Slot) : (s.modSlot k f).contexts = s.contexts := rfl
@[simp] theorem State.modSlot_md (s : State) (k : SlotId) (f : Slot → Slot) : (s.modSlot k f).md = s.md := rfl
@[simp] theorem State.modSlot_fab (s : State) (k : SlotId) (f : Slot → Slot) : (s.modSlot k f).fab = s.fab := rfl
@[simp] theorem State.modSlot_cfm (s : State) (k : SlotId) (f : Slot → Slot) : (s.modSlot k f).cfm = s.cfm := rfl
@[simp] theorem State.modSlot_mc (s : State) (k : SlotId) (f : Slot → Slot) : (s.modSlot k f).mc = s.mc := rfl
@[simp] theorem State.modSlot_port (s : State) (k : SlotId) (f : Slot → Slot) : (s.modSlot k f).port = s.port := rfl

/-! State.putByte. -/

@[simp] theorem State.putByte_schedule (s : State) (k : Nat) (b : Byte) : (s.putByte k b).schedule = s.schedule := rfl
@[simp] theorem State.putByte_cur (s : State) (k : Nat) (b : Byte) : (s.putByte k b).cur = s.cur := rfl
@[simp] theorem State.putByte_time (s : State) (k : Nat) (b : Byte) : (s.putByte k b).time = s.time := rfl
@[simp] theorem State.putByte_freeCount (s : State) (k : Nat) (b : Byte) : (s.putByte k b).freeCount = s.freeCount := rfl
@[simp] theorem State.putByte_doom (s : State) (k : Nat) (b : Byte) : (s.putByte k b).doom = s.doom := rfl
@[simp] theorem State.putByte_msgCount (s : State) (k : Nat) (b : Byte) : (s.putByte k b).msgCount = s.msgCount := rfl
@[simp] theorem State.putByte_tag (s : State) (k : Nat) (b : Byte) : (s.putByte k b).tag = s.tag := rfl
@[simp] theorem State.putByte_flips (s : State) (k : Nat) (b : Byte) : (s.putByte k b).flips = s.flips := rfl
@[simp] theorem State.putByte_vflips (s : State) (k : Nat) (b : Byte) : (s.putByte k b).vflips = s.vflips := rfl
@[simp] theorem State.putByte_writes (s : State) (k : Nat) (b : Byte) : (s.putByte k b).writes = s.writes := rfl
@[simp] theorem State.putByte_commits (s : State) (k : Nat) (b : Byte) : (s.putByte k b).commits = s.commits := rfl
@[simp] theorem State.putByte_cores (s : State) (k : Nat) (b : Byte) : (s.putByte k b).cores = s.cores := rfl
@[simp] theorem State.putByte_dies (s : State) (k : Nat) (b : Byte) : (s.putByte k b).dies = s.dies := rfl
@[simp] theorem State.putByte_lineKey (s : State) (k : Nat) (b : Byte) : (s.putByte k b).lineKey = s.lineKey := rfl
@[simp] theorem State.putByte_owner (s : State) (k : Nat) (b : Byte) : (s.putByte k b).owner = s.owner := rfl
@[simp] theorem State.putByte_tlb (s : State) (k : Nat) (b : Byte) : (s.putByte k b).tlb = s.tlb := rfl
@[simp] theorem State.putByte_contexts (s : State) (k : Nat) (b : Byte) : (s.putByte k b).contexts = s.contexts := rfl
@[simp] theorem State.putByte_slots (s : State) (k : Nat) (b : Byte) : (s.putByte k b).slots = s.slots := rfl
@[simp] theorem State.putByte_md (s : State) (k : Nat) (b : Byte) : (s.putByte k b).md = s.md := rfl
@[simp] theorem State.putByte_fab (s : State) (k : Nat) (b : Byte) : (s.putByte k b).fab = s.fab := rfl
@[simp] theorem State.putByte_cfm (s : State) (k : Nat) (b : Byte) : (s.putByte k b).cfm = s.cfm := rfl
@[simp] theorem State.putByte_mc (s : State) (k : Nat) (b : Byte) : (s.putByte k b).mc = s.mc := rfl
@[simp] theorem State.putByte_port (s : State) (k : Nat) (b : Byte) : (s.putByte k b).port = s.port := rfl

/-! Core.setEng. -/

@[simp] theorem Core.setEng_job (c : Core) (e : Eng) (g : Engine) : (c.setEng e g).job = c.job := by cases e <;> rfl
@[simp] theorem Core.setEng_lastWorld (c : Core) (e : Eng) (g : Engine) : (c.setEng e g).lastWorld = c.lastWorld := by cases e <;> rfl
@[simp] theorem Core.setEng_lastCtx (c : Core) (e : Eng) (g : Engine) : (c.setEng e g).lastCtx = c.lastCtx := by cases e <;> rfl
@[simp] theorem Core.setEng_health (c : Core) (e : Eng) (g : Engine) : (c.setEng e g).health = c.health := by cases e <;> rfl
@[simp] theorem Core.setEng_tokens (c : Core) (e : Eng) (g : Engine) : (c.setEng e g).tokens = c.tokens := by cases e <;> rfl
@[simp] theorem Core.setEng_vmain (c : Core) (e : Eng) (g : Engine) : (c.setEng e g).vmain = c.vmain := by cases e <;> rfl
@[simp] theorem Core.setEng_vop (c : Core) (e : Eng) (g : Engine) : (c.setEng e g).vop = c.vop := by cases e <;> rfl
@[simp] theorem Core.setEng_vlast (c : Core) (e : Eng) (g : Engine) : (c.setEng e g).vlast = c.vlast := by cases e <;> rfl
@[simp] theorem Core.setEng_lent (c : Core) (e : Eng) (g : Engine) : (c.setEng e g).lent = c.lent := by cases e <;> rfl
@[simp] theorem Core.setEng_lentPrev (c : Core) (e : Eng) (g : Engine) : (c.setEng e g).lentPrev = c.lentPrev := by cases e <;> rfl
@[simp] theorem Core.setEng_lentAt (c : Core) (e : Eng) (g : Engine) : (c.setEng e g).lentAt = c.lentAt := by cases e <;> rfl
@[simp] theorem Core.setEng_mq (c : Core) (e : Eng) (g : Engine) : (c.setEng e g).mq = c.mq := by cases e <;> rfl
@[simp] theorem Core.setEng_chain (c : Core) (e : Eng) (g : Engine) : (c.setEng e g).chain = c.chain := by cases e <;> rfl
@[simp] theorem Core.setEng_mpop (c : Core) (e : Eng) (g : Engine) : (c.setEng e g).mpop = c.mpop := by cases e <;> rfl
@[simp] theorem Core.setEng_arels (c : Core) (e : Eng) (g : Engine) : (c.setEng e g).arels = c.arels := by cases e <;> rfl
@[simp] theorem Core.setEng_stat (c : Core) (e : Eng) (g : Engine) : (c.setEng e g).stat = c.stat := by cases e <;> rfl
@[simp] theorem Core.setEng_statOld (c : Core) (e : Eng) (g : Engine) : (c.setEng e g).statOld = c.statOld := by cases e <;> rfl
@[simp] theorem Core.setEng_mcfg (c : Core) (e : Eng) (g : Engine) : (c.setEng e g).mcfg = c.mcfg := by cases e <;> rfl
@[simp] theorem Core.setEng_tssel (c : Core) (e : Eng) (g : Engine) : (c.setEng e g).tssel = c.tssel := by cases e <;> rfl
@[simp] theorem Core.setEng_tiles (c : Core) (e : Eng) (g : Engine) : (c.setEng e g).tiles = c.tiles := by cases e <;> rfl
@[simp] theorem Core.setEng_cq (c : Core) (e : Eng) (g : Engine) : (c.setEng e g).cq = c.cq := by cases e <;> rfl
@[simp] theorem Core.setEng_markers (c : Core) (e : Eng) (g : Engine) : (c.setEng e g).markers = c.markers := by cases e <;> rfl
@[simp] theorem Core.setEng_streams (c : Core) (e : Eng) (g : Engine) : (c.setEng e g).streams = c.streams := by cases e <;> rfl
@[simp] theorem Core.setEng_mqs (c : Core) (e : Eng) (g : Engine) : (c.setEng e g).mqs = c.mqs := by cases e <;> rfl
@[simp] theorem Core.setEng_cal (c : Core) (e : Eng) (g : Engine) : (c.setEng e g).cal = c.cal := by cases e <;> rfl
@[simp] theorem Core.setEng_step (c : Core) (e : Eng) (g : Engine) : (c.setEng e g).step = c.step := by cases e <;> rfl
@[simp] theorem Core.setEng_repair (c : Core) (e : Eng) (g : Engine) : (c.setEng e g).repair = c.repair := by cases e <;> rfl
@[simp] theorem Core.setEng_arrtestRaw (c : Core) (e : Eng) (g : Engine) : (c.setEng e g).arrtestRaw = c.arrtestRaw := by cases e <;> rfl
@[simp] theorem Core.setEng_ckptReq (c : Core) (e : Eng) (g : Engine) : (c.setEng e g).ckptReq = c.ckptReq := by cases e <;> rfl
@[simp] theorem Core.setEng_trcctl (c : Core) (e : Eng) (g : Engine) : (c.setEng e g).trcctl = c.trcctl := by cases e <;> rfl
@[simp] theorem Core.setEng_drops (c : Core) (e : Eng) (g : Engine) : (c.setEng e g).drops = c.drops := by cases e <;> rfl
@[simp] theorem Core.setEng_conflicts (c : Core) (e : Eng) (g : Engine) : (c.setEng e g).conflicts = c.conflicts := by cases e <;> rfl
@[simp] theorem Core.setEng_exits (c : Core) (e : Eng) (g : Engine) : (c.setEng e g).exits = c.exits := by cases e <;> rfl
@[simp] theorem Core.setEng_mtlb (c : Core) (e : Eng) (g : Engine) : (c.setEng e g).mtlb = c.mtlb := by cases e <;> rfl
@[simp] theorem Core.setEng_debugger (c : Core) (e : Eng) (g : Engine) : (c.setEng e g).debugger = c.debugger := by cases e <;> rfl
@[simp] theorem Core.setEng_dbg (c : Core) (e : Eng) (g : Engine) : (c.setEng e g).dbg = c.dbg := by cases e <;> rfl
@[simp] theorem Core.setEng_preempt (c : Core) (e : Eng) (g : Engine) : (c.setEng e g).preempt = c.preempt := by cases e <;> rfl
@[simp] theorem Core.setEng_spillSeq (c : Core) (e : Eng) (g : Engine) : (c.setEng e g).spillSeq = c.spillSeq := by cases e <;> rfl
@[simp] theorem Core.setEng_ending (c : Core) (e : Eng) (g : Engine) : (c.setEng e g).ending = c.ending := by cases e <;> rfl

/-! Reads after writes. -/

@[simp] theorem Core.eng_setEng (c : Core) (e : Eng) (g : Engine) : (c.setEng e g).eng e = g := by cases e <;> rfl

theorem Core.eng_setEng_ne (c : Core) {e e' : Eng} (g : Engine) (h : e' ≠ e) : (c.setEng e g).eng e' = c.eng e' := by
  cases e <;> cases e' <;> first | rfl | exact absurd rfl h

@[simp] theorem Core.setEng_setEng (c : Core) (e : Eng) (g g' : Engine) : (c.setEng e g).setEng e g' = c.setEng e g' := by
  cases e <;> rfl

@[simp] theorem Core.setEng_eng (c : Core) (e : Eng) : c.setEng e (c.eng e) = c := by cases e <;> rfl

@[simp] theorem State.core_setCore (s : State) (u : UnitId) (c : Core) : (s.setCore u c).core u = c := by
  simp [State.core, State.setCore]

theorem State.core_setCore_ne (s : State) {u v : UnitId} (c : Core) (h : v ≠ u) : (s.setCore u c).core v = s.core v := by
  simp only [State.core, State.setCore, Fin.getElem_fin]
  exact Vector.getElem_set_ne _ _ (fun e => h (Fin.ext e.symm))

@[simp] theorem State.setCore_setCore (s : State) (u : UnitId) (c c' : Core) :
    (s.setCore u c).setCore u c' = s.setCore u c' := by
  simp [State.setCore]

@[simp] theorem State.setCore_core (s : State) (u : UnitId) : s.setCore u (s.core u) = s := by
  simp [State.core, State.setCore]

@[simp] theorem State.eng_setEng (s : State) (u : UnitId) (e : Eng) (g : Engine) : (s.setEng u e g).eng u e = g := by
  simp [State.eng, State.setEng]

theorem State.eng_setEng_ne (s : State) (u : UnitId) {e e' : Eng} (g : Engine) (h : e' ≠ e) :
    (s.setEng u e g).eng u e' = s.eng u e' := by
  simp [State.eng, State.setEng, Core.eng_setEng_ne _ _ h]

@[simp] theorem State.setEng_setEng (s : State) (u : UnitId) (e : Eng) (g g' : Engine) :
    (s.setEng u e g).setEng u e g' = s.setEng u e g' := by
  simp [State.setEng]

@[simp] theorem State.setEng_eng (s : State) (u : UnitId) (e : Eng) : s.setEng u e (s.eng u e) = s := by
  simp [State.setEng, State.eng]

@[simp] theorem State.core_setEng (s : State) (u : UnitId) (e : Eng) (g : Engine) :
    (s.setEng u e g).core u = (s.core u).setEng e g := by
  simp [State.setEng]

@[simp] theorem State.core_modCore (s : State) (u : UnitId) (f : Core → Core) : (s.modCore u f).core u = f (s.core u) := by
  simp [State.modCore]

theorem State.core_modCore_ne (s : State) {u v : UnitId} (f : Core → Core) (h : v ≠ u) :
    (s.modCore u f).core v = s.core v := State.core_setCore_ne s _ h

@[simp] theorem State.eng_modEng (s : State) (u : UnitId) (e : Eng) (f : Engine → Engine) :
    (s.modEng u e f).eng u e = f (s.eng u e) := by
  simp [State.modEng]

@[simp] theorem State.core_modEng (s : State) (u : UnitId) (e : Eng) (f : Engine → Engine) :
    (s.modEng u e f).core u = (s.core u).setEng e (f (s.eng u e)) := by
  simp [State.modEng]

@[simp] theorem State.modEng_modEng (s : State) (u : UnitId) (e : Eng) (f f' : Engine → Engine) :
    (s.modEng u e f).modEng u e f' = s.modEng u e (fun g => f' (f g)) := by
  simp [State.modEng]

@[simp] theorem State.die_setDie (s : State) (vd : Vd) (d : Die) : (s.setDie vd d).die vd = d := by
  simp [State.die, State.setDie]

theorem State.die_setDie_ne (s : State) {vd w : Vd} (d : Die) (h : w ≠ vd) : (s.setDie vd d).die w = s.die w := by
  simp only [State.die, State.setDie, Fin.getElem_fin]
  exact Vector.getElem_set_ne _ _ (fun e => h (Fin.ext e.symm))

@[simp] theorem State.slot_setSlot (s : State) (k : SlotId) (x : Slot) : (s.setSlot k x).slot k = x := by
  simp [State.slot, State.setSlot]

theorem State.slot_setSlot_ne (s : State) {k l : SlotId} (x : Slot) (h : l ≠ k) : (s.setSlot k x).slot l = s.slot l := by
  simp only [State.slot, State.setSlot, Fin.getElem_fin]
  exact Vector.getElem_set_ne _ _ (fun e => h (Fin.ext e.symm))

@[simp] theorem State.slot_modSlot (s : State) (k : SlotId) (f : Slot → Slot) : (s.modSlot k f).slot k = f (s.slot k) := by
  simp [State.modSlot]

@[simp] theorem State.context_setContext (s : State) (c : CtxId) (x : Option Context) : (s.setContext c x).context c = x := by
  simp [State.context, State.setContext]

theorem State.context_setContext_ne (s : State) {c d : CtxId} (x : Option Context) (h : d ≠ c) :
    (s.setContext c x).context d = s.context d := by
  simp only [State.context, State.setContext, Fin.getElem_fin]
  exact Vector.getElem_set_ne _ _ (fun e => h (Fin.ext e.symm))

end Sys2Proof.Machine
end

