-- ==== Sys2Proof/Laws/Issue.lean ====
section
/-! SUPPORT. What the shared operations of issue do: loop ends, landing, tokens, the checks of R220 and the end of an
instruction in sequence. -/

namespace Sys2Proof.Machine

/-! Loops. -/

theorem loopEnds_out (pc len : Nat) (ls : List LoopEntry) (r : LoopRegs)
    (h : ls.any (fun l => pc ≤ l.end_.toNat && l.end_.toNat < pc + 4 * len) = false) :
    loopEnds pc len ls r = (ls, r, none) := by
  cases ls with
  | nil => rfl
  | cons l ls =>
    simp only [List.any_cons, Bool.or_eq_false_iff, Bool.and_eq_false_iff, decide_eq_false_iff_not] at h
    have hn : ¬(pc ≤ l.end_.toNat ∧ l.end_.toNat < pc + 4 * len) := by
      intro hc
      rcases h.1 with h1 | h1
      · exact h1 hc.1
      · exact h1 hc.2
    simp only [loopEnds, if_neg hn]

/-- The registers a loop-end action finds and leaves, when it does nothing, are the engine's own. -/
theorem Engine.latch_p (p q m : BitVec 32) : (((p &&& ~~~m) ||| (q &&& m)) &&& ~~~m) ||| (p &&& m) = p := by
  ext i hi
  simp only [BitVec.getElem_or, BitVec.getElem_and, BitVec.getElem_not]
  cases p[i] <;> cases q[i] <;> cases m[i] <;> rfl

/-- An instruction that ends no loop, or is exempt, has no loop-end action (R235). -/
theorem Engine.endLoops_out (g : Engine) (len : Nat) (next : Dword) (h : g.endsLoop g.pc.toNat len = false) :
    g.endLoops len next = (g, next) := by
  unfold Engine.endLoops
  split
  · rfl
  · have hl := loopEnds_out g.pc.toNat len g.loops g.loopRegs h
    rw [hl]
    dsimp only [Engine.loopRegs]
    rw [Engine.latch_p]
    have hlc : Vector.mapIdx (fun i v => if g.latch.lcMask.getLsbD i = true then g.lc.getD i v else v)
        (Vector.mapIdx (fun i v => if g.latch.lcMask.getLsbD i = true then g.latch.lcOld.getD i v else v) g.lc) = g.lc := by
      apply Vector.ext
      intro i hi
      simp only [Vector.getElem_mapIdx]
      split <;> simp_all [Vector.getD]
    rw [hlc]
    rfl

/-! Landing (R229). -/

/-- Results that are not due stay in flight. -/
theorem State.landList_skip (s : State) (u : UnitId) (e : Eng) (now : Nat) (l : List Flight)
    (h : ∀ f ∈ l, now < f.landAt) : s.landList u e now l = s := by
  induction l with
  | nil => rfl
  | cons f fs ih =>
    simp only [State.landList, if_pos (h f (List.mem_cons_self ..))]
    exact ih fun g hg => h g (List.mem_cons_of_mem f hg)

theorem State.landList_append (s : State) (u : UnitId) (e : Eng) (now : Nat) (l l' : List Flight)
    (h : ∀ f ∈ l, now < f.landAt) : s.landList u e now (l ++ l') = s.landList u e now l' := by
  induction l with
  | nil => rfl
  | cons f fs ih =>
    rw [List.cons_append, State.landList, if_pos (h f (List.mem_cons_self ..))]
    exact ih fun g hg => h g (List.mem_cons_of_mem f hg)

/-- A cycle in which nothing lands. -/
theorem State.advance_quiet (s : State) (u : UnitId) (e : Eng) (h : (s.eng u e).quiet) :
    s.advance u e = s.modEng u e fun g =>
      { g with scycle := g.scycle + 1, latch := { pOld := g.p, lcOld := g.lc, pMask := 0, lcMask := 0 } } := by
  simp only [State.advance, State.land]
  rw [State.landList_skip]
  intro f hf
  simp only [State.eng_modEng] at hf ⊢
  exact h f hf

/-! Tokens (R205). -/

theorem Core.popMask_zero (c : Core) (e : Eng) : c.popMask e 0#3 = c := by
  simp [Core.popMask]

theorem State.push_zero (s : State) (u : UnitId) (e : Eng) : s.push u e 0#3 = s := by simp [State.push]

@[simp] theorem Core.emptyBits_zero (c : Core) (e : Eng) : c.emptyBits e 0#3 = 0#3 := by simp [Core.emptyBits]

@[simp] theorem Core.overCeil_zero (c : Core) (e : Eng) : c.overCeil e 0#3 = 0#3 := by simp [Core.overCeil]

/-- Where no queue is empty, none is orphaned. -/
theorem Core.orphanBits_zero (c : Core) (e : Eng) (m : BitVec 3) (h : c.emptyBits e m = 0) : c.orphanBits e m = 0 := by
  simp [Core.orphanBits, h]

@[simp] theorem Core.popMask_eng (c : Core) (e e' : Eng) (m : BitVec 3) : (c.popMask e m).eng e' = c.eng e' := by
  cases e' <;> rfl

@[simp] theorem State.popTokens_me (s : State) (h : Option Hdr) : (s.popTokens h).me = s.me := by
  unfold State.popTokens
  split
  · rfl
  · simp [State.me, State.eng]

@[simp] theorem State.popTokens_cur (s : State) (h : Option Hdr) : (s.popTokens h).cur = s.cur := by
  unfold State.popTokens
  split <;> rfl

/-! Issue (R220). -/

/-- An instruction that nothing of R220 stands against has its own effect, or that of a guarded-off one (R204). -/
theorem State.issue_ready (s : State) (i : Instr) (slotLen : Nat) (h : Option Hdr) (off on : State → Res)
    (r : s.Ready i h) (hd : delaySlotFault s.me i (instrWords i) slotLen = false) :
    s.issue i slotLen h false off on =
      (if s.me.guardOn h then on (s.begins h) else off (s.begins h)).settle s.cur.1 s.cur.2 (instrWords i) (waitOf h) := by
  have hl := r.legal
  have hc := r.ceiling
  have hu := r.undeferred
  have ht := r.tokens
  clear r
  have hm : s.eng s.cur.1 s.cur.2 = s.me := rfl
  cases h with
  | none =>
    simp only [waitOf, sigOf] at *
    rcases hu with hu | hu
    · simp [State.issue, hm, hu, hl, hd, Engine.guardOn, State.begins, waitOf, Core.orphanBits_zero]
    · cases hq : s.me.deferred <;>
        simp [State.issue, hm, hu, hq, hl, hd, Engine.guardOn, State.begins, waitOf, Core.orphanBits_zero]
  | some h =>
    simp only [waitOf, sigOf] at *
    have ho : s.me.popDone = true ∨
        ((s.core s.cur.1).orphanBits s.cur.2 h.wait = 0 ∧ (s.core s.cur.1).emptyBits s.cur.2 h.wait = 0) := by
      rcases ht with h1 | h1
      · exact .inl h1
      · exact .inr ⟨Core.orphanBits_zero _ _ _ h1, h1⟩
    have hf : s.issue i slotLen (some h) false off on =
        if s.me.popDone = false ∧ (s.core s.cur.1).orphanBits s.cur.2 h.wait ≠ 0 then
          s.trapHere s.cur.1 s.cur.2 (instrWords i) cOrphan (((s.core s.cur.1).orphanBits s.cur.2 h.wait).setWidth 64)
        else if s.me.popDone = false ∧ (s.core s.cur.1).emptyBits s.cur.2 h.wait ≠ 0 then
          (Res.freeze s (.tokens h.wait)).settle s.cur.1 s.cur.2 (instrWords i) 0
        else
          (if s.me.guardOn (some h) then on (s.begins (some h)) else off (s.begins (some h))).settle s.cur.1 s.cur.2
            (instrWords i) (if h.wait = 0 then 0 else h.wait) := by
      rcases hu with hu | hu
      · simp only [State.issue, hm, hu, hl, hd, hc]
        simp [Engine.guardOn, State.begins, waitOf, hu]
      · cases hq : s.me.deferred <;>
          (simp only [State.issue, hm, hu, hq, hl, hd, hc]; simp [Engine.guardOn, State.begins, waitOf, hq, hu])
    have hz' : (if h.wait = 0 then (0 : BitVec 3) else h.wait) = h.wait := by split <;> simp_all
    rw [hf, hz']
    rcases ho with h1 | ⟨h1, h2⟩
    · simp [h1]
    · simp [h1, h2]

@[simp] theorem State.begins_cur (s : State) (h : Option Hdr) : (s.begins h).cur = s.cur := by
  unfold State.begins
  split <;> rfl

/-- An instruction reads its operands as they stood: only the tokens and the note of their pop differ. -/
theorem State.begins_me (s : State) (h : Option Hdr) :
    (s.begins h).me = s.me ∨ (s.begins h).me = { s.me with popDone := true } := by
  unfold State.begins
  split
  · exact .inl rfl
  · right
    simp [State.me, State.eng, State.setCore, State.core]

theorem State.begins_popTokens (s : State) (h : Option Hdr) (g : Engine) :
    (s.begins h).setEng s.cur.1 s.cur.2 g = (s.popTokens h).setEng s.cur.1 s.cur.2 g := by
  unfold State.begins State.popTokens
  by_cases hp : s.me.popDone = true
  · rw [if_pos (.inl hp), if_pos hp]
  · rw [if_neg hp]
    by_cases hw : waitOf h = 0
    · have hz : (s.core s.cur.1).popMask s.cur.2 0 = s.core s.cur.1 := Core.popMask_zero _ _
      rw [if_pos (.inr hw), hw, State.modCore, hz, State.setCore_core]
    · rw [if_neg (fun hc => hc.elim hp hw)]
      simp only [State.setEng, State.modCore, State.core_setCore, State.setCore_setCore, Core.setEng_setEng]

/-- The next state is s with a copy of its own executing engine. -/
theorem State.setEng_me (s : State) : s.setEng s.cur.1 s.cur.2 s.me = s := State.setEng_eng s _ _

/-! The end of an instruction in sequence (R231, R235). -/

theorem Engine.stepSeq_out (g : Engine) (len : Nat) (h : g.endsLoop g.pc.toNat len = false) :
    g.stepSeq len = { g with pc := g.follows len, after := none, ds := false, noEnd := false, frozen := none, popDone := false } := by
  simp only [Engine.stepSeq, Engine.stepTo, Engine.endLoops_out g len _ h]

theorem State.exits_out (s : State) (u : UnitId) (e : Eng) (n : Nat) (h : n ≤ (s.eng u e).loops.length) :
    s.exits u e n = s := by
  have hn : ¬((s.eng u e).loops.length < n) := by omega
  simp [State.exits, hn]

/-- An instruction that issued in sequence, ended no loop, and after which nothing lands: only the pc, the marks of the issue
and SCYCLE change. -/
theorem Res.settle_seq (s : State) (u : UnitId) (e : Eng) (len : Nat) (undo : BitVec 3)
    (hb : (s.eng u e).endsLoop (s.eng u e).pc.toNat len = false) (hq : (s.eng u e).quiet) :
    (Res.seq s).settle u e len undo = s.setEng u e ((s.eng u e).passed len) := by
  simp only [Res.settle, State.modEng, Engine.stepSeq_out _ _ hb]
  rw [State.exits_out _ _ _ _ (by simp)]
  rw [State.advance_quiet]
  · simp only [State.modEng, State.eng_setEng, State.setEng_setEng]
    rfl
  · rw [State.eng_setEng]
    exact hq

/-- A result of latency above 1 stays in flight. -/
theorem Res.settle_fly (s : State) (u : UnitId) (e : Eng) (len lat : Nat) (undo sig : BitVec 3) (ws : List Write) (f : FlagSet)
    (hl : 1 < lat) (hb : (s.eng u e).endsLoop (s.eng u e).pc.toNat len = false) (hq : (s.eng u e).quiet) :
    (Res.seq (s.fly u e lat ws f sig)).settle u e len undo =
      s.setEng u e { (s.eng u e).passed len with
        flights := (s.eng u e).flights ++
          [{ landAt := (s.eng u e).scycle + lat, issuedAt := (s.eng u e).scycle, writes := ws, flags := f, sig := sig, lost := none }] } := by
  rw [Res.settle_seq]
  · simp only [State.fly, State.modEng, State.eng_setEng, State.setEng_setEng]
    rfl
  · simp only [State.fly, State.eng_modEng]
    exact hb
  · simp only [State.fly, State.eng_modEng]
    intro x hx
    simp only [List.mem_append, List.mem_singleton] at hx
    rcases hx with hx | hx
    · exact hq x hx
    · subst hx
      simp only
      omega

theorem List.erase_append_last {α : Type} [DecidableEq α] (l : List α) (a : α) (h : a ∉ l) : (l ++ [a]).erase a = l := by
  rw [List.erase_append_right _ h]
  simp

/-- No write of a list is a push. -/
def Write.plain : Write → Bool
  | .push _ _ _ => false
  | _ => true

/-- Writes to the registers a, lc, x and p of the engine. -/
def Write.onEngine : Write → Bool
  | .a _ _ | .lc _ _ | .x _ _ | .p _ _ => true
  | _ => false

theorem Write.plain_of_onEngine (w : Write) (h : w.onEngine = true) : w.plain = true := by
  cases w <;> simp_all [Write.plain, Write.onEngine]

/-- Landing such writes changes only the engine. -/
theorem State.landWrites_onEngine (s : State) (u : UnitId) (e : Eng) (ws : List Write) (h : ws.all Write.onEngine = true) :
    s.landWrites u e ws = s.modEng u e fun g => ws.foldl Engine.put g := by
  induction ws generalizing s with
  | nil => simp [State.landWrites, State.modEng]
  | cons w ws ih =>
    simp only [List.all_cons, Bool.and_eq_true] at h
    simp only [State.landWrites, List.foldl_cons]
    rw [ih _ h.2]
    cases w <;> simp_all [State.landWrite, Write.onEngine]

theorem Engine.put_flights (g : Engine) (l : List Flight) (w : Write) :
    ({ g with flights := l } : Engine).put w = { g.put w with flights := l } := by
  cases w <;> simp only [Engine.put] <;> split <;> rfl

theorem Engine.put_get_flights (g : Engine) (w : Write) : (g.put w).flights = g.flights := by
  cases w <;> simp only [Engine.put] <;> split <;> rfl

theorem Engine.puts_flights (g : Engine) (l : List Flight) (ws : List Write) :
    ws.foldl Engine.put ({ g with flights := l } : Engine) = { ws.foldl Engine.put g with flights := l } := by
  induction ws generalizing g with
  | nil => rfl
  | cons w ws ih => simp only [List.foldl_cons, Engine.put_flights, ih]

theorem Engine.puts_get_flights (g : Engine) (ws : List Write) : (ws.foldl Engine.put g).flights = g.flights := by
  induction ws generalizing g with
  | nil => rfl
  | cons w ws ih => simp only [List.foldl_cons, ih, Engine.put_get_flights]

theorem Core.blocked_plain (c : Core) (f : Flight) (hl : f.lost = none) (hw : f.writes.all Write.plain = true) :
    c.blocked f = false := by
  simp only [Core.blocked, hl, Option.isSome_none, Bool.false_or, List.any_eq_false]
  intro w hm
  have := List.all_eq_true.mp hw w hm
  cases w <;> simp_all [Write.plain]

/-- A cycle in which the one result of latency 1 lands (R227): registers, flags, then token pushes. -/
theorem State.advance_land (s : State) (u : UnitId) (e : Eng) (g : Engine) (sig : BitVec 3) (ws : List Write) (f : FlagSet)
    (hw : ws.all Write.onEngine = true) (hq : g.quiet) :
    (s.setEng u e { g with
      flights := g.flights ++ [{ landAt := g.scycle + 1, issuedAt := g.scycle, writes := ws, flags := f, sig := sig, lost := none }] }).advance u e =
      (s.setEng u e
        (let k := ws.foldl Engine.put
          ({ g with scycle := g.scycle + 1, latch := { pOld := g.p, lcOld := g.lc, pMask := 0, lcMask := 0 } } : Engine)
         { k with sticky := k.sticky ||| f })).push u e sig := by
  generalize hfl : ({ landAt := g.scycle + 1, issuedAt := g.scycle, writes := ws, flags := f, sig := sig, lost := none } : Flight) = fl
  have hnot : fl ∉ g.flights := by
    intro hm
    have := hq fl hm
    subst hfl
    simp at this
  have hbf : ∀ c : Core, c.blocked fl = false := by
    intro c
    apply Core.blocked_plain
    · subst hfl; rfl
    · subst hfl
      rw [List.all_eq_true] at hw ⊢
      exact fun w hm => Write.plain_of_onEngine w (hw w hm)
  have hland : ¬(g.scycle + 1 < fl.landAt) := by subst hfl; simp
  simp only [State.advance, State.land, State.modEng, State.eng_setEng, State.setEng_setEng]
  rw [State.landList_append _ _ _ _ _ _ hq, State.landList, if_neg hland, hbf]
  simp only [Bool.false_eq_true, if_false, State.landList]
  have hfw : fl.writes = ws := by subst hfl; rfl
  have hff : fl.flags = f := by subst hfl; rfl
  have hfs : fl.sig = sig := by subst hfl; rfl
  rw [hfw, hff, hfs, State.landWrites_onEngine _ _ _ _ hw]
  simp only [State.modEng, State.eng_setEng, State.setEng_setEng]
  have hp := Engine.puts_flights
    ({ g with scycle := g.scycle + 1, latch := { pOld := g.p, lcOld := g.lc, pMask := 0, lcMask := 0 } } : Engine)
    (g.flights ++ [fl]) ws
  rw [hp]
  simp only [List.erase_append_last _ _ hnot]
  have hlast : (ws.foldl Engine.put
    ({ g with scycle := g.scycle + 1, latch := { pOld := g.p, lcOld := g.lc, pMask := 0, lcMask := 0 } } : Engine)).flights =
      g.flights := Engine.puts_get_flights _ _
  generalize ws.foldl Engine.put
    ({ g with scycle := g.scycle + 1, latch := { pOld := g.p, lcOld := g.lc, pMask := 0, lcMask := 0 } } : Engine) = k
    at hlast ⊢
  rw [← hlast]

/-- A result of latency 1 of an instruction that issued in sequence. -/
theorem Res.settle_land (s : State) (u : UnitId) (e : Eng) (len : Nat) (undo sig : BitVec 3) (ws : List Write) (f : FlagSet)
    (hw : ws.all Write.onEngine = true) (hb : (s.eng u e).endsLoop (s.eng u e).pc.toNat len = false)
    (hq : (s.eng u e).quiet) :
    (Res.seq (s.fly u e 1 ws f sig)).settle u e len undo =
      (s.setEng u e { ws.foldl Engine.put ((s.eng u e).passed len) with
        sticky := (ws.foldl Engine.put ((s.eng u e).passed len)).sticky ||| f }).push u e sig := by
  generalize hfl : ({ landAt := (s.eng u e).scycle + 1, issuedAt := (s.eng u e).scycle, writes := ws, flags := f, sig := sig, lost := none } : Flight) = fl
  have hb' : ({ s.eng u e with flights := (s.eng u e).flights ++ [fl] } : Engine).endsLoop (s.eng u e).pc.toNat len = false :=
    hb
  simp only [State.fly, Res.settle, State.modEng, State.eng_setEng, State.setEng_setEng]
  rw [hfl, Engine.stepSeq_out _ _ hb', State.exits_out _ _ _ _ (by simp)]
  subst hfl
  exact State.advance_land s u e
    { s.eng u e with
      pc := (s.eng u e).follows len, after := none, ds := false, noEnd := false, frozen := none, popDone := false }
    sig ws f hw hq

/-! An instruction as a whole. -/

/-- What the issue of an instruction reads of its engine does not depend on the note of its pops. -/
theorem Engine.passed_popDone (g : Engine) (len : Nat) : ({ g with popDone := true } : Engine).passed len = g.passed len := rfl

theorem State.begins_passed (s : State) (h : Option Hdr) (len : Nat) : (s.begins h).me.passed len = s.me.passed len := by
  rcases s.begins_me h with e | e <;> rw [e] <;> rfl

theorem State.begins_body (s : State) (h : Option Hdr) (len : Nat) :
    (s.begins h).me.endsLoop (s.begins h).me.pc.toNat len = s.me.endsLoop s.me.pc.toNat len := by
  rcases s.begins_me h with e | e <;> rw [e] <;> rfl

theorem State.begins_quiet (s : State) (h : Option Hdr) (hq : s.me.quiet) : (s.begins h).me.quiet := by
  rcases s.begins_me h with e | e <;> rw [e]
  · exact hq
  · exact hq

theorem State.begins_scycle (s : State) (h : Option Hdr) : (s.begins h).me.scycle = s.me.scycle := by
  rcases s.begins_me h with e | e <;> rw [e]

theorem State.begins_flights (s : State) (h : Option Hdr) : (s.begins h).me.flights = s.me.flights := by
  rcases s.begins_me h with e | e <;> rw [e]

/-- Operands are read as they stood when the instruction issued. -/
theorem State.begins_csrc (s : State) (h : Option Hdr) (a : CSrc) : (s.begins h).me.csrc a = s.me.csrc a := by
  rcases s.begins_me h with e | e <;> rw [e]
  cases a <;> rfl

theorem State.begins_scalar (s : State) (h : Option Hdr) (a : Spec) : (s.begins h).me.scalar a = s.me.scalar a := by
  rcases s.begins_me h with e | e <;> rw [e]
  cases a <;> rfl

theorem State.begins_vscalar (s : State) (h : Option Hdr) (a : Spec) : (s.begins h).me.vscalar a = s.me.vscalar a := by
  rcases s.begins_me h with e | e <;> rw [e]
  cases a <;> rfl

theorem State.begins_pred (s : State) (h : Option Hdr) (n : BitVec 5) : (s.begins h).me.pred n = s.me.pred n := by
  rcases s.begins_me h with e | e <;> rw [e]
  rfl

/-- A C32 instruction begins in the state it finds. -/
theorem State.begins_none (s : State) : s.begins none = s := by simp [State.begins, waitOf]

theorem State.popTokens_none (s : State) : s.popTokens none = s := by
  unfold State.popTokens
  split
  · rfl
  · have hz : (s.core s.cur.1).popMask s.cur.2 0 = s.core s.cur.1 := Core.popMask_zero _ _
    simp only [State.modCore, waitOf]
    rw [hz, State.setCore_core]

/-- An instruction whose own effect only lets it issue. -/
theorem State.issue_passes (s : State) (i : Instr) (slotLen : Nat) (h : Option Hdr) (off on : State → Res)
    (r : s.Ready i h) (hd : delaySlotFault s.me i (instrWords i) slotLen = false) (hg : s.me.guardOn h = true)
    (hon : on (s.begins h) = .seq (s.begins h)) :
    s.issue i slotLen h false off on = s.passes (instrWords i) h := by
  rw [State.issue_ready s i slotLen h off on r hd, if_pos hg, hon,
    Res.settle_seq _ _ _ _ _ ((s.begins_body h (instrWords i)).trans r.body |> fun e => by simpa [State.me] using e)
      (by simpa [State.me] using s.begins_quiet h r.quiet)]
  have : (s.begins h).eng s.cur.1 s.cur.2 = (s.begins h).me := by simp [State.me]
  rw [this, State.begins_passed, State.begins_popTokens]
  rfl

/-- An instruction whose result lands in the next cycle. -/
theorem State.issue_lands (s : State) (i : Instr) (slotLen : Nat) (h : Option Hdr) (off on : State → Res) (ws : List Write)
    (f : FlagSet) (r : s.Ready i h) (hd : delaySlotFault s.me i (instrWords i) slotLen = false)
    (hg : s.me.guardOn h = true) (hw : ws.all Write.onEngine = true)
    (hon : on (s.begins h) = .seq ((s.begins h).fly s.cur.1 s.cur.2 1 ws f (sigOf h))) :
    s.issue i slotLen h false off on = s.lands (instrWords i) h ws f := by
  have he : (s.begins h).eng s.cur.1 s.cur.2 = (s.begins h).me := by simp [State.me]
  rw [State.issue_ready s i slotLen h off on r hd, if_pos hg, hon, Res.settle_land _ _ _ _ _ _ _ _ hw
    (by rw [he, s.begins_body h]; exact r.body) (by rw [he]; exact s.begins_quiet h r.quiet)]
  rw [he, State.begins_passed, State.begins_popTokens]
  rfl

/-- An instruction whose result lands later. -/
theorem State.issue_flies (s : State) (i : Instr) (slotLen : Nat) (h : Option Hdr) (off on : State → Res) (lat : Nat)
    (ws : List Write) (f : FlagSet) (r : s.Ready i h) (hd : delaySlotFault s.me i (instrWords i) slotLen = false)
    (hg : s.me.guardOn h = true) (hl : 1 < lat)
    (hon : on (s.begins h) = .seq ((s.begins h).fly s.cur.1 s.cur.2 lat ws f (sigOf h))) :
    s.issue i slotLen h false off on = s.flies (instrWords i) h lat ws f := by
  have he : (s.begins h).eng s.cur.1 s.cur.2 = (s.begins h).me := by simp [State.me]
  rw [State.issue_ready s i slotLen h off on r hd, if_pos hg, hon, Res.settle_fly _ _ _ _ _ _ _ _ _ hl
    (by rw [he, s.begins_body h]; exact r.body) (by rw [he]; exact s.begins_quiet h r.quiet)]
  rw [he, State.begins_passed, State.begins_scycle, State.begins_flights, State.begins_popTokens]
  rfl

end Sys2Proof.Machine
end

