-- ==== Sys2Proof/Laws/Map.lean ====
section
/-! SUPPORT. Laws of the sparse maps: a read after a write, and that every operation keeps the canonical form; then the same
of main memory, byte by byte (R3). -/

namespace Sys2Proof.Machine

variable {β : Type}

/-! Reads after writes. -/

theorem CMap.get_of_lt (d : β) (m : CMap β) {b k : Nat} (h : CMap.risesFrom b m = true) (hk : k < b) :
    CMap.get d m k = d := by
  induction m generalizing b with
  | nil => rfl
  | cons p m ih =>
    obtain ⟨j, v⟩ := p
    simp only [CMap.risesFrom, Bool.and_eq_true, decide_eq_true_eq] at h
    have hne : j ≠ k := by omega
    simp only [CMap.get, if_neg hne]
    exact ih h.2 (by omega)

theorem CMap.risesFrom_mono {m : CMap β} {b c : Nat} (h : CMap.risesFrom b m = true) (hc : c ≤ b) :
    CMap.risesFrom c m = true := by
  cases m with
  | nil => rfl
  | cons p m =>
    obtain ⟨j, v⟩ := p
    simp only [CMap.risesFrom, Bool.and_eq_true, decide_eq_true_eq] at h ⊢
    exact ⟨by omega, h.2⟩

theorem CMap.risesFrom_erase {m : CMap β} {b : Nat} (k : Nat) (h : CMap.risesFrom b m = true) :
    CMap.risesFrom b (CMap.erase m k) = true := by
  induction m generalizing b with
  | nil => rfl
  | cons p m ih =>
    obtain ⟨j, v⟩ := p
    simp only [CMap.erase]
    have h' := h
    simp only [CMap.risesFrom, Bool.and_eq_true, decide_eq_true_eq] at h'
    split
    · exact CMap.risesFrom_mono h'.2 (by omega)
    · split
      · exact h
      · simp only [CMap.risesFrom, Bool.and_eq_true, decide_eq_true_eq]
        exact ⟨h'.1, ih h'.2⟩

theorem CMap.risesFrom_insert {m : CMap β} {b k : Nat} (v : β) (h : CMap.risesFrom b m = true) (hb : b ≤ k) :
    CMap.risesFrom b (CMap.insert m k v) = true := by
  induction m generalizing b with
  | nil => simp [CMap.insert, CMap.risesFrom, hb]
  | cons p m ih =>
    obtain ⟨j, w⟩ := p
    have h' := h
    simp only [CMap.risesFrom, Bool.and_eq_true, decide_eq_true_eq] at h'
    simp only [CMap.insert]
    split
    · simp only [CMap.risesFrom, Bool.and_eq_true, decide_eq_true_eq]
      exact ⟨hb, by omega, h'.2⟩
    · split
      · subst k
        simp only [CMap.risesFrom, Bool.and_eq_true, decide_eq_true_eq]
        exact ⟨hb, h'.2⟩
      · simp only [CMap.risesFrom, Bool.and_eq_true, decide_eq_true_eq]
        exact ⟨h'.1, ih h'.2 (by omega)⟩

theorem CMap.get_insert (d : β) (m : CMap β) (k : Nat) (v : β) (j : Nat) :
    CMap.get d (CMap.insert m k v) j = if j = k then v else CMap.get d m j := by
  induction m with
  | nil =>
    simp only [CMap.insert, CMap.get]
    by_cases h : k = j <;> simp [h, eq_comm]
  | cons p m ih =>
    obtain ⟨i, w⟩ := p
    simp only [CMap.insert]
    split
    · simp only [CMap.get]
      by_cases h : k = j <;> simp [h, eq_comm]
    · split
      · subst k
        simp only [CMap.get]
        by_cases h : i = j
        · simp [h]
        · have : j ≠ i := fun e => h e.symm
          simp [h, this]
      · simp only [CMap.get, ih]
        by_cases h : i = j
        · subst h
          have : i ≠ k := by omega
          simp [this]
        · simp [h]

theorem CMap.get_erase (d : β) (m : CMap β) (b k : Nat) (h : CMap.risesFrom b m = true) (j : Nat) :
    CMap.get d (CMap.erase m k) j = if j = k then d else CMap.get d m j := by
  induction m generalizing b with
  | nil => simp [CMap.erase, CMap.get]
  | cons p m ih =>
    obtain ⟨i, w⟩ := p
    simp only [CMap.risesFrom, Bool.and_eq_true, decide_eq_true_eq] at h
    simp only [CMap.erase]
    split
    · subst k
      by_cases hj : j = i
      · subst hj
        simp only [if_true]
        exact CMap.get_of_lt d m h.2 (by omega)
      · have : i ≠ j := fun e => hj e.symm
        simp [CMap.get, hj, this]
    · split
      · by_cases hj : j = k
        · subst hj
          have hne : i ≠ j := by omega
          simp only [CMap.get, if_neg hne, if_true]
          exact CMap.get_of_lt d m h.2 (by omega)
        · simp [hj]
      · simp only [CMap.get, ih _ h.2]
        by_cases hj : i = j
        · subst hj
          have : i ≠ k := by omega
          simp [this]
        · simp [hj]

/-- A read after a write. -/
theorem CMap.get_set [DecidableEq β] (d : β) (m : CMap β) (h : CMap.wf d m = true) (k : Nat) (v : β) (j : Nat) :
    CMap.get d (CMap.set d m k v) j = if j = k then v else CMap.get d m j := by
  simp only [CMap.wf, Bool.and_eq_true] at h
  simp only [CMap.set]
  split
  · rename_i hv
    rw [CMap.get_erase d m 0 k h.1, hv]
  · exact CMap.get_insert d m k v j

/-! The canonical form. -/

theorem CMap.noDefault_erase [DecidableEq β] (d : β) (m : CMap β) (k : Nat) (h : CMap.noDefault d m = true) :
    CMap.noDefault d (CMap.erase m k) = true := by
  induction m with
  | nil => rfl
  | cons p m ih =>
    obtain ⟨j, v⟩ := p
    have h' := h
    simp only [CMap.noDefault, Bool.and_eq_true] at h'
    simp only [CMap.erase]
    split
    · exact h'.2
    · split
      · exact h
      · simp only [CMap.noDefault, Bool.and_eq_true]
        exact ⟨h'.1, ih h'.2⟩

theorem CMap.noDefault_insert [DecidableEq β] (d : β) (m : CMap β) (k : Nat) (v : β) (h : CMap.noDefault d m = true)
    (hv : v ≠ d) : CMap.noDefault d (CMap.insert m k v) = true := by
  have hd : decide (v ≠ d) = true := decide_eq_true hv
  induction m with
  | nil => simp [CMap.insert, CMap.noDefault, hv]
  | cons p m ih =>
    obtain ⟨j, w⟩ := p
    have h' := h
    simp only [CMap.noDefault, Bool.and_eq_true] at h'
    simp only [CMap.insert]
    split
    · simp only [CMap.noDefault, Bool.and_eq_true]
      exact ⟨hd, h'.1, h'.2⟩
    · split
      · simp only [CMap.noDefault, Bool.and_eq_true]
        exact ⟨hd, h'.2⟩
      · simp only [CMap.noDefault, Bool.and_eq_true]
        exact ⟨h'.1, ih h'.2⟩

theorem CMap.wf_nil [DecidableEq β] (d : β) : CMap.wf d ([] : CMap β) = true := rfl

/-- A write keeps the canonical form. -/
theorem CMap.wf_set [DecidableEq β] (d : β) (m : CMap β) (k : Nat) (v : β) (h : CMap.wf d m = true) :
    CMap.wf d (CMap.set d m k v) = true := by
  simp only [CMap.wf, Bool.and_eq_true] at h ⊢
  simp only [CMap.set]
  split
  · exact ⟨CMap.risesFrom_erase k h.1, CMap.noDefault_erase d m k h.2⟩
  · rename_i hv
    exact ⟨CMap.risesFrom_insert v h.1 (Nat.zero_le k), CMap.noDefault_insert d m k v h.2 hv⟩

theorem CMap.risesFrom_clear {m : CMap β} {b : Nat} (lo hi : Nat) (h : CMap.risesFrom b m = true) :
    CMap.risesFrom b (CMap.clear m lo hi) = true := by
  induction m generalizing b with
  | nil => rfl
  | cons p m ih =>
    obtain ⟨j, v⟩ := p
    simp only [CMap.risesFrom, Bool.and_eq_true, decide_eq_true_eq] at h
    simp only [CMap.clear]
    split
    · exact CMap.risesFrom_mono (ih h.2) (by omega)
    · simp only [CMap.risesFrom, Bool.and_eq_true, decide_eq_true_eq]
      exact ⟨h.1, ih h.2⟩

/-- Clearing a range keeps the canonical form. -/
theorem CMap.wf_clear [DecidableEq β] (d : β) (m : CMap β) (lo hi : Nat) (h : CMap.wf d m = true) :
    CMap.wf d (CMap.clear m lo hi) = true := by
  simp only [CMap.wf, Bool.and_eq_true] at h ⊢
  refine ⟨CMap.risesFrom_clear lo hi h.1, ?_⟩
  have h2 := h.2
  clear h
  induction m with
  | nil => rfl
  | cons p m ih =>
    obtain ⟨j, v⟩ := p
    simp only [CMap.noDefault, Bool.and_eq_true] at h2
    simp only [CMap.clear]
    split
    · exact ih h2.2
    · simp only [CMap.noDefault, Bool.and_eq_true]
      exact ⟨h2.1, ih h2.2⟩

/-- Dropping every entry whose key lies outside a predicate keeps the canonical form. -/
theorem CMap.wf_filter [DecidableEq β] (d : β) (m : CMap β) (p : Nat × β → Bool) (h : CMap.wf d m = true) :
    CMap.wf d (m.filter p) = true := by
  simp only [CMap.wf, Bool.and_eq_true] at h ⊢
  have key : ∀ (l : CMap β) (b : Nat), CMap.risesFrom b l = true → CMap.risesFrom b (l.filter p) = true := by
    intro l
    induction l with
    | nil => intros; rfl
    | cons q l ih =>
      obtain ⟨j, v⟩ := q
      intro b hb
      simp only [CMap.risesFrom, Bool.and_eq_true, decide_eq_true_eq] at hb
      rw [List.filter_cons]
      split
      · simp only [CMap.risesFrom, Bool.and_eq_true, decide_eq_true_eq]
        exact ⟨hb.1, ih _ hb.2⟩
      · exact CMap.risesFrom_mono (ih _ hb.2) (by omega)
  refine ⟨key m 0 h.1, ?_⟩
  have h2 := h.2
  clear h key
  induction m with
  | nil => rfl
  | cons q m ih =>
    obtain ⟨j, v⟩ := q
    simp only [CMap.noDefault, Bool.and_eq_true] at h2
    rw [List.filter_cons]
    split
    · simp only [CMap.noDefault, Bool.and_eq_true]
      exact ⟨h2.1, ih h2.2⟩
    · exact ih h2.2

/-! Main memory. -/

/-- A byte read after a byte write. -/
theorem State.rawByte_putByte (s : State) (h : Memory.wf s.mem) (k : Nat) (b : Byte) (j : Nat) :
    (s.putByte k b).rawByte j = if j = k then b else s.rawByte j :=
  CMap.get_set memDefault s.mem h k b j

theorem State.putByte_wf (s : State) (k : Nat) (b : Byte) (h : Memory.wf s.mem) : Memory.wf (s.putByte k b).mem :=
  CMap.wf_set memDefault s.mem k b h

theorem State.putBytes_wf (s : State) (k : Nat) (bs : List Byte) (h : Memory.wf s.mem) :
    Memory.wf (s.putBytes k bs).mem := by
  induction bs generalizing s k with
  | nil => exact h
  | cons b bs ih => exact ih _ _ (State.putByte_wf s k b h)

/-- A write of bytes leaves every other byte. -/
theorem State.rawByte_putBytes_out (s : State) (k : Nat) (bs : List Byte) (h : Memory.wf s.mem) (j : Nat)
    (hj : j < k ∨ k + bs.length ≤ j) : (s.putBytes k bs).rawByte j = s.rawByte j := by
  induction bs generalizing s k with
  | nil => rfl
  | cons b bs ih =>
    simp only [List.length_cons] at hj
    have hne : j ≠ k := by omega
    simp only [State.putBytes]
    rw [ih _ _ (State.putByte_wf s k b h) (by omega), State.rawByte_putByte s h, if_neg hne]

/-- The bytes written are the bytes read. -/
theorem State.rawBytes_putBytes (s : State) (k : Nat) (bs : List Byte) (h : Memory.wf s.mem) :
    (s.putBytes k bs).rawBytes k bs.length = bs := by
  induction bs generalizing s k with
  | nil => rfl
  | cons b bs ih =>
    simp only [State.putBytes, List.length_cons, State.rawBytes]
    rw [ih _ _ (State.putByte_wf s k b h), State.rawByte_putBytes_out _ _ _ (State.putByte_wf s k b h) _ (by omega),
      State.rawByte_putByte s h, if_pos rfl]

/-- Mending a word's check bits changes no byte of memory. -/
@[simp] theorem State.mendWord_mem (s : State) (key : Nat) : (s.mendWord key).mem = s.mem := by
  unfold State.mendWord
  split
  · rfl
  · dsimp only
    split <;> rfl

@[simp] theorem State.mendDram_mem (s : State) (key : Nat) : (s.mendDram key).mem = s.mem := by
  unfold State.mendDram
  split <;> rfl

theorem State.claimLine_wf (s : State) (d : DevId) (w : World) (a : Nat) (h : Memory.wf s.mem) :
    Memory.wf (s.claimLine d w a).mem := by
  unfold State.claimLine
  cases dramHome (s.dieListOf d) a with
  | none => exact h
  | some p =>
    obtain ⟨vd, o⟩ := p
    dsimp only
    generalize (s.lineTag vd d a w).code = tag
    generalize keyDram vd o / 64 = k
    by_cases hc : CMap.get 0 s.lineKey k = tag
    · rw [if_pos hc]
      exact h
    · rw [if_neg hc]
      exact State.putBytes_wf s (64 * k) _ h

/-- Every write of a byte at a location keeps the canonical form. -/
theorem State.putLoc_wf (s : State) (w : World) (b : Byte) (l : Loc) (h : Memory.wf s.mem) :
    Memory.wf (s.putLoc w b l).mem := by
  cases l with
  | scratch c o =>
    simp only [State.putLoc]
    generalize keyScratch c o = k
    exact State.putByte_wf (s.mendWord k) k b (by simpa using h)
  | pane vd o =>
    simp only [State.putLoc]
    generalize keyPane vd o = k
    exact State.putByte_wf (s.mendWord k) k b (by simpa using h)
  | dram d a =>
    simp only [State.putLoc, State.putDramByte]
    split
    · exact h
    · rename_i vd o _
      generalize keyDram vd o = k
      exact State.putByte_wf _ k b (by simpa using State.claimLine_wf s d w a h)
  | host a =>
    simp only [State.putLoc]
    generalize keyHost a = k
    exact State.putByte_wf s k b h

theorem State.writeLoc_wf (s : State) (w : World) (l : Loc) (bs : List Byte) (h : Memory.wf s.mem) :
    Memory.wf (s.writeLoc w l bs).mem := by
  induction bs generalizing s l with
  | nil => exact h
  | cons b bs ih => exact ih _ _ (State.putLoc_wf s w b l h)

theorem State.writeLocs_wf (s : State) (w : World) (ls : List Loc) (bs : List Byte) (h : Memory.wf s.mem) :
    Memory.wf (s.writeLocs w ls bs).mem := by
  induction ls generalizing s bs with
  | nil => exact h
  | cons l ls ih =>
    cases bs with
    | nil => exact h
    | cons b bs => exact ih _ _ (State.putLoc_wf s w b l h)

/-! Little-endian values (R3). -/

theorem toBytes_length (n v : Nat) : (toBytes n v).length = n := by
  induction n generalizing v with
  | zero => rfl
  | succ n ih => simp [toBytes, ih]

theorem ofBytes_toBytes (n v : Nat) : ofBytes (toBytes n v) = v % 256 ^ n := by
  induction n generalizing v with
  | zero => simp [toBytes, ofBytes, Nat.mod_one]
  | succ n ih =>
    simp only [toBytes, ofBytes, ih]
    rw [Nat.pow_succ', Nat.mod_mul, BitVec.toNat_ofNat]

end Sys2Proof.Machine
end

