-- ==== Sys2Proof/Laws/PerInstr.lean ====
section
/-! SUPPORT. Facts of every instruction as syntax, one lemma per constructor: the words of a legal instruction number one to
nine (R198), and the first tells C32 from P64 (R201). -/

namespace Sys2Proof.Laws

/-! Literals. -/

theorem csrc_lits (s : CSrc) : s.lits.length ≤ 2 := by cases s <;> simp [CSrc.lits, lit64Words]
theorem spec_lits (s : Spec) : s.lits.length ≤ 2 := by cases s <;> simp [Spec.lits, lit64Words]
theorem scalarDst_lits {s : Spec} (h : s.isScalarDst = true) : s.lits = [] := by
  cases s <;> simp_all [Spec.isScalarDst, Spec.lits]
theorem vDst_lits {s : Spec} (h : s.isVDst = true) : s.lits = [] := by cases s <;> simp_all [Spec.isVDst, Spec.lits]

/-! The first word of form I or T has bit 31 clear (R201). -/
theorem high_bit {n m : Nat} (x : BitVec n) (y : BitVec m) {i : Nat} (h : m ≤ i) :
    BitVec.getLsbD (x ++ y) i = x.getLsbD (i - m) := by
  simp [BitVec.getLsbD_append, Nat.not_lt.mpr h]
theorem formI_c32 (opc : BitVec 6) (d s : BitVec 5) (imm : BitVec 15) : (formI opc d s imm).getLsbD 31 = false :=
  (high_bit _ imm (by decide)).trans ((high_bit _ s (by decide)).trans ((high_bit _ d (by decide)).trans
    ((high_bit _ opc (by decide)).trans rfl)))
theorem formT_c32 (opc : BitVec 6) (d s t : BitVec 5) (imm : BitVec 10) : (formT opc d s t imm).getLsbD 31 = false :=
  (high_bit _ imm (by decide)).trans ((high_bit _ t (by decide)).trans ((high_bit _ s (by decide)).trans
    ((high_bit _ d (by decide)).trans ((high_bit _ opc (by decide)).trans rfl))))

end Sys2Proof.Laws

namespace Sys2Proof.Laws.EncodedLength

/-- A legal instruction has from one to nine words, and a private one says so in bit 31 of its first word. -/
def Statement (i : Instr) : Prop :=
  ∀ env, i.legalOn env = true → 1 ≤ (encode i).length ∧ (encode i).length ≤ 9 ∧
    ((wordAt (encode i) 0).getLsbD 31 = true → 2 ≤ (encode i).length)

/-! Shapes of encodings. -/

theorem words_I (opc : BitVec 6) (d : BitVec 5) (s : CSrc) (imm : BitVec 15) :
    1 ≤ (encI opc d s imm).length ∧ (encI opc d s imm).length ≤ 9 ∧
      ((wordAt (encI opc d s imm) 0).getLsbD 31 = true → 2 ≤ (encI opc d s imm).length) := by
  have := csrc_lits s
  simp only [encI, wordAt, List.getD_cons_zero, formI_c32, List.length_cons]
  exact ⟨by omega, by omega, nofun⟩

theorem words_T (opc : BitVec 6) (d : BitVec 5) (s t : CSrc) (imm : BitVec 10) :
    1 ≤ (encT opc d s t imm).length ∧ (encT opc d s t imm).length ≤ 9 ∧
      ((wordAt (encT opc d s t imm) 0).getLsbD 31 = true → 2 ≤ (encT opc d s t imm).length) := by
  have := csrc_lits s
  have := csrc_lits t
  simp only [encT, wordAt, List.getD_cons_zero, formT_c32, List.length_cons, List.length_append]
  exact ⟨by omega, by omega, nofun⟩

theorem words_one (w : Word) (h : w.getLsbD 31 = false) :
    1 ≤ [w].length ∧ [w].length ≤ 9 ∧ ((wordAt [w] 0).getLsbD 31 = true → 2 ≤ [w].length) := by
  simp only [wordAt, List.getD_cons_zero, h, List.length_cons, List.length_nil]
  exact ⟨by omega, by omega, nofun⟩

/-- A first and second word with at most seven more. -/
theorem words_two (a b : Word) (l : List Word) (h : l.length ≤ 7) :
    1 ≤ (a :: b :: l).length ∧ (a :: b :: l).length ≤ 9 ∧ ((wordAt (a :: b :: l) 0).getLsbD 31 = true → 2 ≤ (a :: b :: l).length) := by
  simp only [List.length_cons]
  exact ⟨by omega, by omega, fun _ => by omega⟩

theorem words_R (h : Hdr) (opc : BitVec 9) (md : BitVec 10) (o : R4) (hd : o.dst.lits = []) :
    1 ≤ (encR h opc md o).length ∧ (encR h opc md o).length ≤ 9 ∧
      ((wordAt (encR h opc md o) 0).getLsbD 31 = true → 2 ≤ (encR h opc md o).length) := by
  have := spec_lits o.a
  have := spec_lits o.b
  have := spec_lits o.c
  exact words_two _ _ _ (by simp [hd]; omega)

theorem words_M (h : Hdr) (opc : BitVec 9) (md : BitVec 10) (o : MemOp) :
    1 ≤ (encM h opc md o).length ∧ (encM h opc md o).length ≤ 9 ∧
      ((wordAt (encM h opc md o) 0).getLsbD 31 = true → 2 ≤ (encM h opc md o).length) := by
  have := spec_lits o.d
  have := spec_lits o.base
  have := spec_lits o.aux
  exact words_two _ _ _ (by simp; omega)

theorem words_Q (h : Hdr) (opc : BitVec 9) (o : Q3) (sel : BitVec 8) :
    1 ≤ (encQ h opc o sel).length ∧ (encQ h opc o sel).length ≤ 9 ∧
      ((wordAt (encQ h opc o sel) 0).getLsbD 31 = true → 2 ≤ (encQ h opc o sel).length) := by
  have := spec_lits o.dst
  have := spec_lits o.a
  have := spec_lits o.b
  exact words_two _ _ _ (by simp; omega)

theorem words_K (h : Hdr) (opc : BitVec 9) (md : BitVec 10) (o : K3) :
    1 ≤ (encK h opc md o).length ∧ (encK h opc md o).length ≤ 9 ∧
      ((wordAt (encK h opc md o) 0).getLsbD 31 = true → 2 ≤ (encK h opc md o).length) := by
  have := spec_lits o.adr
  have := spec_lits o.aux
  exact words_two _ _ _ (by simp; omega)

theorem words_X (h : Hdr) (opc : BitVec 9) (md : BitVec 10) (a b c d : BitVec 8) :
    1 ≤ (encX h opc md a b c d).length ∧ (encX h opc md a b c d).length ≤ 9 ∧
      ((wordAt (encX h opc md a b c d) 0).getLsbD 31 = true → 2 ≤ (encX h opc md a b c d).length) :=
  words_two _ _ _ (by simp)

theorem words_V (h : Hdr) (opc : BitVec 9) (md : BitVec 10) (o : R4) (hd : o.dst.isVDst = true) :
    1 ≤ (encR h opc md o).length ∧ (encR h opc md o).length ≤ 9 ∧
      ((wordAt (encR h opc md o) 0).getLsbD 31 = true → 2 ≤ (encR h opc md o).length) :=
  words_R h opc md o (vDst_lits hd)

/-! Destinations hold no literal. -/

theorem right {a b : Bool} (h : (a && b) = true) : b = true := by cases a <;> simp_all
theorem left {a b : Bool} (h : (a && b) = true) : a = true := by cases a <;> simp_all
theorem vFields_dst {n : Nat} {o : R4} (h : vFields n o = true) : o.dst.isVDst = true := left (left (left (left h)))
theorem vaOk_dst {r : VaRow} {m : ModVA} {o : R4} (h : vaOk r m o = true) : o.dst.isVDst = true := vFields_dst (right h)
theorem vxRot_dst {m : ModVX} {o : R4} (h : vxRotOk m o = true) : o.dst.isVDst = true :=
  right (left (left (left (left h))))
theorem vxRed_dst {m : ModVX} {o : R4} (h : vxRedOk m o = true) : o.dst.isVDst = true :=
  right (left (left (left (left h))))
theorem ia2_dst {o : R4} (h : ia2Ok o = true) : o.dst.lits = [] := scalarDst_lits (left (left (left h)))
theorem ia1_dst {o : R4} (h : ia1Ok o = true) : o.dst.lits = [] := scalarDst_lits (left (left (left h)))

theorem vOrNone {s : Spec} (h : (match s with | .v _ | .none => true | _ => false) = true) : s.lits = [] := by
  cases s <;> simp_all [Spec.lits]
theorem xOrNone {s : Spec} (h : (match s with | .x _ | .none => true | _ => false) = true) : s.lits = [] := by
  cases s <;> simp_all [Spec.lits]

/-- Literals of three fields. -/
theorem three (x y z : Spec) (l : List Word) (h : l.length ≤ 1) : (x.lits ++ y.lits ++ z.lits ++ l).length ≤ 7 := by
  have := spec_lits x
  have := spec_lits y
  have := spec_lits z
  simp only [List.length_append]
  omega

/-! One lemma per constructor. -/

theorem rows0 :
    (∀ a0, Statement (.packageReset a0)) ∧
    (∀ a0 a1, Statement (.mcSample a0 a1)) ∧
    (∀ a0, Statement (.dispatchArrival a0)) ∧
    (∀ a0, Statement (.resourceReport a0)) ∧
    (∀ a0, Statement (.completionReport a0)) ∧
    (∀ a0, Statement (.jobComplete a0)) ∧
    (∀ a0, Statement (.preemptRequest a0)) ∧
    (∀ a0, Statement (.preemptStop a0)) ∧
    (∀ a0, Statement (.preemptTimeout a0)) ∧
    (∀ a0, Statement (.contextSave a0)) ∧
    (∀ a0, Statement (.saveWatchdogExpiry a0)) ∧
    (∀ a0, Statement (.contextRestore a0)) ∧
    (∀ a0, Statement (.leaseGrant a0)) ∧
    (∀ a0 a1, Statement (.kicksetWrite a0 a1)) ∧
    (∀ a0 a1, Statement (.kickpendWrite a0 a1)) ∧
    (∀ a0 a1, Statement (.drainreqWrite a0 a1)) ∧
    (∀ a0 a1, Statement (.hqctlRelease a0 a1)) ∧
    (∀ a0 a1, Statement (.scgoWrite a0 a1)) ∧
    (∀ a0 a1, Statement (.schedMachineCheck a0 a1)) ∧
    (∀ a0 a1, Statement (.resultLand a0 a1)) ∧
    (∀ a0 a1, Statement (.tokenPopResume a0 a1)) ∧
    (∀ a0 a1 a2, Statement (.glintReplay a0 a1 a2)) ∧
    (∀ a0 a1, Statement (.machineCheck a0 a1)) ∧
    (∀ a0, Statement (.failedRecordTimer a0)) ∧
    (∀ a0 a1, Statement (.arrayRebuild a0 a1)) ∧
    (∀ a0 a1, Statement (.patrolScrub a0 a1)) :=
  ⟨fun _ _ h => absurd h Bool.false_ne_true,
    fun _ _ _ h => absurd h Bool.false_ne_true,
    fun _ _ h => absurd h Bool.false_ne_true,
    fun _ _ h => absurd h Bool.false_ne_true,
    fun _ _ h => absurd h Bool.false_ne_true,
    fun _ _ h => absurd h Bool.false_ne_true,
    fun _ _ h => absurd h Bool.false_ne_true,
    fun _ _ h => absurd h Bool.false_ne_true,
    fun _ _ h => absurd h Bool.false_ne_true,
    fun _ _ h => absurd h Bool.false_ne_true,
    fun _ _ h => absurd h Bool.false_ne_true,
    fun _ _ h => absurd h Bool.false_ne_true,
    fun _ _ h => absurd h Bool.false_ne_true,
    fun _ _ _ h => absurd h Bool.false_ne_true,
    fun _ _ _ h => absurd h Bool.false_ne_true,
    fun _ _ _ h => absurd h Bool.false_ne_true,
    fun _ _ _ h => absurd h Bool.false_ne_true,
    fun _ _ _ h => absurd h Bool.false_ne_true,
    fun _ _ _ h => absurd h Bool.false_ne_true,
    fun _ _ _ h => absurd h Bool.false_ne_true,
    fun _ _ _ h => absurd h Bool.false_ne_true,
    fun _ _ _ _ h => absurd h Bool.false_ne_true,
    fun _ _ _ h => absurd h Bool.false_ne_true,
    fun _ _ h => absurd h Bool.false_ne_true,
    fun _ _ _ h => absurd h Bool.false_ne_true,
    fun _ _ _ h => absurd h Bool.false_ne_true⟩

theorem rows1 :
    (∀ a0 a1, Statement (.repairWrite a0 a1)) ∧
    (∀ a0 a1, Statement (.arrtestWrite a0 a1)) ∧
    (∀ a0, Statement (.dieHeartbeat a0)) ∧
    (∀ a0, Statement (.dieHeartbeatTimeout a0)) ∧
    (∀ a0, Statement (.dieRailFault a0)) ∧
    (∀ a0 a1, Statement (.dieHealthEvent a0 a1)) ∧
    (∀ a0, Statement (.reconfiguration a0)) ∧
    (∀ a0, Statement (.reconfigRestore a0)) ∧
    (∀ a0, Statement (.rotationVisit a0)) ∧
    (∀ a0, Statement (.rotationSkip a0)) ∧
    (∀ a0 a1, Statement (.selftestEnd a0 a1)) ∧
    (∀ a0 a1, Statement (.ckptReqWrite a0 a1)) ∧
    (∀ a0, Statement (.checkpointWrite a0)) ∧
    (∀ a0, Statement (.checkpointMirrorAck a0)) ∧
    (∀ a0, Statement (.peerQueryAnswer a0)) ∧
    (∀ a0 a1, Statement (.facetArrival a0 a1)) ∧
    (∀ a0 a1 a2 a3, Statement (.decodeTimeout a0 a1 a2 a3)) ∧
    (∀ a0 a1, Statement (.flowAckSend a0 a1)) ∧
    (∀ a0 a1 a2 a3, Statement (.flowAck a0 a1 a2 a3)) ∧
    (∀ a0 a1 a2 a3, Statement (.lossNotice a0 a1 a2 a3)) ∧
    (∀ a0 a1 a2 a3, Statement (.sourceAckTimeout a0 a1 a2 a3)) ∧
    (∀ a0 a1 a2, Statement (.pathDown a0 a1 a2)) ∧
    (∀ a0 a1 a2, Statement (.pathUp a0 a1 a2)) ∧
    (∀ a0 a1, Statement (.laneDegrade a0 a1)) ∧
    (∀ a0 a1, Statement (.permitArrival a0 a1)) ∧
    (∀ a0 a1, Statement (.msgAppendArrival a0 a1)) :=
  ⟨fun _ _ _ h => absurd h Bool.false_ne_true,
    fun _ _ _ h => absurd h Bool.false_ne_true,
    fun _ _ h => absurd h Bool.false_ne_true,
    fun _ _ h => absurd h Bool.false_ne_true,
    fun _ _ h => absurd h Bool.false_ne_true,
    fun _ _ _ h => absurd h Bool.false_ne_true,
    fun _ _ h => absurd h Bool.false_ne_true,
    fun _ _ h => absurd h Bool.false_ne_true,
    fun _ _ h => absurd h Bool.false_ne_true,
    fun _ _ h => absurd h Bool.false_ne_true,
    fun _ _ _ h => absurd h Bool.false_ne_true,
    fun _ _ _ h => absurd h Bool.false_ne_true,
    fun _ _ h => absurd h Bool.false_ne_true,
    fun _ _ h => absurd h Bool.false_ne_true,
    fun _ _ h => absurd h Bool.false_ne_true,
    fun _ _ _ h => absurd h Bool.false_ne_true,
    fun _ _ _ _ _ h => absurd h Bool.false_ne_true,
    fun _ _ _ h => absurd h Bool.false_ne_true,
    fun _ _ _ _ _ h => absurd h Bool.false_ne_true,
    fun _ _ _ _ _ h => absurd h Bool.false_ne_true,
    fun _ _ _ _ _ h => absurd h Bool.false_ne_true,
    fun _ _ _ _ h => absurd h Bool.false_ne_true,
    fun _ _ _ _ h => absurd h Bool.false_ne_true,
    fun _ _ _ h => absurd h Bool.false_ne_true,
    fun _ _ _ h => absurd h Bool.false_ne_true,
    fun _ _ _ h => absurd h Bool.false_ne_true⟩

theorem rows2 :
    (∀ a0 a1, Statement (.spillMoveIn a0 a1)) ∧
    (∀ a0 a1, Statement (.msgCreditReport a0 a1)) ∧
    (∀ a0 a1, Statement (.groupEpisodeComplete a0 a1)) ∧
    (∀ a0 a1, Statement (.phaseDoneAdvance a0 a1)) ∧
    (∀ a0 a1 a2, Statement (.translationWalk a0 a1 a2)) ∧
    (∀ a0, Statement (.debugStopEdge a0)) ∧
    (∀ a0 a1, Statement (.recordWindow a0 a1)) ∧
    (∀ a0 a1, Statement (.replayWindowCheck a0 a1)) ∧
    (∀ a0 a1 a2 a3, Statement (.sensorWrite a0 a1 a2 a3)) ∧
    (∀ a0 a1, Statement (.sensorEnd a0 a1)) ∧
    (∀ a0, Statement (.sensorRecord a0)) ∧
    (∀ a0, Statement (.timeCorrection a0)) ∧
    (∀ a0, Statement (.lockInterfaceRequest a0)) ∧
    (∀ a0, Statement (.startInterfaceRequest a0)) ∧
    (∀ a0, Statement (.stopInterfaceRequest a0)) ∧
    (∀ a0, Statement (.flr a0)) ∧
    (∀ a0, Statement (.ideIntegrityFailure a0)) ∧
    (∀ a0, Statement (.worldReset a0)) ∧
    (∀ a0, Statement (.getVersion a0)) ∧
    (∀ a0, Statement (.getCapabilities a0)) ∧
    (∀ a0, Statement (.negotiateAlgorithms a0)) ∧
    (∀ a0, Statement (.getDigests a0)) ∧
    (∀ a0, Statement (.getCertificate a0)) ∧
    (∀ a0 a1, Statement (.challenge a0 a1)) ∧
    (∀ a0 a1, Statement (.getMeasurements a0 a1)) ∧
    (∀ a0 a1, Statement (.keyExchange a0 a1)) :=
  ⟨fun _ _ _ h => absurd h Bool.false_ne_true,
    fun _ _ _ h => absurd h Bool.false_ne_true,
    fun _ _ _ h => absurd h Bool.false_ne_true,
    fun _ _ _ h => absurd h Bool.false_ne_true,
    fun _ _ _ _ h => absurd h Bool.false_ne_true,
    fun _ _ h => absurd h Bool.false_ne_true,
    fun _ _ _ h => absurd h Bool.false_ne_true,
    fun _ _ _ h => absurd h Bool.false_ne_true,
    fun _ _ _ _ _ h => absurd h Bool.false_ne_true,
    fun _ _ _ h => absurd h Bool.false_ne_true,
    fun _ _ h => absurd h Bool.false_ne_true,
    fun _ _ h => absurd h Bool.false_ne_true,
    fun _ _ h => absurd h Bool.false_ne_true,
    fun _ _ h => absurd h Bool.false_ne_true,
    fun _ _ h => absurd h Bool.false_ne_true,
    fun _ _ h => absurd h Bool.false_ne_true,
    fun _ _ h => absurd h Bool.false_ne_true,
    fun _ _ h => absurd h Bool.false_ne_true,
    fun _ _ h => absurd h Bool.false_ne_true,
    fun _ _ h => absurd h Bool.false_ne_true,
    fun _ _ h => absurd h Bool.false_ne_true,
    fun _ _ h => absurd h Bool.false_ne_true,
    fun _ _ h => absurd h Bool.false_ne_true,
    fun _ _ _ h => absurd h Bool.false_ne_true,
    fun _ _ _ h => absurd h Bool.false_ne_true,
    fun _ _ _ h => absurd h Bool.false_ne_true⟩

theorem rows3 :
    (∀ a0 a1, Statement (.finish a0 a1)) ∧
    (∀ a0 a1, Statement (.keyUpdate a0 a1)) ∧
    (∀ a0 a1, Statement (.endSession a0 a1)) ∧
    (∀ a0 a1, Statement (.resync a0 a1)) ∧
    (∀ a0 a1, Statement (.ackErrorRecords a0 a1)) ∧
    (∀ a0 a1, Statement (.modeSet a0 a1)) ∧
    (∀ a0 a1 a2, Statement (.setLeaseParams a0 a1 a2)) ∧
    (∀ a0 a1, Statement (.setFabrate a0 a1)) ∧
    (∀ a0 a1, Statement (.testMode a0 a1)) ∧
    (∀ a0 a1 a2, Statement (.createTdi a0 a1 a2)) ∧
    (∀ a0 a1, Statement (.destroyTdi a0 a1)) ∧
    (∀ a0 a1, Statement (.createContext a0 a1)) ∧
    (∀ a0, Statement (.destroyContext a0)) ∧
    (∀ a0 a1 a2 a3, Statement (.invalidateTranslations a0 a1 a2 a3)) ∧
    (∀ a0 a1 a2, Statement (.setSlotCtl a0 a1 a2)) ∧
    (∀ a0 a1 a2, Statement (.setSlotDeadline a0 a1 a2)) ∧
    (∀ a0 a1 a2, Statement (.setSlotLevelTable a0 a1 a2)) ∧
    (∀ a0 a1 a2 a3, Statement (.setSubmissionRing a0 a1 a2 a3)) ∧
    (∀ a0 a1 a2 a3, Statement (.setCompletionRing a0 a1 a2 a3)) ∧
    (∀ a0 a1 a2 a3, Statement (.setSensorRegion a0 a1 a2 a3)) ∧
    (∀ a0 a1 a2 a3, Statement (.setSensorRecordRing a0 a1 a2 a3)) ∧
    (∀ a0 a1 a2, Statement (.setSlotContext a0 a1 a2)) ∧
    (∀ a0 a1, Statement (.raiseLevel a0 a1)) ∧
    (∀ a0 a1, Statement (.releaseDie a0 a1)) ∧
    (∀ a0 a1, Statement (.rotationPeriod a0 a1)) ∧
    (∀ a0, Statement (.peerLostToUp a0)) :=
  ⟨fun _ _ _ h => absurd h Bool.false_ne_true,
    fun _ _ _ h => absurd h Bool.false_ne_true,
    fun _ _ _ h => absurd h Bool.false_ne_true,
    fun _ _ _ h => absurd h Bool.false_ne_true,
    fun _ _ _ h => absurd h Bool.false_ne_true,
    fun _ _ _ h => absurd h Bool.false_ne_true,
    fun _ _ _ _ h => absurd h Bool.false_ne_true,
    fun _ _ _ h => absurd h Bool.false_ne_true,
    fun _ _ _ h => absurd h Bool.false_ne_true,
    fun _ _ _ _ h => absurd h Bool.false_ne_true,
    fun _ _ _ h => absurd h Bool.false_ne_true,
    fun _ _ _ h => absurd h Bool.false_ne_true,
    fun _ _ h => absurd h Bool.false_ne_true,
    fun _ _ _ _ _ h => absurd h Bool.false_ne_true,
    fun _ _ _ _ h => absurd h Bool.false_ne_true,
    fun _ _ _ _ h => absurd h Bool.false_ne_true,
    fun _ _ _ _ h => absurd h Bool.false_ne_true,
    fun _ _ _ _ _ h => absurd h Bool.false_ne_true,
    fun _ _ _ _ _ h => absurd h Bool.false_ne_true,
    fun _ _ _ _ _ h => absurd h Bool.false_ne_true,
    fun _ _ _ _ _ h => absurd h Bool.false_ne_true,
    fun _ _ _ _ h => absurd h Bool.false_ne_true,
    fun _ _ _ h => absurd h Bool.false_ne_true,
    fun _ _ _ h => absurd h Bool.false_ne_true,
    fun _ _ _ h => absurd h Bool.false_ne_true,
    fun _ _ h => absurd h Bool.false_ne_true⟩

theorem rows4 :
    (∀ a0 a1 a2 a3, Statement (.writeOwnership a0 a1 a2 a3)) ∧
    (∀ a0 a1 a2 a3, Statement (.installWeightKey a0 a1 a2 a3)) ∧
    (∀ a0 a1 a2 a3, Statement (.debugStop a0 a1 a2 a3)) ∧
    (∀ a0 a1 a2, Statement (.debugImageRead a0 a1 a2)) ∧
    (∀ a0 a1 a2 a3 a4, Statement (.debugRegisterWrite a0 a1 a2 a3 a4)) ∧
    (∀ a0 a1 a2 a3, Statement (.debugResume a0 a1 a2 a3)) ∧
    (∀ a0 a1 a2, Statement (.debugDump a0 a1 a2)) ∧
    (∀ a0 a1 a2, Statement (.debugImageWrite a0 a1 a2)) ∧
    (∀ a0 a1, Statement (.selectTimeSource a0 a1)) ∧
    (∀ a0 a1 a2 a3, Statement (.stageFirmware a0 a1 a2 a3)) ∧
    (∀ a0 a1, Statement (.activateFirmware a0 a1)) ∧
    (∀ a0, Statement (.clearFabricCounters a0)) ∧
    (∀ a0 a1, Statement (.packageResetCommand a0 a1)) ∧
    (∀ a0 a1 a2, Statement (.mqcfgWrite a0 a1 a2)) ∧
    (∀ a0 a1 a2, Statement (.mqptrHeadWrite a0 a1 a2)) ∧
    (∀ a0 a1 a2, Statement (.stickyWrite a0 a1 a2)) ∧
    (∀ a0 a1, Statement (.tstatAbandon a0 a1)) ∧
    (∀ a0 a1, Statement (.trcctlWrite a0 a1)) ∧
    (∀ a0 a1, Statement (.registerWrite a0 a1)) ∧
    (∀ a0 a1 a2, Statement (.amov a0 a1 a2)) ∧
    (∀ a0 a1 a2 a3, Statement (.aadd a0 a1 a2 a3)) ∧
    (∀ a0 a1 a2 a3, Statement (.asub a0 a1 a2 a3)) ∧
    (∀ a0 a1 a2 a3, Statement (.aand a0 a1 a2 a3)) ∧
    (∀ a0 a1 a2 a3, Statement (.ashl a0 a1 a2 a3)) ∧
    (∀ a0 a1 a2 a3 a4, Statement (.acmp a0 a1 a2 a3 a4)) ∧
    (∀ a0 a1 a2, Statement (.ald a0 a1 a2)) :=
  ⟨fun _ _ _ _ _ h => absurd h Bool.false_ne_true,
    fun _ _ _ _ _ h => absurd h Bool.false_ne_true,
    fun _ _ _ _ _ h => absurd h Bool.false_ne_true,
    fun _ _ _ _ h => absurd h Bool.false_ne_true,
    fun _ _ _ _ _ _ h => absurd h Bool.false_ne_true,
    fun _ _ _ _ _ h => absurd h Bool.false_ne_true,
    fun _ _ _ _ h => absurd h Bool.false_ne_true,
    fun _ _ _ _ h => absurd h Bool.false_ne_true,
    fun _ _ _ h => absurd h Bool.false_ne_true,
    fun _ _ _ _ _ h => absurd h Bool.false_ne_true,
    fun _ _ _ h => absurd h Bool.false_ne_true,
    fun _ _ h => absurd h Bool.false_ne_true,
    fun _ _ _ h => absurd h Bool.false_ne_true,
    fun _ _ _ _ h => absurd h Bool.false_ne_true,
    fun _ _ _ _ h => absurd h Bool.false_ne_true,
    fun _ _ _ _ h => absurd h Bool.false_ne_true,
    fun _ _ _ h => absurd h Bool.false_ne_true,
    fun _ _ _ h => absurd h Bool.false_ne_true,
    fun _ _ _ h => absurd h Bool.false_ne_true,
    fun _ _ _ _ _ => words_I _ _ _ _,
    fun _ _ _ _ _ _ => words_T _ _ _ _ _,
    fun _ _ _ _ _ _ => words_T _ _ _ _ _,
    fun _ _ _ _ _ _ => words_T _ _ _ _ _,
    fun _ _ _ _ _ _ => words_T _ _ _ _ _,
    fun _ _ _ _ _ _ _ => words_T _ _ _ _ _,
    fun _ _ _ _ _ => words_I _ _ _ _⟩

theorem rows5 :
    (∀ a0 a1 a2, Statement (.ast a0 a1 a2)) ∧
    (∀ a0 a1, Statement (.b a0 a1)) ∧
    (∀ a0 a1 a2, Statement (.bc a0 a1 a2)) ∧
    (∀ a0 a1 a2, Statement (.bcNot a0 a1 a2)) ∧
    (∀ a0 a1 a2, Statement (.call a0 a1 a2)) ∧
    (∀ a0, Statement (.ret a0)) ∧
    (∀ a0 a1 a2 a3 a4, Statement (.loop a0 a1 a2 a3 a4)) ∧
    (∀ a0 a1, Statement (.pset a0 a1)) ∧
    (∀ a0 a1 a2 a3, Statement (.plog a0 a1 a2 a3)) ∧
    (∀ a0 a1, Statement (.mfs a0 a1)) ∧
    (∀ a0 a1, Statement (.mts a0 a1)) ∧
    (∀ a0, Statement (.tsig a0)) ∧
    (∀ a0, Statement (.twait a0)) ∧
    (∀ a0 a1, Statement (.fence a0 a1)) ∧
    (∀ a0, Statement (.trap a0)) ∧
    (∀ a0, Statement (.bkpt a0)) ∧
    (∀ a0 a1 a2, Statement (.iadd a0 a1 a2)) ∧
    (∀ a0 a1 a2, Statement (.isub a0 a1 a2)) ∧
    (∀ a0 a1 a2, Statement (.imul a0 a1 a2)) ∧
    (∀ a0 a1 a2, Statement (.idiv a0 a1 a2)) ∧
    (∀ a0 a1 a2, Statement (.irem a0 a1 a2)) ∧
    (∀ a0 a1 a2, Statement (.iand a0 a1 a2)) ∧
    (∀ a0 a1 a2, Statement (.ior a0 a1 a2)) ∧
    (∀ a0 a1 a2, Statement (.ixor a0 a1 a2)) ∧
    (∀ a0 a1 a2, Statement (.ishl a0 a1 a2)) ∧
    (∀ a0 a1 a2, Statement (.ishr a0 a1 a2)) :=
  ⟨fun _ _ _ _ _ => words_I _ _ _ _,
    fun _ _ _ _ => words_I _ _ _ _,
    fun _ _ _ _ _ => words_I _ _ _ _,
    fun _ _ _ _ _ => words_I _ _ _ _,
    fun _ _ _ _ _ => words_I _ _ _ _,
    fun _ _ _ => words_one _ (formI_c32 _ _ _ _),
    fun _ _ _ _ _ _ _ => words_I _ _ _ _,
    fun _ _ _ _ => words_one _ (formI_c32 _ _ _ _),
    fun _ _ _ _ _ _ => words_one _ (formT_c32 _ _ _ _ _),
    fun _ _ _ _ => words_one _ (formI_c32 _ _ _ _),
    fun _ _ _ _ => words_I _ _ _ _,
    fun _ _ _ => words_one _ (formI_c32 _ _ _ _),
    fun _ _ _ => words_one _ (formI_c32 _ _ _ _),
    fun _ _ _ _ => words_one _ (formI_c32 _ _ _ _),
    fun _ _ _ => words_one _ (formI_c32 _ _ _ _),
    fun _ _ _ => words_one _ (formI_c32 _ _ _ _),
    fun _ _ _ _ h => words_R _ _ _ _ (ia2_dst (right h)),
    fun _ _ _ _ h => words_R _ _ _ _ (ia2_dst (right h)),
    fun _ _ _ _ h => words_R _ _ _ _ (ia2_dst (right h)),
    fun _ _ _ _ h => words_R _ _ _ _ (ia2_dst (right (left h))),
    fun _ _ _ _ h => words_R _ _ _ _ (ia2_dst (right (left h))),
    fun _ _ _ _ h => words_R _ _ _ _ (ia2_dst (right (left h))),
    fun _ _ _ _ h => words_R _ _ _ _ (ia2_dst (right (left h))),
    fun _ _ _ _ h => words_R _ _ _ _ (ia2_dst (right (left h))),
    fun _ _ _ _ h => words_R _ _ _ _ (ia2_dst (right h)),
    fun _ _ _ _ h => words_R _ _ _ _ (ia2_dst (right (left h)))⟩

theorem rows6 :
    (∀ a0 a1 a2, Statement (.imin a0 a1 a2)) ∧
    (∀ a0 a1 a2, Statement (.imax a0 a1 a2)) ∧
    (∀ a0 a1 a2, Statement (.iclz a0 a1 a2)) ∧
    (∀ a0 a1 a2, Statement (.ipopc a0 a1 a2)) ∧
    (∀ a0 a1 a2, Statement (.isel a0 a1 a2)) ∧
    (∀ a0 a1 a2 a3 a4 a5, Statement (.icmp a0 a1 a2 a3 a4 a5)) ∧
    (∀ a0 a1 a2, Statement (.ld a0 a1 a2)) ∧
    (∀ a0 a1 a2, Statement (.st a0 a1 a2)) ∧
    (∀ a0 a1 a2, Statement (.at_ a0 a1 a2)) ∧
    (∀ a0 a1 a2, Statement (.msend a0 a1 a2)) ∧
    (∀ a0 a1 a2, Statement (.mrecv a0 a1 a2)) ∧
    (∀ a0 a1, Statement (.nsub a0 a1)) ∧
    (∀ a0 a1, Statement (.phadv a0 a1)) ∧
    (∀ a0 a1, Statement (.phwait a0 a1)) ∧
    (∀ a0 a1 a2, Statement (.gbar a0 a1 a2)) ∧
    (∀ a0 a1 a2, Statement (.gred a0 a1 a2)) ∧
    (∀ a0 a1, Statement (.gtime a0 a1)) ∧
    (∀ a0 a1, Statement (.drain a0 a1)) ∧
    (∀ a0 a1 a2, Statement (.vadd a0 a1 a2)) ∧
    (∀ a0 a1 a2, Statement (.vsub a0 a1 a2)) ∧
    (∀ a0 a1 a2, Statement (.vmul a0 a1 a2)) ∧
    (∀ a0 a1 a2, Statement (.vfma a0 a1 a2)) ∧
    (∀ a0 a1 a2, Statement (.vmin a0 a1 a2)) ∧
    (∀ a0 a1 a2, Statement (.vmax a0 a1 a2)) ∧
    (∀ a0 a1 a2, Statement (.vabs a0 a1 a2)) ∧
    (∀ a0 a1 a2, Statement (.vneg a0 a1 a2)) :=
  ⟨fun _ _ _ _ h => words_R _ _ _ _ (ia2_dst (right (left h))),
    fun _ _ _ _ h => words_R _ _ _ _ (ia2_dst (right (left h))),
    fun _ _ _ _ h => words_R _ _ _ _ (ia1_dst (right (left (left h)))),
    fun _ _ _ _ h => words_R _ _ _ _ (ia1_dst (right (left (left h)))),
    fun _ _ _ _ h => words_R _ _ _ _ (ia2_dst (right h)),
    fun _ _ _ _ _ _ _ _ => words_two _ _ _ (by simpa using three _ _ _ [] (by simp)),
    fun _ _ _ _ _ => words_M _ _ _ _,
    fun _ _ _ _ _ => words_M _ _ _ _,
    fun _ _ _ _ h => words_R _ _ _ _ (xOrNone (right (left (left (left (left (left h))))))),
    fun _ _ _ _ _ => words_Q _ _ _ _,
    fun _ _ _ _ _ => words_Q _ _ _ _,
    fun _ _ _ _ => words_Q _ _ _ _,
    fun _ _ _ _ => words_Q _ _ _ _,
    fun _ _ _ _ => words_Q _ _ _ _,
    fun _ _ _ _ _ => words_Q _ _ _ _,
    fun _ _ _ _ _ => words_Q _ _ _ _,
    fun _ _ _ _ => words_Q _ _ _ _,
    fun _ _ _ _ => words_Q _ _ _ _,
    fun _ _ _ _ h => words_V _ _ _ _ (vaOk_dst (right h)),
    fun _ _ _ _ h => words_V _ _ _ _ (vaOk_dst (right h)),
    fun _ _ _ _ h => words_V _ _ _ _ (vaOk_dst (right h)),
    fun _ _ _ _ h => words_V _ _ _ _ (vaOk_dst (right h)),
    fun _ _ _ _ h => words_V _ _ _ _ (vaOk_dst (right h)),
    fun _ _ _ _ h => words_V _ _ _ _ (vaOk_dst (right h)),
    fun _ _ _ _ h => words_V _ _ _ _ (vaOk_dst (right h)),
    fun _ _ _ _ h => words_V _ _ _ _ (vaOk_dst (right h))⟩

theorem rows7 :
    (∀ a0 a1 a2, Statement (.vclamp a0 a1 a2)) ∧
    (∀ a0 a1 a2, Statement (.vand a0 a1 a2)) ∧
    (∀ a0 a1 a2, Statement (.vor a0 a1 a2)) ∧
    (∀ a0 a1 a2, Statement (.vxor a0 a1 a2)) ∧
    (∀ a0 a1 a2, Statement (.vshl a0 a1 a2)) ∧
    (∀ a0 a1 a2, Statement (.vshr a0 a1 a2)) ∧
    (∀ a0 a1 a2, Statement (.vsel a0 a1 a2)) ∧
    (∀ a0 a1 a2, Statement (.vcmp a0 a1 a2)) ∧
    (∀ a0 a1 a2, Statement (.vmovs a0 a1 a2)) ∧
    (∀ a0 a1 a2, Statement (.vcvt a0 a1 a2)) ∧
    (∀ a0 a1 a2, Statement (.vcvtSat a0 a1 a2)) ∧
    (∀ a0 a1 a2, Statement (.vexp a0 a1 a2)) ∧
    (∀ a0 a1 a2, Statement (.vlog a0 a1 a2)) ∧
    (∀ a0 a1 a2, Statement (.vrcp a0 a1 a2)) ∧
    (∀ a0 a1 a2, Statement (.vrsq a0 a1 a2)) ∧
    (∀ a0 a1 a2, Statement (.vrotr a0 a1 a2)) ∧
    (∀ a0 a1 a2, Statement (.vrotc a0 a1 a2)) ∧
    (∀ a0 a1 a2, Statement (.vbcr a0 a1 a2)) ∧
    (∀ a0 a1 a2, Statement (.vbcc a0 a1 a2)) ∧
    (∀ a0 a1 a2, Statement (.vredr a0 a1 a2)) ∧
    (∀ a0 a1 a2, Statement (.vredc a0 a1 a2)) ∧
    (∀ a0 a1 a2, Statement (.vscanr a0 a1 a2)) ∧
    (∀ a0 a1 a2, Statement (.vtrn a0 a1 a2)) ∧
    (∀ a0 a1 a2, Statement (.vext a0 a1 a2)) ∧
    (∀ a0 a1 a2, Statement (.part a0 a1 a2)) ∧
    (∀ a0 a1 a2, Statement (.vld a0 a1 a2)) :=
  ⟨fun _ _ _ _ h => words_V _ _ _ _ (vaOk_dst (right h)),
    fun _ _ _ _ h => words_V _ _ _ _ (vaOk_dst (right h)),
    fun _ _ _ _ h => words_V _ _ _ _ (vaOk_dst (right h)),
    fun _ _ _ _ h => words_V _ _ _ _ (vaOk_dst (right h)),
    fun _ _ _ _ h => words_V _ _ _ _ (vaOk_dst (right h)),
    fun _ _ _ _ h => words_V _ _ _ _ (vaOk_dst (right h)),
    fun _ _ _ _ h => words_V _ _ _ _ (vaOk_dst (right h)),
    fun _ _ _ _ h => words_V _ _ _ _ (vFields_dst (right h)),
    fun _ _ _ _ h => words_V _ _ _ _ (vaOk_dst (right h)),
    fun _ _ _ _ h => words_V _ _ _ _ (vFields_dst (n := 1) (right h)),
    fun _ _ _ _ h => words_V _ _ _ _ (vFields_dst (n := 1) (right h)),
    fun _ _ _ _ h => words_V _ _ _ _ (vFields_dst (n := 1) (right h)),
    fun _ _ _ _ h => words_V _ _ _ _ (vFields_dst (n := 1) (right h)),
    fun _ _ _ _ h => words_V _ _ _ _ (vFields_dst (n := 1) (right h)),
    fun _ _ _ _ h => words_V _ _ _ _ (vFields_dst (n := 1) (right h)),
    fun _ _ _ _ h => words_V _ _ _ _ (vxRot_dst (right h)),
    fun _ _ _ _ h => words_V _ _ _ _ (vxRot_dst (right h)),
    fun _ _ _ _ h => words_V _ _ _ _ (vxRot_dst (right h)),
    fun _ _ _ _ h => words_V _ _ _ _ (vxRot_dst (right h)),
    fun _ _ _ _ h => words_V _ _ _ _ (vxRed_dst (right h)),
    fun _ _ _ _ h => words_V _ _ _ _ (vxRed_dst (right h)),
    fun _ _ _ _ h => words_V _ _ _ _ (vxRed_dst (right h)),
    fun _ _ _ _ h => words_V _ _ _ _ (right (left (left (left (left h))))),
    fun _ _ _ _ h => words_V _ _ _ _ (right (left (left (left (left h))))),
    fun _ _ _ _ h => words_R _ _ _ _ (vOrNone (right (left (left (left (left h)))))),
    fun _ _ _ _ _ => words_M _ _ _ _⟩

theorem rows8 :
    (∀ a0 a1 a2, Statement (.vst a0 a1 a2)) ∧
    (∀ a0 a1 a2, Statement (.vldp a0 a1 a2)) ∧
    (∀ a0 a1 a2 a3 a4 a5 a6 a7 a8, Statement (.vstp a0 a1 a2 a3 a4 a5 a6 a7 a8)) ∧
    (∀ a0 a1 a2, Statement (.vgath a0 a1 a2)) ∧
    (∀ a0 a1 a2, Statement (.vscat a0 a1 a2)) ∧
    (∀ a0 a1 a2, Statement (.vlend a0 a1 a2)) ∧
    (∀ a0, Statement (.alease a0)) ∧
    (∀ a0, Statement (.arel a0)) ∧
    (∀ a0 a1, Statement (.tsclaim a0 a1)) ∧
    (∀ a0 a1, Statement (.tsrel a0 a1)) ∧
    (∀ a0 a1 a2, Statement (.mcfg a0 a1 a2)) ∧
    (∀ a0 a1 a2 a3, Statement (.mbegin a0 a1 a2 a3)) ∧
    (∀ a0 a1, Statement (.mloadb a0 a1)) ∧
    (∀ a0 a1 a2 a3 a4, Statement (.mma a0 a1 a2 a3 a4)) ∧
    (∀ a0 a1, Statement (.mret a0 a1)) ∧
    (∀ a0, Statement (.mretRetire a0)) ∧
    (∀ a0 a1 a2, Statement (.cpy a0 a1 a2)) ∧
    (∀ a0 a1 a2, Statement (.cpyp a0 a1 a2)) ∧
    (∀ a0 a1 a2, Statement (.cpyr a0 a1 a2)) ∧
    (∀ a0 a1 a2 a3, Statement (.cdec a0 a1 a2 a3)) ∧
    (∀ a0 a1 a2, Statement (.cenc a0 a1 a2)) ∧
    (∀ a0 a1 a2, Statement (.sbind a0 a1 a2)) ∧
    (∀ a0 a1 a2, Statement (.sunbind a0 a1 a2)) ∧
    (∀ a0 a1 a2 a3, Statement (.tsfill a0 a1 a2 a3)) ∧
    (∀ a0 a1 a2, Statement (.cbw a0 a1 a2)) ∧
    (∀ a0 a1 a2, Statement (.xsend a0 a1 a2)) :=
  ⟨fun _ _ _ _ _ => words_M _ _ _ _,
    fun _ _ _ _ _ => words_M _ _ _ _,
    fun _ _ _ _ _ _ _ _ _ _ _ => words_two _ _ _ (three _ _ _ [_] (by simp)),
    fun _ _ _ _ _ => words_M _ _ _ _,
    fun _ _ _ _ _ => words_M _ _ _ _,
    fun _ _ _ _ _ => words_two _ _ _ (by simp),
    fun _ _ _ => words_X _ _ _ _ _ _ _,
    fun _ _ _ => words_X _ _ _ _ _ _ _,
    fun _ _ _ _ => words_X _ _ _ _ _ _ _,
    fun _ _ _ _ => words_X _ _ _ _ _ _ _,
    fun _ _ _ _ _ => words_two _ _ _ (Nat.le_trans (spec_lits _) (by decide)),
    fun _ _ _ _ _ _ => words_X _ _ _ _ _ _ _,
    fun _ _ _ _ => words_X _ _ _ _ _ _ _,
    fun _ _ _ _ _ _ _ => words_X _ _ _ _ _ _ _,
    fun _ _ _ _ => words_X _ _ _ _ _ _ _,
    fun _ _ h => absurd h Bool.false_ne_true,
    fun _ _ _ _ _ => words_K _ _ _ _,
    fun _ _ _ _ _ => words_K _ _ _ _,
    fun _ _ _ _ _ => words_K _ _ _ _,
    fun _ _ _ _ _ _ => words_K _ _ _ _,
    fun _ _ _ _ _ => words_K _ _ _ _,
    fun _ _ _ _ _ => words_K _ _ _ _,
    fun _ _ _ _ _ => words_K _ _ _ _,
    fun _ _ _ _ _ _ => words_K _ _ _ _,
    fun _ _ _ _ _ => words_K _ _ _ _,
    fun _ _ _ _ _ => words_K _ _ _ _⟩

theorem rows9 :
    (∀ a0 a1 a2, Statement (.xrecv a0 a1 a2)) ∧
    (∀ a0 a1 a2, Statement (.xfree a0 a1 a2)) ∧
    (∀ a0, Statement (.quotaStall a0)) ∧
    (∀ a0 a1, Statement (.cCommandPerformed a0 a1)) ∧
    (∀ a0, Statement (.mCommandPerformed a0)) ∧
    (∀ a0 a1, Statement (.streamRowTransfer a0 a1)) ∧
    (∀ a0 a1, Statement (.badCode a0 a1)) ∧
    (∀ a0, Statement (.peerPortDown a0)) ∧
    (∀ a0, Statement (.peerPortUp a0)) ∧
    (Statement .pick) ∧
    (Statement .schedTakingOver) ∧
    (Statement .hubReset) ∧
    (Statement .peerHeartbeatSend) ∧
    (Statement .peerHeartbeat) ∧
    (Statement .peerHeartbeatMiss) ∧
    (Statement .peerQueryTimeout) ∧
    (Statement .packageFailure) ∧
    (Statement .nop) ∧
    (Statement .tfence) ∧
    (Statement .rend) ∧
    (Statement .eret) ∧
    (Statement .peerMcQuery) :=
  ⟨fun _ _ _ _ _ => words_K _ _ _ _,
    fun _ _ _ _ _ => words_K _ _ _ _,
    fun _ _ h => absurd h Bool.false_ne_true,
    fun _ _ _ h => absurd h Bool.false_ne_true,
    fun _ _ h => absurd h Bool.false_ne_true,
    fun _ _ _ h => absurd h Bool.false_ne_true,
    fun _ _ _ h => absurd h Bool.false_ne_true,
    fun _ _ h => absurd h Bool.false_ne_true,
    fun _ _ h => absurd h Bool.false_ne_true,
    fun _ h => absurd h Bool.false_ne_true,
    fun _ h => absurd h Bool.false_ne_true,
    fun _ h => absurd h Bool.false_ne_true,
    fun _ h => absurd h Bool.false_ne_true,
    fun _ h => absurd h Bool.false_ne_true,
    fun _ h => absurd h Bool.false_ne_true,
    fun _ h => absurd h Bool.false_ne_true,
    fun _ h => absurd h Bool.false_ne_true,
    fun _ _ => words_one _ (formI_c32 _ _ _ _),
    fun _ _ => words_one _ (formI_c32 _ _ _ _),
    fun _ _ => words_one _ (formI_c32 _ _ _ _),
    fun _ _ => words_one _ (formI_c32 _ _ _ _),
    fun _ h => absurd h Bool.false_ne_true⟩

theorem packageReset : ∀ a0, Statement (.packageReset a0) := rows0.1
theorem mcSample : ∀ a0 a1, Statement (.mcSample a0 a1) := rows0.2.1
theorem dispatchArrival : ∀ a0, Statement (.dispatchArrival a0) := rows0.2.2.1
theorem resourceReport : ∀ a0, Statement (.resourceReport a0) := rows0.2.2.2.1
theorem completionReport : ∀ a0, Statement (.completionReport a0) := rows0.2.2.2.2.1
theorem jobComplete : ∀ a0, Statement (.jobComplete a0) := rows0.2.2.2.2.2.1
theorem preemptRequest : ∀ a0, Statement (.preemptRequest a0) := rows0.2.2.2.2.2.2.1
theorem preemptStop : ∀ a0, Statement (.preemptStop a0) := rows0.2.2.2.2.2.2.2.1
theorem preemptTimeout : ∀ a0, Statement (.preemptTimeout a0) := rows0.2.2.2.2.2.2.2.2.1
theorem contextSave : ∀ a0, Statement (.contextSave a0) := rows0.2.2.2.2.2.2.2.2.2.1
theorem saveWatchdogExpiry : ∀ a0, Statement (.saveWatchdogExpiry a0) := rows0.2.2.2.2.2.2.2.2.2.2.1
theorem contextRestore : ∀ a0, Statement (.contextRestore a0) := rows0.2.2.2.2.2.2.2.2.2.2.2.1
theorem leaseGrant : ∀ a0, Statement (.leaseGrant a0) := rows0.2.2.2.2.2.2.2.2.2.2.2.2.1
theorem kicksetWrite : ∀ a0 a1, Statement (.kicksetWrite a0 a1) := rows0.2.2.2.2.2.2.2.2.2.2.2.2.2.1
theorem kickpendWrite : ∀ a0 a1, Statement (.kickpendWrite a0 a1) := rows0.2.2.2.2.2.2.2.2.2.2.2.2.2.2.1
theorem drainreqWrite : ∀ a0 a1, Statement (.drainreqWrite a0 a1) := rows0.2.2.2.2.2.2.2.2.2.2.2.2.2.2.2.1
theorem hqctlRelease : ∀ a0 a1, Statement (.hqctlRelease a0 a1) := rows0.2.2.2.2.2.2.2.2.2.2.2.2.2.2.2.2.1
theorem scgoWrite : ∀ a0 a1, Statement (.scgoWrite a0 a1) := rows0.2.2.2.2.2.2.2.2.2.2.2.2.2.2.2.2.2.1
theorem schedMachineCheck : ∀ a0 a1, Statement (.schedMachineCheck a0 a1) := rows0.2.2.2.2.2.2.2.2.2.2.2.2.2.2.2.2.2.2.1
theorem resultLand : ∀ a0 a1, Statement (.resultLand a0 a1) := rows0.2.2.2.2.2.2.2.2.2.2.2.2.2.2.2.2.2.2.2.1
theorem tokenPopResume : ∀ a0 a1, Statement (.tokenPopResume a0 a1) := rows0.2.2.2.2.2.2.2.2.2.2.2.2.2.2.2.2.2.2.2.2.1
theorem glintReplay : ∀ a0 a1 a2, Statement (.glintReplay a0 a1 a2) := rows0.2.2.2.2.2.2.2.2.2.2.2.2.2.2.2.2.2.2.2.2.2.1
theorem machineCheck : ∀ a0 a1, Statement (.machineCheck a0 a1) := rows0.2.2.2.2.2.2.2.2.2.2.2.2.2.2.2.2.2.2.2.2.2.2.1
theorem failedRecordTimer : ∀ a0, Statement (.failedRecordTimer a0) := rows0.2.2.2.2.2.2.2.2.2.2.2.2.2.2.2.2.2.2.2.2.2.2.2.1
theorem arrayRebuild : ∀ a0 a1, Statement (.arrayRebuild a0 a1) := rows0.2.2.2.2.2.2.2.2.2.2.2.2.2.2.2.2.2.2.2.2.2.2.2.2.1
theorem patrolScrub : ∀ a0 a1, Statement (.patrolScrub a0 a1) := rows0.2.2.2.2.2.2.2.2.2.2.2.2.2.2.2.2.2.2.2.2.2.2.2.2.2
theorem repairWrite : ∀ a0 a1, Statement (.repairWrite a0 a1) := rows1.1
theorem arrtestWrite : ∀ a0 a1, Statement (.arrtestWrite a0 a1) := rows1.2.1
theorem dieHeartbeat : ∀ a0, Statement (.dieHeartbeat a0) := rows1.2.2.1
theorem dieHeartbeatTimeout : ∀ a0, Statement (.dieHeartbeatTimeout a0) := rows1.2.2.2.1
theorem dieRailFault : ∀ a0, Statement (.dieRailFault a0) := rows1.2.2.2.2.1
theorem dieHealthEvent : ∀ a0 a1, Statement (.dieHealthEvent a0 a1) := rows1.2.2.2.2.2.1
theorem reconfiguration : ∀ a0, Statement (.reconfiguration a0) := rows1.2.2.2.2.2.2.1
theorem reconfigRestore : ∀ a0, Statement (.reconfigRestore a0) := rows1.2.2.2.2.2.2.2.1
theorem rotationVisit : ∀ a0, Statement (.rotationVisit a0) := rows1.2.2.2.2.2.2.2.2.1
theorem rotationSkip : ∀ a0, Statement (.rotationSkip a0) := rows1.2.2.2.2.2.2.2.2.2.1
theorem selftestEnd : ∀ a0 a1, Statement (.selftestEnd a0 a1) := rows1.2.2.2.2.2.2.2.2.2.2.1
theorem ckptReqWrite : ∀ a0 a1, Statement (.ckptReqWrite a0 a1) := rows1.2.2.2.2.2.2.2.2.2.2.2.1
theorem checkpointWrite : ∀ a0, Statement (.checkpointWrite a0) := rows1.2.2.2.2.2.2.2.2.2.2.2.2.1
theorem checkpointMirrorAck : ∀ a0, Statement (.checkpointMirrorAck a0) := rows1.2.2.2.2.2.2.2.2.2.2.2.2.2.1
theorem peerQueryAnswer : ∀ a0, Statement (.peerQueryAnswer a0) := rows1.2.2.2.2.2.2.2.2.2.2.2.2.2.2.1
theorem facetArrival : ∀ a0 a1, Statement (.facetArrival a0 a1) := rows1.2.2.2.2.2.2.2.2.2.2.2.2.2.2.2.1
theorem decodeTimeout : ∀ a0 a1 a2 a3, Statement (.decodeTimeout a0 a1 a2 a3) := rows1.2.2.2.2.2.2.2.2.2.2.2.2.2.2.2.2.1
theorem flowAckSend : ∀ a0 a1, Statement (.flowAckSend a0 a1) := rows1.2.2.2.2.2.2.2.2.2.2.2.2.2.2.2.2.2.1
theorem flowAck : ∀ a0 a1 a2 a3, Statement (.flowAck a0 a1 a2 a3) := rows1.2.2.2.2.2.2.2.2.2.2.2.2.2.2.2.2.2.2.1
theorem lossNotice : ∀ a0 a1 a2 a3, Statement (.lossNotice a0 a1 a2 a3) := rows1.2.2.2.2.2.2.2.2.2.2.2.2.2.2.2.2.2.2.2.1
theorem sourceAckTimeout : ∀ a0 a1 a2 a3, Statement (.sourceAckTimeout a0 a1 a2 a3) := rows1.2.2.2.2.2.2.2.2.2.2.2.2.2.2.2.2.2.2.2.2.1
theorem pathDown : ∀ a0 a1 a2, Statement (.pathDown a0 a1 a2) := rows1.2.2.2.2.2.2.2.2.2.2.2.2.2.2.2.2.2.2.2.2.2.1
theorem pathUp : ∀ a0 a1 a2, Statement (.pathUp a0 a1 a2) := rows1.2.2.2.2.2.2.2.2.2.2.2.2.2.2.2.2.2.2.2.2.2.2.1
theorem laneDegrade : ∀ a0 a1, Statement (.laneDegrade a0 a1) := rows1.2.2.2.2.2.2.2.2.2.2.2.2.2.2.2.2.2.2.2.2.2.2.2.1
theorem permitArrival : ∀ a0 a1, Statement (.permitArrival a0 a1) := rows1.2.2.2.2.2.2.2.2.2.2.2.2.2.2.2.2.2.2.2.2.2.2.2.2.1
theorem msgAppendArrival : ∀ a0 a1, Statement (.msgAppendArrival a0 a1) := rows1.2.2.2.2.2.2.2.2.2.2.2.2.2.2.2.2.2.2.2.2.2.2.2.2.2
theorem spillMoveIn : ∀ a0 a1, Statement (.spillMoveIn a0 a1) := rows2.1
theorem msgCreditReport : ∀ a0 a1, Statement (.msgCreditReport a0 a1) := rows2.2.1
theorem groupEpisodeComplete : ∀ a0 a1, Statement (.groupEpisodeComplete a0 a1) := rows2.2.2.1
theorem phaseDoneAdvance : ∀ a0 a1, Statement (.phaseDoneAdvance a0 a1) := rows2.2.2.2.1
theorem translationWalk : ∀ a0 a1 a2, Statement (.translationWalk a0 a1 a2) := rows2.2.2.2.2.1
theorem debugStopEdge : ∀ a0, Statement (.debugStopEdge a0) := rows2.2.2.2.2.2.1
theorem recordWindow : ∀ a0 a1, Statement (.recordWindow a0 a1) := rows2.2.2.2.2.2.2.1
theorem replayWindowCheck : ∀ a0 a1, Statement (.replayWindowCheck a0 a1) := rows2.2.2.2.2.2.2.2.1
theorem sensorWrite : ∀ a0 a1 a2 a3, Statement (.sensorWrite a0 a1 a2 a3) := rows2.2.2.2.2.2.2.2.2.1
theorem sensorEnd : ∀ a0 a1, Statement (.sensorEnd a0 a1) := rows2.2.2.2.2.2.2.2.2.2.1
theorem sensorRecord : ∀ a0, Statement (.sensorRecord a0) := rows2.2.2.2.2.2.2.2.2.2.2.1
theorem timeCorrection : ∀ a0, Statement (.timeCorrection a0) := rows2.2.2.2.2.2.2.2.2.2.2.2.1
theorem lockInterfaceRequest : ∀ a0, Statement (.lockInterfaceRequest a0) := rows2.2.2.2.2.2.2.2.2.2.2.2.2.1
theorem startInterfaceRequest : ∀ a0, Statement (.startInterfaceRequest a0) := rows2.2.2.2.2.2.2.2.2.2.2.2.2.2.1
theorem stopInterfaceRequest : ∀ a0, Statement (.stopInterfaceRequest a0) := rows2.2.2.2.2.2.2.2.2.2.2.2.2.2.2.1
theorem flr : ∀ a0, Statement (.flr a0) := rows2.2.2.2.2.2.2.2.2.2.2.2.2.2.2.2.1
theorem ideIntegrityFailure : ∀ a0, Statement (.ideIntegrityFailure a0) := rows2.2.2.2.2.2.2.2.2.2.2.2.2.2.2.2.2.1
theorem worldReset : ∀ a0, Statement (.worldReset a0) := rows2.2.2.2.2.2.2.2.2.2.2.2.2.2.2.2.2.2.1
theorem getVersion : ∀ a0, Statement (.getVersion a0) := rows2.2.2.2.2.2.2.2.2.2.2.2.2.2.2.2.2.2.2.1
theorem getCapabilities : ∀ a0, Statement (.getCapabilities a0) := rows2.2.2.2.2.2.2.2.2.2.2.2.2.2.2.2.2.2.2.2.1
theorem negotiateAlgorithms : ∀ a0, Statement (.negotiateAlgorithms a0) := rows2.2.2.2.2.2.2.2.2.2.2.2.2.2.2.2.2.2.2.2.2.1
theorem getDigests : ∀ a0, Statement (.getDigests a0) := rows2.2.2.2.2.2.2.2.2.2.2.2.2.2.2.2.2.2.2.2.2.2.1
theorem getCertificate : ∀ a0, Statement (.getCertificate a0) := rows2.2.2.2.2.2.2.2.2.2.2.2.2.2.2.2.2.2.2.2.2.2.2.1
theorem challenge : ∀ a0 a1, Statement (.challenge a0 a1) := rows2.2.2.2.2.2.2.2.2.2.2.2.2.2.2.2.2.2.2.2.2.2.2.2.1
theorem getMeasurements : ∀ a0 a1, Statement (.getMeasurements a0 a1) := rows2.2.2.2.2.2.2.2.2.2.2.2.2.2.2.2.2.2.2.2.2.2.2.2.2.1
theorem keyExchange : ∀ a0 a1, Statement (.keyExchange a0 a1) := rows2.2.2.2.2.2.2.2.2.2.2.2.2.2.2.2.2.2.2.2.2.2.2.2.2.2
theorem finish : ∀ a0 a1, Statement (.finish a0 a1) := rows3.1
theorem keyUpdate : ∀ a0 a1, Statement (.keyUpdate a0 a1) := rows3.2.1
theorem endSession : ∀ a0 a1, Statement (.endSession a0 a1) := rows3.2.2.1
theorem resync : ∀ a0 a1, Statement (.resync a0 a1) := rows3.2.2.2.1
theorem ackErrorRecords : ∀ a0 a1, Statement (.ackErrorRecords a0 a1) := rows3.2.2.2.2.1
theorem modeSet : ∀ a0 a1, Statement (.modeSet a0 a1) := rows3.2.2.2.2.2.1
theorem setLeaseParams : ∀ a0 a1 a2, Statement (.setLeaseParams a0 a1 a2) := rows3.2.2.2.2.2.2.1
theorem setFabrate : ∀ a0 a1, Statement (.setFabrate a0 a1) := rows3.2.2.2.2.2.2.2.1
theorem testMode : ∀ a0 a1, Statement (.testMode a0 a1) := rows3.2.2.2.2.2.2.2.2.1
theorem createTdi : ∀ a0 a1 a2, Statement (.createTdi a0 a1 a2) := rows3.2.2.2.2.2.2.2.2.2.1
theorem destroyTdi : ∀ a0 a1, Statement (.destroyTdi a0 a1) := rows3.2.2.2.2.2.2.2.2.2.2.1
theorem createContext : ∀ a0 a1, Statement (.createContext a0 a1) := rows3.2.2.2.2.2.2.2.2.2.2.2.1
theorem destroyContext : ∀ a0, Statement (.destroyContext a0) := rows3.2.2.2.2.2.2.2.2.2.2.2.2.1
theorem invalidateTranslations : ∀ a0 a1 a2 a3, Statement (.invalidateTranslations a0 a1 a2 a3) := rows3.2.2.2.2.2.2.2.2.2.2.2.2.2.1
theorem setSlotCtl : ∀ a0 a1 a2, Statement (.setSlotCtl a0 a1 a2) := rows3.2.2.2.2.2.2.2.2.2.2.2.2.2.2.1
theorem setSlotDeadline : ∀ a0 a1 a2, Statement (.setSlotDeadline a0 a1 a2) := rows3.2.2.2.2.2.2.2.2.2.2.2.2.2.2.2.1
theorem setSlotLevelTable : ∀ a0 a1 a2, Statement (.setSlotLevelTable a0 a1 a2) := rows3.2.2.2.2.2.2.2.2.2.2.2.2.2.2.2.2.1
theorem setSubmissionRing : ∀ a0 a1 a2 a3, Statement (.setSubmissionRing a0 a1 a2 a3) := rows3.2.2.2.2.2.2.2.2.2.2.2.2.2.2.2.2.2.1
theorem setCompletionRing : ∀ a0 a1 a2 a3, Statement (.setCompletionRing a0 a1 a2 a3) := rows3.2.2.2.2.2.2.2.2.2.2.2.2.2.2.2.2.2.2.1
theorem setSensorRegion : ∀ a0 a1 a2 a3, Statement (.setSensorRegion a0 a1 a2 a3) := rows3.2.2.2.2.2.2.2.2.2.2.2.2.2.2.2.2.2.2.2.1
theorem setSensorRecordRing : ∀ a0 a1 a2 a3, Statement (.setSensorRecordRing a0 a1 a2 a3) := rows3.2.2.2.2.2.2.2.2.2.2.2.2.2.2.2.2.2.2.2.2.1
theorem setSlotContext : ∀ a0 a1 a2, Statement (.setSlotContext a0 a1 a2) := rows3.2.2.2.2.2.2.2.2.2.2.2.2.2.2.2.2.2.2.2.2.2.1
theorem raiseLevel : ∀ a0 a1, Statement (.raiseLevel a0 a1) := rows3.2.2.2.2.2.2.2.2.2.2.2.2.2.2.2.2.2.2.2.2.2.2.1
theorem releaseDie : ∀ a0 a1, Statement (.releaseDie a0 a1) := rows3.2.2.2.2.2.2.2.2.2.2.2.2.2.2.2.2.2.2.2.2.2.2.2.1
theorem rotationPeriod : ∀ a0 a1, Statement (.rotationPeriod a0 a1) := rows3.2.2.2.2.2.2.2.2.2.2.2.2.2.2.2.2.2.2.2.2.2.2.2.2.1
theorem peerLostToUp : ∀ a0, Statement (.peerLostToUp a0) := rows3.2.2.2.2.2.2.2.2.2.2.2.2.2.2.2.2.2.2.2.2.2.2.2.2.2
theorem writeOwnership : ∀ a0 a1 a2 a3, Statement (.writeOwnership a0 a1 a2 a3) := rows4.1
theorem installWeightKey : ∀ a0 a1 a2 a3, Statement (.installWeightKey a0 a1 a2 a3) := rows4.2.1
theorem debugStop : ∀ a0 a1 a2 a3, Statement (.debugStop a0 a1 a2 a3) := rows4.2.2.1
theorem debugImageRead : ∀ a0 a1 a2, Statement (.debugImageRead a0 a1 a2) := rows4.2.2.2.1
theorem debugRegisterWrite : ∀ a0 a1 a2 a3 a4, Statement (.debugRegisterWrite a0 a1 a2 a3 a4) := rows4.2.2.2.2.1
theorem debugResume : ∀ a0 a1 a2 a3, Statement (.debugResume a0 a1 a2 a3) := rows4.2.2.2.2.2.1
theorem debugDump : ∀ a0 a1 a2, Statement (.debugDump a0 a1 a2) := rows4.2.2.2.2.2.2.1
theorem debugImageWrite : ∀ a0 a1 a2, Statement (.debugImageWrite a0 a1 a2) := rows4.2.2.2.2.2.2.2.1
theorem selectTimeSource : ∀ a0 a1, Statement (.selectTimeSource a0 a1) := rows4.2.2.2.2.2.2.2.2.1
theorem stageFirmware : ∀ a0 a1 a2 a3, Statement (.stageFirmware a0 a1 a2 a3) := rows4.2.2.2.2.2.2.2.2.2.1
theorem activateFirmware : ∀ a0 a1, Statement (.activateFirmware a0 a1) := rows4.2.2.2.2.2.2.2.2.2.2.1
theorem clearFabricCounters : ∀ a0, Statement (.clearFabricCounters a0) := rows4.2.2.2.2.2.2.2.2.2.2.2.1
theorem packageResetCommand : ∀ a0 a1, Statement (.packageResetCommand a0 a1) := rows4.2.2.2.2.2.2.2.2.2.2.2.2.1
theorem mqcfgWrite : ∀ a0 a1 a2, Statement (.mqcfgWrite a0 a1 a2) := rows4.2.2.2.2.2.2.2.2.2.2.2.2.2.1
theorem mqptrHeadWrite : ∀ a0 a1 a2, Statement (.mqptrHeadWrite a0 a1 a2) := rows4.2.2.2.2.2.2.2.2.2.2.2.2.2.2.1
theorem stickyWrite : ∀ a0 a1 a2, Statement (.stickyWrite a0 a1 a2) := rows4.2.2.2.2.2.2.2.2.2.2.2.2.2.2.2.1
theorem tstatAbandon : ∀ a0 a1, Statement (.tstatAbandon a0 a1) := rows4.2.2.2.2.2.2.2.2.2.2.2.2.2.2.2.2.1
theorem trcctlWrite : ∀ a0 a1, Statement (.trcctlWrite a0 a1) := rows4.2.2.2.2.2.2.2.2.2.2.2.2.2.2.2.2.2.1
theorem registerWrite : ∀ a0 a1, Statement (.registerWrite a0 a1) := rows4.2.2.2.2.2.2.2.2.2.2.2.2.2.2.2.2.2.2.1
theorem amov : ∀ a0 a1 a2, Statement (.amov a0 a1 a2) := rows4.2.2.2.2.2.2.2.2.2.2.2.2.2.2.2.2.2.2.2.1
theorem aadd : ∀ a0 a1 a2 a3, Statement (.aadd a0 a1 a2 a3) := rows4.2.2.2.2.2.2.2.2.2.2.2.2.2.2.2.2.2.2.2.2.1
theorem asub : ∀ a0 a1 a2 a3, Statement (.asub a0 a1 a2 a3) := rows4.2.2.2.2.2.2.2.2.2.2.2.2.2.2.2.2.2.2.2.2.2.1
theorem aand : ∀ a0 a1 a2 a3, Statement (.aand a0 a1 a2 a3) := rows4.2.2.2.2.2.2.2.2.2.2.2.2.2.2.2.2.2.2.2.2.2.2.1
theorem ashl : ∀ a0 a1 a2 a3, Statement (.ashl a0 a1 a2 a3) := rows4.2.2.2.2.2.2.2.2.2.2.2.2.2.2.2.2.2.2.2.2.2.2.2.1
theorem acmp : ∀ a0 a1 a2 a3 a4, Statement (.acmp a0 a1 a2 a3 a4) := rows4.2.2.2.2.2.2.2.2.2.2.2.2.2.2.2.2.2.2.2.2.2.2.2.2.1
theorem ald : ∀ a0 a1 a2, Statement (.ald a0 a1 a2) := rows4.2.2.2.2.2.2.2.2.2.2.2.2.2.2.2.2.2.2.2.2.2.2.2.2.2
theorem ast : ∀ a0 a1 a2, Statement (.ast a0 a1 a2) := rows5.1
theorem b : ∀ a0 a1, Statement (.b a0 a1) := rows5.2.1
theorem bc : ∀ a0 a1 a2, Statement (.bc a0 a1 a2) := rows5.2.2.1
theorem bcNot : ∀ a0 a1 a2, Statement (.bcNot a0 a1 a2) := rows5.2.2.2.1
theorem call : ∀ a0 a1 a2, Statement (.call a0 a1 a2) := rows5.2.2.2.2.1
theorem ret : ∀ a0, Statement (.ret a0) := rows5.2.2.2.2.2.1
theorem loop : ∀ a0 a1 a2 a3 a4, Statement (.loop a0 a1 a2 a3 a4) := rows5.2.2.2.2.2.2.1
theorem pset : ∀ a0 a1, Statement (.pset a0 a1) := rows5.2.2.2.2.2.2.2.1
theorem plog : ∀ a0 a1 a2 a3, Statement (.plog a0 a1 a2 a3) := rows5.2.2.2.2.2.2.2.2.1
theorem mfs : ∀ a0 a1, Statement (.mfs a0 a1) := rows5.2.2.2.2.2.2.2.2.2.1
theorem mts : ∀ a0 a1, Statement (.mts a0 a1) := rows5.2.2.2.2.2.2.2.2.2.2.1
theorem tsig : ∀ a0, Statement (.tsig a0) := rows5.2.2.2.2.2.2.2.2.2.2.2.1
theorem twait : ∀ a0, Statement (.twait a0) := rows5.2.2.2.2.2.2.2.2.2.2.2.2.1
theorem fence : ∀ a0 a1, Statement (.fence a0 a1) := rows5.2.2.2.2.2.2.2.2.2.2.2.2.2.1
theorem trap : ∀ a0, Statement (.trap a0) := rows5.2.2.2.2.2.2.2.2.2.2.2.2.2.2.1
theorem bkpt : ∀ a0, Statement (.bkpt a0) := rows5.2.2.2.2.2.2.2.2.2.2.2.2.2.2.2.1
theorem iadd : ∀ a0 a1 a2, Statement (.iadd a0 a1 a2) := rows5.2.2.2.2.2.2.2.2.2.2.2.2.2.2.2.2.1
theorem isub : ∀ a0 a1 a2, Statement (.isub a0 a1 a2) := rows5.2.2.2.2.2.2.2.2.2.2.2.2.2.2.2.2.2.1
theorem imul : ∀ a0 a1 a2, Statement (.imul a0 a1 a2) := rows5.2.2.2.2.2.2.2.2.2.2.2.2.2.2.2.2.2.2.1
theorem idiv : ∀ a0 a1 a2, Statement (.idiv a0 a1 a2) := rows5.2.2.2.2.2.2.2.2.2.2.2.2.2.2.2.2.2.2.2.1
theorem irem : ∀ a0 a1 a2, Statement (.irem a0 a1 a2) := rows5.2.2.2.2.2.2.2.2.2.2.2.2.2.2.2.2.2.2.2.2.1
theorem iand : ∀ a0 a1 a2, Statement (.iand a0 a1 a2) := rows5.2.2.2.2.2.2.2.2.2.2.2.2.2.2.2.2.2.2.2.2.2.1
theorem ior : ∀ a0 a1 a2, Statement (.ior a0 a1 a2) := rows5.2.2.2.2.2.2.2.2.2.2.2.2.2.2.2.2.2.2.2.2.2.2.1
theorem ixor : ∀ a0 a1 a2, Statement (.ixor a0 a1 a2) := rows5.2.2.2.2.2.2.2.2.2.2.2.2.2.2.2.2.2.2.2.2.2.2.2.1
theorem ishl : ∀ a0 a1 a2, Statement (.ishl a0 a1 a2) := rows5.2.2.2.2.2.2.2.2.2.2.2.2.2.2.2.2.2.2.2.2.2.2.2.2.1
theorem ishr : ∀ a0 a1 a2, Statement (.ishr a0 a1 a2) := rows5.2.2.2.2.2.2.2.2.2.2.2.2.2.2.2.2.2.2.2.2.2.2.2.2.2
theorem imin : ∀ a0 a1 a2, Statement (.imin a0 a1 a2) := rows6.1
theorem imax : ∀ a0 a1 a2, Statement (.imax a0 a1 a2) := rows6.2.1
theorem iclz : ∀ a0 a1 a2, Statement (.iclz a0 a1 a2) := rows6.2.2.1
theorem ipopc : ∀ a0 a1 a2, Statement (.ipopc a0 a1 a2) := rows6.2.2.2.1
theorem isel : ∀ a0 a1 a2, Statement (.isel a0 a1 a2) := rows6.2.2.2.2.1
theorem icmp : ∀ a0 a1 a2 a3 a4 a5, Statement (.icmp a0 a1 a2 a3 a4 a5) := rows6.2.2.2.2.2.1
theorem ld : ∀ a0 a1 a2, Statement (.ld a0 a1 a2) := rows6.2.2.2.2.2.2.1
theorem st : ∀ a0 a1 a2, Statement (.st a0 a1 a2) := rows6.2.2.2.2.2.2.2.1
theorem at_ : ∀ a0 a1 a2, Statement (.at_ a0 a1 a2) := rows6.2.2.2.2.2.2.2.2.1
theorem msend : ∀ a0 a1 a2, Statement (.msend a0 a1 a2) := rows6.2.2.2.2.2.2.2.2.2.1
theorem mrecv : ∀ a0 a1 a2, Statement (.mrecv a0 a1 a2) := rows6.2.2.2.2.2.2.2.2.2.2.1
theorem nsub : ∀ a0 a1, Statement (.nsub a0 a1) := rows6.2.2.2.2.2.2.2.2.2.2.2.1
theorem phadv : ∀ a0 a1, Statement (.phadv a0 a1) := rows6.2.2.2.2.2.2.2.2.2.2.2.2.1
theorem phwait : ∀ a0 a1, Statement (.phwait a0 a1) := rows6.2.2.2.2.2.2.2.2.2.2.2.2.2.1
theorem gbar : ∀ a0 a1 a2, Statement (.gbar a0 a1 a2) := rows6.2.2.2.2.2.2.2.2.2.2.2.2.2.2.1
theorem gred : ∀ a0 a1 a2, Statement (.gred a0 a1 a2) := rows6.2.2.2.2.2.2.2.2.2.2.2.2.2.2.2.1
theorem gtime : ∀ a0 a1, Statement (.gtime a0 a1) := rows6.2.2.2.2.2.2.2.2.2.2.2.2.2.2.2.2.1
theorem drain : ∀ a0 a1, Statement (.drain a0 a1) := rows6.2.2.2.2.2.2.2.2.2.2.2.2.2.2.2.2.2.1
theorem vadd : ∀ a0 a1 a2, Statement (.vadd a0 a1 a2) := rows6.2.2.2.2.2.2.2.2.2.2.2.2.2.2.2.2.2.2.1
theorem vsub : ∀ a0 a1 a2, Statement (.vsub a0 a1 a2) := rows6.2.2.2.2.2.2.2.2.2.2.2.2.2.2.2.2.2.2.2.1
theorem vmul : ∀ a0 a1 a2, Statement (.vmul a0 a1 a2) := rows6.2.2.2.2.2.2.2.2.2.2.2.2.2.2.2.2.2.2.2.2.1
theorem vfma : ∀ a0 a1 a2, Statement (.vfma a0 a1 a2) := rows6.2.2.2.2.2.2.2.2.2.2.2.2.2.2.2.2.2.2.2.2.2.1
theorem vmin : ∀ a0 a1 a2, Statement (.vmin a0 a1 a2) := rows6.2.2.2.2.2.2.2.2.2.2.2.2.2.2.2.2.2.2.2.2.2.2.1
theorem vmax : ∀ a0 a1 a2, Statement (.vmax a0 a1 a2) := rows6.2.2.2.2.2.2.2.2.2.2.2.2.2.2.2.2.2.2.2.2.2.2.2.1
theorem vabs : ∀ a0 a1 a2, Statement (.vabs a0 a1 a2) := rows6.2.2.2.2.2.2.2.2.2.2.2.2.2.2.2.2.2.2.2.2.2.2.2.2.1
theorem vneg : ∀ a0 a1 a2, Statement (.vneg a0 a1 a2) := rows6.2.2.2.2.2.2.2.2.2.2.2.2.2.2.2.2.2.2.2.2.2.2.2.2.2
theorem vclamp : ∀ a0 a1 a2, Statement (.vclamp a0 a1 a2) := rows7.1
theorem vand : ∀ a0 a1 a2, Statement (.vand a0 a1 a2) := rows7.2.1
theorem vor : ∀ a0 a1 a2, Statement (.vor a0 a1 a2) := rows7.2.2.1
theorem vxor : ∀ a0 a1 a2, Statement (.vxor a0 a1 a2) := rows7.2.2.2.1
theorem vshl : ∀ a0 a1 a2, Statement (.vshl a0 a1 a2) := rows7.2.2.2.2.1
theorem vshr : ∀ a0 a1 a2, Statement (.vshr a0 a1 a2) := rows7.2.2.2.2.2.1
theorem vsel : ∀ a0 a1 a2, Statement (.vsel a0 a1 a2) := rows7.2.2.2.2.2.2.1
theorem vcmp : ∀ a0 a1 a2, Statement (.vcmp a0 a1 a2) := rows7.2.2.2.2.2.2.2.1
theorem vmovs : ∀ a0 a1 a2, Statement (.vmovs a0 a1 a2) := rows7.2.2.2.2.2.2.2.2.1
theorem vcvt : ∀ a0 a1 a2, Statement (.vcvt a0 a1 a2) := rows7.2.2.2.2.2.2.2.2.2.1
theorem vcvtSat : ∀ a0 a1 a2, Statement (.vcvtSat a0 a1 a2) := rows7.2.2.2.2.2.2.2.2.2.2.1
theorem vexp : ∀ a0 a1 a2, Statement (.vexp a0 a1 a2) := rows7.2.2.2.2.2.2.2.2.2.2.2.1
theorem vlog : ∀ a0 a1 a2, Statement (.vlog a0 a1 a2) := rows7.2.2.2.2.2.2.2.2.2.2.2.2.1
theorem vrcp : ∀ a0 a1 a2, Statement (.vrcp a0 a1 a2) := rows7.2.2.2.2.2.2.2.2.2.2.2.2.2.1
theorem vrsq : ∀ a0 a1 a2, Statement (.vrsq a0 a1 a2) := rows7.2.2.2.2.2.2.2.2.2.2.2.2.2.2.1
theorem vrotr : ∀ a0 a1 a2, Statement (.vrotr a0 a1 a2) := rows7.2.2.2.2.2.2.2.2.2.2.2.2.2.2.2.1
theorem vrotc : ∀ a0 a1 a2, Statement (.vrotc a0 a1 a2) := rows7.2.2.2.2.2.2.2.2.2.2.2.2.2.2.2.2.1
theorem vbcr : ∀ a0 a1 a2, Statement (.vbcr a0 a1 a2) := rows7.2.2.2.2.2.2.2.2.2.2.2.2.2.2.2.2.2.1
theorem vbcc : ∀ a0 a1 a2, Statement (.vbcc a0 a1 a2) := rows7.2.2.2.2.2.2.2.2.2.2.2.2.2.2.2.2.2.2.1
theorem vredr : ∀ a0 a1 a2, Statement (.vredr a0 a1 a2) := rows7.2.2.2.2.2.2.2.2.2.2.2.2.2.2.2.2.2.2.2.1
theorem vredc : ∀ a0 a1 a2, Statement (.vredc a0 a1 a2) := rows7.2.2.2.2.2.2.2.2.2.2.2.2.2.2.2.2.2.2.2.2.1
theorem vscanr : ∀ a0 a1 a2, Statement (.vscanr a0 a1 a2) := rows7.2.2.2.2.2.2.2.2.2.2.2.2.2.2.2.2.2.2.2.2.2.1
theorem vtrn : ∀ a0 a1 a2, Statement (.vtrn a0 a1 a2) := rows7.2.2.2.2.2.2.2.2.2.2.2.2.2.2.2.2.2.2.2.2.2.2.1
theorem vext : ∀ a0 a1 a2, Statement (.vext a0 a1 a2) := rows7.2.2.2.2.2.2.2.2.2.2.2.2.2.2.2.2.2.2.2.2.2.2.2.1
theorem part : ∀ a0 a1 a2, Statement (.part a0 a1 a2) := rows7.2.2.2.2.2.2.2.2.2.2.2.2.2.2.2.2.2.2.2.2.2.2.2.2.1
theorem vld : ∀ a0 a1 a2, Statement (.vld a0 a1 a2) := rows7.2.2.2.2.2.2.2.2.2.2.2.2.2.2.2.2.2.2.2.2.2.2.2.2.2
theorem vst : ∀ a0 a1 a2, Statement (.vst a0 a1 a2) := rows8.1
theorem vldp : ∀ a0 a1 a2, Statement (.vldp a0 a1 a2) := rows8.2.1
theorem vstp : ∀ a0 a1 a2 a3 a4 a5 a6 a7 a8, Statement (.vstp a0 a1 a2 a3 a4 a5 a6 a7 a8) := rows8.2.2.1
theorem vgath : ∀ a0 a1 a2, Statement (.vgath a0 a1 a2) := rows8.2.2.2.1
theorem vscat : ∀ a0 a1 a2, Statement (.vscat a0 a1 a2) := rows8.2.2.2.2.1
theorem vlend : ∀ a0 a1 a2, Statement (.vlend a0 a1 a2) := rows8.2.2.2.2.2.1
theorem alease : ∀ a0, Statement (.alease a0) := rows8.2.2.2.2.2.2.1
theorem arel : ∀ a0, Statement (.arel a0) := rows8.2.2.2.2.2.2.2.1
theorem tsclaim : ∀ a0 a1, Statement (.tsclaim a0 a1) := rows8.2.2.2.2.2.2.2.2.1
theorem tsrel : ∀ a0 a1, Statement (.tsrel a0 a1) := rows8.2.2.2.2.2.2.2.2.2.1
theorem mcfg : ∀ a0 a1 a2, Statement (.mcfg a0 a1 a2) := rows8.2.2.2.2.2.2.2.2.2.2.1
theorem mbegin : ∀ a0 a1 a2 a3, Statement (.mbegin a0 a1 a2 a3) := rows8.2.2.2.2.2.2.2.2.2.2.2.1
theorem mloadb : ∀ a0 a1, Statement (.mloadb a0 a1) := rows8.2.2.2.2.2.2.2.2.2.2.2.2.1
theorem mma : ∀ a0 a1 a2 a3 a4, Statement (.mma a0 a1 a2 a3 a4) := rows8.2.2.2.2.2.2.2.2.2.2.2.2.2.1
theorem mret : ∀ a0 a1, Statement (.mret a0 a1) := rows8.2.2.2.2.2.2.2.2.2.2.2.2.2.2.1
theorem mretRetire : ∀ a0, Statement (.mretRetire a0) := rows8.2.2.2.2.2.2.2.2.2.2.2.2.2.2.2.1
theorem cpy : ∀ a0 a1 a2, Statement (.cpy a0 a1 a2) := rows8.2.2.2.2.2.2.2.2.2.2.2.2.2.2.2.2.1
theorem cpyp : ∀ a0 a1 a2, Statement (.cpyp a0 a1 a2) := rows8.2.2.2.2.2.2.2.2.2.2.2.2.2.2.2.2.2.1
theorem cpyr : ∀ a0 a1 a2, Statement (.cpyr a0 a1 a2) := rows8.2.2.2.2.2.2.2.2.2.2.2.2.2.2.2.2.2.2.1
theorem cdec : ∀ a0 a1 a2 a3, Statement (.cdec a0 a1 a2 a3) := rows8.2.2.2.2.2.2.2.2.2.2.2.2.2.2.2.2.2.2.2.1
theorem cenc : ∀ a0 a1 a2, Statement (.cenc a0 a1 a2) := rows8.2.2.2.2.2.2.2.2.2.2.2.2.2.2.2.2.2.2.2.2.1
theorem sbind : ∀ a0 a1 a2, Statement (.sbind a0 a1 a2) := rows8.2.2.2.2.2.2.2.2.2.2.2.2.2.2.2.2.2.2.2.2.2.1
theorem sunbind : ∀ a0 a1 a2, Statement (.sunbind a0 a1 a2) := rows8.2.2.2.2.2.2.2.2.2.2.2.2.2.2.2.2.2.2.2.2.2.2.1
theorem tsfill : ∀ a0 a1 a2 a3, Statement (.tsfill a0 a1 a2 a3) := rows8.2.2.2.2.2.2.2.2.2.2.2.2.2.2.2.2.2.2.2.2.2.2.2.1
theorem cbw : ∀ a0 a1 a2, Statement (.cbw a0 a1 a2) := rows8.2.2.2.2.2.2.2.2.2.2.2.2.2.2.2.2.2.2.2.2.2.2.2.2.1
theorem xsend : ∀ a0 a1 a2, Statement (.xsend a0 a1 a2) := rows8.2.2.2.2.2.2.2.2.2.2.2.2.2.2.2.2.2.2.2.2.2.2.2.2.2
theorem xrecv : ∀ a0 a1 a2, Statement (.xrecv a0 a1 a2) := rows9.1
theorem xfree : ∀ a0 a1 a2, Statement (.xfree a0 a1 a2) := rows9.2.1
theorem quotaStall : ∀ a0, Statement (.quotaStall a0) := rows9.2.2.1
theorem cCommandPerformed : ∀ a0 a1, Statement (.cCommandPerformed a0 a1) := rows9.2.2.2.1
theorem mCommandPerformed : ∀ a0, Statement (.mCommandPerformed a0) := rows9.2.2.2.2.1
theorem streamRowTransfer : ∀ a0 a1, Statement (.streamRowTransfer a0 a1) := rows9.2.2.2.2.2.1
theorem badCode : ∀ a0 a1, Statement (.badCode a0 a1) := rows9.2.2.2.2.2.2.1
theorem peerPortDown : ∀ a0, Statement (.peerPortDown a0) := rows9.2.2.2.2.2.2.2.1
theorem peerPortUp : ∀ a0, Statement (.peerPortUp a0) := rows9.2.2.2.2.2.2.2.2.1
theorem pick : Statement .pick := rows9.2.2.2.2.2.2.2.2.2.1
theorem schedTakingOver : Statement .schedTakingOver := rows9.2.2.2.2.2.2.2.2.2.2.1
theorem hubReset : Statement .hubReset := rows9.2.2.2.2.2.2.2.2.2.2.2.1
theorem peerHeartbeatSend : Statement .peerHeartbeatSend := rows9.2.2.2.2.2.2.2.2.2.2.2.2.1
theorem peerHeartbeat : Statement .peerHeartbeat := rows9.2.2.2.2.2.2.2.2.2.2.2.2.2.1
theorem peerHeartbeatMiss : Statement .peerHeartbeatMiss := rows9.2.2.2.2.2.2.2.2.2.2.2.2.2.2.1
theorem peerQueryTimeout : Statement .peerQueryTimeout := rows9.2.2.2.2.2.2.2.2.2.2.2.2.2.2.2.1
theorem packageFailure : Statement .packageFailure := rows9.2.2.2.2.2.2.2.2.2.2.2.2.2.2.2.2.1
theorem nop : Statement .nop := rows9.2.2.2.2.2.2.2.2.2.2.2.2.2.2.2.2.2.1
theorem tfence : Statement .tfence := rows9.2.2.2.2.2.2.2.2.2.2.2.2.2.2.2.2.2.2.1
theorem rend : Statement .rend := rows9.2.2.2.2.2.2.2.2.2.2.2.2.2.2.2.2.2.2.2.1
theorem eret : Statement .eret := rows9.2.2.2.2.2.2.2.2.2.2.2.2.2.2.2.2.2.2.2.2.1
theorem peerMcQuery : Statement .peerMcQuery := rows9.2.2.2.2.2.2.2.2.2.2.2.2.2.2.2.2.2.2.2.2.2

end Sys2Proof.Laws.EncodedLength
end

