-- ==== Sys2Proof/Laws/Trap.lean ====
section
/-! SUPPORT. What taking an exception, the return from one, and a taken branch do to the machine (R232, R244, R245). -/

namespace Sys2Proof.Machine

theorem Core.unpopMask_zero (c : Core) (e : Eng) : c.unpopMask e 0#3 = c := by
  simp [Core.unpopMask]

theorem Core.undoPops_nil (c : Core) (h : c.mpop = []) : c.undoPops = c := by
  simp [Core.undoPops, h]

/-- An exception that the handler takes changes only the engine (R244). -/
theorem State.trapHere_taken (s : State) (u : UnitId) (e : Eng) (len : Nat) (cause : Byte) (detail : Dword)
    (ht : (s.eng u e).mayTrap) (hp : e = .M → (s.core u).mpop = []) (hq : (s.eng u e).quiet) :
    s.trapHere u e len cause detail = s.setEng u e ((s.eng u e).trapped len cause detail) := by
  have hund : (if e = Eng.M then s.modCore u Core.undoPops else s) = s := by
    by_cases he : e = Eng.M
    · rw [if_pos he, State.modCore, Core.undoPops_nil _ (hp he), State.setCore_core]
    · rw [if_neg he]
  simp only [State.trapHere, State.takeTrap, hund]
  have hcond : ¬((s.eng u e).hm || !(s.eng u e).tvec.getLsbD 0) = true := by
    rw [ht.1, ht.2]
    decide
  rw [if_neg hcond, State.advance_quiet]
  · simp only [State.modEng, State.eng_setEng, State.setEng_setEng]
    simp only [Engine.trapped, Bool.false_eq_true, if_false, Nat.zero_add]
  · rw [State.eng_setEng]
    exact hq

/-- An exception in a handler, or with no handler enabled, aborts the job (R245). -/
theorem State.trapHere_aborts (s : State) (u : UnitId) (e : Eng) (len : Nat) (cause : Byte) (detail : Dword)
    (ht : ¬(s.eng u e).mayTrap) (hp : e = .M → (s.core u).mpop = []) :
    s.trapHere u e len cause detail = (s.abortJob u cause).advance u e := by
  have hund : (if e = Eng.M then s.modCore u Core.undoPops else s) = s := by
    by_cases he : e = Eng.M
    · rw [if_pos he, State.modCore, Core.undoPops_nil _ (hp he), State.setCore_core]
    · rw [if_neg he]
  have hcond : ((s.eng u e).hm || !(s.eng u e).tvec.getLsbD 0) = true := by
    cases hh : (s.eng u e).hm <;> cases hv : (s.eng u e).tvec.getLsbD 0 <;> simp_all [Engine.mayTrap]
  simp only [State.trapHere, State.takeTrap, hund]
  rw [if_pos hcond]

/-- An instruction that begins and raises an exception (R220, R244): its pops are undone. -/
theorem Res.settle_trap (s : State) (u : UnitId) (e : Eng) (len : Nat) (cause : Byte) (detail : Dword)
    (ht : (s.eng u e).mayTrap) (hp : e = .M → (s.core u).mpop = []) (hq : (s.eng u e).quiet) :
    (Res.trap s cause detail).settle u e len 0#3 = s.setEng u e ((s.eng u e).trapped len cause detail) := by
  simp only [Res.settle, State.modCore, Core.unpopMask_zero, State.setCore_core]
  exact State.trapHere_taken s u e len cause detail ht hp hq

/-- An instruction that begins and raises an exception which no handler takes. -/
theorem Res.settle_abort (s : State) (u : UnitId) (e : Eng) (len : Nat) (cause : Byte) (detail : Dword)
    (ht : ¬(s.eng u e).mayTrap) (hp : e = .M → (s.core u).mpop = []) :
    (Res.trap s cause detail).settle u e len 0#3 = (s.abortJob u cause).advance u e := by
  simp only [Res.settle, State.modCore, Core.unpopMask_zero, State.setCore_core]
  exact State.trapHere_aborts s u e len cause detail ht hp

/-- A C32 instruction that raises an exception of its own. -/
theorem State.issueC_traps (s : State) (i : Instr) (slotLen : Nat) (off on : State → Res) (cause : Byte) (detail : Dword)
    (r : s.Ready i none) (hd : delaySlotFault s.me i (instrWords i) slotLen = false) (ht : s.me.mayTrap)
    (hp : s.cur.2 = .M → (s.core s.cur.1).mpop = []) (hon : on s = .trap s cause detail) :
    s.issue i slotLen none false off on =
      s.setEng s.cur.1 s.cur.2 (s.me.trapped (instrWords i) cause detail) := by
  rw [State.issue_ready s i slotLen none off on r hd, if_pos (show s.me.guardOn none = true from rfl), State.begins_none, hon]
  exact Res.settle_trap s _ _ _ _ _ ht hp r.quiet

/-- A C32 instruction whose exception no handler takes. -/
theorem State.issueC_aborts (s : State) (i : Instr) (slotLen : Nat) (off on : State → Res) (cause : Byte) (detail : Dword)
    (r : s.Ready i none) (hd : delaySlotFault s.me i (instrWords i) slotLen = false) (ht : ¬s.me.mayTrap)
    (hp : s.cur.2 = .M → (s.core s.cur.1).mpop = []) (hon : on s = .trap s cause detail) :
    s.issue i slotLen none false off on = (s.abortJob s.cur.1 cause).advance s.cur.1 s.cur.2 := by
  rw [State.issue_ready s i slotLen none off on r hd, if_pos (show s.me.guardOn none = true from rfl), State.begins_none, hon]
  exact Res.settle_abort s _ _ _ _ _ ht hp

/-- A taken branch whose loops' exits write no snapshot. -/
theorem Res.settle_goto (s : State) (u : UnitId) (e : Eng) (len : Nat) (undo : BitVec 3) (target : Dword) (pops : Bool)
    (hs : (s.core u).trcctl.getLsbD 1 = false) (hq : (s.eng u e).quiet) :
    (Res.goto s target pops).settle u e len undo =
      s.setEng u e ((s.eng u e).jumps len target
        (if pops then leaveLoops (s.loopAfter u e) (s.eng u e).pc.toNat target.toNat (s.eng u e).loops else (s.eng u e).loops)) := by
  have hx : ∀ (g : Engine) (n : Nat), (s.setEng u e g).exits u e n = s.setEng u e g := by
    intro g n
    have : ((s.setEng u e g).core u).trcctl.getLsbD 1 = false := by simpa using hs
    simp only [State.exits, State.snapshot, this, Bool.false_eq_true, if_false, ite_self]
  simp only [Res.settle, State.modEng, hx]
  rw [State.advance_quiet]
  · simp only [State.modEng, State.eng_setEng, State.setEng_setEng]
    rfl
  · rw [State.eng_setEng]
    exact hq

/-- A taken branch with a result of latency 1: the link of CALL. -/
theorem Res.settle_goto_land (s : State) (u : UnitId) (e : Eng) (len : Nat) (undo : BitVec 3) (target : Dword)
    (ws : List Write) (hw : ws.all Write.onEngine = true) (hs : (s.core u).trcctl.getLsbD 1 = false)
    (hq : (s.eng u e).quiet) :
    (Res.goto (s.fly u e 1 ws 0 0) target false).settle u e len undo =
      s.setEng u e (ws.foldl Engine.put ((s.eng u e).jumps len target (s.eng u e).loops)) := by
  have hx : ∀ (g : Engine) (n : Nat), (s.setEng u e g).exits u e n = s.setEng u e g := by
    intro g n
    have : ((s.setEng u e g).core u).trcctl.getLsbD 1 = false := by simpa using hs
    simp only [State.exits, State.snapshot, this, Bool.false_eq_true, if_false, ite_self]
  simp only [State.fly, Res.settle, State.modEng, State.eng_setEng, State.setEng_setEng, hx]
  have h := State.advance_land s u e
    { s.eng u e with
      pc := (s.eng u e).pc + BitVec.ofNat 64 (4 * len), after := some target, ds := true, frozen := none, popDone := false }
    0 ws 0 hw hq
  refine h.trans ?_
  have hz : ∀ t : State, t.push u e 0 = t := fun t => State.push_zero t u e
  rw [hz]
  have hk : ∀ k : Engine, ({ k with sticky := k.sticky ||| 0 } : Engine) = k := by
    intro k
    have : k.sticky ||| 0 = k.sticky := BitVec.or_zero
    rw [this]
  simp only [hk]
  rfl

theorem Res.settle_slot (s : State) (u : UnitId) (e : Eng) (len : Nat) (undo : BitVec 3) (hq : (s.eng u e).quiet) :
    (Res.slot s).settle u e len undo = s.setEng u e ((s.eng u e).falls len) := by
  simp only [Res.settle, State.modEng]
  rw [State.advance_quiet]
  · simp only [State.modEng, State.eng_setEng, State.setEng_setEng]
    rfl
  · rw [State.eng_setEng]
    exact hq

end Sys2Proof.Machine
end

