-- ==== Sys2Proof/Tests/Slice0.lean ====
section
/-! SUPPORT. Tests of single definitions and single steps, and for every statement that has hypotheses a state and operands that
meet them. Expected values are the specification's own examples, or worked out by hand from its rules. -/

namespace Sys2Proof.Tests

open Sys2Proof Sys2Proof.Machine

set_option Elab.async false

/-! Small states: core 0 of the package after reset with a job loaded, one of its engines to move. -/

def on (e : Eng) : State := { State.reset.withJob with cur := (0, e) }

def hdr : Hdr := { wait := 0, sig := 0, guard := 0, neg := false }

/-- The own scratchpad of a core as addresses name it. -/
def own : Dword := 0x01F000003F000000

/-- The engine that moves, with some of its registers set. -/
def set (s : State) (f : Engine → Engine) : State := s.setEng s.cur.1 s.cur.2 (f s.me)
def setA (s : State) (n : Fin 16) (v : Dword) : State := set s fun g => { g with a := g.a.set n v }
def setX (s : State) (n : Fin 32) (v : Dword) : State := set s fun g => { g with x := g.x.set n v }
def handled (s : State) : State := set s fun g => { g with tvec := 1 }

/-! The hypotheses of the statements as Bools, which the kernel evaluates. -/

def readyB (s : State) (i : Instr) (h : Option Hdr) : Bool :=
  (s.me.deferred.isNone || s.me.hm) && i.legalOn (envOf s.cur.1 s.cur.2) &&
  (s.me.popDone || (s.core s.cur.1).emptyBits s.cur.2 (waitOf h) == 0) &&
  (s.core s.cur.1).overCeil s.cur.2 (sigOf h) == 0 && !s.me.endsLoop s.me.pc.toNat (instrWords i) &&
  s.me.flights.all fun f => s.me.scycle + 1 < f.landAt

theorem ready_iff (s : State) (i : Instr) (h : Option Hdr) : s.Ready i h ↔ readyB s i h = true := by
  constructor
  · rintro ⟨a, b, c, d, e, f⟩
    simp only [readyB, b, d, e, Bool.and_eq_true, Bool.or_eq_true, List.all_eq_true]
    refine ⟨⟨⟨⟨⟨by simpa using a, trivial⟩, by simpa using c⟩, by simp⟩, by simp⟩, fun x hx => by simpa using f x hx⟩
  · intro r
    simp only [readyB, Bool.and_eq_true, Bool.or_eq_true, List.all_eq_true] at r
    obtain ⟨⟨⟨⟨⟨a, b⟩, c⟩, d⟩, e⟩, f⟩ := r
    exact ⟨by simpa using a, b, by simpa using c, by simpa using d, by simpa using e, fun x hx => by simpa using f x hx⟩

theorem runs_iff (s : State) (i : Instr) (h : Hdr) :
    s.Runs i h ↔ (readyB s i (some h) && s.me.guardOn (some h)) = true := by
  simp [State.Runs, ready_iff]

theorem mayTrap_iff (g : Engine) : g.mayTrap ↔ (!g.hm && g.tvec.getLsbD 0) = true := by simp [Engine.mayTrap]

theorem quiet_iff (g : Engine) : g.quiet ↔ (g.flights.all fun f => g.scycle + 1 < f.landAt) = true := by
  simp [Engine.quiet]

def vreadyB (s : State) (dst : Spec) (srcs : List Spec) : Bool :=
  !(s.core s.cur.1).lentNamed (dst :: srcs) && (streamFields dst srcs).all (fun f => !(s.core s.cur.1).streamBad f.2 f.1) &&
  (streamFields dst srcs).all (fun f => (drainTrouble s f.1).isNone) && (popTrouble s (srcs.filterMap Spec.stream?)).isNone

def unflipped (s : State) : Bool := s.flips.isEmpty && s.vflips.isEmpty

/-- Where no stored bit is flipped, a read of the vector file is sound. -/
theorem readFile_unflipped (s : State) (u : UnitId) (h : unflipped s = true) (ns : List Nat) : s.readFile u ns = .ok s := by
  induction ns with
  | nil => rfl
  | cons n ns ih =>
    rw [State.readFile]
    split
    · rfl
    · simp only [State.readArray, show (s.flips.isEmpty && s.vflips.isEmpty) = true from h, if_true]; exact ih

theorem vready_iff (s : State) (hu : unflipped s = true) (dst : Spec) (srcs : List Spec) :
    s.VReady dst srcs ↔ vreadyB s dst srcs = true := by
  constructor
  · rintro ⟨a, b, c, d, -⟩
    simp only [vreadyB, a, d, Bool.and_eq_true, List.all_eq_true]
    exact ⟨⟨⟨by simp, fun f hf => by simpa using b f hf⟩, fun f hf => c f hf⟩, trivial⟩
  · intro r
    simp only [vreadyB, Bool.and_eq_true, List.all_eq_true] at r
    obtain ⟨⟨⟨a, b⟩, c⟩, d⟩ := r
    exact ⟨by simpa using a, fun f hf => by simpa using b f hf, c, d, readFile_unflipped s _ hu _⟩

theorem vready_on (dst : Spec) (srcs : List Spec) :
    ((on .V).begins (some hdr)).VReady dst srcs ↔ vreadyB ((on .V).begins (some hdr)) dst srcs = true :=
  vready_iff _ (by decide +kernel) _ _

theorem ok_iff {ε α : Type} (x : Except ε α) : (∃ a, x = .ok a) ↔ x.toBool = true := by
  cases x <;> simp [Except.toBool]

/-! Decoding. Each word is written out from the encodings of the specification: Tables 9.1 to 9.5 for the shared words, 9.5 to 9.17
for those of the engines, 17.1 and 17.4 for SEL and ITEM. -/

/-- WAIT 5, SIG 3, guard !p9. -/
def hdr2 : Hdr := { wait := 5, sig := 3, guard := 9, neg := true }

/-- The words decode to the instruction, and nothing is left of them. -/
def readsB (e : Eng) (ws : List Word) (i : Instr) : Bool :=
  let d := decode ⟨e, false, false⟩ ws
  d.words = ws.length && (match d.result with | .ok j => j = i | .error _ => false)

/-- Table 9.3. -/
theorem test_decode_shared : ∀ r ∈ ([
      ([0x0], .nop),
      ([0x021F0000, 0x12345678], .amov (.a 1) (.lit32 0x12345678) 0),
      ([0x043173FB], .aadd (.a 3) (.a 2) .zero 0x3FB),
      ([0x07C9BDFF], .asub .zero (.lc 3) (.a 15) 511),
      ([0x090FF800, 0x11223344, 0xAABBCCDD, 0x7], .aand (.lc 0) (.lit64 0xAABBCCDD11223344) (.lit32 7) 0),
      ([0x0A20F3FC], .ashl (.a 2) (.a 1) .zero 0x3FC),
      ([0x0DF246C0], .acmp 31 (.a 4) (.lc 1) .ge true),
      ([0x10537FF8], .ald (.a 5) (.a 6) 0x7FF8),
      ([0x13C30010], .ast .zero (.a 6) 16),
      ([0x200E7FFF], .b .zero 0x7FFF),
      ([0x22718005], .bc 7 (.a 3) 5),
      ([0x25EE4000], .bcNot 30 .zero 0x4000),
      ([0x26FE0040], .call 15 .zero 0x40),
      ([0x28090000], .ret (.lc 2)),
      ([0x2B34FFFF], .loop 3 (.a 9) true 15 1023),
      ([0x30700001], .pset 7 true),
      ([0x32329808], .plog 3 5 6 8),
      ([0x41100019], .mfs (.lc 1) 0x019),
      ([0x420F00E1, 0x1], .mts (.lit32 1) 0x0E1),
      ([0x50000005], .tsig 5),
      ([0x52000001], .twait 1),
      ([0x54000041], .fence 4 1),
      ([0x56000000], .tfence),
      ([0x58000000], .rend),
      ([0x600000A5], .trap 0xA5),
      ([0x620000FF], .bkpt 0xFF),
      ([0x64000000], .eret)] : List (List Word × Instr)),
    readsB .S r.1 r.2 = true := by decide +kernel

/-- Table 9.14. -/
theorem test_decode_S : ∀ r ∈ ([
      ([0xD6014C40, 0x0160FEFD, 0x64], .iadd hdr2 ⟨false, false, true⟩ ⟨.x 1, .a 0, .lit32 0x64, .none⟩),
      ([0xD6024D80, 0x0261FEFD, 0x65], .isub hdr2 ⟨true, true, false⟩ ⟨.x 2, .a 1, .lit32 0x65, .none⟩),
      ([0xD6034D40, 0x0362FEFD, 0x66], .imul hdr2 ⟨true, false, true⟩ ⟨.x 3, .a 2, .lit32 0x66, .none⟩),
      ([0xD6044C80, 0x0463FEFD, 0x67], .idiv hdr2 ⟨false, true, false⟩ ⟨.x 4, .a 3, .lit32 0x67, .none⟩),
      ([0xD6054D00, 0x0564FEFD, 0x68], .irem hdr2 ⟨true, false, false⟩ ⟨.x 5, .a 4, .lit32 0x68, .none⟩),
      ([0xD6064D80, 0x0665FEFD, 0x69], .iand hdr2 ⟨true, true, false⟩ ⟨.x 6, .a 5, .lit32 0x69, .none⟩),
      ([0xD6074C00, 0x0766FEFD, 0x6A], .ior hdr2 ⟨false, false, false⟩ ⟨.x 7, .a 6, .lit32 0x6A, .none⟩),
      ([0xD6084D80, 0x0867FEFD, 0x6B], .ixor hdr2 ⟨true, true, false⟩ ⟨.x 8, .a 7, .lit32 0x6B, .none⟩),
      ([0xD6094D40, 0x0968FEFD, 0x6C], .ishl hdr2 ⟨true, false, true⟩ ⟨.x 9, .a 8, .lit32 0x6C, .none⟩),
      ([0xD60A4C80, 0x0A69FEFD, 0x6D], .ishr hdr2 ⟨false, true, false⟩ ⟨.x 10, .a 9, .lit32 0x6D, .none⟩),
      ([0xD60B4D00, 0x0B6AFEFD, 0x6E], .imin hdr2 ⟨true, false, false⟩ ⟨.x 11, .a 10, .lit32 0x6E, .none⟩),
      ([0xD60C4D80, 0x0C6BFEFD, 0x6F], .imax hdr2 ⟨true, true, false⟩ ⟨.x 12, .a 11, .lit32 0x6F, .none⟩),
      ([0x800D0100, 0x631FFDFD], .iclz hdr ⟨true, false, false⟩ ⟨.a 3, .x 31, .none, .none⟩),
      ([0x800E0000, 0xFDFFFDFD, 0x6, 0x5], .ipopc hdr ⟨false, false, false⟩ ⟨.none, .lit64 0x500000006, .none, .none⟩),
      ([0x800F011E, 0x010203FD], .isel hdr ⟨true, 30⟩ ⟨.x 1, .x 2, .x 3, .none⟩),
      ([0x801000A0, 0x0402FEFD, 0xA], .icmp hdr ⟨false, true, .lt⟩ 4 (.x 2) (.lit32 10) .none),
      ([0x802002D0, 0x0567FDFE], .ld hdr ⟨5, 2, true⟩ ⟨.x 5, .a 7, .none, 0xFE⟩),
      ([0x80210060, 0xFE67FD01, 0x9], .st hdr ⟨0, 3, false⟩ ⟨.lit32 9, .a 7, .none, 1⟩),
      ([0x802200C4, 0x01020304], .at_ hdr ⟨1, .cas, true, false⟩ ⟨.x 1, .x 2, .x 3, .x 4⟩),
      ([0x80400000, 0x01020303], .msend hdr ⟨.x 1, .x 2, .x 3⟩ 3),
      ([0x80410000, 0x0102FD02], .mrecv hdr ⟨.x 1, .x 2, .none⟩ 2),
      ([0x80420000, 0x0162FD00], .nsub hdr ⟨.x 1, .a 2, .none⟩),
      ([0x80430000, 0x61FDFD00], .phadv hdr ⟨.a 1, .none, .none⟩),
      ([0x80440000, 0xFD010200], .phwait hdr ⟨.none, .x 1, .x 2⟩),
      ([0x80450000, 0xFDFDFD03], .gbar hdr ⟨.none, .none, .none⟩ 3),
      ([0x80460000, 0x0102FD2D], .gred hdr ⟨.x 1, .x 2, .none⟩ ⟨.max, true, true, 1⟩),
      ([0x80470000, 0x60FDFD00], .gtime hdr ⟨.a 0, .none, .none⟩),
      ([0xD6484C00, 0xFDFDFD00], .drain hdr2 ⟨.none, .none, .none⟩)] : List (List Word × Instr)),
    readsB .S r.1 r.2 = true := by decide +kernel

/-- Table 9.15, to VRSQ. -/
theorem test_decode_V_elementwise : ∀ r ∈ ([
      ([0xD6014C25, 0x150147FD], .vadd hdr2 ⟨.f32, .ru, false, true, true⟩ ⟨.v 21, .v 1, .o 7, .none⟩),
      ([0xD6024D88, 0x160147FD], .vsub hdr2 ⟨.i16, .rn, true, false, false⟩ ⟨.v 22, .v 1, .o 7, .none⟩),
      ([0xD6034F09, 0x170147FD], .vmul hdr2 ⟨.n8, .rn, true, false, true⟩ ⟨.v 23, .v 1, .o 7, .none⟩),
      ([0xD6044C30, 0x1801474B], .vfma hdr2 ⟨.f32, .rd, false, false, false⟩ ⟨.v 24, .v 1, .o 7, .l 3⟩),
      ([0xD6054DC0, 0x190147FD], .vmin hdr2 ⟨.i8, .rn, false, false, false⟩ ⟨.v 25, .v 1, .o 7, .none⟩),
      ([0xD6064C04, 0x1A0147FD], .vmax hdr2 ⟨.f32, .rn, false, true, false⟩ ⟨.v 26, .v 1, .o 7, .none⟩),
      ([0xD6074D48, 0x1B01FDFD], .vabs hdr2 ⟨.i32, .rn, true, false, false⟩ ⟨.v 27, .v 1, .none, .none⟩),
      ([0xD6084EC9, 0x1C01FDFD], .vneg hdr2 ⟨.n16, .rn, true, false, true⟩ ⟨.v 28, .v 1, .none, .none⟩),
      ([0xD6094E80, 0x1D01474B], .vclamp hdr2 ⟨.n32, .rn, false, false, false⟩ ⟨.v 29, .v 1, .o 7, .l 3⟩),
      ([0xD60A4E80, 0x1E0147FD], .vand hdr2 ⟨.n32, .rn, false, false, false⟩ ⟨.v 30, .v 1, .o 7, .none⟩),
      ([0xD60B4D41, 0x1F0147FD], .vor hdr2 ⟨.i32, .rn, false, false, true⟩ ⟨.v 31, .v 1, .o 7, .none⟩),
      ([0xD60C4C00, 0x200147FD], .vxor hdr2 ⟨.f32, .rn, false, false, false⟩ ⟨.v 32, .v 1, .o 7, .none⟩),
      ([0xD60D4D48, 0x210147FD], .vshl hdr2 ⟨.i32, .rn, true, false, false⟩ ⟨.v 33, .v 1, .o 7, .none⟩),
      ([0xD60E4EC0, 0x220147FD], .vshr hdr2 ⟨.n16, .rn, false, false, false⟩ ⟨.v 34, .v 1, .o 7, .none⟩),
      ([0xD60F4C00, 0x2301474B], .vsel hdr2 ⟨.f32, .rn, false, false, false⟩ ⟨.v 35, .v 1, .o 7, .l 3⟩),
      ([0xD6114E84, 0x2501FDFD], .vmovs hdr2 ⟨.n32, .rn, false, true, false⟩ ⟨.v 37, .v 1, .none, .none⟩),
      ([0x801001CD, 0x3F6FFEFD, 0x80], .vcmp hdr ⟨.i8, .ne, true, true⟩ ⟨.v 63, .a 15, .lit32 0x80, .none⟩),
      ([0x802000C2, 0x0701FDFD], .vcvt hdr ⟨.e4m3, .f32, .ru⟩ ⟨.v 7, .v 1, .none, .none⟩),
      ([0x802101C0, 0x0701FDFD], .vcvtSat hdr ⟨.i8, .f32, .rn⟩ ⟨.v 7, .v 1, .none, .none⟩),
      ([0x80280014, 0x2855FDFD], .vexp hdr ⟨.rz, true⟩ ⟨.v 40, .q 5, .none, .none⟩),
      ([0x80290014, 0x2955FDFD], .vlog hdr ⟨.rz, true⟩ ⟨.v 41, .q 5, .none, .none⟩),
      ([0x802A0014, 0x2A55FDFD], .vrcp hdr ⟨.rz, true⟩ ⟨.v 42, .q 5, .none, .none⟩),
      ([0x802B0014, 0x2B55FDFD], .vrsq hdr ⟨.rz, true⟩ ⟨.v 43, .q 5, .none, .none⟩)] : List (List Word × Instr)),
    readsB .V r.1 r.2 = true := by decide +kernel

/-- Table 9.15, from VROTR. -/
theorem test_decode_V_others : ∀ r ∈ ([
      ([0x80400281, 0x410263FD], .vrotr hdr ⟨.n32, .rn, .add, true⟩ ⟨.o 1, .v 2, .a 3, .none⟩),
      ([0x80410281, 0x410263FD], .vrotc hdr ⟨.n32, .rn, .add, true⟩ ⟨.o 1, .v 2, .a 3, .none⟩),
      ([0x80420281, 0x410263FD], .vbcr hdr ⟨.n32, .rn, .add, true⟩ ⟨.o 1, .v 2, .a 3, .none⟩),
      ([0x80430281, 0x410263FD], .vbcc hdr ⟨.n32, .rn, .add, true⟩ ⟨.o 1, .v 2, .a 3, .none⟩),
      ([0x80440034, 0x0A02FDFD], .vredr hdr ⟨.f32, .rd, .max, false⟩ ⟨.v 10, .v 2, .none, .none⟩),
      ([0x804501CA, 0x0A02FDFD], .vredc hdr ⟨.i8, .rn, .xor, false⟩ ⟨.v 10, .v 2, .none, .none⟩),
      ([0x80460287, 0x0A42FDFD], .vscanr hdr ⟨.n32, .rn, .and, true⟩ ⟨.v 10, .o 2, .none, .none⟩),
      ([0x80470140, 0x0A02FDFD], .vtrn hdr ⟨.i32, .rn, .add, false⟩ ⟨.v 10, .v 2, .none, .none⟩),
      ([0x80480000, 0x0A0203FE, 0x3F], .vext hdr ⟨.f32, .rn, .add, false⟩ ⟨.v 10, .v 2, .v 3, .lit32 63⟩),
      ([0x8049016C, 0x0801FEFE, 0x1, 0x3], .part hdr ⟨.i32, .ge, true⟩ ⟨.v 8, .v 1, .lit32 1, .lit32 3⟩),
      ([0x806003A0, 0x2162FD80], .vld hdr ⟨7, .e5m2, .rn, false⟩ ⟨.v 33, .a 2, .none, 0x80⟩),
      ([0x8061000F, 0x48FEFD01, 0x1000], .vst hdr ⟨0, .bf16, .rd, true⟩ ⟨.l 0, .lit32 0x1000, .none, 1⟩),
      ([0x80620120, 0x01626300], .vldp hdr ⟨2, 1, .rn, false⟩ ⟨.v 1, .a 2, .a 3, 0⟩),
      ([0x80630034, 0x0567FEA1, 0x400, 0x7E42], .vstp hdr ⟨0, 1, .ru, true⟩ (.v 5) (.a 7) (.lit32 0x400) true 33 0x7E 0x42),
      ([0x80640040, 0x01624BFF], .vgath hdr ⟨0, .i4, .rn, false⟩ ⟨.v 1, .a 2, .l 3, 0xFF⟩),
      ([0x80650063, 0x0162037F], .vscat hdr ⟨0, .n8, .rz, true⟩ ⟨.v 1, .a 2, .v 3, 0x7F⟩),
      ([0xD6704E03, 0xFDFDFDFD], .vlend hdr2 true 3)] : List (List Word × Instr)),
    readsB .V r.1 r.2 = true := by decide +kernel

/-- Table 9.16. -/
theorem test_decode_M : ∀ r ∈ ([
      ([0xD6014C00, 0xFDFDFD00], .alease hdr2),
      ([0x80020000, 0xFDFDFD00], .arel hdr),
      ([0x80080000, 0xFD3FFD00], .tsclaim hdr 63),
      ([0x80090000, 0xFD01FD00], .tsrel hdr 1),
      ([0x80100005, 0xFDFEFDFD, 0x2], .mcfg hdr .swz (.lit32 2)),
      ([0x80200200, 0x10FDFDC0], .mbegin hdr true 16 3),
      ([0x80210000, 0xFDFD8700], .mloadb hdr (.stream 7)),
      ([0x80220000, 0x1005FD7F], .mma hdr 16 (.slot 5) 1 63),
      ([0x80230000, 0x30FDFD00], .mret hdr 48)] : List (List Word × Instr)),
    readsB .M r.1 r.2 = true := by decide +kernel

/-- Table 9.17. -/
theorem test_decode_C : ∀ r ∈ ([
      ([0xD6014F00, 0x61FD0005], .cpy hdr2 3 ⟨.a 1, .none, 5⟩),
      ([0x800201C0, 0x64FD0005], .cpyp hdr ⟨1, true, 2⟩ ⟨.a 4, .none, 5⟩),
      ([0x80030200, 0xFFFDFFFE, 0x0, 0x1], .cpyr hdr 2 ⟨.lit64 0x100000000, .none, 0xFFFE⟩),
      ([0x80080180, 0x64FD0005], .cdec hdr 1 true ⟨.a 4, .none, 5⟩),
      ([0x80090000, 0x64FD0005], .cenc hdr 0 ⟨.a 4, .none, 5⟩),
      ([0x80100000, 0x64570005], .sbind hdr 0 ⟨.a 4, .q 7, 5⟩),
      ([0x80110300, 0xFD570005], .sunbind hdr 3 ⟨.none, .q 7, 5⟩),
      ([0x80180020, 0x64FE0005, 0x7F], .tsfill hdr 0 .s2 ⟨.a 4, .lit32 127, 5⟩),
      ([0x80200100, 0x64650006], .cbw hdr 1 ⟨.a 4, .a 5, 6⟩),
      ([0x802801F0, 0x64650006], .xsend hdr ⟨1, 7, true⟩ ⟨.a 4, .a 5, 6⟩),
      ([0x80290060, 0xFDFD0006], .xrecv hdr ⟨0, 3, false⟩ ⟨.none, .none, 6⟩),
      ([0x802A0210, 0xFDFD0006], .xfree hdr ⟨2, 0, true⟩ ⟨.none, .none, 6⟩)] : List (List Word × Instr)),
    readsB .C r.1 r.2 = true := by decide +kernel

/-! Well-formedness: one ill-formed term for each check, which is refused on every engine. -/

def v3 : R4 := ⟨.v 1, .v 2, .v 3, .none⟩

theorem test_illformed_shared :
    ∀ i ∈ [Instr.aadd (.a 1) .zero (.lit32 1) 1,               -- a literal in t with imm10 ≠ 0
      .acmp 0 .zero .zero .eq false,                           -- p0 as a destination
      .acmp 1 .zero .zero .ne true,                            -- EQ and NE are not unsigned
      .acmp 1 .zero (.lit64 1) .lt false,                      -- a literal in t with imm10 ≠ 0
      .loop 0 .zero false 1 0,                                 -- STG without ROT
      .pset 0 true, .plog 0 1 2 3,
      .mfs (.a 0) 0x3FF, .mts .zero 0x009,                     -- special registers assigned nowhere
      .tsig 0, .twait 0,                                       -- an empty mask
      .fence 6 0], i.wellFormed = false := by decide +kernel

theorem test_illformed_S :
    ∀ i ∈ [Instr.iadd hdr ⟨true, false, false⟩ ⟨.x 1, .x 2, .x 3, .x 4⟩,   -- C is unused
      .iadd hdr ⟨true, false, false⟩ ⟨.v 1, .x 2, .x 3, .none⟩, .iadd hdr ⟨true, false, false⟩ ⟨.lit32 1, .x 2, .x 3, .none⟩,
      .idiv hdr ⟨true, false, true⟩ ⟨.x 1, .x 2, .x 3, .none⟩, .iclz hdr ⟨true, true, false⟩ ⟨.x 1, .x 2, .none, .none⟩,
      .icmp hdr ⟨true, false, .lt⟩ 0 (.x 1) (.x 2) .none, .icmp hdr ⟨true, true, .eq⟩ 1 (.x 1) (.x 2) .none,
      .ld hdr ⟨0, 3, true⟩ ⟨.x 1, .x 2, .none, 0⟩, .ld hdr ⟨0, 0, false⟩ ⟨.lit32 1, .x 2, .none, 0⟩,
      .st hdr ⟨0, 0, true⟩ ⟨.x 1, .x 2, .none, 0⟩,
      .at_ hdr ⟨0, .fadd, true, false⟩ ⟨.x 1, .x 2, .x 3, .none⟩, .at_ hdr ⟨0, .add, true, true⟩ ⟨.x 1, .x 2, .x 3, .none⟩,
      .at_ hdr ⟨0, .cas, true, false⟩ ⟨.x 1, .x 2, .x 3, .none⟩, .mrecv hdr ⟨.x 1, .x 2, .x 3⟩ 0,
      .gred hdr ⟨.x 1, .x 2, .none⟩ ⟨.fadd, false, false, 0⟩, .gred hdr ⟨.x 1, .x 2, .none⟩ ⟨.add, true, true, 0⟩],
      i.wellFormed = false := by decide +kernel

theorem test_illformed_V :
    ∀ i ∈ [Instr.vadd hdr ⟨.e4m3, .rn, false, false, false⟩ v3, .vadd hdr ⟨.i32, .rz, false, false, false⟩ v3,
      .vadd hdr ⟨.f32, .rn, true, false, false⟩ v3, .vadd hdr ⟨.f32, .rn, false, false, false⟩ ⟨.v 1, .v 2, .none, .none⟩,
      .vadd hdr ⟨.f32, .rn, false, false, false⟩ ⟨.v 1, .q 2, .q 2, .none⟩,             -- one stream in two fields
      .vand hdr ⟨.i16, .rn, false, false, false⟩ v3, .vrotr hdr ⟨.f32, .rn, .max, false⟩ ⟨.v 1, .v 2, .a 3, .none⟩,
      .vredr hdr ⟨.f32, .rn, .xor, false⟩ ⟨.v 1, .v 2, .none, .none⟩, .vcvt hdr ⟨.f32, .e4m3, .rn⟩ ⟨.v 1, .v 2, .none, .none⟩,
      .vcvt hdr ⟨.i4x, .f32, .rn⟩ ⟨.v 1, .v 2, .none, .none⟩, .vld hdr ⟨0, .i8, .rn, true⟩ ⟨.v 1, .a 2, .none, 0⟩,
      .vgath hdr ⟨0, .i4x, .rn, false⟩ ⟨.v 1, .a 2, .v 3, 0⟩, .vgath hdr ⟨0, .i8, .rn, false⟩ ⟨.v 1, .a 2, .a 3, 0⟩,
      .vldp hdr ⟨0, 0, .rn, false⟩ ⟨.v 1, .a 2, .a 3, 1⟩,
      .vstp hdr ⟨0, 1, .rn, false⟩ (.v 5) (.a 7) (.lit32 0) false 0 127 0x00,            -- FMT outside the width class
      .vstp hdr ⟨0, 0, .rn, false⟩ (.v 5) (.a 7) (.lit32 0) false 0 0xFF 0x00], i.wellFormed = false := by decide +kernel

theorem test_illformed_MC :
    (∀ i ∈ [Instr.mcfg hdr .ncol (.x 1), .mbegin hdr false 15 1,                        -- a group across two banks
      .cpy hdr 0 ⟨.a 1, .none, 0xFFFF⟩, .cpy hdr 0 ⟨.a 1, .a 2, 0⟩, .sbind hdr 0 ⟨.a 1, .a 2, 0⟩, .xrecv hdr ⟨0, 0, false⟩ ⟨.a 1, .none, 0⟩,
      .resultLand 0 .S], i.wellFormed = false) ∧
    (Instr.tsclaim hdr 64).legalOn ⟨.M, false, false⟩ = false ∧ (Instr.tsclaim hdr 64).legalOn ⟨.M, false, true⟩ = true ∧
    (Instr.fence 2 4).legalOn ⟨.S, false, false⟩ = false ∧ (Instr.fence 2 4).legalOn ⟨.C, false, false⟩ = true ∧
    (Instr.rend).legalOn ⟨.S, true, false⟩ = false := by decide +kernel

/-- Words that stand for no instruction are refused by name: an unlisted opcode, a reserved bit, a specifier code of another engine,
a literal as a destination. -/
theorem test_refusals :
    (decode ⟨.S, false, false⟩ [0x0E000000]).result = .error .unassignedC32 ∧
    (decode ⟨.V, false, false⟩ [0x80000000, 0]).result = .error .unassignedP64 ∧
    (decode ⟨.S, false, false⟩ [0x00000001]).result = .error .reservedBits ∧
    (∀ ws ∈ [[0x80010100, 0x4001FDFD], [0x80010100, 0xFE0102FD], [0x803F0000, 0xFDFDFD00]],
      (match (decode ⟨.S, false, false⟩ ws).result with | .ok _ => false | .error _ => true) = true) := by
  refine ⟨?_, ?_, ?_, ?_⟩ <;> first | rfl | decide +kernel

/-! The places the host asks of. -/

theorem test_decodeTableWord :
    decodeTableWord 32 0x043173FB = some (.aadd (.a 3) (.a 2) .zero 0x3FB) ∧ decodeTableWord 32 0x64000000 = some .eret := by
  constructor <;> rfl

theorem test_withFetchWord :
    (match step (State.reset.withFetchWord 32 0x043173FB) with
      | .next s => decide ((s.eng 48 .S).pc = 4) && decide ((s.eng 48 .S).a[3] = 0xFFFFFFFFFFFFFFFB)
      | _ => false) = true := by decide +kernel

/-! Single operations and single steps: the worked cases of the specification, each named by its rule. -/

/-- The engine that moved, in the state after an instruction. -/
def after (o : Host.Outcome State Fault Refusal) (f : State → Bool) : Bool := match o with | .next s => f s | _ => false

/-- R324: −256 shifted right by 4. R325: unsigned, 2^64 − 1 is not below 1; signed, −1 is. -/
theorem test_address_arithmetic :
    after (exec (.ashl (.a 2) (.a 1) .zero 0x3FC) (setA (on .S) 1 0xFFFFFFFFFFFFFF00)) (fun s => s.me.a[2] = 0xFFFFFFFFFFFFFFF0) = true ∧
    after (exec (.acmp 3 (.a 5) (.a 6) .lt true) (setA (setA (on .S) 5 0xFFFFFFFFFFFFFFFF) 6 1)) (fun s => !s.me.p.getLsbD 3) = true ∧
    after (exec (.acmp 3 (.a 5) (.a 6) .lt false) (setA (setA (on .S) 5 0xFFFFFFFFFFFFFFFF) 6 1)) (fun s => s.me.p.getLsbD 3) = true := by
  refine ⟨?_, ?_, ?_⟩ <;> decide +kernel

/-- R359: IADD.W32 of 0x7FFFFFF0 and 100, with and without SAT. -/
theorem test_iadd :
    after (exec (.iadd hdr ⟨true, false, true⟩ ⟨.x 5, .x 6, .lit32 100, .none⟩) (setX (on .S) 6 0x7FFFFFF0))
      (fun s => s.me.x[5] = 0x7FFFFFFF && s.me.sticky = 0x020) = true ∧
    after (exec (.iadd hdr ⟨true, false, false⟩ ⟨.x 5, .x 6, .lit32 100, .none⟩) (setX (on .S) 6 0x7FFFFFF0))
      (fun s => s.me.x[5] = 0xFFFFFFFF80000054 && s.me.sticky = 0) = true := by
  constructor <;> decide +kernel

/-- CALL a15 from 0x100 to 0x200: the two-word delay slot is next, and a15 names what follows it. -/
theorem test_call :
    after (exec (.call 15 .zero 0x40) ((set (on .S) fun g => { g with pc := 0x100 }).writeLoc 0 (.dram 0 0x104) (toBytes 4 0x021F0000)))
      (fun s => s.me.a[15] = 0x10C && s.me.pc = 0x104 && s.me.after = some 0x200) = true := by decide +kernel

/-- On C, MTS TOKCEIL, #2 sets the ceiling of C>S alone. -/
theorem test_tokceil :
    after (exec (.mts (.lit32 2) 0x00A) (on .C)) (fun s => s.me.ceil 0 = 2 && s.me.ceil 1 = 8 && s.me.ceil 2 = 8) = true := by decide +kernel

/-- LD.WORD.SX of 0x80000001, two words below the base. -/
theorem test_load :
    after (exec (.ld hdr ⟨1, 2, true⟩ ⟨.x 7, .x 3, .none, 0xFE⟩) ((setX (on .S) 3 0x108).writeLoc 0 (.dram 0 0x100) (toBytes 4 0x80000001)))
      (fun s => s.me.flights.map (fun f => (f.landAt, f.writes)) = [(4, [.x 7 0xFFFFFFFF80000001])]) = true := by decide +kernel

/-- R136: 2^24 plus 1.0 and then 2.0 ends at 0x4B800001; in the other order at 0x4B800002 (16,777,218 and then a tie). -/
theorem test_add32 :
    (add32 .rn (fv32 0x4B800000) (fv32 0x3F800000)).1 = 0x4B800000 ∧ (add32 .rn (fv32 0x4B800000) (fv32 0x40000000)).1 = 0x4B800001 := by
  constructor <;> decide +kernel

/-- R420, R421: 300, 450 and 500 as E4M3, 500 with SAT, held as binary32; and, by R103 and Table 5.3, 255 rounds up to 256. -/
theorem test_convert :
    cvtEl ⟨.e4m3, .f32, .rn⟩ false 0x43960000 = (0x43900000, 0x010) ∧ cvtEl ⟨.e4m3, .f32, .rn⟩ false 0x43E10000 = (0x43E00000, 0x010) ∧
    cvtEl ⟨.e4m3, .f32, .rn⟩ false 0x437F0000 = (0x43800000, 0x010) ∧
    cvtEl ⟨.e4m3, .f32, .rn⟩ false 0x43FA0000 = (0x7FC00000, 0x014) ∧ cvtEl ⟨.e4m3, .f32, .rn⟩ true 0x43FA0000 = (0x43E00000, 0x030) := by
  refine ⟨?_, ?_, ?_, ?_, ?_⟩ <;> decide +kernel

/-- R106: VLOG of 0.5 is −1, VEXP of −3 is 0.125, both exact. -/
theorem test_special : logEl 0x3F000000 = (0xBF800000, 0) ∧ expEl 0xC0400000 = (0x3E000000, 0) := by
  constructor <;> decide +kernel

/-- R418: 2^24 in column 0 and 1.0 in columns 1 and 3 reduce to 2^24 + 2. -/
theorem test_reduce :
    reduceList ⟨.f32, .rn, .add, false⟩ 6 ([0x4B800000, 0x3F800000, 0, 0x3F800000] ++ List.replicate 60 0) = (0x4B800001, 0) := by decide +kernel

/-- GRED.FADD over 2^24, 1.0 and 1.0 gives 2^24 with NX. -/
theorem test_group :
    episodeResult ([(2, 0x4B800000), (7, 0x3F800000), (30, 0x3F800000)].map fun p : CoreId × Dword =>
      { ctx := 0, entry := 9, core := p.1, episode := 1, sel := some ⟨.fadd, true, false, 1⟩, operand := p.2 }) = (0x4B800000, 0x010) := by
  decide +kernel

/-- R84: a quad whose first code escapes is an E4M3 outlier, two zeros and a plain code, whatever the payload codes are; an escape in the last
place is a misplaced one. R80: 0x4C and 0x7E as E4M3 are 6 and 448. -/
theorem test_formats :
    decodeQuads [8, 4, 8, 3] = ([(0x40, 0x48), (0, 0), (0, 0), (0, 3)], false) ∧ (decodeQuads [1, 2, 3, 8]).2 = true ∧
    (fmtE4M3.decode 0x4C).same (fv32 0x40C00000) = true ∧ (fmtE4M3.decode 0x7E).same (fv32 0x43E00000) = true := by
  refine ⟨?_, ?_, ?_, ?_⟩ <;> decide +kernel

/-- R150: the clamping entry −8 to 8 on 9.5, −0 and NaN. -/
theorem test_bound :
    [0x41180000#32, 0x80000000#32, 0x7FC00000#32].map ({ high := 0x41000000, low := 0xC1000000, valid := true, action := 1, ty := 0 } : BoundEntry).apply =
      [0x41000000, 0x80000000, 0xC1000000] := by decide +kernel

/-- R180: the parity byte of 0x53 and 0xCA at (2, 1), and the recovery of 0x53. -/
theorem test_fabric_code :
    gfEncode 1 2 0 [[0x53], [0xCA]] = [0xE5] ∧ gfDecode 1 [(1, [0xCA]), (2, [0xE5])] 0 = [0x53] := by
  constructor <;> decide +kernel

/-- R92: element 5,000 of a class-1 tensor lies in pane 2; the check value of R91 is CRC-32C, whose value over "123456789" is known. -/
theorem test_panes :
    paneAddr 0 2 = 3968 ∧ crc32c [0x31, 0x32, 0x33, 0x34, 0x35, 0x36, 0x37, 0x38, 0x39] = 0xE3069283 := by constructor <;> decide +kernel

/-- R24: the second 4 KiB of device memory lies on the second die of the list, the ninth on the first again. -/
theorem test_interleave :
    dramHome [0, 4, 1, 5, 2, 6, 3, 7] 4096 = some (4, 0) ∧ dramHome [0, 4, 1, 5, 2, 6, 3, 7] 32769 = some (0, 4097) := by decide +kernel

/-- R334: two loops that end on one instruction; at the inner one's last end it pops, and the outer one repeats. -/
theorem test_loop_ends :
    (loopEnds 0x20 1 [{ start := 0x18, end_ := 0x20, lc := 0, rot := false, stg := 0 }, { start := 0x10, end_ := 0x20, lc := 1, rot := false, stg := 0 }]
      { p := 1, lc := #v[1, 2, 0, 0], rrb := 0 }).2.2 = some 0x10 := by decide +kernel

/-- R63: a kick set again in the cycle of a clearing write stays; here slots 3 and 7 are cleared, and nothing else. -/
theorem test_kicks :
    after (exec (.kickpendWrite false 0x88) { State.reset with md := { Md.reset with kickpend := 0x188 } }) (fun s => s.md.kickpend = 0x100) = true := by
  decide +kernel

/-! The shared control subset. -/

theorem witness_AddressArithmetic :
    (∀ d ∈ [.a 1, .lc 0, .zero], ∀ i ∈ [Instr.amov d .zero 0, .aadd d .zero .zero 0, .asub d .zero .zero 0,
      .aand d .zero .zero 0, .ashl d .zero .zero 0], (on .C).Ready i none) ∧
    (∀ u ∈ [0, 63, 64, -1, -63, -64], ∃ imm : BitVec 10, ((on .S).me.csrc .zero + imm.signExtend 64).toInt = u ∧
      (on .S).Ready (.ashl (.a 1) (.a 2) .zero imm) none) := by
  refine ⟨by simp only [ready_iff]; decide +kernel, fun u hu => ⟨BitVec.ofInt 10 u, ?_⟩⟩
  revert u; simp only [ready_iff]; decide +kernel

theorem witness_PredicateInstructions :
    ∀ i ∈ [Instr.acmp 1 (.a 1) .zero .lt true, .acmp 31 (.lc 3) (.lit64 5) .eq false, .pset 1 true, .pset 31 false, .plog 1 0 31 8],
      ∀ e ∈ [Eng.S, .V, .M, .C], (on e).Ready i none := by
  simp only [ready_iff]; decide +kernel

theorem witness_Branches :
    (∀ i ∈ [Instr.b .zero 2, .bc 0 .zero 2, .bcNot 1 .zero 2, .call 1 .zero 2, .ret (.a 1)],
      (on .S).Ready i none ∧ delaySlotFault (on .S).me i (instrWords i) ((on .S).slotLen (instrWords i)) = false) ∧
    ((on .S).core 0).trcctl.getLsbD 1 = false ∧ (on .S).me.pred 0 = true ∧ (on .S).me.pred 1 = false ∧
    ((on .S).me.pc + ((2 : BitVec 15).signExtend 64 <<< 2)).toNat % 4 = 0 ∧ ((on .S).me.creg (.a 1)).toNat % 4 = 0 ∧
    (on .S).lenAt 0 .S ((on .S).me.pc.toNat + 4) = some 1 ∧
    (let s := setA (handled (on .S)) 1 2
     ∀ i ∈ [Instr.b (.a 1) 0, .bc 0 (.a 1) 0, .bcNot 1 (.a 1) 0, .call 2 (.a 1) 0, .ret (.a 1)], s.Ready i none ∧
      delaySlotFault s.me i (instrWords i) (s.slotLen (instrWords i)) = false ∧ s.me.mayTrap ∧ (s.core 0).mpop = [] ∧
      (s.me.csrc (.a 1) + ((0 : BitVec 15).signExtend 64 <<< 2)).toNat % 4 ≠ 0 ∧ (s.me.creg (.a 1)).toNat % 4 ≠ 0) := by
  simp only [ready_iff, mayTrap_iff]; decide +kernel

theorem witness_Loop :
    let s := setA (handled (on .V)) 1 5
    let l : LoopEntry := { start := 0, end_ := 4, lc := 3, rot := false, stg := 0 }
    (∀ rot ∈ [true, false], ∀ end_ ∈ [0, 1023], ∀ a ∈ [CSrc.a 1, .zero],
      s.Ready (.loop 3 a rot (if rot then 15 else 0) end_) none) ∧ s.me.ds = false ∧ s.me.mayTrap ∧
      s.me.pc.toNat + 4 + 4 * 1024 ≤ 2 ^ 64 ∧ s.me.csrc (.a 1) ≠ 0 ∧ s.me.loops = [] ∧
    ∀ ls ∈ [[l], [{ l with lc := 0, end_ := 12 }], List.replicate 4 { l with lc := 1, end_ := 2 ^ 40 }],
      let t := set s fun g => { g with loops := ls, pc := 0x1000 }
      t.Ready (.loop 3 (.a 1) false 0 1023) none ∧ t.me.loops.length ≤ 4 := by
  simp only [ready_iff, mayTrap_iff]; decide +kernel

theorem witness_SpecialRegisterMoves :
    (on .S).Ready (.mfs (.a 1) 0x006) none ∧ (on .S).Ready (.mts (.a 1) 0x004) none ∧
    privilegedWrite 0x004 ((on .S).me.csrc (.a 1)) = false ∧ mqcfgOf 0x004 = none ∧
    (mqcfgOf 0x053 = some 3 ∧ (on .S).mqcfgOutside 0 3 0x8000000400000000 = false ∧
      (on .S).mqcfgOutside 0 3 0x8000000400FFFFC0 = true) ∧
    (let s := set (on .S) fun g => { g with hm := true }
     (s.eng 0 .S).hm = true ∧ (4 : Dword).getLsbD 2 = true ∧ s.Ready (.mts (.a 1) 0x001) none ∧ srAssigned (envOf 0 .S) 0x001 = true) ∧
    (0x100 : BitVec 20).toNat % 8 = 0 := by
  simp only [ready_iff]
  refine ⟨?_, ?_, ?_, ?_, ?_, ?_, ?_⟩ <;> decide +kernel

theorem witness_Exceptions :
    let s := handled (setA (on .S) 1 4)
    (∀ i ∈ [Instr.eret, .mts (.a 1) 0x001, .mts (.a 1) 0x002, .mts (.a 1) 0x005, .trap 7, .bkpt 255, .tfence], s.Ready i none) ∧
    s.me.mayTrap ∧ s.me.ds = false ∧ (s.core 0).mpop = [] ∧ (s.me.csrc (.a 1)).getLsbD 2 = true ∧ (s.core 0).debugger = none ∧
    (let t := (on .S).modCore 0 fun c => { c with debugger := some { world := 0, ide := false } }
     t.Ready (.bkpt 0) none ∧ (t.core 0).job = some loadJob ∧ (t.core 0).debugger = some { world := 0, ide := false } ∧
      ({ world := 0, ide := false } : Debugger).reaches loadJob.world = true ∧
      (t.core 0).trcctl.getLsbD 2 = false) ∧
    (let t := set s fun g => { g with sticky := 1, trapen := 1 }
     t.Ready .tfence none ∧ t.me.mayTrap ∧ (t.core 0).flagsPending .S = false ∧ t.me.sticky &&& t.me.trapen ≠ 0) ∧
    (let t := set s fun g => { g with hm := true }
     t.Ready .eret none ∧ t.Ready (.trap 7) none ∧ ¬t.me.mayTrap ∧ t.me.ds = false ∧ t.me.hm = true) ∧
    (on .S).Ready .eret none ∧ (on .S).Ready (.mfs (.a 1) 0x002) none ∧ (on .S).me.hm = false ∧ (on .S).me.ds = false := by
  simp only [ready_iff, mayTrap_iff]; decide +kernel

theorem witness_FencesAndTokens :
    (∀ e ∈ [Eng.S, .V, .M, .C], (on e).Ready .nop none ∧ (on e).Ready .tfence none ∧ ((on e).core 0).flagsPending e = false ∧
      (on e).me.sticky &&& (on e).me.trapen = 0 ∧ (on e).Ready (.tsig 7) none ∧ ((on e).core 0).overCeil e 7 = 0 ∧
      (on e).Ready (.fence 2 1) none ∧ (on e).me.lost = none) ∧
    (on .S).appendsOut 0 = false ∧ (∀ k < 4, (on .C).cqRoom 0 k = true) ∧ (on .M).mqRoom 0 = true ∧
    (on .V).Ready (.twait 1) none ∧ (on .V).me.popDone = false ∧ ((on .V).core 0).orphanBits .V 1 = 0 ∧
    ((on .V).core 0).emptyBits .V 1 ≠ 0 ∧
    (let s := (on .V).modCore 0 fun c => { c with tokens := Vector.replicate 16 1 }
     s.Ready (.twait 7) none ∧ (s.core 0).emptyBits .V 7 = 0) := by
  simp only [ready_iff]; decide +kernel

/-! The S engine. -/

theorem witness_Scalar :
    (∀ w ∈ [true, false], ∀ u ∈ [true, false], ∀ sat ∈ [true, false],
      ∀ i ∈ [Instr.iadd hdr ⟨w, u, sat⟩ ⟨.x 1, .x 2, .lit32 5, .none⟩, .isub hdr ⟨w, u, sat⟩ ⟨.none, .x 2, .a 3, .none⟩,
        .imul hdr ⟨w, u, sat⟩ ⟨.a 1, .x 2, .lit64 5, .none⟩, .ishl hdr ⟨w, u, sat⟩ ⟨.x 0, .x 2, .x 3, .none⟩],
      (on .S).Runs i hdr) ∧
    (∀ w ∈ [true, false], ∀ u ∈ [true, false], ∀ m ∈ [(⟨w, u, false⟩ : ModIA)], ∀ o ∈ [(⟨.x 1, .x 2, .x 3, .none⟩ : R4)],
      ∀ i ∈ [Instr.imin hdr m o, .imax hdr m o, .iand hdr m o, .ior hdr m o, .ixor hdr m o, .ishr hdr m o, .idiv hdr m o,
        .irem hdr m o], (on .S).Runs i hdr ∧ (set (on .S) fun g => { g with divFree := 9 }).Runs i hdr) ∧
    (on .S).me.divFree ≤ (on .S).me.scycle ∧
    (set (on .S) fun g => { g with divFree := 9 }).me.scycle < (set (on .S) fun g => { g with divFree := 9 }).me.divFree := by
  simp only [runs_iff]
  refine ⟨?_, ?_, ?_⟩ <;> decide +kernel

theorem witness_Shifts :
    (on .S).Runs (.iclz hdr ⟨true, false, false⟩ ⟨.x 1, .x 2, .none, .none⟩) hdr ∧
    (on .S).Runs (.ipopc hdr ⟨false, false, false⟩ ⟨.x 1, .x 2, .none, .none⟩) hdr ∧
    (on .S).Runs (.isel hdr ⟨true, 31⟩ ⟨.x 1, .x 2, .x 3, .none⟩) hdr ∧
    ∀ u ∈ [true, false], (on .S).Runs (.icmp hdr ⟨true, u, .lt⟩ 31 (.x 1) (.lit32 2) .none) hdr := by
  simp only [runs_iff]; decide +kernel

theorem witness_Loads :
    let s := setA (on .S) 7 own
    (∀ z ∈ [0, 3], s.Runs (.ld hdr ⟨0, z, false⟩ ⟨.x 5, .a 7, .none, 0⟩) hdr) ∧
    s.Ready (.ald (.a 1) (.a 7) 0) none ∧ (s.core 0).queueBusy .S = false ∧ isSched 0 = false ∧
    (s.core 0).job = some loadJob ∧
    (s.begins (some hdr)).resolve 0 loadJob .read 8 (own + 0xFF8).toNat = .ok (.scratch 0 0xFF8) ∧
    ((s.begins (some hdr)).checkLoc (.scratch 0 0xFF8) own 8).toBool ∧ (s.arriveLoc (.scratch 0 0xFF8) 0 .S 8).isSome ∧
    (s.begins (some hdr)).resolve 0 loadJob .read 1 0xFFFF = .ok (.dram 0 0xFFFF) ∧
    (s.checkLoc (.dram 0 0xFFFF) 0xFFFF 1).toBool ∧ (s.arriveLoc (.dram 0 0xFFFF) 0 .S 1).isSome := by
  simp only [runs_iff, ready_iff]
  refine ⟨?_, ?_, ?_, ?_, ?_, rfl, ?_, ?_, rfl, ?_, ?_⟩ <;> decide +kernel

theorem witness_Stores :
    let s := setA (on .S) 7 own
    s.Runs (.st hdr ⟨0, 3, false⟩ ⟨.x 5, .a 7, .none, 0x1FF⟩) hdr ∧ s.Ready (.ast .zero (.a 7) 0) none ∧
    (s.core 0).queueBusy .S = false ∧
    (s.begins (some hdr)).resolve 0 loadJob .write 8 (own + 0xFF8).toNat = .ok (.scratch 0 0xFF8) ∧
    (s.arriveLoc (.scratch 0 0xFF8) 0 .S 8).isSome ∧
    (s.begins (some hdr)).resolve 0 loadJob .write 8 0 = .ok (.dram 0 0) ∧ (s.arriveLoc (.dram 0 0) 0 .S 8).isSome := by
  simp only [runs_iff, ready_iff]
  refine ⟨?_, ?_, ?_, rfl, ?_, rfl, ?_⟩ <;> decide +kernel

theorem witness_Writes :
    let s := on .S
    s.memSound ∧ ∀ l ∈ [Loc.scratch 0 8, .pane 0 8, .dram 0 4092, .host 0],
      (∀ a, a < 8 → (s.keyOf (l.plus a)).isSome = true ∧ ∀ b, b < a → s.keyOf (l.plus a) ≠ s.keyOf (l.plus b)) ∧
      ∀ k ∈ [Loc.scratch 0 7, .dram 0 8192, .host 8],
        ∀ a, a < 8 → s.keyOf k ≠ s.keyOf (l.plus a) ∧ s.tagAt 0 k = s.tagAt 0 k ∧
          (s.lineOf k = s.lineOf (l.plus a) → s.tagAt 0 k = s.tagAt 0 (l.plus a)) := by
  unfold State.memSound Memory.wf; decide +kernel

theorem witness_Atomics :
    let s := setX (on .S) 6 own
    (∀ op ∈ [AtOp.add, .and, .or, .xor, .xchg, .fadd], s.Runs (.at_ hdr ⟨0, op, false, false⟩ ⟨.x 5, .x 6, .x 7, .none⟩) hdr) ∧
    (∀ u ∈ [true, false], s.Runs (.at_ hdr ⟨0, .min, true, u⟩ ⟨.x 5, .x 6, .x 7, .none⟩) hdr) ∧
    s.Runs (.at_ hdr ⟨0, .cas, true, false⟩ ⟨.none, .x 6, .x 7, .x 8⟩) hdr ∧
    (s.core 0).job = some loadJob ∧ (s.context 0).map (·.recMode) = some .off ∧
    (s.begins (some hdr)).atResolve 0 loadJob own.toNat 8 = .ok (0, 0) ∧ ((s.begins (some hdr)).checkLoc (.scratch 0 0) own 8).toBool ∧
    (s.arriveLoc (.scratch 0 0) 0 .S 8).isSome := by
  simp only [runs_iff]
  refine ⟨?_, ?_, ?_, ?_, ?_, rfl, ?_, ?_⟩ <;> decide +kernel

/-! The V engine. -/

def vReady (i : Instr) (slot : BitVec 2) (dst : Spec) (srcs : List Spec) : Prop :=
  let s := on .V
  s.cur.2 = .V ∧ s.Runs i hdr ∧ s.slotBusy slot = false ∧ (s.begins (some hdr)).VReady dst srcs ∧
    ((s.begins (some hdr)).vDest dst slot VReg.zero).isSome

theorem witness_Elementwise :
    (∀ b ∈ [true, false], ∀ m ∈ [(⟨.i32, .rn, true, false, b⟩ : ModVA), ⟨.n8, .rn, false, true, b⟩],
      ∀ slot ∈ [if b then 1#2 else 0#2],
      ∀ i ∈ [Instr.vadd hdr m ⟨.v 1, .v 2, .o 3, .none⟩, .vsub hdr m ⟨.v 1, .v 2, .o 3, .none⟩, .vmul hdr m ⟨.v 1, .v 2, .o 3, .none⟩,
        .vshl hdr m ⟨.v 1, .v 2, .o 3, .none⟩], vReady i slot (.v 1) [.v 2, .o 3]) ∧
    (∀ m ∈ [(⟨.i32, .rn, true, false, true⟩ : ModVA), ⟨.f32, .rn, false, true, true⟩],
      ∀ i ∈ [Instr.vabs hdr m ⟨.o 1, .a 2, .none, .none⟩, .vneg hdr m ⟨.o 1, .a 2, .none, .none⟩], vReady i 1 (.o 1) [.a 2]) ∧
    (∀ m ∈ [(⟨.i32, .rn, true, false, true⟩ : ModVA), ⟨.f32, .rz, false, true, true⟩],
      vReady (.vfma hdr m ⟨.v 5, .v 1, .l 2, .a 3⟩) 1 (.v 5) [.v 1, .l 2, .a 3]) ∧
    (∀ m ∈ [(⟨.i32, .rn, false, false, false⟩ : ModVA), ⟨.n32, .rn, false, true, false⟩],
      ∀ i ∈ [Instr.vand hdr m ⟨.none, .v 2, .lit32 3, .none⟩, .vor hdr m ⟨.none, .v 2, .lit32 3, .none⟩,
        .vxor hdr m ⟨.none, .v 2, .lit32 3, .none⟩, .vmin hdr m ⟨.none, .v 2, .lit32 3, .none⟩,
        .vmax hdr m ⟨.none, .v 2, .lit32 3, .none⟩, .vshr hdr m ⟨.none, .v 2, .lit32 3, .none⟩], vReady i 0 .none [.v 2, .lit32 3]) ∧
    (∀ m ∈ [(⟨.f32, .rn, false, false, false⟩ : ModVA)], vReady (.vmovs hdr m ⟨.v 1, .v 2, .none, .none⟩) 0 (.v 1) [.v 2] ∧
      vReady (.vsel hdr m ⟨.v 1, .v 2, .v 3, .v 4⟩) 0 (.v 1) [.v 2, .v 3, .v 4] ∧
      vReady (.vclamp hdr m ⟨.v 1, .v 2, .v 3, .v 4⟩) 0 (.v 1) [.v 2, .v 3, .v 4]) := by
  simp only [vReady, runs_iff, vready_on]
  refine ⟨?_, ?_, ?_, ?_, ?_⟩ <;> decide +kernel

theorem witness_Comparisons :
    (∀ ty ∈ [Ty.f32, .i16, .n8], vReady (.vcmp hdr ⟨ty, .lt, false, true⟩ ⟨.v 1, .v 2, .v 3, .none⟩) 1 (.v 1) [.v 2, .v 3]) ∧
    (∀ mv ∈ [(⟨.f32, .i8, .rn⟩ : ModVV), ⟨.n16, .f32, .rz⟩],
      ∀ i ∈ [Instr.vcvt hdr mv ⟨.v 1, .l 2, .none, .none⟩, .vcvtSat hdr mv ⟨.v 1, .l 2, .none, .none⟩], vReady i 2 (.v 1) [.l 2]) ∧
    (∀ mf ∈ [(⟨.rn, true⟩ : ModVF)], ∀ i ∈ [Instr.vexp hdr mf ⟨.v 1, .o 2, .none, .none⟩, .vlog hdr mf ⟨.v 1, .o 2, .none, .none⟩,
      .vrcp hdr mf ⟨.v 1, .o 2, .none, .none⟩, .vrsq hdr mf ⟨.v 1, .o 2, .none, .none⟩], vReady i 2 (.v 1) [.o 2]) := by
  simp only [vReady, runs_iff, vready_on]
  refine ⟨?_, ?_, ?_⟩ <;> decide +kernel

theorem witness_Axis :
    (∀ m ∈ [(⟨.f32, .rn, .add, false⟩ : ModVX)],
      (∀ i ∈ [Instr.vrotr hdr m ⟨.v 1, .v 2, .lit32 63, .none⟩, .vrotc hdr m ⟨.v 1, .v 2, .lit32 15, .none⟩,
        .vbcr hdr m ⟨.v 1, .v 2, .a 1, .none⟩, .vbcc hdr m ⟨.v 1, .v 2, .a 1, .none⟩, .vtrn hdr m ⟨.v 1, .v 2, .none, .none⟩],
        vReady i 3 (.v 1) [.v 2]) ∧
      vReady (.vext hdr m ⟨.v 1, .v 2, .v 3, .lit32 63⟩) 3 (.v 1) [.v 2, .v 3]) ∧
    (∀ m ∈ [(⟨.f32, .rz, .max, false⟩ : ModVX), ⟨.i32, .rn, .add, true⟩],
      ∀ i ∈ [Instr.vredr hdr m ⟨.o 1, .v 2, .none, .none⟩, .vredc hdr m ⟨.o 1, .v 2, .none, .none⟩,
        .vscanr hdr m ⟨.o 1, .v 2, .none, .none⟩], vReady i 3 (.o 1) [.v 2]) ∧
    vReady (.part hdr ⟨.i32, .ge, true⟩ ⟨.v 8, .v 1, .lit32 1, .lit32 3⟩) 3 (.v 8) [.v 1, .lit32 1, .lit32 3] ∧
    vReady (.part hdr ⟨.f32, .ge, false⟩ ⟨.none, .v 1, .lit32 1, .none⟩) 3 .none [.v 1, .lit32 1] := by
  simp only [vReady, runs_iff, vready_on]
  refine ⟨?_, ?_, ?_, ?_⟩ <;> decide +kernel

/-- A pane of zeros at address 0 of device memory: the check value of R91 stands at its byte 60. -/
def withPane (s : State) : State := s.writeLoc 0 (.dram 0 60) (toBytes 4 0xAC55F7AB)

/-- An index register that names one place, that of element 8. -/
def oneIndex : List Word := 8 :: List.replicate 1023 0x80000000

theorem oneIndex_length : oneIndex.length = 1024 := by rw [oneIndex, List.length_cons, List.length_replicate]

/-- Vector accesses go to the page at address 0, which holds such a pane. -/
def vMem : State := (withPane (on .V)).modCore 0 fun c =>
  { c with vmain := c.vmain.set 1 ⟨oneIndex.toArray, by rw [List.size_toArray, oneIndex_length]⟩ }
def vB : State := vMem.begins (some hdr)

theorem vready_vB (dst : Spec) (srcs : List Spec) : vB.VReady dst srcs ↔ vreadyB vB dst srcs = true :=
  vready_iff _ (by decide +kernel) _ _

/-- The elements of a register are those of the list it was made from; an evaluation element by element would take long. -/
theorem all_of_list (l : List Word) (h : l.toArray.size = 1024) : VReg.all ⟨l.toArray, h⟩ = l := by
  apply List.ext_getElem
  · simpa [VReg.all] using h.symm
  · intro n h1 h2
    simp [VReg.all, VReg.at_, h2]

theorem index_all : ((vB.core 0).vread false (.v 1)).all = oneIndex := all_of_list oneIndex _

theorem source_all : ((vB.core 0).vread false (.v 5)).all = List.replicate 1024 0 :=
  all_of_list (List.replicate 1024 0) (by rw [List.size_toArray, List.length_replicate])

def mI8 : ModVM := ⟨0, .i8, .rn, false⟩
def mI8s : ModVM := ⟨0, .i8, .rn, true⟩

/-- What the instructions of the tests store: register 5 as bytes, at the places that register 1 names. -/
def idxV1 : VReg := (vB.core 0).vread false (.v 1)
def xV5 : List Word := ((vB.core 0).vread false (.v 5)).all

/-- The places of register 1, and the codes of register 5 there. -/
theorem places_eq : scatterPlaces 0 0 8 idxV1 =
    some (8, 0) :: List.replicate 1023 none := by
  rw [scatterPlaces, idxV1, index_all, oneIndex, List.map_cons, List.map_replicate]
  rfl

theorem xV5_eq : xV5 = List.replicate 1024 0 := source_all

theorem codes_eq : (scatterCodes .i8 .rn true (scatterPlaces 0 0 8 idxV1) xV5).1 = [(8, 0, 0)] := by
  rw [places_eq, xV5_eq]; decide +kernel

def csV5 : List (Nat × Nat × Nat) := (scatterCodes .i8 .rn true (scatterPlaces 0 0 8 idxV1) xV5).1

/-- A vector load finds its places, reads them, and its destination takes a result. -/
def loadsB (s : State) (n : Nat) (brk : Share) (at_ : List Nat) (d : Spec) (good : List (List Byte) → Bool) : Bool :=
  match s.vLocs loadJob .read n at_ with
  | .error _ => false
  | .ok ls => match s.vReads loadJob n brk none ls with
    | .ok t bs _ => good bs && (t.vDest d 3 VReg.zero).isSome
    | _ => false

theorem witness_VectorLoads :
    (∀ i ∈ [Instr.vld hdr mI8 ⟨.v 5, .a 7, .none, 0⟩, .vgath hdr mI8 ⟨.v 5, .a 7, .v 1, 0⟩,
      .vldp hdr ⟨0, 0, .rn, false⟩ ⟨.v 5, .a 7, .lit32 0, 0⟩], vMem.Runs i hdr) ∧
    vMem.cur.2 = .V ∧ vMem.slotBusy 3 = false ∧ vB.VReady (.v 5) [] ∧ vB.VReady (.v 5) [.v 1] ∧ (vB.core 0).job = some loadJob ∧
    loadsB vB 64 .lines (vSpan vB ⟨.v 5, .a 7, .none, 0⟩ .i8) (.v 5) (fun _ => true) = true ∧
    loadsB vB 1 .lines ((scatterPlaces 0 0 8 idxV1).filterMap fun p => p.map (·.1)) (.v 5) (fun _ => true) = true := by
  simp only [runs_iff, vready_vB, places_eq]
  refine ⟨?_, ?_, ?_, ?_, ?_, ?_, ?_, ?_⟩ <;> decide +kernel

/- The pane of zeros is sound: its CRC over 1,980 bytes is evaluated here. -/
set_option maxRecDepth 100000 in
theorem witness_PaneLoads :
    alignFault 0 64 = none ∧ loadsB vB 64 (.panes 0) (paneLines 0 (panesOf 0 0 1024)) (.v 5)
      (fun bs => (firstFault 0 (joinPanes 1 bs)).isNone) = true := by
  constructor <;> decide +kernel

/-- The places of a vector store are found, and its writes are performed. -/
def storesB (s : State) (n : Nat) (at_ : List Nat) (put : List (Nat × Loc) → Option State) : Bool :=
  match s.vLocs loadJob .write n at_ with
  | .error _ => false
  | .ok ls => (put ls).isSome

/-- The pane of 1,024 elements from element 0 at address 0 is read, sound, and its lines are written back with those elements in them. -/
def panesStoredB (s : State) (merge : List (List Byte) → List (List Byte)) : Bool :=
  match s.vLocs loadJob .both 64 (paneLines 0 (panesOf 0 0 1024)) with
  | .error _ => false
  | .ok ls =>
    match s.vReads loadJob 64 (.panes 0) none ls with
    | .ok t bs none =>
      let panes := joinPanes 1 bs
      (firstFault 0 panes).isNone && (t.vWrites loadJob (.panes 0) none (ls.zip (merge panes))).isSome
    | _ => false

def noScratch (ls : List (Nat × Loc)) : Bool := ls.all fun l => match l.2 with | .scratch _ _ => false | _ => true

/-- A write outside the scratchpads waits for no order. -/
theorem vWrites_isSome (brk : Share) (ws : List ((Nat × Loc) × List Byte)) :
    ∀ (s : State) (m : OpenMsg), (∀ w ∈ ws, noScratch [w.1] = true) → (s.vWrites loadJob brk m ws).isSome = true := by
  induction ws with
  | nil => intros; rfl
  | cons w ws ih =>
    obtain ⟨⟨a, l⟩, bs⟩ := w
    intro s m h
    have hl := h _ (List.mem_cons_self ..)
    have ht := fun w hw => h w (List.mem_cons_of_mem _ hw)
    cases l <;> first | exact ih _ _ ht | simp [noScratch] at hl

theorem scatter_isSome (w : Nat) (ws : List ((Nat × Loc) × Nat × Nat)) :
    ∀ (s : State) (m : OpenMsg), (∀ w ∈ ws, noScratch [w.1] = true) → (s.scatter loadJob w m ws).isSome = true := by
  induction ws with
  | nil => intros; rfl
  | cons w ws ih =>
    obtain ⟨⟨a, l⟩, n, c⟩ := w
    intro s m h
    have hl := h _ (List.mem_cons_self ..)
    have ht := fun w hw => h w (List.mem_cons_of_mem _ hw)
    cases l <;> first | exact ih _ _ ht | simp [noScratch] at hl

theorem zip_noScratch {α : Type} {ls : List (Nat × Loc)} {xs : List α} (h : noScratch ls = true) :
    ∀ w ∈ ls.zip xs, noScratch [w.1] = true := by
  rintro ⟨l, x⟩ hw
  have := List.all_eq_true.mp h l (List.of_mem_zip hw).1
  simpa [noScratch] using this

/-- The places are found, outside the scratchpads. -/
def placedB (s : State) (acc : Acc) (n : Nat) (at_ : List Nat) : Bool :=
  match s.vLocs loadJob acc n at_ with | .error _ => false | .ok ls => noScratch ls

theorem stores_of {s : State} {n : Nat} {at_ : List Nat} {put : List (Nat × Loc) → Option State}
    (h : placedB s .write n at_ = true) (hp : ∀ ls, noScratch ls = true → (put ls).isSome = true) : storesB s n at_ put = true := by
  unfold placedB at h
  unfold storesB
  split at h <;> simp_all

theorem panes_of {s : State} {merge : List (List Byte) → List (List Byte)}
    (h : (match s.vLocs loadJob .both 64 (paneLines 0 (panesOf 0 0 1024)) with
      | .error _ => false
      | .ok ls => noScratch ls && (match s.vReads loadJob 64 (.panes 0) none ls with
         | .ok _ bs none => (firstFault 0 (joinPanes 1 bs)).isNone
         | _ => false)) = true) : panesStoredB s merge = true := by
  unfold panesStoredB
  split at h
  · contradiction
  · simp only [Bool.and_eq_true] at h
    obtain ⟨h, hr⟩ := h
    split at hr
    · dsimp only; rw [hr, vWrites_isSome _ _ _ _ (zip_noScratch h)]; rfl
    · contradiction

/-- The lines of the panes with the elements of register 5 merged into them, as E4M3 of scale byte 127. -/
def mergedV5 (xs : List Word) (panes : List (List Byte)) : List (List Byte) :=
  (((panesOf 0 0 1024).zip panes).map fun p => mergePane 0 0x00 127 (elsOfPane 0 p.1
    (encodeEls 0x00 .rn false (((List.range 1024).zip xs).map fun y => (0 + y.1, unscaled 127 (fv32 y.2)))).1) p.2).flatMap
      (chunks 64 31)

theorem witness_VectorStores :
    (∀ i ∈ [Instr.vst hdr mI8s ⟨.v 5, .a 7, .none, 0⟩, .vscat hdr mI8s ⟨.v 5, .a 7, .v 1, 0⟩,
      .vstp hdr ⟨0, 0, .rn, false⟩ (.v 5) (.a 7) (.lit32 0) false 0 127 0x00], vMem.Runs i hdr) ∧
    vB.VReady .none [.v 5] ∧ vB.VReady .none [.v 5, .v 1] ∧
    storesB vB 64 (vSpan vB ⟨.v 5, .a 7, .none, 0⟩ .i8) (fun ls =>
      vB.vWrites loadJob .lines none (ls.zip (chunks 64 (tyLines .i8) (bytesOf 8 (storeRun .i8 .rn true xV5).1)))) = true ∧
    storesB vB (elBytes 8) (csV5.map (·.1)) (fun ls => vB.scatter loadJob 8 none (ls.zip (csV5.map (·.2)))) = true := by
  refine ⟨?_, ?_, ?_, stores_of ?_ fun ls h => vWrites_isSome _ _ _ _ (zip_noScratch h),
    stores_of ?_ fun ls h => scatter_isSome _ _ _ _ (zip_noScratch h)⟩
  · simp only [runs_iff]; decide +kernel
  · simp only [vready_vB]; decide +kernel
  · simp only [vready_vB]; decide +kernel
  · decide +kernel
  · rw [csV5, codes_eq]; decide +kernel

set_option maxRecDepth 100000 in
theorem witness_PaneStores : panesStoredB vB (mergedV5 xV5) = true ∧ 0 % epb 0 = 0 ∧ alignFault (0 : Dword).toNat 64 = none := by
  refine ⟨panes_of ?_, ?_, ?_⟩ <;> decide +kernel

theorem witness_Banks :
    let s := on .V
    let t := s.modCore 0 fun c => { c with lent := 8 }
    (∀ bank ∈ [0, 3], s.Runs (.vlend hdr false bank) hdr ∧ t.Runs (.vlend hdr true bank) hdr ∧ s.Runs (.vlend hdr true bank) hdr ∧
      (s.core 0).bankPending bank = false ∧ (s.core 0).lent.getLsbD bank.toNat = false) ∧
    (t.core 0).lent.getLsbD 3 = true ∧ (t.core 0).chainIn 3 = false ∧
    (let r := (handled t).modCore 0 fun c => { c with chain := { c.chain with state := .open, vbase := 48, rows := 16 } }
     r.Runs (.vlend hdr true 3) hdr ∧ (r.core 0).lent.getLsbD 3 = true ∧ (r.core 0).chainIn 3 = true ∧ r.me.mayTrap) ∧
    (let r := set (handled s) fun g =>
       { g with flights := [{ landAt := 9, writes := [.v 5 VReg.zero], flags := 0, sig := 0, lost := none }] }
     r.Runs (.vlend hdr false 0) hdr ∧ (r.core 0).lent.getLsbD 0 = false ∧ (r.core 0).bankPending 0 = true ∧ r.me.mayTrap) := by
  simp only [runs_iff, mayTrap_iff]; decide +kernel

/-! The M engine. Core 0 has a 64-edge array of its own; core 24 is a C-core and must hold its die's lease. -/

/-- The machine on M of core 0, or of core 24 with the same job. -/
def onC (e : Eng) : State :=
  { (on e).modCore 24 (fun c =>
      { c with job := some loadJob, eM := { Engine.reset with started := true }, eC := { Engine.reset with started := true } })
    with cur := (24, e) }

/-- Slot 63 of core 0 is claimed. -/
def claimed (s : State) : State :=
  s.modCore 0 fun c => { c with tiles := c.tiles.set 63 { TileSlot.reset with hdr := { TileHdr.reset with fill := .empty } } }

def roomy (s : State) : State := s.modCore 0 fun c => { c with job := some { loadJob with tsNeed := 1 } }

theorem witness_LeaseAndSlots :
    let s := on .M
    let t := claimed s
    (s.Runs (.alease hdr) hdr ∧ (s.begins (some hdr)).holdsLease 0 = true) ∧
    ((onC .M).Runs (.alease hdr) hdr ∧ (onC .M).cur.2 = .M ∧ ((onC .M).begins (some hdr)).holdsLease 24 = false) ∧
    (let r := roomy s
     r.Runs (.tsclaim hdr 63) hdr ∧ (r.core 0).job = some { loadJob with tsNeed := 1 } ∧ (r.tile 0 63).hdr.fill = .free ∧ r.claimCount 0 < 1) ∧
    (t.Runs (.tsclaim hdr 63) hdr ∧ (t.tile 0 63).hdr.fill ≠ .free ∧ t.claims 0 63 = true) ∧
    t.Runs (.tsrel hdr 63) hdr ∧ (t.core 0).mq.any (fun c => c.op.names 63) = false ∧ (t.tile 0 63).issued ≤ (t.tile 0 63).done := by
  simp only [runs_iff]; decide +kernel

theorem witness_MatrixCommands :
    let s := (claimed (setX (on .M) 1 0)).modCore 0 fun c => { c with lent := 2, lentPrev := 2 }
    let b := s.begins (some hdr)
    let o := s.modCore 0 fun c => { c with chain := { c.chain with state := .open, vbase := 16, rows := 64 } }
    s.cur.2 = .M ∧ b.mqRoom 0 = true ∧ o.mqRoom 0 = true ∧ s.Runs (.arel hdr) hdr ∧
    (∀ item ∈ [McfgItem.ncol, .arowbase, .kbase, .atrans, .btrans, .swz], s.Runs (.mcfg hdr item (.lit32 64)) hdr) ∧
    (s.me.scalar (.lit32 64)).toNat = 64 ∧ (s.me.scalar (.lit32 1)).toNat = 1 ∧
    (s.Runs (.mbegin hdr true 16 3) hdr ∧ (b.core 0).chain.state = .none ∧ (b.core 0).isLent b.time 16 = true ∧ b.holdsLease 0 = true) ∧
    (b.claims 0 63 = true ∧ b.leaseSpent 0 = false ∧ s.Runs (.mloadb hdr (.slot 63)) hdr) ∧
    (o.Runs (.mma hdr 16 (.slot 63) 3 63) hdr ∧ (o.core 0).chain.isOpen = true ∧ groupRow (isCCore 0) 16 16 = some 0 ∧
      0 + rowCount 3 ≤ 64 ∧ (o.core 0).chain.count < (o.readSr 0 .M 0x021).toNat ∧ ((o.tile 0 63).seen o.time).hdr.enc = false) ∧
    o.Runs (.mret hdr 16) hdr ∧ (o.core 0).chain.vbase = 16 := by
  simp only [runs_iff]; decide +kernel

/-- A stream for M, bound for reading at register 2, with one item fetched. -/
def item : StreamBuf := { pos := 0, item := .rows VReg.zero [] 0, stamp := .zero }
def readStream : Stream :=
  { desc := { base := 0, engM := true, bound := 0, boundEn := false, drain := false, pane := false, rowMode := false, sat := false,
              rnd := .rn, scale := 127, fmt := 0, counts := [64], strides := [64] },
    pos := 1, buf := [item], err := none, fault := none, rewrite := false, written := 0 }
def streaming (s : State) (popped : Nat) : State :=
  s.modCore 0 fun c => { c with
    streams := c.streams.set 2 (some readStream), mpop := List.replicate popped (2, item), lent := 2, lentPrev := 2,
    chain := { c.chain with state := .open, vbase := 16, rows := 16 } }

/- MLOADB takes 16 pops (256 pieces of 64 elements), MMA of 16 rows and 16 values of k takes one. -/
theorem witness_StreamSources :
    (∀ s ∈ [streaming (on .M) 0, streaming (on .M) 14, streaming (on .M) 15],
      s.Runs (.mloadb hdr (.stream 2)) hdr ∧ s.Runs (.mma hdr 16 (.stream 2) 0 0) hdr ∧ s.mqRoom 0 = true ∧
        s.holdsLease 0 = true ∧ s.leaseSpent 0 = false ∧ (s.core 0).chain.isOpen = true ∧
        groupRow (isCCore 0) (s.core 0).chain.vbase 16 = some 0 ∧ (s.core 0).isLent s.time 16 = true ∧
        (s.core 0).chain.count < (s.readSr 0 .M 0x021).toNat) ∧
    (∀ n, ((streaming (on .M) n).core 0).streams[2] = some readStream) ∧ readStream.buf = [item] ∧
    (∀ e d f, item.item ≠ .fault e d f) ∧
    ((streaming (on .M) 14).core 0).mpop.length + 1 < 64 * (slotRow 64 0 / 64) / 16 ∧
    64 * (slotRow 64 0 / 64) / 16 ≤ ((streaming (on .M) 15).core 0).mpop.length + 1 := by
  refine ⟨?_, fun _ => rfl, rfl, nofun, ?_, ?_⟩
  · simp only [runs_iff]; decide +kernel
  · decide +kernel
  · decide +kernel

/-- A command stands at the head of the M queue of core 0, its chain in the state given; slot 5 has failed to fill. -/
def queued (op : MOp) (ch : Chain) : State :=
  (on .M).modCore 0 fun c => { c with
    mq := [{ op := op, sig := 7, stamp := .zero }], chain := ch,
    tiles := c.tiles.set 5 { TileSlot.reset with hdr := { TileHdr.reset with fill := .faulted, err := 0x0171 } } }
def openChain : Chain := { Chain.none with state := .open, rows := 16, work := [VReg.zero] }
def failedChain : Chain := openChain.fails 0x0202

/-- The same, without the command that is performed. -/
def begun (op : MOp) (ch : Chain) : State := (queued op ch).modCore 0 fun c => { c with mq := [] }

/-- What a command reads is sound where no stored bit is flipped. -/
theorem readFor_unflipped (s : State) (u : UnitId) (op : MOp) (h : unflipped s = true) : s.readFor u op = .ok s := by
  have hs (n : BitVec 7) : s.readSlot u n = .ok s := by
    rw [State.readSlot, State.readArray, show (s.flips.isEmpty && s.vflips.isEmpty) = true from h]; rfl
  unfold State.readFor
  split <;> first | exact readFile_unflipped s u h _ | exact hs _ | rfl

/-- The array of core 24 is leased to it; an AREL stands at the head of its queue under an open chain. -/
def leased (ch : Chain) : State :=
  let s := (onC .M).modCore 24 fun c => { c with mq := [{ op := .arel, sig := 7, stamp := .zero }], chain := ch }
  s.setDie (dieOf 24) { s.die (dieOf 24) with lease := { Lease.reset with holder := some (localOf 24) } }

theorem witness_MatrixPerformed :
    (∀ p ∈ [(MOp.mcfg .ncol 64, Chain.none), (.mbegin, { openChain with work := [] }), (.off, Chain.none),
        (.token, openChain), (.fence 2, openChain), (.loaded 16, openChain), (.loadFailed 0x0171, openChain), (.arel, Chain.none),
        (.mloadb (.slot 0 0) false, Chain.none), (.mloadb (.slot 5 0) false, Chain.none), (.mloadb (.slot 0 0) false, openChain),
        (.mloadb (.slot 5 0) false, openChain), (.mma 0 16 16 (.slot 0 0), openChain), (.mma 0 16 16 (.slot 5 0), openChain),
        (.mloadb (.slot 0 0) true, failedChain), (.mma 0 16 16 (.slot 0 0), failedChain)],
      let s := queued p.1 p.2
      s.mBegins 0 [] p.1 = true ∧ s.loadWaits 0 [] p.1 = false ∧ unflipped s = true ∧ (s.core 0).halted = false ∧
        (s.core 0).job = some loadJob ∧ (begun p.1 p.2).arelWaits 0 p.1 = false ∧ (s.eng 0 .M).deferred = none) ∧
    (openChain.running = true ∧ openChain.fail = none ∧ Chain.none.running = false ∧ failedChain.running = true ∧
      failedChain.fail.isSome = true ∧ ((queued .off Chain.none).tile 0 5).hdr.fill = .faulted) ∧
    (∀ ch ∈ [Chain.none, openChain], let t := begun (.mloadb (.slot 0 0) false) ch
      (t.loadRows 0 (t.core 0).mcfg (.slot 0 0)).1.toBool = true ∧ (t.loadRows 0 (t.core 0).mcfg (.slot 5 0)).1.toBool = false ∧
        ((t.core 0).mcfg.after []) = (t.core 0).mcfg) ∧
    (∀ ch, ((begun (.mloadb (.slot 0 0) false) ch).loadRows 0 ((begun (.mloadb (.slot 0 0) false) ch).core 0).mcfg (.slot 0 0)).2 =
      begun (.mloadb (.slot 0 0) false) ch) ∧
    (∃ x, (begun (.mma 0 16 16 (.slot 0 0)) openChain).mmaRows 0 16 16 (.slot 0 0) = .ok x) ∧
    ((begun (.mma 0 16 16 (.slot 0 0)) openChain).mmaRows 0 16 16 (.slot 5 0)).toBool = false ∧
    ((leased openChain).holdsLease 24 = true ∧ isCCore 24 = true ∧ ((leased openChain).core 24).chain.state ≠ .none ∧
      ((leased openChain).core 24).job = some loadJob ∧ (leased openChain).mBegins 24 [] .arel = true) ∧
    (let s := (queued (.mma 0 16 16 (.slot 0 1)) openChain).modCore 0 fun c => { c with
       mq := c.mq ++ [{ op := .mloadb (.slot 0 0) true, sig := 1, stamp := .zero }] }
     s.mBegins 0 [] (.mma 0 16 16 (.slot 0 1)) = false ∧ s.mBegins 0 ((s.core 0).mq.take 1) (.mloadb (.slot 0 0) true) = true ∧
       s.loadWaits 0 ((s.core 0).mq.take 1) (.mloadb (.slot 0 0) true) = false ∧ insideChain openChain.running ((s.core 0).mq.take 1) = true ∧
       (s.loadRows 0 ((s.core 0).mcfg.after ((s.core 0).mq.take 1)) (.slot 0 0)).1.toBool = true) ∧
    (let s := queued .mret openChain
     (s.core 0).job = some loadJob ∧ (s.core 0).halted = false ∧ (s.core 0).chain.fail = none ∧
      ((s.modCore 0 fun c => c.writeGroup (c.chain.groupRegs (isCCore 0)) c.chain.work).tryCw 0 loadJob .M Stamp.zero.tie 0xFFFF
        (cword 4 0 0)).isSome = true) ∧
    (let s := queued .mret { openChain with fail := some (0x0202, 1) }
     (s.core 0).chain.fail = some (0x0202, 1) ∧ (s.tryCw 0 loadJob .M Stamp.zero.tie 0xFFFF (cword 4 1 0x0202)).isSome = true) := by
  simp only [ok_iff]
  refine ⟨?_, ?_, ?_, fun _ => rfl, ?_, ?_, ?_, ?_, ?_, ?_⟩ <;> decide +kernel

/-! The C engine. -/

theorem witness_CopyEngine :
    ((on .C).cur.2 = .C ∧ ∀ q : BitVec 2, ((on .C).begins (some hdr)).cqRoom 0 q.toNat = true) ∧
    (∀ i ∈ [Instr.cpy hdr 3 ⟨.a 1, .none, 0⟩, .cpyp hdr ⟨1, false, 1⟩ ⟨.a 4, .none, 5⟩, .cpyr hdr 0 ⟨.lit32 64, .none, 0xFFFE⟩,
      .cdec hdr 2 true ⟨.a 1, .none, 1⟩, .cenc hdr 1 ⟨.a 1, .none, 1⟩, .cbw hdr 1 ⟨.a 1, .a 2, 1⟩], (on .C).Runs i hdr) ∧
    (let s := setA ((on .C).modCore 0 fun c => { c with tiles := c.tiles.set 63 { TileSlot.reset with hdr := { TileHdr.reset with fill := .empty } } }) 1 63
     s.Runs (.tsfill hdr 0 .s2 ⟨.a 2, .a 1, 9⟩) hdr ∧ (s.me.scalar (.a 1)).toNat < slotCount (isCCore 0) ∧
      s.claims 0 (BitVec.ofNat 7 (s.me.scalar (.a 1)).toNat) = true) := by
  simp only [runs_iff]; decide +kernel

/-- Exchange entry 0: channel 0, direction M to C, to core 0 of the C-die (R189). -/
def xent : XchEntry := { valid := true, rcore := 0, size := 1, pong := 0, ping := 0 }
def exchanging (s : State) (held : Bool) : State :=
  s.setContext 0 (some { loadContext with
    xch := [xent]
    xdirs := [{ XDir.detached with attached := if held then some 24 else none, ping := if held then .held else .free }] })

theorem witness_Exchange :
    (let s := setA (exchanging (on .C) false) 1 4096
     s.Runs (.xsend hdr ⟨0, 0, false⟩ ⟨.a 2, .a 1, 9⟩) hdr ∧ (s.core 0).job = some loadJob ∧ coreOf 0 = some 0 ∧
      s.xchEntry 0 loadJob 0 false false = some xent ∧ s.me.scalar (.a 1) ≠ 0 ∧ (s.me.scalar (.a 1)).toNat % 64 = 0 ∧
      (s.me.scalar (.a 1)).toNat ≤ 4096 * xent.size) ∧
    (let s := exchanging (onC .C) false
     s.Runs (.xrecv hdr ⟨0, 0, false⟩ ⟨.none, .none, 9⟩) hdr ∧ coreOf 24 = some 24 ∧ s.xchEntry 24 loadJob 0 false true = some xent ∧
      recvCore (exchIndex 24 0 false) xent = 24 ∧ xent.outside 24 loadJob = none ∧
      (s.xdir 0 (exchIndex 24 0 false)).held 24 + (s.core 24).recvsOut 0 false < 2) ∧
    (let s := exchanging (onC .C) true
     s.Runs (.xfree hdr ⟨0, 0, false⟩ ⟨.none, .none, 9⟩) hdr ∧
      0 < (s.xdir 0 (exchIndex 24 0 false)).held 24 + (s.core 24).recvsOut 0 false) := by
  simp only [runs_iff]; decide +kernel

/-- A stream descriptor at address 0: one row of 64 E4M3 elements at address 0, read by V (Table 6.10). -/
def described : State :=
  (on .C).writeLoc 0 (.dram 0 16) [1, 0, 1, 0, 1, 0, 1, 0]

def sbindB (s : State) : Bool :=
  match s.cmdLocs 0 loadJob .read 0 64 with
  | .error _ => false
  | .ok ls => match s.readAt 0 .C loadJob 0 (runsOf 0 ls) with
    | .ok t bs false => match t.bindCheck 0 loadJob (wordAt (encode (.sbind hdr 0 ⟨.a 1, .q 7, 1⟩)) 0) (knownBytes bs) with
      | .ok x => match (t.modCore 0 fun c => c.setStream 7 x).tryCw 0 loadJob .C (t.tieOf 0) 1 (cword 0 0 0) with
        | some t => ((t.eng 0 .C).deferred).isNone
        | none => false
      | _ => false
    | _ => false

theorem witness_Streams :
    described.Runs (.sbind hdr 0 ⟨.a 1, .q 7, 1⟩) hdr ∧ (described.core 0).job = some loadJob ∧
    ((described.core 0).cq[0]).isEmpty = true ∧ ((described.core 0).streams[7]).isNone = true ∧
    (described.me.scalar (.a 1)).toNat % 64 = 0 ∧ sbindB (described.begins (some hdr)) = true ∧
    (let s := (on .C).modCore 0 fun c => { c with streams := c.streams.set 2 (some readStream) }
     s.Runs (.sunbind hdr 3 ⟨.none, .q 2, 1⟩) hdr ∧ s.cqRoom 0 3 = true ∧ ((s.core 0).streams[2]).isSome = true ∧
      readStream.desc.drain = false) := by
  simp only [runs_iff]
  refine ⟨?_, ?_, ?_, ?_, ?_, ?_, ?_⟩ <;> decide +kernel

/-- A command at the head of queue 2 of core 0. -/
def headed (op : COp) : State :=
  (on .C).modCore 0 fun c => { c with cq := c.cq.set 2 [{ op := op, adr := 0, aux := 0, cwi := 1, sig := 1, stamp := .zero, permit := none }] }

theorem witness_CopyPerformed :
    (∀ op ∈ [COp.off, .token 0, .fence 0 2, .cpy], ((headed op).core 0).job = some loadJob ∧ ((headed op).core 0).ending = none ∧
      ((headed op).core 0).halted = false ∧ ∀ x : Fin 4, hasMarker op ((((headed op).core 0).cq.set 2 [])[x]) = false) ∧
    (match runCommand (headed .cpy) 0 loadJob 2 { op := .cpy, adr := 0, aux := 0, cwi := 1, sig := 1, stamp := .zero, permit := none } with
      | .done t code n => decide ((t.core 0).job = some loadJob) && (t.tryCw 0 loadJob .C Stamp.zero.tie 1 (cword 2 n code)).isSome
      | _ => false) = true := by
  constructor <;> decide +kernel

/-- A drain stream of V with one row pushed. -/
def drainStream : Stream :=
  { readStream with desc := { readStream.desc with engM := false, drain := true, rowMode := true, counts := [1], strides := [256] },
                    buf := [item] }

theorem witness_StreamRows :
    (let s := (on .C).modCore 0 fun c => { c with streams := c.streams.set 2 (some { readStream with buf := [], pos := 0 }) }
     (s.core 0).health = .live ∧ (s.core 0).ending = none ∧ (s.core 0).dbgStopped = false ∧ (s.core 0).halted = false ∧
      (match fetchRows 0 loadJob readStream.desc s 0 readStream.desc.rowsEach with | .ok _ _ => true | _ => false) = true) ∧
    (match drainPush 0 loadJob drainStream.desc false (on .C) item with
      | .ok t _ none => decide ((t.core 0).job = some loadJob)
      | _ => false) = true ∧ drainStream.fault = none ∧ drainStream.rewrite = false ∧
    (0 < readStream.desc.total ∧ readStream.desc.drain = false ∧ drainStream.desc.drain = true) ∧
    (((exchanging (onC .C) true).xdir 0 0).attached = some 24 ∧ ((exchanging (onC .C) true).xdir 0 0).permitDue = true ∧
      ({ XDir.attach 24 with permits := 2 } : XDir).permitDue = false) ∧
    (onC .C).anyPath (endOfVd (dieOf 24)) (endOfVd (partnerOf (dieOf 24))) = true := by
  refine ⟨?_, ?_, ?_, ?_, ?_, ?_, ?_⟩ <;> decide +kernel

/-! Messages, nodes, phases and groups. -/

/-- A queue of 16 entries at the start of core 0's scratchpad, with n entries waiting. -/
def queueing (s : State) (n : Word) : State :=
  s.modCore 0 fun c => { c with mqs := c.mqs.set 0 { en := true, log2n := 4, base := 0, tail := n, head := 0, report := true } }
def spilling : Context := { loadContext with spillQuota := 64 }
def credited (s : State) : State := s.setDie 0 { s.die 0 with credits := CMap.set 0 (s.die 0).credits (creditKey 0 0) 1 }

theorem witness_Messages :
    (∀ s ∈ [(setX (setX (on .S) 1 63) 2 own).setContext 0 (some spilling), credited ((setX (setX (on .S) 1 63) 2 own).setContext 0 (some spilling))],
      s.Runs (.msend hdr ⟨.x 5, .x 1, .x 2⟩ 0) hdr ∧ (s.core 0).job = some loadJob ∧ coreOf 0 = some 0 ∧ s.context 0 = some spilling ∧
        (s.ownLine loadJob .read (s.me.scalar (.x 2))).toOption = some (.scratch 0 0) ∧
        (s.sendTarget 0 loadJob (s.me.scalar (.x 1))).toOption = some 0 ∧ s.spillBytes 0 spilling + 64 ≤ spilling.spillQuota ∧
        (s.checkLoc (.scratch 0 0) own 64).toBool ∧ (s.arriveLoc (.scratch 0 0) 0 .S 64).isSome ∧
        (s.send (endOf 0) (s.appendHome spilling 0 false) 1 64 (.stream 0 .S (.append 0 0))).1 = true) ∧
    (setX (setX (on .S) 1 63) 2 own).sendSpills spilling 0 0 0 = true ∧ (credited (on .S)).sendSpills spilling 0 0 0 = false ∧
    (∀ s ∈ [setX (queueing (on .S) 0) 1 (own + 2048), setX (queueing (on .S) 16) 1 (own + 2048)],
      s.Runs (.mrecv hdr ⟨.x 5, .x 1, .none⟩ 0) hdr ∧ (s.ownLine loadJob .write (s.me.scalar (.x 1))).toOption = some (.scratch 0 2048) ∧
        ((s.core 0).mqs[0]).en = true ∧ ((s.core 0).mqs[0]).head = 0 ∧
        (s.checkLoc (.scratch 0 0) own 64).toBool ∧
        ((s.arriveLoc (.scratch 0 0) 0 .S 64).bind fun t => t.arriveLoc (.scratch 0 2048) 0 .S 64).isSome) ∧
    (((queueing (on .S) 0).core 0).mqs[0]).tail = 0 ∧ (((queueing (on .S) 16).core 0).mqs[0]).tail = 16 ∧
    (let s : State := { (set (setX (handled (on .S)) 1 63) fun g => { g with frozen := some (.quota 0) }).writeLoc 0 (.dram 0 0)
        ((encode (.msend hdr ⟨.x 5, .x 1, .x 2⟩ 0)).flatMap fun w => toBytes 4 w.toNat) with time := 100001 }
     s.me.frozen = some (.quota 0) ∧ (s.atPc 0 .S).isSome = true ∧ s.context 0 = some loadContext ∧
      (s.sendTarget 0 loadJob (s.me.scalar (.x 1))).toOption = some 0 ∧ 0 + 1000 * loadContext.quotaWait.toNat < s.time ∧
      s.me.mayTrap ∧ s.me.quiet ∧ s.me.popDone = false) := by
  simp only [runs_iff, mayTrap_iff, quiet_iff]
  refine ⟨?_, ?_, ?_, ?_, ?_, ?_, ?_⟩ <;> decide +kernel

def append0 (spill : Bool) : Append :=
  { from_ := 1, member := 1, seq := 0, ctx := 0, slot := 0, stamp := .zero, target := 0, queue := 0, data := 5, spill := spill,
    msgSeq := none, facets := [] }
def appended (s : State) (spill : Bool) : State := { s with fab := { s.fab with appends := [append0 spill] } }
/-- An entry that crosses the fabric, none of whose facets has come through. -/
def lostAppend : Append := { append0 false with from_ := 24, msgSeq := some 0 }
def spilled0 : Context := { loadContext with spilled := [{ target := 1, queue := 0, data := 1 }, { target := 0, queue := 0, data := 5 }] }

theorem witness_MessageEntries :
    (let s := appended (queueing (on .S) 15) false
     s.nextAppends 0 0 = append0 false :: [] ∧ (append0 false).entry = some 5 ∧ s.context 0 = some loadContext ∧ s.queueTakes 0 0 0 = true ∧
      loadContext.spilledFor 0 0 = false ∧
      (s.arriveWords 0 0 (unitOf 1) (s.eng (unitOf 1) .S).scycle 0 0 (64 * 15) 8).isSome = true ∧ ((s.core 0).mqs[0]).report = true) ∧
    (({ on .S with fab := { (on .S).fab with appends := [lostAppend, append0 false] } } : State).nextAppends 0 0 =
      lostAppend :: [append0 false] ∧ lostAppend.entry = none) ∧
    (appended (queueing (on .S) 16) true).nextAppends 0 0 = append0 true :: [] ∧ (queueing (on .S) 16).queueTakes 0 0 0 = false ∧
    spilled0.spilledFor 0 0 = true ∧ (unitOf 0 = 0 ∧ ((on .S).core 0).job = some loadJob) ∧
    (let s := (queueing (on .S) 15).setContext 0 (some spilled0)
     s.queueTakes 0 0 0 = true ∧ s.context 0 = some spilled0 ∧
      spilled0.spilled = [{ target := 1, queue := 0, data := 1 }] ++ { target := 0, queue := 0, data := 5 } :: [] ∧
      ((s.arriveWords 0 0 0 (s.eng 0 .S).scycle 5 (s.core 0).spillSeq (64 * 15) 8).bind fun t => t.context 0).isSome = true) := by
  decide +kernel

def answersB (s : State) (a : Nat) : Bool := match s.submit 0 0 a none 0 none with | .answer _ _ _ => true | _ => false

theorem witness_SystemInstructions :
    (∀ i ∈ [Instr.nsub hdr ⟨.x 1, .x 2, .none⟩, .phadv hdr ⟨.x 1, .none, .none⟩, .phwait hdr ⟨.none, .x 2, .x 3⟩,
      .gtime hdr ⟨.a 1, .none, .none⟩, .drain hdr ⟨.none, .none, .none⟩], (on .S).Runs i hdr) ∧
    ((on .S).core 0).job = some loadJob ∧ (on .S).appendsOut 0 = false ∧ answersB ((on .S).begins (some hdr)) 1 = true ∧
    (on .S).me.frozen = none ∧ ((on .S).me.scalar (.x 2)).toNat = (0 : Vd).val ∧ ((on .S).dieListOf 0).contains 0 = true ∧
    (fullList (on .S).md.mode 0).contains 0 = true ∧ ((on .S).die 0).state = .healthy ∧ (((on .S).die 0).done 0 - 0).toNat < 2 ^ 31 ∧
    ((0x80000001 : Word) - 2).toNat < 2 ^ 31 ∧
    ((on .S).core 0).drained = true ∧ ∀ e ∈ [Eng.S, .V, .M, .C], ((on .S).eng 0 e).lost = none := by
  simp only [runs_iff]
  refine ⟨?_, ?_, ?_, ?_, ?_, ?_, ?_, ?_, ?_, ?_, ?_, ?_, ?_⟩ <;> decide +kernel

def grouped (s : State) : State := s.modCore 0 fun c => { c with job := some { loadJob with gvalid := 8, gidx := 0x02000000 } }
def finished (s : State) : State := set s fun g => { g with frozen := some (.groupDone 7 0) }

theorem witness_Groups :
    (∀ i ∈ [Instr.gbar hdr ⟨.none, .none, .none⟩ 3, .gred hdr ⟨.x 1, .x 2, .none⟩ ⟨.fadd, true, false, 3⟩],
      (grouped (on .S)).Runs i hdr ∧ (finished (grouped (on .S))).Runs i hdr) ∧
    (grouped (on .S)).me.frozen = none ∧ ((grouped (on .S)).core 0).job = some { loadJob with gvalid := 8, gidx := 0x02000000 } ∧
    (grouped (on .S)).context 0 = some loadContext ∧ ({ loadJob with gvalid := 8, gidx := 0x02000000 } : Job).groupEntry 3 = some 2 ∧
    (finished (on .S)).me.frozen = some (.groupDone 7 0) := by
  simp only [runs_iff]; decide +kernel

/-- Cores 0 and 1 have arrived at entry 0, whose members they are. -/
def episode : State :=
  let s := (on .S).setContext 0 (some { loadContext with groups := [some 3] })
  { s with md := { s.md with arrivals := [
      { ctx := 0, entry := 0, core := 0, episode := 1, sel := none, operand := 0 },
      { ctx := 0, entry := 0, core := 1, episode := 1, sel := none, operand := 0 }] } }

theorem witness_Episodes :
    (episode.context 0 = some { loadContext with groups := [some 3] } ∧ ({ loadContext with groups := [some 3] } : Context).group 0 = some 3 ∧
      episode.firstEpisode 0 0 = some 1 ∧ episode.episodeFull 0 0 3 1 = true ∧ episode.fab.appends = []) ∧
    (let s := (on .S).setDie 0 (((on .S).die 0).setCur 0 1)
     laterThan ((s.die 0).cur 0) ((s.die 0).done 0) = true ∧ s.stampDone 0 0 ((s.die 0).done 0) = true) := by
  decide +kernel

/-! Dispatch, scheduling and pre-emption. -/

/-- A node of context 0, for S and V on an M-core. -/
def node1 (st : NodeState) : Node :=
  { ctx := 0, id := 1, state := st, slot := 0, cls := 0, eng := 3, persist := false, imgBase := 0, imgLen := 0x10000,
    ents := [0, 0, 0, 0], spNeed := 1, tsNeed := 0, gvalid := 0, gidx := 0, arg0 := 0, arg1 := 0, ins := [], outs := [], deps := [],
    readyAt := 0, core := none, lastDie := none, pickedAt := 0, hostTag := 0, cause := 0, released := false, image := none }

/-- The package with that node in its graph store, a dispatch of it on its way to core 1, and core 1 free. -/
def noded (st : NodeState) : State :=
  let s := State.reset.withJob
  { s with md := { s.md with nodes := [node1 st], pool := [(0, 1)], dispatching := [{ ctx := 0, id := 1, core := 1 }] } }

def report0 : HeldReport := { ctx := 0, id := 1, kind := 1, cause := 0, slot := 0, tag := 0, time := 0, seq := 0 }

theorem witness_Dispatches :
    (let s := noded .ready
     s.md.nextPick ≤ s.time ∧ s.cfm.pkgFailed = false ∧ (s.ranked.find? fun n => s.overdue n && (s.chooseCore n).isNone) = none ∧
      (s.firstFit (s.ranked.filter fun n => !heldBack none n)).map (fun p => p.1.id) = some 1) ∧
    (let s := noded .running
     let b := s.ctl 8 (endOf 1)
     s.md.dispatching.any (fun d => d.core = 1) = true ∧
      b.md.dispatching.find? (fun d => d.core = 1) = some { ctx := 0, id := 1, core := 1 } ∧ (b.node 0 1).isSome = true ∧
      b.context 0 = some loadContext ∧ (node1 .running).state = .running ∧ b.takesDispatch (node1 .running) 1 = true ∧
      (node1 .running).image = none ∧ b.takesDispatch (node1 .running) 0 = false ∧ b.md.pool.length < 4096 ∧
      4096 ≤ (({ s with md := { s.md with pool := List.replicate 4096 (0, 1) } } : State).ctl 8 (endOf 1)).md.pool.length ∧ (s.die 7).state = .healthy) ∧
    (let s : State := { noded .running with md := { (noded .running).md with waiting := [(1, report0)] } }
     s.md.waiting.find? (fun p => p.1 = 1) = some (1, report0) ∧ s.md.held.length < 1024) := by
  refine ⟨⟨?_, ?_, ?_, ?_⟩, ⟨?_, ?_, ?_, ?_, ?_, ?_, ?_, ?_, ?_, ?_, ?_⟩, ?_, ?_⟩ <;> decide +kernel

def endedJob : State :=
  (noded .running).modCore 0 fun c => { c with
    eS := { c.eS with ended := true }, eV := { c.eV with ended := true }, eM := { c.eM with ended := true }, eC := { c.eC with ended := true } }

theorem witness_StreamsEnd :
    (∀ e ∈ [Eng.V, .C, .M], (on e).Ready .rend none ∧ (on e).me.ds = false ∧ (on e).me.hm = false ∧ (on e).me.lost = none) ∧
    isCCore 0 = false ∧ ((on .M).core 0).chain.state = .none ∧
    (let s := ({ endedJob with cur := (0, .S) } : State).modEng 0 .S fun g => { g with ended := false }
     s.Ready .rend none ∧ s.me.ds = false ∧ s.me.hm = false ∧ s.me.lost = none ∧ (s.core 0).othersEnded = true ∧
      (s.core 0).drained = true ∧ s.appendsOut 0 = false ∧ (s.core 0).lossAt = none) ∧
    (endedJob.core (unitOf 0)).jobEnded = true ∧ (endedJob.core 0).job = some loadJob ∧ (endedJob.core 0).ckptReq = false ∧
    ((endedJob.cleanup (unitOf 0) loadJob).node 0 1).isSome = true := by
  simp only [ready_iff]; decide +kernel

def request (asked stopped : Bool) (n : Nat) : Preempt :=
  { since := 0, asked := asked, stopped := stopped, saveBegun := 0, expiries := n }
def preempting (p : Preempt) (c' : Core → Core) : State :=
  { (noded .running).modCore 0 fun c => c' { c with preempt := some p } with time := 5000000 }

/-- What a save of core 0 with nothing in it kept. -/
def saved0 : SaveImage := { core := Core.reset 64, from_ := 0, counts := { tokens := [], arrivals := [] }, tiles := [], addr := 0, incomplete := false }
def restoring : State :=
  let s := noded .running
  { s with md := { s.md with nodes := [{ node1 .running with image := some saved0 }] } }

theorem witness_Preemptions :
    (∀ asked ∈ [true, false], ((preempting (request asked false 0) id).core 0).preempt = some (request asked false 0) ∧
      ((preempting (request asked false 0) id).core 0).dbgStopped = false ∧ ((preempting (request asked false 0) id).core 0).inRendDrain = false ∧
      ((preempting (request asked false 0) id).core 0).chain.state = .none) ∧
    ((preempting (request true false 0) fun c => { c with eS := { c.eS with ended := true } }).core 0).inRendDrain = true ∧
    ((preempting (request true false 0) fun c => { c with chain := { c.chain with state := .open } }).core 0).chain.state ≠ .none ∧
    (request false false 0).since + 1000000 ≤ (preempting (request false false 0) id).time ∧
    ((preempting (request true false 0) fun c => { c with dbg := some { at_ := none, stopped := true } }).core 0).dbgStopped = true ∧
    ((preempting (request true true 0) id).core 0).mayBeSaved = true ∧
    (request true true 0).saveBegun + 400000 ≤ (preempting (request true true 0) id).time ∧
    (request true true 1).saveBegun + 400000 * ((request true true 1).expiries + 1) ≤ (preempting (request true true 1) id).time ∧
    restoring.md.dispatching.find? (fun d => d.core = 1) = some { ctx := 0, id := 1, core := 1 } ∧ (restoring.node 0 1).isSome = true ∧
    ((restoring.node 0 1).map (·.image.isSome)) = some true ∧ restoring.context 0 = some loadContext ∧ saved0.incomplete = false := by
  refine ⟨?_, ?_, ?_, ?_, ?_, ?_, ?_, ?_, ?_, ?_, ?_, ?_, ?_⟩ <;> decide +kernel

theorem witness_Scheduler :
    (let s : State := { noded .running with md := { (noded .running).md with role1 := .takingOver, held := [report0] } }
     let t := s.modSlot 0 fun x => { x with sub := some { addr := 0, n := 4, count := 0 }, ctx := some 0 }
     s.role false = .active ∧ s.role true = .takingOver ∧ (0x000000FF00000000 : Dword).extractLsb' 32 6 ≠ 0 ∧
      (0 : Dword).extractLsb' 32 6 = 0 ∧ (t.slot 0).sub = some { addr := 0, n := 4, count := 0 } ∧ (t.slot 0).ctx = some 0 ∧
      (1 : Dword).getLsbD 0 = true ∧ s.headWaits = false ∧ s.md.held = [report0] ∧ s.md.releasing ≠ some false ∧
      ({ s.md with releasing := some false } : Md).releasing = some false ∧
      (let r := s.modSlot 0 fun x => { x with ckptPending := [1] }
       r.headWaits = true)) ∧
    (let s : State := { State.reset with md := { Md.reset with role0 := .failed } }
     s.role false = .failed ∧ s.role true = .standby) ∧
    (let s : State := { State.reset with md := { Md.reset with role1 := .failed, role0 := .standby } }
     s.role true = .failed ∧ s.role false = .standby) ∧
    (let s := State.reset.setDie 7 { State.reset.die 7 with lease := { Lease.reset with requests := [(2, 0, 0), (5, 7, 0)], lastGrant := some 5 } }
     (s.die 7).lease.holder = none ∧ (leaseChoice (s.die 7).lease.lastGrant (s.die 7).lease.requests).isSome = true) := by
  refine ⟨?_, ?_, ?_, ?_⟩ <;> decide +kernel

/-! Landing, the arrays, and the rows that write registers. -/

def flight (lost : Option LostRead) (at_ : Nat) : Flight := { landAt := at_, writes := [.x 5 9], flags := 0, sig := 1, lost := lost }
def lostRead0 : LostRead := { epc := 0, ds := false, va := 64, ended := false, wait := 0 }

theorem witness_ResultsLand :
    (let s := set (on .S) fun g => { g with flights := [flight none 0] }
     let landed := ((s.landWrites 0 .S [.x 5 9]).modEng 0 .S fun g =>
       { g with sticky := g.sticky ||| 0, flights := g.flights.erase (flight none 0) }).push 0 .S 1
     s.me.flights = [flight none 0] ∧ (s.core 0).blocked (flight none 0) = false ∧ (landed.eng 0 .S).firstDue.isNone = true) ∧
    (let s := set (handled (on .S)) fun g => { g with flights := [flight (some lostRead0) 0, flight none 2] }
     s.me.flights = [flight (some lostRead0) 0, flight none 2] ∧ s.me.scycle + 1 < 2 ∧ s.me.mayTrap) ∧
    (let s := (set (on .V) fun g => { g with frozen := some (.tokens 5) }).modCore 0 fun c => { c with tokens := Vector.replicate 16 1 }
     (s.core 0).halted = false ∧ s.me.started = true ∧ s.me.due = false ∧ s.me.popDone = false ∧ s.me.frozen = some (.tokens 5) ∧
      (s.core 0).emptyBits .V 5 = 0) := by
  simp only [mayTrap_iff]; decide +kernel

def flipped (o : Nat) (f : BitVec 72) (s : State) : State := { s with flips := CMap.set 0 s.flips (keyScratch 0 o) f }
def testing (s : State) : State := s.setDie 0 { s.die 0 with state := .selftest }

/-- What the words of a group are together, but for the failing one (R261). -/
def leftOf (s : State) (key : Nat) : BitVec 72 := s.foldFlips (groupMates key) ^^^ CMap.get 0 s.vflips (groupOf key)

/- A flipped bit of a word fails its check, and its group rebuilds it; with two failing words of a group it cannot. -/
theorem witness_Arrays :
    (let s := flipped 8 1 (on .S)
     let key := keyScratch 0 8
     8 < arraySize (.scratch 0) ∧ flipFails (s.flipWord key) = true ∧ (∀ m ∈ groupMates key, flipFails (s.flipWord m) = false) ∧
      flipFails (leftOf s key) = false ∧ s.flips = [(key, 1)] ∧ s.vflips = [] ∧
      8 % 8 = 0 ∧ 8 / 64 % 32 = (0 : BitVec 5).toNat ∧ s.rawArray (.scratch 0) = false) ∧
    (let s := flipped (8 + 2048) 1 (flipped 8 1 (on .S))
     let key := keyScratch 0 8
     flipFails (s.flipWord key) = true ∧ ¬ ∀ m ∈ groupMates key, flipFails (s.flipWord m) = false) ∧
    ((on .S).core 0).health = .live ∧ (on .S).me.started = true ∧ (on .S).me.replays.toNat < 0xFFFFFFFD ∧ ((on .S).core 0).step.toNat < 4 ∧
    (on .S).me.escal ≠ 0xFF ∧ ((on .S).core 0).job = some loadJob ∧
    (let s : State := { on .S with time := 10000, cfm := { (on .S).cfm with pendingFails := [(0, 0, 0, 1)] } }
     (s.cfm.pendingFails.find? fun p => p.1 = 0 && p.2.1 + 10000 ≤ s.time) = some (0, 0, 0, 1)) ∧
    ((testing (on .S)).die 0).state = .selftest ∧ CMap.get 0 ((testing (on .S)).die 0).spares (spareKey 5 0 31) < 16 ∧
    (let s := testing (on .S)
     let t := s.setDie 0 { s.die 0 with spares := CMap.set 0 (s.die 0).spares (spareKey 0 0 0) 16 }
     16 ≤ CMap.get 0 (t.die 0).spares (spareKey 0 0 0) ∧ (t.die 0).state = .selftest) ∧
    ((on .S).die 0).state ≠ .selftest ∧ isSched 0 = false ∧ (on .S).rawArray (.pane 3) = false ∧
    ((noded .running).node 0 1).isSome = true := by
  decide +kernel

theorem witness_RegisterRows :
    (let s := on .S
     ((s.core 0).mqs[3]).en = false ∧ s.mqcfgOutside 0 3 0x8000000500000000 = false ∧ (s.me.hm = true ∨ privilegedWrite 4 5 = false) ∧
      srAssigned (envOf 0 .S) 4 = true ∧ mqcfgOf 4 = none) ∧
    (let s := State.reset.modCore 5 fun c => { c with mqs := c.mqs.set 3 { en := true, log2n := 4, base := 0, tail := 16, head := 0, report := false } }
     ((s.core 5).mqs[3]).en = true ∧ (s.core 5).job = none ∧ (0x8000000500000000 : Dword).getLsbD 63 = true ∧ (0 : Dword).getLsbD 63 = false ∧
      (((s.core 5).mqs[3]).tail - (0 : Dword).extractLsb' 0 32).toNat ≤ 2 ^ ((s.core 5).mqs[3]).log2n ∧
      2 ^ ((s.core 5).mqs[3]).log2n < (((s.core 5).mqs[3]).tail - (17 : Dword).extractLsb' 0 32).toNat) ∧
    (set (on .S) fun g => { g with hm := true }).me.hm = true := by
  decide +kernel

/-! Stops, windows and walks. -/

/-- Core 0's S engine at cycle 4,096 in a context that records, or replays. -/
def windowing (m : RecMode) (st : BitVec 2) : State :=
  (set (on .S) fun g => { g with scycle := 4096 }).setContext 0 (some { loadContext with recMode := m, recState := st })

/-- The same with one WINDOW entry in the log at address 64, its CRC that of the window, or another. -/
def logged (crc : List Byte) : State :=
  ((windowing .replay 2).setContext 0 (some { loadContext with recMode := .replay, recState := 2, recUsed := 16 })).writeLoc 0 (.dram 0 64)
    ([2, 0, 0, 0] ++ crc ++ toBytes 8 4096)

/-- The table of the walk: entry 0 of each level names the next, and the last maps a page (Tables 6.11, 6.12). -/
def tabled : State :=
  let e (k : Nat) (v : Nat) (s : State) : State := s.writeLoc 0 (.dram 0 k) (toBytes 8 v)
  ({ e 0x40000 0x500B1 (e 0x30000 0x40001 (e 0x20000 0x30001 (e 0x10000 0x20001 (e 0 0x10001 (on .S))))) with tlb := [] } : State)

theorem witness_Stops :
    (let s := (on .S).modCore 0 fun c => { c with dbg := some { at_ := some (.S, 0), stopped := false } }
     (s.core 0).dbg = some { at_ := some (.S, 0), stopped := false } ∧ 0 ≤ (s.eng 0 .S).scycle ∧ (s.core 0).trcctl.getLsbD 2 = false) ∧
    (∀ s ∈ [windowing .record 0, windowing .record 1, windowing .replay 1, windowing .replay 2, logged [255, 255, 255, 255], logged [1, 0, 0, 0]],
      (s.core 0).job = some loadJob ∧ (s.context 0).isSome = true ∧ s.me.started = true ∧ s.me.winAt + 4096 ≤ s.me.scycle ∧
        s.appendsOut 0 = false) ∧
    firstWindow 0 .S (logEntries 0 []) 0 = none ∧
    (firstWindow 0 .S (logEntries 1 ((logged [255, 255, 255, 255]).devRead { loadContext with recUsed := 16 } 64 16)) 0).isSome = true ∧
    (firstWindow 0 .S (logEntries 1 ((logged [1, 0, 0, 0]).devRead { loadContext with recUsed := 16 } 64 16)) 0).map
      (fun w => ofBytes ((w.drop 4).take 4)) = some 1 ∧ (0xFFFFFFFF ^^^ (logged [255, 255, 255, 255]).me.winCrc).toNat = 0xFFFFFFFF ∧
    (tabled.context 0 = some loadContext ∧ tabled.tlb = [] ∧ (0 : Dword).toNat < 2 ^ 57 ∧
      (({ tabled with tlb := [{ vd := 0, ctx := 0, base := 0, size := 2 ^ 16, leaf := 0x500B1 }] } : State).tlb.find? fun t =>
        t.vd = 0 && t.maps 0 0).isSome = true ∧ tabled.walkFrom loadContext 0 loadContext.root.toNat 4 = some (0x500B1, 2 ^ 16)) := by
  refine ⟨?_, ?_, ?_, ?_, ?_, ?_, ?_⟩ <;> decide +kernel

/-! Dies, devices, the peer and the fabric. -/

def died (st : DieState) (s : State) : State := s.setDie 0 { s.die 0 with state := st }
def timed (n : Nat) (s : State) : State := { s with time := n }

theorem witness_Dies :
    (State.reset.die 0).state ≠ .lost ∧ State.reset.cutOff 0 = false ∧
    ((timed 150000 State.reset).die 0).lastBeat + 150000 ≤ (timed 150000 State.reset).time ∧ State.reset.time < (State.reset.die 0).lastBeat + 150000 ∧
    ({ State.reset with fab := { Fab.reset with down := [(0, 8, 0), (0, 8, 1), (0, 8, 2)] } } : State).cutOff 0 = true ∧
    (State.reset.die 0).state = .healthy ∧
    (let s := (List.finRange 6).foldl (fun s l => s.modCore (unitOf (coreAt 0 l)) fun c => { c with health := .umbra }) State.reset
     ∀ l, (s.core (unitOf (coreAt 0 l))).health = .umbra) ∧
    (let s : State := { State.reset with cfm := { Cfm.reset with rotPeriod := 1 } }
     s.cfm.rotPeriod ≠ 0 ∧ s.cfm.rotDie = none ∧ s.cfm.phase[0] = .idle ∧ s.mustReconfigure 0 = false ∧ 5 ∈ s.dieListOf 0 ∧
      s.visitDue 5 = true ∧ s.rotationFits 0 5 = true) ∧
    (let s : State := { on .S with cfm := { Cfm.reset with rotDie := some 0 }, time := 10000000 }
     s.cfm.rotDie = some 0 ∧ s.dieBusy 0 = true ∧ s.dieBusy 5 = false ∧ s.cfm.rotSince + 10000000 ≤ s.time) ∧
    (let s := (on .S).modSlot 3 fun x => { x with open_ := true }
     3 ∈ s.openSlots 0 ∧ (s.slot 3).state = .normal ∧ ((s.modSlot 3 fun x => { x with state := .nofit }).slot 3).state ≠ .normal) ∧
    (((died .selftest State.reset).die 0).state = .selftest ∧ ((died .selftest State.reset).die 0).full = false ∧
      ({ State.reset.die 0 with full := true } : Die).full = true) ∧
    (let s := State.reset.setDie 0 { State.reset.die 0 with state := .umbra, testing := true }
     (s.die 0).state = .umbra ∧ (s.die 0).testing = true) := by
  refine ⟨?_, ?_, ?_, ?_, ?_, ?_, ?_, ?_, ?_, ?_, ?_, ?_⟩ <;> decide +kernel

def table0 (pmir : Bool) : LevelTable := { take := false, pmir := pmir, entries := [], ranges := [] }
def image0 : CkptImage := { seq := 1, data := [], bad := false }
def checkpointing (pmir : Bool) : State :=
  State.reset.modSlot 0 fun x => { x with
    ckptPending := [7], table := some (table0 pmir), mirrored := [image0], mirroring := true, unacked := [1] }

theorem witness_Devices :
    ((died .lost State.reset).mustReconfigure 0 = true ∧ (died .lost State.reset).cfm.phase[0] = .idle) ∧
    State.reset.mustReconfigure 0 = false ∧
    (let s : State := { died .lost State.reset with cfm := { Cfm.reset with phase := Cfm.reset.phase.set 0 .drain } }
     s.cfm.phase[0] = .drain ∧ s.settled 0 = true ∧ 0 ∈ s.md.dieList[0]) ∧ State.reset.cfm.phase[0] ≠ .drain ∧
    (let s : State := { on .S with md := { (on .S).md with role0 := .failed, role1 := .failed } }
     s.packageFails = true ∧ s.cfm.pkgFailed = false ∧ (s.core (unitOf 0)).sending = false) ∧ State.reset.packageFails = false ∧
    (∀ p ∈ [true, false], ((checkpointing p).slot 0).ckptPending = 7 :: [] ∧ ((checkpointing p).slot 0).table = some (table0 p)) ∧
    (table0 false).pmir = false ∧ (table0 true).pmir = true ∧
    (checkpointing true).cfm.peer = .up ∧ ((checkpointing true).slot 0).unacked = 1 :: [] ∧ (State.reset.slot 0).unacked = [] ∧
    (let s : State := { checkpointing true with cfm := { Cfm.reset with peer := .lost } }
     s.cfm.peer ≠ .up ∧ s.cfm.peer ≠ .suspect) ∧
    ({ Cfm.reset with phase := Cfm.reset.phase.set 0 .restore } : Cfm).phase[0] = .restore := by
  refine ⟨?_, ?_, ?_, ?_, ?_, ?_, ?_, ?_, ?_, ?_, ?_, ?_, ?_, ?_⟩ <;> decide +kernel

def peered (p : PeerState) : State := timed 3000000 { State.reset with cfm := { Cfm.reset with peer := p } }
def cmd (fn : HostFn) (ctx : Word) (path : HostPath := .plain) : MbHdr :=
  { fn := fn, tag := 7, ctx := ctx, stray := none, path := path }

theorem witness_Peer :
    (peered .up).cfm.pkgFailed = false ∧ ({ Cfm.reset with pkgFailed := true } : Cfm).pkgFailed = true ∧ (peered .up).fab.portDown ≠ (true, true) ∧
    ({ Fab.reset with portDown := (true, true) } : Fab).portDown = (true, true) ∧ (peered .up).cfm.peer ≠ .lost ∧
    ((peered .up).cfm.peer = .up ∧ (peered .up).cfm.lastPeerBeat + 3000000 ≤ (peered .up).time) ∧
    State.reset.time < State.reset.cfm.lastPeerBeat + 3000000 ∧
    ((peered .suspect).cfm.peer = .suspect ∧ (∀ k, ((peered .suspect).slot k).shadow = false) ∧
      (peered .suspect).cfm.peerSince + 2000000 ≤ (peered .suspect).time) ∧
    (let s := (peered .suspect).modSlot 3 fun x => { x with
       shadow := true, table := some (table0 false), peerImages := [(3, [image0])] }
     s.cfm.peer = .suspect ∧ (s.slot 3).shadow = true ∧ (s.slot 3).open_ = false ∧ (s.slot 3).table.isSome = true ∧
      s.soundImages 3 (s.slot 3).peerImages = [image0]) ∧
    ((peered .lost).takes (cmd (.pf 0) 0) 0x34 = true ∧ (peered .up).takes (cmd (.pf 0) 0) 0x34 = true ∧ strayByte (cmd (.pf 0) 0) false = none ∧ (peered .lost).cfm.peer = .lost) := by
  refine ⟨?_, ?_, ?_, ?_, ?_, ?_, ?_, ?_, ?_, ?_⟩ <;> decide +kernel

/- Facets from die 1 to die 0, class REQ, of 16 payload bytes; their CRC-32C is worked out by hand. -/
def facet (index km : Byte) (len : Half) (crc : Word) (b : Byte) : Facet :=
  { route := 0x0001, msgid := 0, seq := 0, index := index, km := km, len := len, crc := crc, payload := b :: List.replicate 15 0 }
def single : Facet := facet 0 0x11 1 0x6565416F 5
def first : Facet := facet 0 0x21 2 0xA61616DE 5
def second : Facet := facet 1 0x21 2 0x82AD8190 6
def buffered (since : Nat) : DecodeBuf :=
  { src := 1, cls := 0, seq := 0, msgid := 0, k := 2, m := 1, len := 2, facets := [(0, first.payload)], since := since }
def decoding : State :=
  timed 2000 (State.reset.setEndPt 0 { State.reset.endPt 0 with bufs := [buffered 0] })
/-- Message 5 of die 1 to die 0, not acknowledged. -/
def sent5 : Sent := { seq := 5, msgid := 0, at_ := 0, who := .other }
def outstanding : State := timed 6000 (State.reset.setFlow { Flow.fresh 1 0 0 with outstanding := [sent5] })

theorem witness_Facets :
    (let e := State.reset.endPt 0
     e.ingress = [] ∧ e.timers = [] ∧ e.decoded = [] ∧ (State.reset.flow 1 0 0).lostAhead = [] ∧ e.bufs = [] ∧ e.used 0 < 64) ∧
    (∀ f ∈ [single, first, second], f.srcNo = (1 : Endpoint).val ∧ f.bad 0 = false ∧ f.cls = 0 ∧ f.seq = (State.reset.flow 1 0 0).release) ∧
    ({ single with crc := 0 } : Facet).bad 0 = true ∧ (State.reset.setFlow { Flow.fresh 1 0 0 with release := 1 }).facetLate 0 1 0 0 = true ∧
    2 ≤ first.k ∧ single.k = 1 ∧ single.index = 0 ∧
    ((decoding.endPt 0).bufs.find? fun b => b.is 1 0 0) = some (buffered 0) ∧
    ((buffered 0).len = second.len.toNat ∧ (buffered 0).k = second.k ∧ (buffered 0).m = second.m ∧ (buffered 0).msgid = second.msgid ∧
      (∀ g ∈ (buffered 0).facets, g.1 ≠ second.index.toNat) ∧ (buffered 0).k = (buffered 0).facets.length + 1) ∧
    (decoding.facetLate 0 1 0 0 = false ∧ ((decoding.endPt 0).begun 1 0 0).any (fun t => t + 2000 * timerScale 0 ≤ decoding.time) = true ∧
      (decoding.endPt 0).ingress = [] ∧ (decoding.endPt 0).decoded = []) ∧
    ((State.reset.fab.flows.filter fun f => f.src = 1 && f.dst = 0 && !f.outstanding.isEmpty) = [] ∧
      (outstanding.fab.flows.filter fun f => f.src = 1 && f.dst = 0 && !f.outstanding.isEmpty).length = 1) ∧
    (outstanding.flow 1 0 0).outstanding.find? (fun o => o.seq = 5) = some sent5 ∧ sent5.at_ + 6000 * timerScale 0 ≤ outstanding.time ∧
    (outstanding.endPt 0).ingress = [] := by
  refine ⟨?_, ?_, ?_, ?_, ?_, ?_, ?_, ?_, ?_, ?_, ?_, ?_, ?_, ?_⟩ <;> decide +kernel

/-- Die 0 has only its longer way to H left, and the module of its shortest is degraded. -/
def onePath : State :=
  { State.reset with fab := { Fab.reset with down := [(0, 8, 0), (0, 8, 1)], degraded := [.hub 0] } }

theorem witness_Paths :
    State.reset.pathUp (endOfVd 0) 8 2 = true ∧ (State.reset.route 0 8 0).modules[0]? = some (.hub 0) ∧
    (State.reset.route 0 8 0).modules[1]? = none ∧ (.hub 0) ∈ (State.reset.route 0 8 0).modules ∧ (.ring 4) ∉ (State.reset.route 0 8 0).modules ∧
    (onePath.pathUp (endOfVd 0) 8 2 = true ∧ ∃ m ∈ (onePath.route 0 8 2).modules,
      (onePath.markDown fun r => r.modules.contains m).cutOff 0 = true) ∧
    ((State.reset.die 0).railOn = true ∧ (State.reset.setDie 0 { State.reset.die 0 with railOn := false } |>.die 0).railOn = false ∧
      (State.reset.route 0 1 0).meets (State.reset.posOf 0) = true) ∧
    (∀ v, (State.reset.die v).railOn = true) ∧
    (.hub 0 ∈ onePath.fab.degraded ∧ .ring 9 ∉ onePath.fab.degraded ∧ onePath.md.dark.getLsbD 9 = true ∧
      onePath.md.dark.getLsbD 0 = false) ∧
    State.reset.takes (cmd (.pf 0) 0) 0x70 = true ∧ strayByte (cmd (.pf 0) 0) false = none := by
  refine ⟨?_, ?_, ?_, ?_, ?_, ?_, ?_, ?_, ?_, ?_, ?_⟩ <;> decide +kernel

/-! Sensors, time, trust and the mailbox. -/

def sensing (o : Option Nat) : State :=
  State.reset.modSlot 2 fun x => { x with
    senBase := 0x10000, senSize := 4096, senOpen := o, senRing := some { addr := 0, n := 4, count := 0 }, senLen := some 64 }
def metered (samples : List Nat) (step : Nat) : State :=
  timed 1000000 { State.reset with mc := { Mc.reset with samples := samples, step := step, source := .ptm } }

def asker : Requester := { id := 1, tdi := none }

theorem witness_Sensors :
    (∀ o ∈ [none, some 1], (0xFFC : BitVec 24).toNat + 4 ≤ ((sensing o).slot 2).senSize ∧ ((sensing o).slot 2).senOpen = o ∧
      (sensing o).senInside 2 (0x10000 + 0xFFC) 4 = true ∧
      (sensing o).senOwned 2 ((sensing o).requesterWorld asker) (0x10000 + 0xFFC) 4 = true) ∧
    (({ sensing none with owner := [(0, 0x50)] } : State).senOwned 2 ((sensing none).requesterWorld asker) (0x10000 + 0xFFC) 4 = false) ∧
    (((sensing (some 2)).slot 2).senOpen ≠ none ∧ ((sensing (some 2)).slot 2).senOpen ≠ some asker.id) ∧
    ¬ (0xFFD : BitVec 24).toNat + 4 ≤ ((sensing none).slot 2).senSize ∧
    (((sensing none).slot 2).senLen = some 64 ∧ ((sensing none).slot 2).senRing = some { addr := 0, n := 4, count := 0 } ∧
      (sensing none).ringRoom { addr := 0, n := 4, count := 0 } = true ∧ (sensing none).ringRoom { addr := 0, n := 4, count := 16 } = false) ∧
    State.reset.mc.source = .freeRunning ∧ (metered [] 1000).mc.source ≠ .freeRunning ∧
    (∀ s ∈ [metered [] 1000, metered [] 600, metered [] 550], s.mc.lastStepAt + 1000000 ≤ s.time) ∧
    ¬ State.reset.mc.lastStepAt + 1000000 ≤ State.reset.time ∧
    (let samples := (200001 :: (metered [200000] 1000).mc.samples).take 10
     200000 * samples.length < samples.sum) ∧
    (let samples := (189999 :: (metered [190000] 550).mc.samples).take 10
     ¬ 200000 * samples.length < samples.sum ∧ samples.sum < 190000 * samples.length) ∧
    (let samples := (190000 :: (metered [200000] 600).mc.samples).take 10
     ¬ 200000 * samples.length < samples.sum ∧ ¬ samples.sum < 190000 * samples.length) ∧ 600 < (metered [] 1000).mc.step ∧
    (metered [] 600).mc.step ≤ 600 ∧ (metered [] 600).mc.step < 1000 ∧ [25, 100][(1 : Vd).val]? = some 100 ∧
    (State.reset.die 0).railOn = true ∧ ((metered [] 600).die 0).thermalAt + 1000000 ≤ (metered [] 600).time ∧
    600 < (State.reset.die 0).thermal ∧ (State.reset.setDie 0 { State.reset.die 0 with thermal := 600 } |>.die 0).thermal < 1000 := by
  refine ⟨?_, ?_, ?_, ?_, ?_, ?_, ?_, ?_, ?_, ?_, ?_, ?_, ?_, ?_, ?_, ?_, ?_, ?_, ?_, ?_⟩ <;> decide +kernel

theorem witness_PackageReset :
    darkOk 0x300 = true ∧ darkOk 0x3C0 = false ∧ State.reset.takes (cmd (.pf 0) 0) 0x71 = true ∧ strayByte (cmd (.pf 0) 0) false = none ∧
    ({ State.reset with md := { Md.reset with mode := .m8 } } : State).takes (cmd (.pf 7) 0) 0x71 = true := by
  decide +kernel

/-- Whether the images and the manifest verify is opaque: with either, a reset boots, or is held; and no power failure is named. -/
theorem witness_PackageBoots (inp : BootInput) (h : inp.blows = none) (m : List Byte) (fw : List Firmware) :
    (bootAccepts m fw = true ∨ bootAccepts m fw = false) ∧ fusesNeeded m fw 0 ≤ inp.blows.getD (fusesNeeded m fw 0) := by
  refine ⟨?_, by simp [h]⟩
  cases bootAccepts m fw <;> simp

def tdi0 (st : TdiState) : Tdi := { Tdi.create 0 with state := st }
def interface (st : TdiState) : State := State.reset.setTdi 5 (some (tdi0 st))

theorem witness_Interfaces :
    (∀ st ∈ [TdiState.unlocked, .locked, .run, .error],
      (interface st).tdi 5 = some (tdi0 st)) ∧ (tdi0 .run).step = none ∧ State.reset.tdi 5 = none ∧
    (∀ n ∈ [1, 2, 3, 4, 5, 6], ((interface .run).setTdi 5 (some { tdi0 .run with step := some n, unlocks := true })).tdi 5 =
      some { tdi0 .run with step := some n, unlocks := true }) ∧
    (let s : State := { interface .run with owner := [(9, 0x50)] }
     CMap.wf 0 s.owner = true ∧ 9 ∈ s.worldEntries 5 ∧ CMap.wf 0 s.mem = true ∧ (s.core (unitOf 0)).job = none ∧ (5 : World) ≠ 0) ∧
    (let t : Tdi := { tdi0 .run with step := some 5, locked := [9], runs := [(keyPane 0 0, keyPane 0 64)] }
     9 ∈ t.locked ∧ keyPane 0 0 ≤ keyPane 0 63 ∧ keyPane 0 63 < keyPane 0 64) := by
  refine ⟨?_, ?_, ?_, ?_, ?_, ?_⟩ <;> decide +kernel

theorem witness_Spdm :
    (∀ p ∈ [SpdmPort.doe (.pf 0), .doe (.vf 5), .mctp], (interface .run).spdmExists p = true) ∧ State.reset.spdmExists (.doe (.vf 5)) = false ∧
    (State.reset.spdm .mctp).version = false ∧ (State.reset.spdm .mctp).caps = false ∧ (State.reset.spdm .mctp).algs = false ∧
    (let s : State := { State.reset with port := { Port.reset with
       spdm := [{ port := .mctp, version := true, caps := true, algs := true, answer := [], sessions := [] }] } }
     (s.spdm .mctp).version = true ∧ (s.spdm .mctp).caps = true ∧ (s.spdm .mctp).algs = true) := by
  refine ⟨?_, ?_, ?_, ?_, ?_, ?_⟩ <;> decide +kernel

/-! The mailbox, contexts, slots and the debugger. -/

/-- The mailbox of function 0 is busy. -/
def busyBox : State :=
  { State.reset with port := { Port.reset with boxes := [{ fn := .pf 0, tag := 7, status := 0, busy := true, response := [] }] } }

theorem witness_Mailbox :
    (State.reset.fnExists (.pf 0) = true ∧ State.reset.takes (cmd (.pf 0) 0) 0x10 = true ∧ (State.reset.box (.pf 0)).busy = false ∧
      State.reset.port.boxes = []) ∧
    strayByte (cmd (.pf 0) 0) false = none ∧ mbCodes.contains 0xEE = false ∧
    (State.reset.takes (cmd (.pf 0) 0 .mctp) 0x01 = true ∧ State.reset.takes (cmd (.pf 0) 0 .mctp) 0x10 = false) ∧
    (State.reset.fnExists (.vf 5) = false ∧ (busyBox.box (.pf 0)).busy = true) ∧
    (interface .run).takes (cmd (.vf 5) 0) 0x10 = true ∧ (interface .run).takes (cmd (.vf 5) 0 .ide) 0x10 = true ∧
    ({ cmd (.pf 0) 0 with stray := some 63 } : MbHdr).stray = some 63 ∧ (0xFFC0 : Dword).toNat % 64 = 0 ∧ (1 : Dword).toNat % 64 ≠ 0 ∧
    (0 : Word).toNat ≤ State.reset.cfm.records.length ∧ State.reset.cfm.records.length < (1 : Word).toNat ∧
    (let s : State := { State.reset with cfm := { Cfm.reset with records := [[], []] } }
     (2 : Word).toNat ≤ s.cfm.records.length) := by
  decide +kernel

theorem witness_Parameters :
    (State.reset.fnExists (.pf 0) = true ∧ (State.reset.box (.pf 0)).busy = false ∧ strayByte (cmd (.pf 0) 0) false = none) ∧
    State.reset.anyContext = false ∧ (on .S).anyContext = true ∧ State.reset.devContext 0 = false ∧
    (1 ≤ (4095 : Half).toNat ∧ (4095 : Half).toNat ≤ 4095 ∧ (256 : Half).toNat ≤ 256) ∧
    State.reset.badRate 0x0111 = false ∧ State.reset.badRate 0x1111 = true ∧ State.reset.badRate 0x0003 = true ∧
    State.reset.tdi 5 = none ∧ 0 ∈ devsOf State.reset.md.mode ∧ ((interface .unlocked).tdi 5).isSome = true ∧
    (interface .unlocked).worldContext 5 = false ∧ (interface .run).tdi 5 = some (tdi0 .run) ∧
    ((died .umbra State.reset).die 0).state = .umbra ∧ (State.reset.die 0).state ≠ .umbra ∧ (3600 : Word).toNat ≤ 3600 ∧
    3600 < (3601 : Word).toNat ∧ 2 < (3 : Byte).toNat := by
  refine ⟨?_, ?_, ?_, ?_, ?_, ?_, ?_, ?_, ?_, ?_, ?_, ?_, ?_, ?_, ?_, ?_, ?_, ?_⟩ <;> decide +kernel

/-- A create block at host address 0 that names 0x69000 bytes of save pool (Table 15.3). -/
def blocked : State := State.reset.writeLoc 0 (.host 0x40) (toBytes 8 0x69000)
/-- Context 3 belongs to function f, whose session 9 is finished. -/
def owned (f : HostFn) (w : World) : State :=
  { (interface .run).setContext 3 (some { loadContext with fn := f, world := w }) with
    port := { (interface .run).port with
      spdm := [{ port := .doe f, version := true, caps := true, algs := true, answer := [], sessions := [(9, true, 77)] }] } }

theorem witness_Contexts :
    (blocked.fnExists (.pf 0) = true ∧ strayByte (cmd (.pf 0) 0) false = none ∧
      (List.finRange 64).find? (fun c => (blocked.context c).isNone) = some 0 ∧ (blocked.blockContext (.pf 0) 0 0).isSome = true) ∧
    ((State.reset.blockContext (.pf 0) 0 0).isNone = true) ∧
    ((owned (.pf 0) 0).fnExists (.pf 0) = true ∧ strayByte (cmd (.pf 0) 3) true = none ∧ (cmd (.pf 0) 3).ctx.toNat = (3 : CtxId).val ∧
      ((owned (.pf 0) 0).context 3).map (·.fn) = some (.pf 0) ∧ fnWorld (.pf 0) = 0) ∧
    ((owned (.vf 5) 5).fnExists (.vf 5) = true ∧ ((owned (.vf 5) 5).context 3).map (·.fn) = some (.vf 5) ∧ fnWorld (.vf 5) ≠ 0 ∧
      ((owned (.vf 5) 5).box (.vf 5)).busy = false ∧ (owned (.vf 5) 5).takes (cmd (.vf 5) 3 .ide) 0x41 = true ∧
      (owned (.vf 5) 5).sessionKey (.vf 5) 9 = some 77) ∧
    loadContext.recMode = .off ∧
    (State.reset.context 3).isNone = true ∧
    ((196607 : Word).toNat + (1 : Word).toNat ≤ 196608 ∧ (196607 : Word).toNat < 196608 ∧ (0x50 : Byte) = (5 : World).setWidth 8 <<< 4 ∧
      (interface .unlocked).ownable 5 = true ∧ ∀ i < (1 : Word).toNat, (interface .unlocked).entryFree (196607 + i) = true) ∧
    (0x04 : Byte).getLsbD 2 = true ∧
    (let s : State := { State.reset with mc := { Mc.reset with firmware := Mc.reset.firmware.set 3 { Firmware.reset with staged := true } } }
     (s.mc.firmware[3]).staged = true) ∧ (State.reset.mc.firmware[3]).staged = false ∧ 3 < (4 : Byte).toNat := by
  refine ⟨?_, ?_, ?_, ?_, ?_, ?_, ?_, ?_, ?_, ?_, ?_⟩ <;> decide +kernel

/-- Whether an image is valid is opaque: of each, the chiplet accepts it or refuses it. -/
theorem witness_Firmware (bytes : List Byte) :
    Firmware.reset.accepts bytes = true ∨ Firmware.reset.accepts bytes = false := by
  cases Firmware.reset.accepts bytes <;> simp

def opened (o : Bool) (s : State) : State :=
  s.modSlot 9 fun x => { x with open_ := o, ctx := some 0, comp := some { addr := 0, n := 4, count := 0 } }

/-- A level table at address 0x8000 whose one entry asks for one M-die (Table 12.4). -/
def levelled : State :=
  ((opened false (on .S)).modSlot 9 fun x => { x with svt := 0x8000 }).writeLoc 0 (.dram 0 0x8010) (toBytes 8 0x8010100000000000)

theorem witness_Slots :
    (State.reset.fnExists (.pf 0) = true ∧ strayByte (cmd (.pf 0) 0) false = none ∧ State.reset.slotDev 9 = State.reset.fnDev (.pf 0) ∧ fnWorld (.pf 0) = 0) ∧
    (State.reset.slot 9).open_ = false ∧ ((opened true State.reset).slot 9).open_ = true ∧
    ((0x1000 : Dword).toNat % 64 = 0 ∧ 4 ≤ (4 : Byte).toNat ∧ (12 : Byte).toNat ≤ 12 ∧ (16 : Byte).toNat ≤ 16 ∧ (1 : Dword).toNat % 64 ≠ 0) ∧
    ((0x1000 : Dword).toNat % 4096 = 0 ∧ (0xFFF000 : Dword).toNat ≤ 2 ^ 24 - 4096) ∧
    ((on .S).context 0 = some loadContext ∧ loadContext.fn = .pf 0 ∧ loadContext.world = ((on .S).slot 9).world ∧
      loadContext.dev = (on .S).slotDev 9) ∧
    (((owned (.vf 5) 5).context 3).map (·.fn) = some (.vf 5) ∧ HostFn.vf 5 ≠ .pf 0) ∧
    ((0xC007 : Dword) &&& ~~~0xCF07 = 0 ∧ (0xC007 : Dword).extractLsb' 8 4 = ((opened true State.reset).slot 9).world ∧
      (0xC007 : Dword).getLsbD 15 = true ∧ (0x4007 : Dword) &&& ~~~0xCF07 = 0 ∧ (0x4007 : Dword).getLsbD 15 = false ∧
      (0x4007 : Dword).extractLsb' 8 4 = (State.reset.slot 9).world ∧ (0x10 : Dword) &&& ~~~0xCF07 ≠ 0) ∧
    (0x8500 : Dword).extractLsb' 8 4 ≠ ((opened true State.reset).slot 9).world ∧
    ((0x8000 : Dword).getLsbD 15 = true ∧ (0x8000 : Dword) &&& ~~~0xCF07 = 0 ∧ (0x8000 : Dword).extractLsb' 8 4 = ((opened false (on .S)).slot 9).world) ∧
    levelled.mayOpen 9 0 = true ∧
    State.reset.mayOpen 9 0 = false ∧
    ((State.reset.modSlot 9 fun y => { y with svt := 0x1000 }).readLevels 9).take = false ∧
    (((interface .run).slot 9).world ≠ fnWorld (.vf 5) ∧ fnWorld (.vf 5) ≠ 0) ∧
    ((interface .run).fnExists (.vf 5) = true ∧ ((interface .run).box (.vf 5)).busy = false ∧ (((interface .run).modSlot 9 fun x => { x with world := 5 }).slot 9).world = fnWorld (.vf 5) ∧
      (interface .run).slotDev 9 = (interface .run).fnDev (.vf 5)) := by
  refine ⟨?_, ?_, ?_, ?_, ?_, ?_, ?_, ?_, ?_, ?_, ?_, ?_, ?_, ?_, ?_⟩ <;> decide +kernel

def stopped : State := (on .S).modCore 0 fun c => { c with dbg := some { at_ := none, stopped := true } }

/-- Core 0 runs a job of world 5, whose TDI runs. -/
def guarded (s : State) : State :=
  (s.setTdi 5 (some (tdi0 .run))).modCore 0 fun c => { c with job := some { loadJob with world := 5 } }

theorem witness_Debug :
    ((on .S).takes (cmd (.pf 0) 0) 0x50 = true ∧ strayByte (cmd (.pf 0) 0) false = none ∧
      devOfDie (on .S).md.mode (dieOf (unitOf 0)) = (on .S).fnDev (.pf 0) ∧
      (on .S).debugWorld 0 = some 0 ∧ fnWorld (.pf 0) = 0 ∧ ((on .S).core 0).isStopped = false ∧ (((on .S).core 0).eng .C).scycle < (1 : Dword).toNat) ∧
    State.reset.debugWorld 0 = none ∧
    ((stopped.core 0).isStopped = true ∧ stopped.debugWorld 0 = some 0) ∧
    (∀ s ∈ [guarded (on .S), guarded stopped], s.debugWorld 0 = some 5 ∧ s.takes (cmd (.vf 5) 0 .ide) 0x50 = true ∧
      s.takes (cmd (.vf 5) 0) 0x50 = true ∧ fnWorld (.vf 5) = 5 ∧
      devOfDie s.md.mode (dieOf (unitOf 0)) = s.fnDev (.vf 5)) ∧
    ((guarded stopped).core 0).isStopped = true ∧
    (let s := (on .S).setTdi 5 (some (tdi0 .run))
     s.debugWorld 0 = some 0 ∧ s.takes (cmd (.vf 5) 0) 0x50 = true ∧ fnWorld (.vf 5) ≠ 0) ∧ (8 : Dword) ≠ 0 := by
  refine ⟨?_, ?_, ?_, ?_, ?_, ?_, ?_⟩ <;> decide +kernel

/-! The whole machine. -/

def turned : State := { on .S with schedule := [.engine 0 .S] }

theorem witness_Step :
    (let r : State := { turned with schedule := [], cur := (0, .S) }
     turned.schedule = [.engine 0 .S] ∧ r.appendsOut 0 = false ∧
      ({ r with fab := { r.fab with appends := [{ append0 false with from_ := 0 }] } } : State).appendsOut 0 = true ∧ (r.eng 0 .S).started = true ∧ (r.core 0).halted = false ∧ (r.eng 0 .S).ended = false ∧
      (r.eng 0 .S).fencing = false ∧ (r.before 0 .S).isNone = true ∧ (r.fetchWords 0 0 9).1 = List.replicate 9 0 ∧
      (decode (envOf 0 .S) (List.replicate 9 0)).words = 1 ∧ (r.eng 0 .S).due = false) ∧
    (let s := turned.writeLoc 0 (.dram 0 0) (toBytes 4 1)
     (s.fetchWords 0 0 9).1.head? = some 1 ∧ (decode (envOf 0 .S) (s.fetchWords 0 0 9).1).words = 1) ∧
    (let s : State := turned.modEng 0 .S fun g => { g with flights := [{ landAt := 0, writes := [], flags := 0, sig := 0, lost := none }] }
     (s.eng 0 .S).due = true) ∧
    0x3FFFC + 4 ≤ 0x40000 := by
  refine ⟨?_, ?_, ?_, ?_⟩ <;> decide +kernel

theorem witness_StepSound : turned.memSound ∧ ∃ t, step turned = .next t := by
  refine ⟨?_, ?_⟩
  · unfold State.memSound Memory.wf; decide +kernel
  · exact ⟨_, rfl⟩


/-! Witnesses of the clauses on loop ends, guarded-off instructions and precise faults. -/

/-- An instruction of n words stands at the end of the innermost loop of its engine; its counter is c. -/
def looping (e : Eng) (n c : Nat) (around : List LoopEntry) : State :=
  set (on e) fun g => { g with
    loops := { start := 0x10, end_ := 0x20, lc := 2, rot := true, stg := 3 } :: around, lc := g.lc.set 2 (dw c),
    pc := 0x24 - BitVec.ofNat 64 (4 * n) }

def offHdr : Hdr := { wait := 0, sig := 0, guard := 5, neg := false }

theorem witness_LoopEnds :
    (∀ around ∈ [[], [{ start := 8, end_ := 0x20, lc := 1, rot := false, stg := 0 }], [{ start := 8, end_ := 0x30, lc := 1, rot := false, stg := 0 }]],
      ∀ c ∈ [0, 1, 2], ∀ i ∈ [Instr.nop, .pset 20 true, .iadd offHdr ⟨true, false, false⟩ ⟨.x 1, .x 2, .x 3, .none⟩],
      let s := looping .S (instrWords i) c around
      s.me.loops.tail = around ∧ s.me.hm = false ∧ s.me.deferred = none ∧ s.me.noEnd = false ∧ s.me.quiet ∧ s.me.latch.pMask = 0 ∧
        s.me.latch.lcMask = 0 ∧ (s.core 0).trcctl.getLsbD 1 = false ∧ i.legalOn (envOf 0 .S) = true ∧
        s.me.pc.toNat + 4 * instrWords i = 0x24 ∧ (s.me.lc[2]).toNat = c ∧ s.me.guardOn (some offHdr) = false) ∧
    (∀ k ∈ ([{ start := 8, end_ := 0x30, lc := 1, rot := false, stg := 0 }] : List LoopEntry).head?,
      ¬((0x20 : Dword).toNat ≤ k.end_.toNat ∧ k.end_.toNat ≤ (0x20 : Dword).toNat + 3)) := by
  simp only [quiet_iff]; decide +kernel

/-- Guard p5 does not hold, so the instruction is off, whether or not it names tokens. -/
theorem witness_GuardedOff :
    ∀ h ∈ [offHdr, { offHdr with sig := 3 }, { offHdr with wait := 1, sig := 3 }],
    let full (e : Eng) : State := (on e).modCore 0 fun c => { c with tokens := Vector.replicate 16 1 }
    (∀ i ∈ [Instr.iadd h ⟨true, false, false⟩ ⟨.x 1, .x 2, .x 3, .none⟩, .idiv h ⟨true, false, false⟩ ⟨.x 1, .x 2, .x 3, .none⟩,
        .ld h ⟨0, 3, false⟩ ⟨.x 5, .a 7, .none, 0⟩, .st h ⟨0, 3, false⟩ ⟨.x 5, .a 7, .none, 0⟩,
        .at_ h ⟨0, .add, false, false⟩ ⟨.x 5, .x 6, .x 7, .none⟩, .msend h ⟨.x 1, .x 2, .x 3⟩ 0, .mrecv h ⟨.x 1, .x 2, .none⟩ 0,
        .phadv h ⟨.x 1, .none, .none⟩, .drain h ⟨.none, .none, .none⟩], (full .S).Ready i (some h)) ∧
    (full .S).me.guardOn (some h) = false ∧ (full .S).me.divFree ≤ (full .S).me.scycle ∧
    (∀ i ∈ [Instr.vadd h ⟨.f32, .rn, false, false, true⟩ ⟨.v 1, .v 2, .v 3, .none⟩, .vst h ⟨0, .i8, .rn, false⟩ ⟨.v 5, .a 7, .none, 0⟩,
        .vtrn h ⟨.f32, .rn, .add, false⟩ ⟨.v 1, .v 2, .none, .none⟩, .vlend h true 2], (full .V).Ready i (some h)) ∧
    (full .V).me.guardOn (some h) = false ∧ (∀ k : BitVec 2, (full .V).slotBusy k = false) := by
  simp only [ready_iff]; decide +kernel

/-- Every other engine of core 0 has ended. -/
def alone (e : Eng) (s : State) : State := s.modCore 0 fun c =>
  ([Eng.S, .V, .M, .C].filter (· ≠ e)).foldl (fun c e => c.setEng e { c.eng e with ended := true }) c

theorem witness_TokenFaults :
    ∀ e ∈ [Eng.S, .V, .M, .C],
    let s := alone e (handled (on e))
    let t := s.modCore 0 fun c => { c with tokens := Vector.replicate 16 8 }
    (∀ x ∈ [s, t], x.me.mayTrap ∧ x.me.deferred = none ∧ x.me.quiet ∧ x.me.popDone = false ∧ (x.core 0).mpop = []) ∧
      (Instr.tsig 5).legalOn (envOf 0 e) = true ∧ (t.core 0).overCeil e 5 ≠ 0 ∧ (Instr.twait 1).legalOn (envOf 0 e) = true ∧
      (s.core 0).orphanBits e 1 ≠ 0 ∧ (s.core 0).overCeil e 5 = 0 ∧
      (Instr.iadd { hdr with sig := 5, wait := 1 } ⟨true, false, false⟩ ⟨.x 1, .x 2, .x 3, .none⟩).legalOn (envOf 0 .S) = true := by
  simp only [mayTrap_iff, quiet_iff]; decide +kernel

/-- SC0 or SC1 moves, with a3 an address. -/
def hubbing (u : UnitId) (ea : Nat) : State := setA (handled { State.reset with cur := (u, .S) }) 3 (dw ea)

theorem witness_HubWindow :
    (∀ u ∈ [48, 49], isSched u = true ∧
      ∀ ea ∈ [0x01E0000000000000, 0x01E00000003FFFF8, 0x01E0000000000001, 0x01E0000000400000, 0x01DFFFFFFFFFFFF8],
        let s := hubbing u ea
        s.Runs (.ld hdr ⟨0, 3, false⟩ ⟨.x 5, .a 3, .none, 0⟩) hdr ∧ s.Ready (.ald (.a 1) (.a 3) 0) none ∧
          s.Runs (.st hdr ⟨0, 3, false⟩ ⟨.x 5, .a 3, .none, 0⟩) hdr ∧ s.Ready (.ast .zero (.a 3) 0) none ∧ s.me.scalar (.a 3) = dw ea ∧
          (s.core u).queueBusy .S = false ∧ s.me.mayTrap ∧ (s.core u).mpop = [] ∧ waitOf (some hdr) = 0 ∧ s.me.frozen ≠ some .ring) ∧
    (0x01E00000003FFFF8 : Dword).toNat < 0x01E0000000400000 ∧ (0x01E00000003FFFF8 : Dword).toNat % 8 = 0 ∧
    (0x01E0000000000001 : Dword).toNat % 8 ≠ 0 ∧ 0x01E0000000400000 ≤ (0x01E0000000400000 : Dword).toNat ∧
    (0x01DFFFFFFFFFFFF8 : Dword).toNat < 0x01E0000000000000 ∧
    (let s := hubbing 48 0x01E0000000000228
     let w : State := { s with md := { s.md with hqStores := [false] } }
     (w.hubStore false 0x228 [0]).hubBusy false = true ∧ (s.hubStore false 0x110 [0]).hubBusy false = false ∧
       (set s fun g => { g with frozen := some .ring }).hubBusy false = false) := by
  simp only [runs_iff, ready_iff, mayTrap_iff]
  refine ⟨?_, ?_, ?_, ?_, ?_, ?_, ?_⟩ <;> decide +kernel

/-- Addresses that a job of core 0 may not read: another core's scratchpad, a core that is none, beyond its own, misaligned, and none that
a page table maps. -/
theorem witness_PreciseFaults :
    ∀ p ∈ [((0x01F0000005000000 : Nat), (2 : Nat)), (0x01F0000030000000, 0x05), (0x01F000003E000000, 0x05), (0x01F000003F001000, 0x05),
        (0x01F000003F000001, 0x03), (1, 0x03), (0x200000000000000, 0x01)],
      let s := handled (setA (on .S) 3 (dw p.1))
      s.Runs (.ld hdr ⟨0, 3, false⟩ ⟨.x 5, .a 3, .none, 0⟩) hdr ∧ s.Ready (.ald (.a 1) (.a 3) 0) none ∧
        s.Runs (.st hdr ⟨0, 3, false⟩ ⟨.x 5, .a 3, .none, 0⟩) hdr ∧ s.Ready (.ast .zero (.a 3) 0) none ∧ s.me.scalar (.a 3) = dw p.1 ∧
        s.me.mayTrap ∧ (s.core 0).mpop = [] ∧ (s.core 0).queueBusy .S = false ∧
        ∀ acc ∈ [Acc.read, .write], s.resolve 0 loadJob acc 8 p.1 = .error (BitVec.ofNat 8 p.2) := by
  simp only [runs_iff, ready_iff, mayTrap_iff]; decide +kernel

/-- Core 0's micro-TLB holds the leaf of the page at address 0. -/
def leafed (leaf : Dword) (own : CMap Byte) : State :=
  { on .S with tlb := [{ vd := 0, ctx := 0, base := 0, size := 2 ^ 16, leaf := leaf }], owner := own }

theorem witness_Translations :
    (∀ l ∈ [0x500B1, 0x50091, 0x1000000000500B1, 0x5FFFFF00B1],
      (leafed (dw l) []).context 0 = some loadContext ∧ (leafed (dw l) []).leafOf (some 0) 0 loadContext 0x1234 = some (dw l, 2 ^ 16)) ∧
    (let s := leafed 0x500B1 []
     let p := entryAddr 0x500B1 % 2 ^ 56 / 2 ^ 16 * 2 ^ 16 + 0x1234 % 2 ^ 16
     windowOf 0x1234 = .mapped ∧ leafAllows 0x500B1 .read = true ∧ (0x500B1 : Dword).getLsbD 56 = false ∧ s.inCkptStore 0 p = false ∧
       ownerAllows (s.ownerOf 0 p) 0 = true ∧ s.leafOf (some 0) 0 loadContext (2 ^ 57 - 1) = none ∧
       s.translate (some 0) 0 0 .read 0x1234 = .ok (.dram 0 p) ∧ s.resolve 0 loadJob .read 1 (2 ^ 57) = .error 0x01) ∧
    leafAllows 0x50091 .write = false ∧ (0x1000000000500B1 : Dword).getLsbD 56 = true ∧
    (leafed 0x5FFFFF00B1 []).inCkptStore 0 (entryAddr 0x5FFFFF00B1 % 2 ^ 56 / 2 ^ 16 * 2 ^ 16) = true ∧
    (∀ o ∈ [0x50, 4], ownerAllows ((leafed 0x500B1 [(0, BitVec.ofNat 8 o)]).ownerOf 0 (entryAddr 0x500B1 % 2 ^ 56 / 2 ^ 16 * 2 ^ 16)) 0 = false) := by
  refine ⟨?_, ?_, ?_, ?_, ?_, ?_⟩ <;> decide +kernel

/-- Core 1 of the die runs a job too: of the context, of another world, or of another context. -/
def neighbour (j : Job) : State := (handled (setX (on .S) 6 (0x01F0000001000000 + 8))).modCore 1 fun c => { c with job := some j }

theorem witness_AtomicFaults :
    (∀ p ∈ [({ loadJob with world := 5 }, 0x04), ({ loadJob with ctx := 3 }, 0x02), ({ loadJob with spNeed := 0 }, 0x05)],
      let s := neighbour p.1
      s.Runs (.at_ hdr ⟨0, .add, true, false⟩ ⟨.x 5, .x 6, .x 7, .none⟩) hdr ∧ s.me.mayTrap ∧ (s.core 0).mpop = [] ∧
        (s.core 0).job = some loadJob ∧ (s.core (unitOf 1)).job = some p.1 ∧ dieOf (unitOf 1) = dieOf 0 ∧
        s.atResolve 0 loadJob (s.me.scalar (.x 6)).toNat 8 = .error p.2) ∧
    (let s := neighbour loadJob
     (s.core (unitOf 1)).job = some loadJob ∧ (s.core (unitOf 2)).job = none ∧ dieOf (unitOf 24) ≠ dieOf 0 ∧
      s.atResolve 0 loadJob (0x01F0000001000000 + 8) 8 = .ok (1, 8) ∧ s.atResolve 0 loadJob (0x01F0000001000000 + 9) 8 = .error 0x03 ∧
      s.atResolve 0 loadJob (0x01F0000030000000 + 9) 8 = .error 0x05) ∧
    (∀ c o, windowOf 0 ≠ .scratch c o) := by
  simp only [runs_iff, mayTrap_iff]
  refine ⟨?_, ?_, fun c o h => ?_⟩
  · decide +kernel
  · decide +kernel
  · rw [show windowOf 0 = .mapped by decide] at h; cases h


/-- V of core 0, with a7 an address, and a handler. -/
def vAt (ea : Nat) : State := setA (handled vMem) 7 (dw ea)

theorem vready_vAt (ea : Nat) (dst : Spec) (srcs : List Spec) : (vAt ea).VReady dst srcs ↔ vreadyB (vAt ea) dst srcs = true :=
  vready_iff _ rfl _ _

theorem witness_VectorFaults :
    (∀ ea ∈ [1, 0x01F0000005000000, 0x200000000000000],
      let s := vAt ea
      (∀ i ∈ [Instr.vld hdr mI8 ⟨.v 5, .a 7, .none, 0⟩, .vst hdr mI8s ⟨.v 5, .a 7, .none, 0⟩,
        .vldp hdr ⟨0, 0, .rn, false⟩ ⟨.v 5, .a 7, .lit32 0, 0⟩, .vstp hdr ⟨0, 0, .rn, false⟩ (.v 5) (.a 7) (.lit32 0) false 0 127 0x00],
        s.Runs i hdr) ∧ s.me.mayTrap ∧ s.slotBusy 3 = false ∧ (s.core 0).job = some loadJob ∧ s.VReady (.v 5) [] ∧ s.VReady .none [.v 5] ∧
      (s.vLocs loadJob .read 64 (vSpan s ⟨.v 5, .a 7, .none, 0⟩ .i8)).toBool = false ∧
      (s.vLocs loadJob .write 64 (vSpan s ⟨.v 5, .a 7, .none, 0⟩ .i8)).toBool = false) ∧
    (∀ ea ∈ [0x01F0000005000000, 0x200000000000000], alignFault ea 64 = none ∧
      ((vAt ea).vLocs loadJob .read 64 (paneLines ea (panesOf 0 0 1024))).toBool = false ∧
      ((vAt ea).vLocs loadJob .both 64 (paneLines ea (panesOf 0 0 1024))).toBool = false) ∧
    alignFault 1 64 = some 0x03 ∧ alignFault 0x01F0000030000001 64 = some 0x05 ∧ 3 % epb 0 ≠ 0 := by
  simp only [runs_iff, mayTrap_iff, vready_vAt]
  refine ⟨?_, ?_, ?_, ?_, ?_⟩ <;> decide +kernel

/-- The places that register 1 names begin at an address that no page table maps. -/
theorem witness_IndexFaults :
    let s := vAt 0x200000000000000
    s.Runs (.vgath hdr mI8 ⟨.v 5, .a 7, .v 1, 0⟩) hdr ∧ s.Runs (.vscat hdr mI8s ⟨.v 5, .a 7, .v 1, 0⟩) hdr ∧ s.VReady (.v 5) [.v 1] ∧
      s.VReady .none [.v 5, .v 1] ∧ (s.vLocs loadJob .read 1 [0x200000000000008]).toBool = false ∧
      (s.vLocs loadJob .write 1 [0x200000000000008]).toBool = false := by
  simp only [runs_iff, vready_vAt]
  refine ⟨?_, ?_, ?_, ?_, ?_, ?_⟩ <;> decide +kernel

/- The pane at address 0 has no check value. -/
set_option maxRecDepth 100000 in
theorem witness_PaneFault :
    (match (on .V).vLocs loadJob .read 64 (paneLines 0 (panesOf 0 0 1024)) with
      | .error _ => false
      | .ok ls => match (on .V).vReads loadJob 64 (.panes 0) none ls with
        | .ok _ bs none => (firstFault 0 (joinPanes 1 bs)).isSome
        | _ => false) = true := by decide +kernel

theorem witness_LentNamed :
    let s := (handled (on .V)).modCore 0 fun c => { c with lent := 15 }
    (∀ i ∈ [Instr.vadd hdr ⟨.f32, .rn, false, false, true⟩ ⟨.v 1, .v 2, .v 3, .none⟩, .vfma hdr ⟨.f32, .rn, false, false, true⟩ ⟨.v 1, .v 2, .v 3, .v 4⟩,
        .vmovs hdr ⟨.f32, .rn, false, false, true⟩ ⟨.v 1, .v 2, .none, .none⟩, .vcmp hdr ⟨.f32, .lt, false, true⟩ ⟨.v 1, .v 2, .v 3, .none⟩,
        .vtrn hdr ⟨.f32, .rn, .add, false⟩ ⟨.v 1, .v 2, .none, .none⟩, .part hdr ⟨.f32, .ge, false⟩ ⟨.v 1, .v 2, .v 3, .none⟩,
        .vld hdr mI8 ⟨.v 5, .a 7, .none, 0⟩, .vst hdr mI8s ⟨.v 5, .a 7, .none, 0⟩, .vgath hdr mI8 ⟨.v 5, .a 7, .v 1, 0⟩,
        .vscat hdr mI8s ⟨.v 5, .a 7, .v 1, 0⟩, .vldp hdr ⟨0, 0, .rn, false⟩ ⟨.v 5, .a 7, .lit32 0, 0⟩,
        .vstp hdr ⟨0, 0, .rn, false⟩ (.v 5) (.a 7) (.lit32 0) false 0 127 0x00], s.Runs i hdr) ∧
    s.me.mayTrap ∧ (∀ k : BitVec 2, s.slotBusy k = false) ∧
    ∀ r ∈ [1, 5], (s.core 0).lent.getLsbD ((physReg (s.core 0).eV.rrb (BitVec.ofNat 6 r)).toNat / 16) = true := by
  simp only [runs_iff, mayTrap_iff]; decide +kernel

theorem witness_Unclaimed :
    let s := handled (on .M)
    let o := s.modCore 0 fun c => { c with chain := { c.chain with state := .open, vbase := 16, rows := 64 }, lent := 2, lentPrev := 2 }
    s.Runs (.tsrel hdr 63) hdr ∧ s.Runs (.mloadb hdr (.slot 63)) hdr ∧ s.me.mayTrap ∧ (s.core 0).mpop = [] ∧ s.claims 0 63 = false ∧
      o.Runs (.mma hdr 16 (.slot 63) 3 63) hdr ∧ (o.core 0).chain.isOpen = true ∧ groupRow (isCCore 0) 16 16 = some 0 ∧
      0 + rowCount 3 ≤ (o.core 0).chain.rows ∧ (o.core 0).isLent o.time 16 = true ∧ (o.core 0).chain.count < (o.readSr 0 .M 0x021).toNat ∧
      o.claims 0 63 = false := by
  simp only [runs_iff, mayTrap_iff]; decide +kernel

def facet1 (k : Nat) : Facet :=
  { route := 0x0001, msgid := 0, seq := 0, index := 0, km := BitVec.ofNat 8 (16 * k + 1), len := 64, crc := 0, payload := List.replicate 64 7 }
def appendOf (k : Nat) : Append := { lostAppend with facets := [((0, 8, 0), facet1 k)] }

theorem witness_AppendFacets :
    lostAppend.msgSeq = some 0 ∧ lostAppend.facets = [] ∧ (append0 false).msgSeq = none ∧
    ((appendOf 2).facets = [((0, 8, 0), facet1 2)] ∧ (appendOf 2).facets.length < (facet1 2).k ∧ (appendOf 2).entry = none) ∧
    ((facet1 1).k ≤ (appendOf 1).facets.length ∧ (appendOf 1).entry.isSome = true) ∧
    (let s : State := { queueing (on .S) 15 with fab := { (on .S).fab with appends := [lostAppend, append0 false] } }
     ∀ a ∈ s.fab.appends, (∀ y ∈ s.fab.appends, y.target = 0 → y.queue = 0 → y.from_ = a.from_ → y = a) ∧ a.target = 0 ∧ a.queue = 0) ∧
    (∀ vd ∈ (queueing (on .S) 15).dieListOf 0, (queueing (on .S) 15).ctlUp (endOf 0) (endOfVd vd) = true) := by
  refine ⟨rfl, rfl, rfl, ?_, ?_, ?_, ?_⟩ <;> decide +kernel

/-- No path is up. -/
def cut (s : State) : State := { s with fab := { s.fab with down := allPaths } }

theorem witness_NoPath :
    (grouped (on .S)).ctlUp (endOf 0) 8 = true ∧ ((on .S).begins (some hdr)).unheard 0 0 loadJob.slot 0 = false ∧
    ((on .S).fetchHome 0 .S = endOf 0 ∧ (on .S).fetchReaches 0 .S = true) ∧
    ((cut (grouped (on .S))).ctlUp (endOf 0) 8 = false ∧ (cut (grouped (on .S))).Runs (.gbar hdr ⟨.none, .none, .none⟩ 3) hdr) ∧
    (∀ k ∈ [(0 : CoreId), 1], episode.ctlUp 8 (endOf (unitOf k)) = true) ∧
    (noded .running).ctlUp 8 (endOf (unitOf 1)) = true ∧
    ((cut (noded .running)).ctlUp 8 (endOf (unitOf 1)) = false ∧ (cut (noded .running)).md.dispatching.any (fun d => d.core = 1) = true) ∧
    (let s := set (on .S) fun g => { g with pc := 0x2000 }
     s.fetchHome 0 .S ≠ endOf 0 ∧ s.fetchReaches 0 .S = true ∧ (cut s).fetchReaches 0 .S = false ∧ ((cut s).before 0 .S).isNone = true) := by
  simp only [runs_iff]
  refine ⟨?_, ?_, ?_, ?_, ?_, ?_, ?_, ?_⟩ <;> decide +kernel

theorem witness_RendLoss :
    ∀ e ∈ [Eng.V, .M, .C],
      let s := handled (set (on e) fun g => { g with lost := some (.append 0 0) })
      s.Ready .rend none ∧ s.me.hm = false ∧ s.me.mayTrap ∧ (s.core 0).mpop = [] ∧ (s.core 0).chain.state = .none ∧ s.me.lost = some (.append 0 0) := by
  simp only [ready_iff, mayTrap_iff]; decide +kernel


theorem witness_Saves :
    let s := preempting (request true true 0) id
    (s.core 0).mayBeSaved = true ∧ s.appendsOut 0 = false ∧ s.saveBarred 0 = false ∧ (s.node 0 1).isSome = true ∧
      (s.core 0).job = some loadJob ∧
    (let t : State := { s with flips := [(keyVector 0 0, 1), (keyVector 0 2048, 1)] }
     (t.core 0).mayBeSaved = true ∧ t.appendsOut 0 = false ∧ t.saveBarred 0 = false ∧ (t.readSaved 0).toBool = false) ∧
    ({ s with fab := { s.fab with appends := [{ append0 false with from_ := 0 }] } } : State).appendsOut 0 = true ∧
    ((s.setTdi 5 (some { tdi0 .run with step := some 2 })).modCore 0 fun c => { c with job := some { loadJob with world := 5 } }).saveBarred 0 = true := by
  refine ⟨?_, ?_, ?_, ?_, ?_, ?_, ?_, ?_⟩ <;> decide +kernel

theorem witness_Saved : ∃ b, (preempting (request true true 0) id).readSaved 0 = .ok b := by
  refine ⟨preempting (request true true 0) id, ?_⟩
  rw [State.readSaved, readFile_unflipped _ _ (by decide +kernel)]
  rfl

/-- Slot 0 has two entries of zeros in its submission ring; its completion ring has room, or none. -/
def submitting (count : Nat) : State :=
  ((on .S).modSlot 0 fun x => { x with
    sub := some { addr := 0x1000, n := 4, count := 0 }, ctx := some 0, comp := some { addr := 0x3000, n := 4, count := count } }).writeLoc
      0 (.host 0x1000) (toBytes 8 2)

theorem witness_Drains :
    (∀ p ∈ [(0, false), (16, true)],
      let s := submitting p.1
      s.role false = .active ∧ (0 : Dword).extractLsb' 32 6 = 0 ∧ (s.slot 0).sub = some { addr := 0x1000, n := 4, count := 0 } ∧
        (s.drainEntries 0 { addr := 0x1000, n := 4, count := 0 } (s.slot 0).ctx (s.slot 0).world
          (fullCount 0 (s.hostDword 0x1000)) (s.hostDword 0x1000 - fullCount 0 (s.hostDword 0x1000))).2.recordsWait 0 = p.2) ∧
    (let s : State := { on .S with md := { (on .S).md with held := [report0] } }
     let r := s.modSlot 0 fun x => { x with ckptPending := [1] }
     (1 : Dword).getLsbD 0 = true ∧ s.role false = .active ∧ s.md.hqStores = [] ∧ s.md.releasing = none ∧ s.headWaits = false ∧
      r.md.held = [report0] ∧ r.headWaits = true) ∧
    State.reset.hubBusy false = false := by
  refine ⟨?_, ?_, ?_⟩ <;> decide +kernel

theorem witness_OtherArrays :
    (∀ a ∈ [SramArray.vector 0, .operand 0, .operand 24, .pane 0],
      let key := arrayBase a + 8
      let one : State := { on .S with flips := [(key, 1)] }
      let two : State := { on .S with flips := [(key, 1), (key + 2048, 1)] }
      8 < arraySize a ∧ flipFails (one.flipWord key) = true ∧ (∀ m ∈ groupMates key, flipFails (one.flipWord m) = false) ∧
        flipFails (leftOf one key) = false ∧ one.rawArray a = false ∧ flipFails (two.flipWord key) = true ∧
        ¬ ∀ m ∈ groupMates key, flipFails (two.flipWord m) = false) ∧
    (let s := (testing (flipped 8 1 (on .S))).modCore 0 fun c => { c with arrtestRaw := true }
     s.rawArray (.scratch 0) = true ∧ flipFails (s.flipWord (keyScratch 0 8)) = true) ∧ isCCore (unitOf 24) = true ∧
    (0 * 2048 + 31 * 64 < scratchSize (unitOf (coreAt 0 5)) ∧ 127 * 2048 + 31 * 64 < 2 ^ 18 ∧
      CMap.get 0 ((testing (on .S)).die 0).spares (spareKey 5 1 31) < 16) := by
  refine ⟨?_, ?_, ?_, ?_⟩ <;> decide +kernel

theorem witness_WalkFails :
    (tabled.tlb.find? fun t => t.vd = 0 && t.maps 0 0x1000000000000) = none ∧
    tabled.walkFrom loadContext 0x1000000000000 loadContext.root.toNat 4 = none := by
  constructor <;> decide +kernel

theorem witness_SlotsOfDevices :
    let s := ((died .lost State.reset).modSlot 3 fun x => { x with open_ := true }).modSlot 4 fun x => { x with open_ := true, state := .nofit }
    3 ∈ s.openSlots 0 ∧ 4 ∈ s.openSlots 0 ∧ (s.slot 3).state ≠ .nofit ∧ (s.slot 4).state = .nofit ∧ s.mustReconfigure 0 = true ∧
      (let t : State := { s with cfm := { s.cfm with phase := s.cfm.phase.set 0 .drain } }
       t.cfm.phase[0] = .drain ∧ t.settled 0 = true ∧ 3 ∈ t.openSlots 0 ∧ 1 ∈ t.md.dieList[0]) := by
  decide +kernel

theorem witness_Formed : (0 : BitVec 3).toNat < 4 ∧ 0 < (List.replicate 4096 (7 : Byte)).length ∧ (List.replicate 4096 (7 : Byte)).length ≤ 4096 := by
  simp only [List.length_replicate]; decide

theorem witness_BootTest :
    let inp : BootInput := { dark := 0x300, cal := 1, results := [0x101, 0x3] }
    (∃ l < 6, (inp.results.getD 1 0).getLsbD l = true ∧ (inp.results.getD 1 0).getLsbD (8 + l) = false) ∧
    (¬ ∃ l < 6, (inp.results.getD 0 0).getLsbD l = true ∧ (inp.results.getD 0 0).getLsbD (8 + l) = false) ∧ inp.repairs = [] ∧ inp.blows = none := by
  decide +kernel

/-- World 5 has a context with nodes, and is in step 2 of its reset. -/
def emptying : State :=
  let s := (interface .run).setTdi 5 (some { tdi0 .run with step := some 2, unlocks := true })
  { s.setContext 0 (some { loadContext with world := 5, fn := .vf 5 }) with
    md := { s.md with nodes := [node1 .ready, { node1 .waiting with id := 2 }], pool := [(0, 1)] } }

theorem witness_WorldStep2 :
    emptying.tdi 5 = some { tdi0 .run with step := some 2, unlocks := true } ∧
    emptying.context 0 = some { loadContext with world := 5, fn := .vf 5 } ∧
    after (exec (.worldReset 5) emptying) (fun r => (r.node 0 1).isSome && (r.node 0 2).isSome) = true := by
  refine ⟨?_, rfl, ?_⟩ <;> decide +kernel

theorem witness_Pushes :
    let x := drainStream
    let s := (on .C).modCore 0 fun c => { c with
      streams := c.streams.set 2 (some x),
      eV := { c.eV with scycle := 1, flights := [{ issuedAt := 0, landAt := 9, writes := [.push 2 VReg.zero .zero], flags := 0, sig := 0, lost := none }] } }
    s.Runs (.sunbind hdr 3 ⟨.none, .q 2, 1⟩) hdr ∧ s.cqRoom 0 3 = true ∧ ((s.core 0).streams[2]).isSome = true ∧
      (s.core 0).pushesBefore 2 (s.core 0).eV.scycle = true ∧ (s.core 0).pushesBefore 2 0 = false := by
  simp only [runs_iff]; decide +kernel


/-! A whole image in memory. Its layout is opaque, so the kernel cannot evaluate its bytes; lemmas place and read them. -/

/-- Bytes from a key up, in the canonical form. -/
def placed : Nat → List Byte → CMap Byte
  | _, [] => []
  | k, b :: bs => if b = 0 then placed (k + 1) bs else (k, b) :: placed (k + 1) bs

theorem placed_below (bs : List Byte) : ∀ k j, j < k → CMap.get 0 (placed k bs) j = 0 := by
  induction bs with
  | nil => intros; rfl
  | cons b bs ih =>
    intro k j h
    unfold placed
    split
    · exact ih _ _ (by omega)
    · rw [CMap.get, if_neg (by omega)]; exact ih _ _ (by omega)

theorem placed_get (bs : List Byte) : ∀ k i, CMap.get 0 (placed k bs) (k + i) = bs.getD i 0 := by
  induction bs with
  | nil => intros; rfl
  | cons b bs ih =>
    intro k i
    unfold placed
    cases i with
    | zero =>
      split
      · simpa [‹b = 0›] using placed_below bs (k + 1) k (by omega)
      · simp [CMap.get]
    | succ i =>
      have h := ih (k + 1) i
      rw [show k + 1 + i = k + (i + 1) by omega] at h
      split
      · simpa using h
      · rw [CMap.get, if_neg (by omega)]; simpa using h

theorem map_getD (bs : List Byte) (n : Nat) (h : bs.length = n) : ((List.range n).map fun i => bs.getD i 0) = bs := by
  apply List.ext_getElem <;> simp +contextual [h]

theorem block_length {α : Type} (n : Nat) (f : α → Nat → Byte) (x : α) : (block n f x).length = n := by simp [block]

theorem wordBytes_length (ws : List Word) : (wordBytes ws).length = 4 * ws.length := by
  induction ws with
  | nil => rfl
  | cons w ws ih => simp only [wordBytes, List.flatMap_cons, List.length_append] at ih ⊢; rw [ih]; simp [toBytes]; omega

theorem flat_length {n : Nat} (l : List (Vector Word n)) : (l.flatMap (·.toList)).length = n * l.length := by
  induction l with
  | nil => simp
  | cons v l ih => simp [List.flatMap_cons, ih, Nat.mul_add]; omega

theorem imageBytes_length (s : State) (u : UnitId) (c : Core) (ts : List (BitVec 7 × TileHdr)) (b : Bool) (h : c.inFlight = []) :
    (s.imageBytes u c ts b).length = 0x69000 := by
  simp only [State.imageBytes, h, State.gap, List.length_append, block_length, wordBytes_length, List.take_nil, List.flatMap_nil,
    List.length_nil, List.length_map, List.length_range, engines, List.flatMap_cons]
  simp only [flat_length, Vector.length_toList]

/-- A package of one die whose memory holds bytes from address 0 of device 0, and of the host. -/
def holding (s : State) (bs : List Byte) : State :=
  { s with mem := placed (keyDram 0 0) bs, md := { s.md with dieList := s.md.dieList.set 0 [0] } }

theorem holding_byte (s : State) (bs : List Byte) (i : Nat) (h : i < 0x69000) (hk : s.lineKey = []) (he : (s.die 0).epoch = 0) :
    (holding s bs).dramByte 0 0 i = bs.getD i 0 := by
  have hd : dramHome ((holding s bs).dieListOf 0) i = some (0, i) := by
    rw [show (holding s bs).dieListOf 0 = [0] by simp [holding, State.dieListOf]]
    unfold dramHome
    have : i < gb32 * 1 := by rw [gb32]; omega
    simp only [List.length_singleton, this, if_true, Nat.mod_one, List.getElem?_cons_zero, Nat.div_one]
    rw [show 4096 * (i / 4096) + i % 4096 = i by omega]
  have ht : ((holding s bs).lineTag 0 0 i 0).code = 0 := by
    simp [State.lineTag, LineTag.code, show ((holding s bs).die 0).epoch = 0 from he]
  rw [State.dramByte, hd]
  simp only [ht, show (holding s bs).lineKey = [] from hk, CMap.get, if_true, State.rawByte, memDefault]
  have := placed_get bs (keyDram 0 0) i
  rwa [show keyDram 0 0 + i = keyDram 0 i by simp [keyDram]] at this

theorem holding_read (s : State) (bs : List Byte) (x : Context) (h : bs.length = 0x69000) (hx : x.dev = 0 ∧ x.world = 0)
    (hs : s.lineKey = [] ∧ (s.die 0).epoch = 0 ∧ s.owner = []) : (holding s bs).devRead x 0 0x69000 = bs := by
  rw [State.devRead, State.ownRead, hx.1, hx.2]
  refine (List.map_congr_left fun i hi => ?_).trans (map_getD bs 0x69000 h)
  have ho : (holding s bs).ownerOf 0 (0 + i) = 0 := by
    simp [State.ownerOf, show (holding s bs).owner = [] from hs.2.2, CMap.get]
  rw [ho, if_pos (by decide), Nat.zero_add, holding_byte s bs i (List.mem_range.mp hi) hs.1 hs.2.1]

/-- A save of core k, empty, that goes back to core 1; its image stands at address 0. -/
def whole (k : CoreId) : SaveImage :=
  { saved0 with from_ := k, counts := (noded .running).countBlock (Core.reset 64) }
def wholeBytes (k : CoreId) : List Byte := (noded .running).imageBytes (unitOf k) (Core.reset 64) [] false
def putBack (k : CoreId) : State :=
  holding { noded .running with md := { (noded .running).md with nodes := [{ node1 .running with image := some (whole k) }] } } (wholeBytes k)

theorem wholeBytes_length (k : CoreId) : (wholeBytes k).length = 0x69000 := imageBytes_length _ _ _ _ _ rfl

theorem putBack_image (k : CoreId) (n : Node) (h : n.persist = false) : (putBack k).imageIn loadContext n (whole k) = wholeBytes k := by
  rw [State.imageIn, h]
  exact holding_read _ _ _ (wholeBytes_length k) ⟨rfl, rfl⟩ ⟨rfl, rfl, rfl⟩

theorem putBack_header (k : CoreId) : (Core.reset 64).headerIn (unitOf k) false (wholeBytes k) =
    (Core.reset 64).imageHeader (unitOf k) false := by
  rw [Core.headerIn, readBlock]
  refine if_pos ?_
  rw [List.drop_zero, wholeBytes, State.imageBytes]
  simp only [List.append_assoc]
  exact List.take_left' (block_length _ _ _)

/-- An image of core 0 is for core 1, one of core 24 is not. -/
theorem witness_Restores :
    (∀ k, (putBack k).md.dispatching.find? (fun d => d.core = 1) = some { ctx := 0, id := 1, core := 1 } ∧
      (putBack k).node 0 1 = some { node1 .running with image := some (whole k) } ∧ (putBack k).context 0 = some loadContext) ∧
    (let h := (whole 0).core.headerIn (unitOf 0) (whole 0).incomplete ((putBack 0).imageIn loadContext (node1 .running) (whole 0))
     h.incomplete = false ∧ h.cls = 1) ∧
    (let h := (whole 24).core.headerIn (unitOf 24) (whole 24).incomplete ((putBack 24).imageIn loadContext (node1 .running) (whole 24))
     h.cls = 2) ∧ isCCore (unitOf 1) = false ∧
    (isCCore (unitOf (whole 0).from_) = isCCore (unitOf 1) ∧ (whole 0).core.inFlight.length ≤ 32 ∧
      (noded .running).countBlock (whole 0).core = (whole 0).counts ∧
      ((putBack 0).imageIn loadContext (node1 .running) (whole 0)).take 0x69000 =
        (noded .running).imageBytes (unitOf 0) (whole 0).core (whole 0).headers (whole 0).incomplete) := by
  simp only [putBack_image _ (node1 .running) rfl]
  refine ⟨fun k => ⟨rfl, rfl, rfl⟩, ?_, ?_, ?_, ?_, ?_, rfl, ?_⟩
  · exact ⟨(congrArg ImageHeader.incomplete (putBack_header 0)).trans rfl, (congrArg ImageHeader.cls (putBack_header 0)).trans rfl⟩
  · exact (congrArg ImageHeader.cls (putBack_header 24)).trans rfl
  · rfl
  · rfl
  · exact Nat.zero_le _
  · exact List.take_of_length_le (by rw [wholeBytes_length])

/-- The host has core 0's own image at address 0x4000. -/
def imaged : State :=
  { stopped with mem := placed (keyHost 0x4000) (stopped.imageBytes 0 (stopped.core 0) ((stopped.claimed 0).map fun p => (p.1, p.2.hdr)) false) }

theorem readLoc_host (s : State) (w : World) : ∀ n a, s.readLoc w (.host a) n = (List.range n).map fun i => s.rawByte (keyHost (a + i)) := by
  intro n
  induction n with
  | zero => intros; rfl
  | succ n ih =>
    intro a
    rw [State.readLoc, List.range_succ_eq_map, List.map_cons, List.map_map]
    refine congrArg₂ _ rfl ((ih (a + 1)).trans (List.map_congr_left fun i _ => ?_))
    rw [Function.comp, Nat.succ_eq_add_one, Nat.add_right_comm, Nat.add_assoc]

theorem witness_ImageWrite :
    (imaged.core 0).inFlight.length ≤ 32 ∧ stopped.countBlock (imaged.core 0) = imaged.countBlock (imaged.core 0) ∧
    imaged.readLoc 0 (.host 0x4000) 0x69000 =
      stopped.imageBytes 0 (imaged.core 0) ((imaged.claimed 0).map fun p => (p.1, p.2.hdr)) false ∧ (imaged.core 0).isStopped = true := by
  refine ⟨by decide +kernel, rfl, ?_, by decide +kernel⟩
  rw [readLoc_host]
  refine (List.map_congr_left fun i _ => ?_).trans (map_getD _ 0x69000 (imageBytes_length _ _ _ _ _ (by decide +kernel)))
  have := placed_get (stopped.imageBytes 0 (stopped.core 0) ((stopped.claimed 0).map fun p => (p.1, p.2.hdr)) false) (keyHost 0x4000) i
  exact (congrArg _ (by simp only [keyHost]; omega)).trans this

end Sys2Proof.Tests
end

/-! PROOFS. The next state of address arithmetic and of branches, from the laws of issue (Laws/Issue.lean, Laws/Trap.lean). -/

namespace Sys2Proof.Machine

/-! Address arithmetic (R324, R331): AMOV, AADD, ASUB, AAND and ASHL. -/

/-- Whatever a C32 destination is, its writes land in the executing engine alone. -/
theorem cdstWrite_onEngine (v : Dword) (d : CDst) : (cdstWrite v d).all Write.onEngine = true := by
  cases d <;> rfl

/-- A C32 instruction whose place R233 does not restrict, and whose own effect is a result of latency 1 for a C32
destination. -/
theorem exec_lands_cdst {s : State} {i : Instr} {on : State → Res} {v : Dword} {d : CDst}
    (hx : exec i s = .next (s.issueC i on)) (hon : on s = .seq (s.land1 (cdstWrite v d)))
    (hd : delaySlotFault s.me i (instrWords i) 0 = false) (r : s.Ready i none) :
    exec i s = .next (s.lands (instrWords i) none (cdstWrite v d) 0) := by
  rw [hx, State.issueC, State.issue_lands s i 0 none on on _ 0 r hd rfl (cdstWrite_onEngine v d)]
  rw [State.begins_none]
  exact hon

/-- A count of 0 to 63 multiplies by a power of two, modulo 2^64. -/
theorem ashlVal_left (x n : Dword) (h0 : 0 ≤ n.toInt) (h63 : n.toInt ≤ 63) :
    ashlVal x n = BitVec.ofNat 64 (x.toNat * 2 ^ n.toInt.toNat) := by
  rw [ashlVal, if_pos h0, if_pos h63]
  apply BitVec.eq_of_toNat_eq
  rw [BitVec.toNat_shiftLeft, Nat.shiftLeft_eq, BitVec.toNat_ofNat]

theorem ashlVal_left_out (x n : Dword) (h : 64 ≤ n.toInt) : ashlVal x n = 0 := by
  rw [ashlVal, if_pos (by omega), if_neg (by omega)]

/-- A count of -63 to -1 divides by a power of two, rounding down. -/
theorem ashlVal_right (x n : Dword) (hlo : -63 ≤ n.toInt) (hhi : n.toInt ≤ -1) :
    ashlVal x n = BitVec.ofInt 64 (x.toInt / 2 ^ (-n.toInt).toNat) := by
  rw [ashlVal, if_neg (by omega), if_pos hlo, BitVec.sshiftRight, Int.shiftRight_eq_div_pow]
  norm_cast

/-- A right shift beyond 63 leaves copies of the sign bit. -/
theorem ashlVal_right_out (x n : Dword) (h : n.toInt < -63) :
    ashlVal x n = if x.toInt < 0 then BitVec.ofNat 64 (2 ^ 64 - 1) else 0 := by
  rw [ashlVal, if_neg (by omega), if_neg (by omega), BitVec.msb_eq_toInt]
  simp only [decide_eq_true_eq]
  rfl

/-- ASHL lands its `ashlVal`, by whichever of the range lemmas above gives it. -/
theorem exec_ashl {s : State} {d : CDst} {a t : CSrc} {imm : BitVec 10} {v : Dword}
    (hv : ashlVal (s.me.csrc a) (s.me.form2 t imm) = v) (r : s.Ready (.ashl d a t imm) none) :
    exec (.ashl d a t imm) s = .next (s.lands (instrWords (.ashl d a t imm)) none (cdstWrite v d) 0) :=
  hv ▸ exec_lands_cdst rfl rfl rfl r

/-- Settles O1: each instruction's own effect is one result of latency 1, so `exec_lands_cdst` gives the next state; ASHL's
value is that of its count's range. -/
theorem addressArithmeticWritesItsResult : Obligations.AddressArithmeticWritesItsResult := by
  intro s d a t imm15 imm u x lands
  refine ⟨?amov, ?aadd, ?asub, ?aand, ?ashlLeft, ?ashlLeftOut, ?ashlRight, ?ashlRightOut⟩
  case amov => exact exec_lands_cdst rfl rfl rfl
  case aadd => exact exec_lands_cdst rfl rfl rfl
  case asub => exact exec_lands_cdst rfl rfl rfl
  case aand => exact exec_lands_cdst rfl rfl rfl
  case ashlLeft => exact fun h0 h63 => exec_ashl (ashlVal_left x u h0 h63)
  case ashlLeftOut => exact fun h => exec_ashl (ashlVal_left_out x u h)
  case ashlRight => exact fun hlo hhi => exec_ashl (ashlVal_right x u hlo hhi)
  case ashlRightOut => exact fun h => exec_ashl (ashlVal_right_out x u h)

/-! Branches (R232, R336, R337, R396): B, BC, CALL and RET. The target's alignment (R337): `takeBranch` asks for two zero bits, the statements for a multiple of 4. -/

theorem lowBits_eq_zero_iff (t : Dword) : t.extractLsb' 0 2 = 0 ↔ t.toNat % 4 = 0 := by
  rw [← BitVec.toNat_inj, BitVec.extractLsb'_toNat]
  rfl

theorem takeBranch_aligned (s : State) {t : Dword} (pops : Bool) (h : t.toNat % 4 = 0) : takeBranch s t pops = .goto s t pops :=
  if_neg fun hn => hn ((lowBits_eq_zero_iff t).mpr h)

theorem takeBranch_misaligned (s : State) {t : Dword} (pops : Bool) (h : t.toNat % 4 ≠ 0) :
    takeBranch s t pops = .trap s cAlignment t :=
  if_pos fun hz => h ((lowBits_eq_zero_iff t).mp hz)

/-! What a branch leaves, by how its own effect ends: it is taken, falls through, or traps. -/

/-- A branch that nothing of R220 stands against, and whose place R233 allows. -/
def State.BranchReady (s : State) (i : Instr) : Prop :=
  s.Ready i none ∧ delaySlotFault s.me i (instrWords i) (s.slotLen (instrWords i)) = false

section
variable {s : State} {i : Instr} {off on : State → Res}
  (hx : exec i s = .next (s.issue i (s.slotLen (instrWords i)) none false off on)) (r : s.BranchReady i)
include hx r

/-- A branch that may issue does what its own effect says. -/
theorem exec_branch : exec i s = .next ((on s).settle s.cur.1 s.cur.2 (instrWords i) 0) := by
  obtain ⟨ready, place⟩ := r
  rw [hx, State.issue_ready s i _ none off on ready place, if_pos (show s.me.guardOn none = true from rfl), State.begins_none]
  rfl

/-- To an aligned target; a B or BC (`pops`) leaves the loops whose bodies it goes out of (R236). -/
theorem exec_branch_taken {t : Dword} {pops : Bool} (hon : on s = takeBranch s t pops)
    (hs : (s.core s.cur.1).trcctl.getLsbD 1 = false) (ht : t.toNat % 4 = 0) :
    exec i s = .next (s.setEng s.cur.1 s.cur.2 (s.me.jumps (instrWords i) t
      (if pops then leaveLoops (s.loopAfter s.cur.1 s.cur.2) s.me.pc.toNat t.toNat s.me.loops else s.me.loops))) := by
  rw [exec_branch hx r, hon, takeBranch_aligned s pops ht]
  exact congrArg _ (Res.settle_goto s _ _ _ _ t pops hs r.1.quiet)

theorem exec_branch_untaken (hon : on s = .slot s) :
    exec i s = .next (s.setEng s.cur.1 s.cur.2 (s.me.falls (instrWords i))) := by
  rw [exec_branch hx r, hon]
  exact congrArg _ (Res.settle_slot s _ _ _ _ r.1.quiet)

theorem exec_branch_traps {t : Dword} (hon : on s = .trap s cAlignment t) (hm : s.me.mayTrap)
    (hp : s.cur.2 = .M → (s.core s.cur.1).mpop = []) :
    exec i s = .next (s.setEng s.cur.1 s.cur.2 (s.me.trapped (instrWords i) 0x03 t)) := by
  rw [exec_branch hx r, hon]
  exact congrArg _ (Res.settle_trap s _ _ _ _ _ hm hp r.1.quiet)

end

/-! CALL (R337): its link lands with the jump. -/

/-- The link is the address of the first word after a delay slot of m words. -/
theorem State.callLink_fetched {s : State} {n m : Nat} (h : s.lenAt s.cur.1 s.cur.2 (s.me.pc.toNat + 4 * n) = some m) :
    s.callLink n = (s.me.pc + BitVec.ofNat 64 (4 * n + 4 * m), s) := by
  rw [State.callLink, h]

section
variable {s : State} {d : BitVec 4} {a : CSrc} {o : BitVec 15} (r : s.BranchReady (.call d a o))
include r

theorem exec_call_misaligned (ht : (s.me.target a o).toNat % 4 ≠ 0) (hm : s.me.mayTrap)
    (hp : s.cur.2 = .M → (s.core s.cur.1).mpop = []) :
    exec (.call d a o) s =
      .next (s.setEng s.cur.1 s.cur.2 (s.me.trapped (instrWords (.call d a o)) 0x03 (s.me.target a o))) :=
  exec_branch_traps rfl r (if_pos fun hz => ht ((lowBits_eq_zero_iff _).mp hz)) hm hp

theorem exec_call_links {m : Nat} (hs : (s.core s.cur.1).trcctl.getLsbD 1 = false) (ht : (s.me.target a o).toNat % 4 = 0)
    (hl : s.lenAt s.cur.1 s.cur.2 (s.me.pc.toNat + 4 * instrWords (.call d a o)) = some m) :
    exec (.call d a o) s = .next (s.setEng s.cur.1 s.cur.2
      ((s.me.jumps (instrWords (.call d a o)) (s.me.target a o) s.me.loops).put
        (.a d (s.me.pc + BitVec.ofNat 64 (4 * instrWords (.call d a o) + 4 * m))))) := by
  have aligned : ¬(s.me.target a o).extractLsb' 0 2 ≠ 0 := fun hn => hn ((lowBits_eq_zero_iff _).mpr ht)
  rw [exec_branch (i := .call d a o) rfl r]
  simp only [if_neg aligned, State.callLink_fetched hl]
  exact congrArg _ (Res.settle_goto_land s _ _ _ _ _ [.a d _] rfl hs r.1.quiet)

end

/-- Settles O3: a branch's own effect is one of three, by its predicate and its target's alignment; CALL adds its link. -/
theorem branchesIssueTheirSlotThenTheTarget : Obligations.BranchesIssueTheirSlotThenTheTarget := by
  constructor
  · intro s p d a link off target back taken i n
    refine ⟨?bTaken, ?bcTaken, ?bcNotTaken, ?retTaken, ?callLinks⟩
    case bTaken => exact fun ready place => exec_branch_taken rfl ⟨ready, place⟩ rfl
    case bcTaken => exact fun hp ready place => exec_branch_taken rfl ⟨ready, place⟩ (if_pos hp)
    case bcNotTaken => exact fun hp ready place => exec_branch_taken rfl ⟨ready, place⟩ (if_neg (Bool.eq_false_iff.mp hp))
    case retTaken => exact fun ready place => exec_branch_taken rfl ⟨ready, place⟩ rfl
    case callLinks => exact fun m ready place => exec_call_links ⟨ready, place⟩
  · intro s p a link d off target ready misaligned
    refine ⟨?bcUntaken, ?bcNotUntaken, ?bMisaligned, ?bcMisaligned, ?callMisaligned, ?retMisaligned⟩
    case bcUntaken => exact fun hp r => exec_branch_untaken rfl r (if_neg (Bool.eq_false_iff.mp hp))
    case bcNotUntaken => exact fun hp r => exec_branch_untaken rfl r (if_pos hp)
    case bMisaligned => exact fun r hm hp ht => exec_branch_traps rfl r (takeBranch_misaligned s true ht) hm hp
    case bcMisaligned =>
      exact fun hq r hm hp ht => exec_branch_traps rfl r ((if_pos hq).trans (takeBranch_misaligned s true ht)) hm hp
    case callMisaligned => exact fun r hm hp ht => exec_call_misaligned r ht hm hp
    case retMisaligned => exact fun r hm hp ht => exec_branch_traps rfl r (takeBranch_misaligned s false ht) hm hp

end Sys2Proof.Machine
